-- ==== Sys2Proof/Word.lean ====
section
/-! DEFINITION. The word types of the machine (R2, R4, R8): bit vectors for what the manual treats as bits. -/

namespace Sys2Proof

/-- A 64-bit value: an s-register, a system register, an instruction word (R19, R31, R37). -/
abbrev Word := BitVec 64

/-- One byte of any space (R4, R150). -/
abbrev Byte := BitVec 8

/-- One thread's 32-bit part of a v-register (R19). -/
abbrev Lane := BitVec 32

/-- One bit for each of the wave's 64 threads (R20). -/
abbrev Mask := BitVec 64

/-- A stamp: count in [63:14], origin in [13:0] (R160). -/
abbrev Stamp := BitVec 64

/-- A 9-bit cause: class in [8:6], detail in [5:0] (R353). -/
abbrev Cause := BitVec 9

/-- WWIDTH: the threads of a wave on this part (R20). -/
def wwidth : Nat := 64

end Sys2Proof
end

