-- ==== Sys2Proof/Syntax/Fields.lean ====
section
/-! DEFINITION. The operand types of the instructions and events: what a decoded field names (R37 to R59), and what an
event of the module is given (R259, R261, R399). -/

namespace Sys2Proof

/-- The types of R42, codes 0 to 19. -/
inductive Ty where
  | s8 | s16 | s32 | s64 | n8 | n16 | n32 | n64 | b8 | b16 | b32 | b64
  | f16 | bf16 | f32 | f64 | e4m3 | e5m2 | bsi | tern
  deriving DecidableEq, Repr, Inhabited

/-- The encoding faults of class 0 (R60): why a word is not an instruction that may issue. -/
inductive EncFault where
  | badHeader | rsvField | undefOp | classMismatch | regRange | slotPos
  deriving DecidableEq, Repr, Inhabited

/-- The spaces of R43. -/
inductive Space where
  | g | sp | wb | ab | cb
  deriving DecidableEq, Repr, Inhabited

/-- The ordering scopes of R22, R43. -/
inductive Scope where
  | wv | gp | wh | vt | pk | dm
  deriving DecidableEq, Repr, Inhabited

/-- A general register operand: a v-register or an s-register (R40). -/
inductive Reg where
  | v (n : BitVec 8)
  | s (n : BitVec 6)
  deriving DecidableEq, Repr, Inhabited

/-- The guard of R39: a predicate and whether it is inverted. -/
structure Guard where
  p : BitVec 3
  neg : Bool
  deriving DecidableEq, Repr, Inhabited

/-- The completion part of a long-latency word (R37, R44, R45): lookahead 0 to 14 or 15 detached; flag 0 to 11 or 15 none. -/
structure Flag where
  la : BitVec 4
  fl : BitVec 4
  deriving DecidableEq, Repr, Inhabited

/-- The minors of `vmul` (R56, R97). -/
inductive MulMode where
  | low | hi | sat | wide
  deriving DecidableEq, Repr, Inhabited

/-- The roundings of R57. -/
inductive RoundMode where
  | rn | rz | rd | ru
  deriving DecidableEq, Repr, Inhabited

/-- The conditions of R58. -/
inductive Cond where
  | eq | ne | lt | le | gt | ge | uo | ord
  deriving DecidableEq, Repr, Inhabited

/-- The operators of `scan` and `lred` (R58). -/
inductive RedOp where
  | add | min | max | and | or | xor
  deriving DecidableEq, Repr, Inhabited

/-- The operators of `atom` and `atomn` (R58). -/
inductive AtomOp where
  | add | min | max | and | or | xor | exch | cas
  deriving DecidableEq, Repr, Inhabited

/-- The b operand of `vcmp`: a register or the 21-bit immediate (R52, format VC). -/
inductive CmpArg where
  | reg (r : Reg)
  | imm (i : BitVec 21)
  deriving DecidableEq, Repr, Inhabited

/-- The b operand of a shuffle: a register read per thread or an 8-bit immediate (R52, format XL). -/
inductive ShflArg where
  | reg (r : Reg)
  | imm (i : BitVec 8)
  deriving DecidableEq, Repr, Inhabited

/-- The operand of a barrier instruction (R304). -/
inductive BarArg where
  | imm (i : BitVec 23)
  | reg (s : BitVec 6)
  deriving DecidableEq, Repr, Inhabited

/-- The value of `tlwait` and `tlset` (R307, R341). -/
inductive TlArg where
  | imm (i : BitVec 36)
  | reg (s : BitVec 6)
  deriving DecidableEq, Repr, Inhabited

/-- Which entity: the group's number in the machine's list, the wave's position in its gang, the entity in its wave. -/
structure Actor where
  g : Nat
  w : Nat
  e : Nat
  deriving DecidableEq, Repr, Inhabited

/-- What `WHEY_RETRY` retries (R173): a held request, or the reservation of a committing region. -/
inductive HeldRef where
  | req (id : Nat)
  | region (slot : Nat)
  deriving DecidableEq, Repr, Inhabited

/-- A 64-byte submission entry of the mailbox (R259), byte 0 in bits [7:0]. -/
abbrev SubEntry := BitVec 512

/-- The modes the host link trains to (R256). -/
inductive LinkMode where
  | cxl31 | cxl20 | cxl11 | pcie6 | pcie5 | pcie4
  deriving DecidableEq, Repr, Inhabited

/-- What IDE protects in a link mode (R256): CXL.io, .cache and .mem in containment mode; CXL.cache and .mem; PCIe IDE. -/
inductive Ide where
  | containment | cacheMem | pcie
  deriving DecidableEq, Repr, Inhabited

/-- The IDE column of R256. -/
def LinkMode.ide : LinkMode → Option Ide
  | .cxl31 => some .containment
  | .cxl20 => some .cacheMem
  | .pcie6 | .pcie5 => some .pcie
  | .cxl11 | .pcie4 => none

/-- A broadcast of the side notification network (R209, R264). -/
inductive Broadcast where
  | horizon (stack : Nat) (h : Stamp)
  | abort (slot : Nat)
  deriving DecidableEq, Repr, Inhabited

/-- A message between the fabric interfaces of two modules, as far as the manual gives it a meaning at this module (R240, R261,
R262, R265). It goes as one numbered unit, in as many flits as its bytes need (log 95). -/
inductive Payload where
  /-- reads at DPAs of this module, by a context: the request's number, its agent's there (R152), and the requester's causal stamp -/
  | readReq (tag stream : Nat) (ctx : BitVec 12) (items : List (BitVec 52 × Nat)) (carried : Stamp)
  | asofReq (tag stream : Nat) (ctx : BitVec 12) (items : List (BitVec 52 × Nat)) (t : Stamp) (carried : Stamp)
  | writeReq (tag stream : Nat) (ctx : BitVec 12) (items : List (BitVec 52 × List Byte)) (carried : Stamp)
  | atomReq (core : BitVec 8) (seq : BitVec 32) (stream : Nat) (ctx : BitVec 12) (dpa : BitVec 52) (op : AtomOp) (ty : Ty)
      (x : Word) (cmp : Word) (carried : Stamp)
  /-- a change of the attributes of a page of this module (R344), asked through a 512 MiB leaf or not; it is answered with one byte, 1
  where the change has been made -/
  | attrReq (tag stream : Nat) (ctx : BitVec 12) (dpa : BitVec 52) (attrs : Word) (big : Bool) (carried : Stamp)
  /-- the source has the answer of its atomic: its duplicate entry retires (R240) -/
  | atomAck (core : BitVec 8) (seq : BitVec 32)
  /-- an answer to items of a request of this module: the data of each, and the version stamp; or the refusal of one -/
  | answer (req : Nat) (data : List (Nat × List Byte)) (stamp : Stamp)
  | refusal (req item : Nat) (cause : Cause)
  /-- a hold placement or drop for a context, and the answer to one this module asked for (R244, R245) -/
  | holdReq (tag : Nat) (ctx : BitVec 12) (t : Stamp)
  | holdDrop (ctx : BitVec 12) (slot : BitVec 4)
  /-- a hold of a context revoked by system software elsewhere in the domain (R343) -/
  | holdRevoke (ctx : BitVec 12) (slot : BitVec 4)
  | holdAnswer (a : Actor) (id : Word) (cause : Cause)
  /-- another participant's collective command and its send buffer (R265) -/
  | collective (words : List Word) (data : List Byte)
  /-- a COLLECTIVE command of a group of the receiving module, which the host has posted to the sender; and its completion (R265) -/
  | participate (e : SubEntry)
  | participated (tag : BitVec 16) (status : Cause)
  /-- the largest count announced in a round by another module's slices, and the broadcasts its interfaces placed in the
  round, by source number (R165, R264) -/
  | announce (count : BitVec 50) (bcasts : List (Nat × Broadcast))
  /-- the sender's interfaces have closed their round (R264) -/
  | closed
  deriving DecidableEq, Repr, Inhabited

/-- A numbered unit between the fabric interfaces of two modules (R261, R262). -/
structure Flit where
  src : BitVec 8
  dst : BitVec 8
  seq : BitVec 32
  /-- the sequence the sender has accepted in the other direction -/
  ack : BitVec 32
  body : Payload
  deriving DecidableEq, Repr, Inhabited

/-- What `print` reads (R399, R402, R409): a v-register in the threads listed, an s-, p- or b-register, a completion flag's count (R44),
a handle of the group (R122), or a system register. -/
inductive DebugReg where
  | v (n : BitVec 8) (threads : List (BitVec 6))
  | s (n : BitVec 6)
  | p (n : BitVec 3)
  | b (n : BitVec 4)
  | f (n : BitVec 4)
  | h (n : BitVec 6)
  | sys (n : BitVec 12)
  deriving DecidableEq, Repr, Inhabited

/-- The requests of `mbd` through the control core (R399, R402, R409, R413, R360). -/
inductive DebugReq where
  | attach | detach
  /-- R399 `load`: a new context with its pages: (virtual page, DPA of its page, granule, V, R, W, X) and bytes at DPAs -/
  | load (ctx : BitVec 12) (sys : Bool) (root : BitVec 52) (owned : List (BitVec 52)) (bytes : List (BitVec 52 × Byte))
  | launch (ctx : BitVec 12) (tag : BitVec 16) (block : Word) (groups : Option (BitVec 16 × BitVec 16 × BitVec 16))
  | breakAt (ctx : BitVec 12) (addr : Word) (wave : Option Nat) (group : Option (BitVec 32))
  | delete (ctx : BitVec 12) (addr : Word)
  | khold (core : BitVec 8) (step : Nat)
  | continueAll
  | continueWave (w : Nat)
  /-- `print`, and `print wave` (R402) -/
  | readReg (a : Actor) (wave : Bool) (reg : DebugReg)
  | readSpace (group : BitVec 32) (sp : Space) (off : BitVec 64) (n : Nat)
  | writeMem (ctx : BitVec 12) (addr : Word) (val : BitVec 32)
  | preempt (group : BitVec 32)
  | resume (group : BitVec 32)
  | replay (a : Actor)
  | resumeAt (a : Actor) (hdr : Word)
  | endFault (a : Actor)
  | unmap (ctx : BitVec 12) (addr : Word)
  | map (ctx : BitVec 12) (addr : Word)
  | readMem (ctx : BitVec 12) (addr : Word) (n : Nat)
  /-- `sq`, and `sq wave` (R402) -/
  | storeQueue (g w : Nat) (wave : Bool)
  | matrixQueue (core : Nat)
  | timelines (group : BitVec 32)
  | image (group : BitVec 32)
  | history (ctx : BitVec 12) (addr : Word)
  | unit
  | deque (core : Nat)
  /-- a word that `sys.dgrd` would read (R330, R348) -/
  | dgWord (sel : Word)
  /-- the records of a stack's Whey, the Rind words of a device page, and the control core's own state (R330) -/
  | whey (stack : Nat)
  | rind (page : Nat)
  | control
  deriving DecidableEq, Repr, Inhabited

end Sys2Proof
end

