-- ==== Sys2Proof/Syntax.lean ====
section
/-! DEFINITION. `Instr`: one constructor for each of the 206 rows of spec/opcode_table.json: the instruction forms of
the five engine classes (R56), then the events of the module (R15x to R4xx, the rule of each row beside it). -/

namespace Sys2Proof

/-- An instruction or event of the Krybex Q-1600. Register fields that are always s-registers are 6 bits. -/
inductive Instr where
  -- class 0: arithmetic (R96 to R99)
  | vadd (g : Guard) (sat : Bool) (ty : Ty) (d a b : Reg)
  | vaddImm (g : Guard) (ty : Ty) (d a : Reg) (imm : BitVec 21)
  | vsub (g : Guard) (sat : Bool) (ty : Ty) (d a b : Reg)
  | vsubImm (g : Guard) (ty : Ty) (d a : Reg) (imm : BitVec 21)
  | vmul (g : Guard) (mode : MulMode) (ty : Ty) (d a b : Reg)
  | vmulImm (g : Guard) (ty : Ty) (d a : Reg) (imm : BitVec 21)
  | vmin (g : Guard) (ty : Ty) (d a b : Reg)
  | vminImm (g : Guard) (ty : Ty) (d a : Reg) (imm : BitVec 21)
  | vmax (g : Guard) (ty : Ty) (d a b : Reg)
  | vmaxImm (g : Guard) (ty : Ty) (d a : Reg) (imm : BitVec 21)
  | vfma (g : Guard) (ty : Ty) (d a b c : Reg)
  | vdiv (g : Guard) (f : Flag) (ty : Ty) (d a b : Reg)
  | vsqrt (g : Guard) (f : Flag) (ty : Ty) (d a : Reg)
  | vsfRcp (g : Guard) (f : Flag) (d a : Reg)
  | vsfRsqrt (g : Guard) (f : Flag) (d a : Reg)
  | vsfExp2 (g : Guard) (f : Flag) (d a : Reg)
  | vsfLog2 (g : Guard) (f : Flag) (d a : Reg)
  | vsfSinpi (g : Guard) (f : Flag) (d a : Reg)
  | vsfCospi (g : Guard) (f : Flag) (d a : Reg)
  | vsfTanh (g : Guard) (f : Flag) (d a : Reg)
  | vcvt (g : Guard) (sat : Bool) (rm : RoundMode) (dty sty : Ty) (d a : Reg)
  -- class 0: bits, moves, compares (R101 to R107)
  | vand (g : Guard) (ty : Ty) (d a b : Reg)
  | vandImm (g : Guard) (ty : Ty) (d a : Reg) (imm : BitVec 21)
  | vor (g : Guard) (ty : Ty) (d a b : Reg)
  | vorImm (g : Guard) (ty : Ty) (d a : Reg) (imm : BitVec 21)
  | vxor (g : Guard) (ty : Ty) (d a b : Reg)
  | vxorImm (g : Guard) (ty : Ty) (d a : Reg) (imm : BitVec 21)
  | vshl (g : Guard) (ty : Ty) (d a b : Reg)
  | vshlImm (g : Guard) (ty : Ty) (d a : Reg) (imm : BitVec 21)
  | vshr (g : Guard) (ty : Ty) (d a b : Reg)
  | vshrImm (g : Guard) (ty : Ty) (d a : Reg) (imm : BitVec 21)
  | vbitPopc (g : Guard) (ty : Ty) (d a : Reg)
  | vbitClz (g : Guard) (ty : Ty) (d a : Reg)
  | vbitCtz (g : Guard) (ty : Ty) (d a : Reg)
  | vbitRev (g : Guard) (ty : Ty) (d a : Reg)
  | vsel (g : Guard) (ty : Ty) (d a b : Reg) (pk : BitVec 3)
  | vcmp (g : Guard) (uni : Bool) (cond : Cond) (ty : Ty) (pd : BitVec 3) (a : Reg) (b : CmpArg)
  | vpredAnd (g : Guard) (pd pa pb : BitVec 3)
  | vpredOr (g : Guard) (pd pa pb : BitVec 3)
  | vpredXor (g : Guard) (pd pa pb : BitVec 3)
  | vpredNot (g : Guard) (pd pa : BitVec 3)
  | vpredMov (g : Guard) (pd pa : BitVec 3)
  | vmov (g : Guard) (ty : Ty) (d a : Reg)
  | vmovImm (g : Guard) (ty : Ty) (d : Reg) (imm : BitVec 21)
  -- class 0: cross-lane (R108 to R114)
  | shflIdx (g : Guard) (z rel : Bool) (ty : Ty) (d a : BitVec 8) (b : ShflArg)
  | shflRel (g : Guard) (z rel : Bool) (ty : Ty) (d a : BitVec 8) (b : ShflArg)
  | scan (g : Guard) (op : RedOp) (excl : Bool) (ty : Ty) (d a : BitVec 8)
  | lred (g : Guard) (op : RedOp) (ty : Ty) (d a : BitVec 8)
  | voteAll (g : Guard) (pd pa : BitVec 3)
  | voteAny (g : Guard) (pd pa : BitVec 3)
  | voteBallot (g : Guard) (d : BitVec 8) (pa : BitVec 3) (k : BitVec 8)
  -- class 1: memory, atomics, stamps, regions (R227 to R255)
  | ld (g : Guard) (f : Flag) (sp : Space) (ty : Ty) (d : Reg) (win : BitVec 4) (off : Option Reg)
  | st (g : Guard) (sp : Space) (ty : Ty) (win : BitVec 4) (off : Option Reg) (a : Reg)
  | ldAsof (g : Guard) (f : Flag) (ty : Ty) (d : Reg) (win : BitVec 4) (off : Option Reg) (t : BitVec 6)
  | atomG (g : Guard) (f : Flag) (op : AtomOp) (sc : Scope) (prm : Bool) (ty : Ty) (d a : Reg) (win : BitVec 4) (off : Option Reg)
  | atomSp (g : Guard) (f : Flag) (op : AtomOp) (sc : Scope) (prm : Bool) (ty : Ty) (d a : Reg) (off : Option Reg)
  | atomnG (g : Guard) (f : Flag) (op : AtomOp) (sc : Scope) (ty : Ty) (a : Reg) (win : BitVec 4) (off : Option Reg)
  | atomnSp (g : Guard) (f : Flag) (op : AtomOp) (sc : Scope) (ty : Ty) (a : Reg) (off : Option Reg)
  | fenceAcq (g : Guard) (sc : Scope) (prm : Bool)
  | fenceRel (g : Guard) (sc : Scope)
  | fenceAr (g : Guard) (sc : Scope) (prm : Bool)
  | win (g : Guard) (bd : BitVec 4) (sa : BitVec 6) (limit : BitVec 32)
  | winReg (g : Guard) (bd : BitVec 4) (sa sb : BitVec 6)
  | stmpGet (g : Guard) (sd : BitVec 6)
  | stmpHold (g : Guard) (sd sa : BitVec 6)
  | stmpHoldDm (g : Guard) (sd sa sc : BitVec 6)
  | stmpDrop (g : Guard) (sa : BitVec 6)
  | xbeg (smask : BitVec 16) (vmask : BitVec 32) (sc : BitVec 6) (fallback : BitVec 32)
  | xend (g : Guard) (fl : BitVec 4)
  | xabt (g : Guard) (sa : BitVec 6)
  | xstat (g : Guard) (sd : BitVec 6)
  -- class 2: tensors, engines, tasks (R116 to R147)
  | hset (g : Guard) (hd : BitVec 6) (idx : BitVec 16)
  | hget (g : Guard) (hd : BitVec 6) (idx : BitVec 16)
  | mma (g : Guard) (f : Flag) (hc ha hw : BitVec 6)
  | mmaInit (g : Guard) (f : Flag) (hc ha hw : BitVec 6)
  | mmaTern (g : Guard) (f : Flag) (hc ha hw : BitVec 6)
  | mmaTernInit (g : Guard) (f : Flag) (hc ha hw : BitVec 6)
  | mmaWh (g : Guard) (f : Flag) (hc ha hw : BitVec 6)
  | mmaWhInit (g : Guard) (f : Flag) (hc ha hw : BitVec 6)
  | tcopy (g : Guard) (f : Flag) (tr rb mc : Bool) (hd ha : BitVec 6) (bar : Option (BitVec 16))
  | tgather (g : Guard) (f : Flag) (hd ha hx : BitVec 6) (bar : Option (BitVec 16))
  | tscatter (g : Guard) (f : Flag) (hd ha hx : BitVec 6) (bar : Option (BitVec 16))
  | taskPush (g : Guard) (f : Flag) (sa : BitVec 6)
  | taskPushWave (g : Guard) (f : Flag) (sa sb : BitVec 6)
  -- class 3: control and synchronisation (R295 to R314)
  | br (g : Guard) (off : BitVec 24)
  | brc (pn : BitVec 3) (neg : Bool) (off tok : BitVec 19)
  | join
  | exit (g : Guard)
  | launch (g : Guard) (f : Flag) (sd sa : BitVec 6)
  | rgn (smask : BitVec 16) (vmask : BitVec 32)
  | barInit (g : Guard) (idx : BitVec 16) (n : BarArg)
  | barInitBytes (g : Guard) (idx : BitVec 16) (n : BarArg)
  | barExpect (g : Guard) (idx : BitVec 16) (n : BarArg)
  | barArrive (g : Guard) (idx : BitVec 16) (n : BarArg)
  | barWait (g : Guard) (idx : BitVec 16) (p : BarArg)
  | barArw (g : Guard) (idx : BitVec 16) (n : BarArg)
  | tlwait (g : Guard) (tl : BitVec 3) (sc : Scope) (n : TlArg)
  | tlread (g : Guard) (sd : BitVec 6) (tl : BitVec 3)
  | dqPush (g : Guard) (f : Flag) (sa : BitVec 6)
  | dqPop (g : Guard) (f : Flag) (sd : BitVec 6)
  | dqSteal (g : Guard) (f : Flag) (sd sa : BitVec 6)
  | msgSend (g : Guard) (f : Flag) (sd sa sb : BitVec 6)
  | ringWait (g : Guard) (sd sa : BitVec 6)
  | ringTake (g : Guard) (sd sa : BitVec 6)
  | yield (g : Guard)
  | qend (g : Guard)
  -- class 4: system (R335 to R350)
  | sysRd (g : Guard) (sd : BitVec 6) (reg : BitVec 12)
  | sysWr (g : Guard) (reg : BitVec 12) (sa : BitVec 6)
  | cstampWrite (g : Guard) (sa : BitVec 6)
  | bufreqWrite (g : Guard) (sa : BitVec 6)
  | ringdescWrite (g : Guard) (k : BitVec 3) (sa : BitVec 6)
  | turnrptRead (g : Guard) (sd : BitVec 6) (n : BitVec 4)
  | trap (g : Guard) (n : BitVec 6)
  | tret (g : Guard)
  | tlset (g : Guard) (tl : BitVec 3) (v : TlArg)
  | sysCtxsave (g : Guard) (f : Flag) (sd sa : BitVec 6)
  | sysCtxload (g : Guard) (f : Flag) (sd sa : BitVec 6)
  | sysHadv (g : Guard) (sa sb : BitVec 6)
  | sysWsize (g : Guard) (sa sb : BitVec 6)
  | sysHrevoke (g : Guard) (sa sb : BitVec 6)
  | sysPgattr (g : Guard) (f : Flag) (sa sb : BitVec 6)
  | sysTlbinv (g : Guard) (f : Flag) (sa sb : BitVec 6)
  | sysWininv (g : Guard) (f : Flag) (sa sb : BitVec 6)
  | sysL1inv (g : Guard) (f : Flag)
  | sysL1wb (g : Guard) (f : Flag)
  | sysSlwb (g : Guard) (f : Flag) (sa sb : BitVec 6)
  | sysSlinv (g : Guard) (f : Flag) (sa sb : BitVec 6)
  | sysBrk (g : Guard) (n : BitVec 12)
  | sysDbgrd (g : Guard) (sd : BitVec 6)
  | sysDgrd (g : Guard) (sd sa : BitVec 6)
  -- events of the cores and slices
  | selection (core : Nat)
  | longLatencyCompletion (g w op : Nat)
  | sliceLoadRequest (req : Nat)
  | sliceCommit (req : Nat)
  | sliceAtomic (req : Nat)
  | contentionDecay (gran : Nat)
  | asofRead (req : Nat)
  | heldRequestRelease (req : Nat)
  | wheyRetry (h : HeldRef)
  | holdRevocation (stack : Nat)
  | horizonLagReclaim (stack : Nat)
  | ageSweep (slice : Nat)
  | regionAccess (req : Nat)
  | abortDelivery (g w : Nat)
  | xbegServe
  | regionCommit (slot : Nat)
  | roundClose
  -- events of the engines and tasks
  | landing (cmd piece : Nat)
  | matrixKstep (cmd : Nat)
  | engineCommandCompletion (cmd : Nat)
  | copyPageResume (cmd : Nat)
  | fmtAbsentEmulation (cmd piece : Nat)
  | matrixTaskStart (task : Nat)
  | waveTaskPlace (task : Nat)
  | taskDone (task : Nat)
  | taskNoArea (die : Nat)
  | msgDeliver (g w op : Nat)
  | bufreqGrant (core : Nat) (sp : Space)
  -- dispatch, boundaries, recovery, Turner
  | dispatchBatch
  | groupPlacement (die : Nat)
  | groupFreed (g : Nat)
  | quantumBoundary (launch : Nat)
  | faultReplay (a : Actor)
  | causeRecordDrain
  | turnerPeriodEnd (stack : Nat)
  | turnerMigration (stack : Nat)
  -- the mailbox
  | launchCmd (e : SubEntry)
  | collective (e : SubEntry)
  | power (e : SubEntry)
  | resync (e : SubEntry)
  | contextEnd (e : SubEntry)
  | unknownMailboxCommand (e : SubEntry)
  | sqtail (v : Word)
  | cqhead (v : Word)
  | mbxctlEnable
  | mbxctlDrain
  | mailboxRegisterWrite (bar4 : Bool) (off : Nat) (v : Word)
  | fwgo (v : Word)
  | dbgreq (v : Word) (token : List Byte)
  | hostRead (addr n : Nat)
  | hostWrite (addr : Nat) (data : List Byte)
  -- SPDM (R329)
  | getVersion
  | getCapabilities
  | negotiateAlgorithms (sig hash kex aead : Nat)
  | getDigests
  | getCertificate (slot : Nat) (off len : Nat)
  | challenge (slot : Nat) (nonce : List Byte)
  | getMeasurements (idx : Nat) (nonce : List Byte)
  | keyExchange (exchange : List Byte)
  | finish (verify : List Byte)
  | keyUpdate
  | endSession
  | spdmUnsupported (code : Nat)
  -- fabric, physical triggers, resets, debugger, configuration
  | flitReceive (f : Flit)
  | flitRetransmit (dst : BitVec 8)
  | portFail (port : Nat)
  | thermalTrip
  | machineFault
  | warmReset
  | coldReset
  | resetComplete (mode : LinkMode)
  | debugAccess (r : DebugReq)
  | domainConfiguration (index : BitVec 8) (routes : List (BitVec 8 × List Nat))
  | provisioning
  | fabricLinkTrained (port : Nat)
  | backInvalidationResponse (line : Nat)
  deriving DecidableEq, Repr, Inhabited

/-- Who moves next: an entity issues its next instruction word, the mailbox starts its next submission entry, or an
event of the module happens. -/
inductive Turn where
  | issue (a : Actor)
  | mailbox
  | event (i : Instr)
  deriving DecidableEq, Repr, Inhabited

end Sys2Proof
end

