-- ==== Sys2Proof/Config.lean ====
section
/-! DEFINITION. What an implementation fixes and the manual leaves open: the free values. None has a body, so nothing is
known of any of them; a claim holds whatever they are. -/

namespace Sys2Proof.Config

/-- The turn that is taken when the agenda is empty, by the tick: R152, R190 and R274 fix no order between agents
(DESIGN CHOICE, log 1). -/
opaque schedule : Nat → Turn

/-- A choice between two allowed outcomes, by the tick and a number that tells the choices of one step apart: whether a
racing register read returns the new value or a racing write stands (R48, R91, log 3), whether a cached line or
translation is still held (R153, R321, log 8), whether a modified line had reached media (R346, log 11). -/
opaque pick : Nat → Nat → Bool

/-- A value the manual leaves open, by the tick and a number that tells the values of one step apart (log 21). -/
opaque freeValue : Nat → Nat → Word

/-- The binary32 result of a special function whose exact value the model's enclosure does not separate from a rounding
boundary, by the function's minor and the operand (R81, log 12). -/
opaque hardCase : Nat → BitVec 32 → BitVec 32

/-- The SHA-256 digest of a byte string (R328, log 10). -/
opaque sha256 : List Byte → List Byte

/-- The identity key's ECDSA P-256 signature of a byte string (R327, log 10). -/
opaque sign : List Byte → List Byte

/-- The fused device certificate chain (R327, log 10). -/
opaque certChain : List Byte

/-- Whether the signature of a firmware image verifies under the fused Swithen key (R328, log 10). -/
opaque imageVerifies : List Byte → Bool

/-- The security version that a firmware image carries (R328, log 10). -/
opaque imageVersion : List Byte → Nat

/-- Whether an unlock token is Swithen's signature over the certificate chain and a nonce (R330, log 10). -/
opaque tokenVerifies : List Byte → List Byte → Bool

/-- The nonce the security block gives, by the tick (R330, log 10). -/
opaque nonce : Nat → List Byte

/-- The responder's side of a key exchange, and the session secret from both sides, by the tick (R329, log 10). -/
opaque exchange : Nat → List Byte → List Byte

/-- Whether a FINISH message's verification data matches the session secret (R329, log 10). -/
opaque finishVerifies : List Byte → List Byte → Bool

/-- The IDE keys that are programmed inside a session, by the tick, where any are (R256, R329, log 28). -/
opaque ideKeys : Nat → Option (List Byte)

/-- Why another module refuses to give a word of its memory: the reasons of R228 that an aligned read of memory can meet. -/
inductive FarReason where
  | notPresent | permission | bound | uncorrectable
  deriving DecidableEq, Repr, Inhabited

/-- The code of such a reason (R228). -/
def FarReason.code : FarReason → Nat
  | .notPresent => 0
  | .permission => 1
  | .bound => 2
  | .uncorrectable => 5

/-- An instruction word that lies in another module's memory, by the tick and its DPA: not answered yet, the word, or the
reason of a refusal (R227, R261, log 16). -/
opaque farWord : Nat → Nat → Option (Except FarReason Word)

/-- A page-table entry that lies in another module's memory, by the tick and its DPA: none where its code is uncorrectable
there (R319, R355, log 14). -/
opaque farPte : Nat → Nat → Option Word

/-- The bytes of the boot ROM and of the firmware image in place at first boot (R328, log 10). -/
opaque bootRom : List Byte
opaque firstImage : List Byte

end Sys2Proof.Config
end

