-- ==== Sys2Proof/Machine/Types.lean ====
section
/-! DEFINITION. The types of R42 (codes, widths, kinds), the shared minor tables of R58, and which types each
instruction accepts (R96 to R114, R231, R236). -/

namespace Sys2Proof

/-- The type of a code (R42); codes 20 to 31 name none. -/
def Ty.ofCode (c : BitVec 5) : Option Ty :=
  match c.toNat with
  | 0 => some .s8 | 1 => some .s16 | 2 => some .s32 | 3 => some .s64
  | 4 => some .n8 | 5 => some .n16 | 6 => some .n32 | 7 => some .n64
  | 8 => some .b8 | 9 => some .b16 | 10 => some .b32 | 11 => some .b64
  | 12 => some .f16 | 13 => some .bf16 | 14 => some .f32 | 15 => some .f64
  | 16 => some .e4m3 | 17 => some .e5m2 | 18 => some .bsi | 19 => some .tern
  | _ => none

/-- The code of a type (R42). -/
def Ty.code : Ty → BitVec 5
  | .s8 => 0 | .s16 => 1 | .s32 => 2 | .s64 => 3
  | .n8 => 4 | .n16 => 5 | .n32 => 6 | .n64 => 7
  | .b8 => 8 | .b16 => 9 | .b32 => 10 | .b64 => 11
  | .f16 => 12 | .bf16 => 13 | .f32 => 14 | .f64 => 15
  | .e4m3 => 16 | .e5m2 => 17 | .bsi => 18 | .tern => 19

/-- The width in bits of a value of the type; `.bsi` and `.tern` are storage formats and have none. -/
def Ty.width : Ty → Nat
  | .s8 | .n8 | .b8 | .e4m3 | .e5m2 => 8
  | .s16 | .n16 | .b16 | .f16 | .bf16 => 16
  | .s32 | .n32 | .b32 | .f32 => 32
  | .s64 | .n64 | .b64 | .f64 => 64
  | .bsi | .tern => 0

/-- The width in bytes. -/
def Ty.bytes (t : Ty) : Nat := t.width / 8

/-- The signed integers. -/
def Ty.isS : Ty → Bool
  | .s8 | .s16 | .s32 | .s64 => true
  | _ => false

/-- The unsigned integers. -/
def Ty.isN : Ty → Bool
  | .n8 | .n16 | .n32 | .n64 => true
  | _ => false

/-- The bit types. -/
def Ty.isB : Ty → Bool
  | .b8 | .b16 | .b32 | .b64 => true
  | _ => false

/-- The floating formats. -/
def Ty.isFloat : Ty → Bool
  | .f16 | .bf16 | .f32 | .f64 | .e4m3 | .e5m2 => true
  | _ => false

/-- `.s` or `.n`. -/
def Ty.isInt (t : Ty) : Bool := t.isS || t.isN

/-- `.f32` or `.f64`, the floating types of the arithmetic instructions (R96). -/
def Ty.isF (t : Ty) : Bool := t == .f32 || t == .f64

/-- A 64-bit value occupies an even-odd pair of v-registers (R40). -/
def Ty.wide (t : Ty) : Bool := t.width == 64

/-- The codes of the 64-bit types (R42), for the check of R40 before the type itself is checked (R62). -/
def wideCode (c : BitVec 5) : Bool := c == 3 || c == 7 || c == 11 || c == 15

/-- Integers of either sign, `.f32`, `.f64` (R96, R98, R99, R100). -/
def accArith (t : Ty) : Bool := t.isInt || t.isF

/-- Integers and bit types (R102, R103 VI). -/
def accIntBit (t : Ty) : Bool := t.isInt || t.isB

/-- Type codes 0 to 17 (R103, R231). -/
def accMove (t : Ty) : Bool := t != .bsi && t != .tern

/-- `vmul.wide`: integers of 8, 16 and 32 bits (R96). -/
def accWide (t : Ty) : Bool := t.isInt && t.width != 64

/-- The types of `vmul` by minor (R96). -/
def accMul : MulMode → Ty → Bool
  | .low, t => accArith t
  | .hi, t => t.isInt
  | .sat, t => t.isInt
  | .wide, t => accWide t

/-- The formats `vcvt` converts between (R72): integers and the six floating formats. -/
def accCvt (t : Ty) : Bool := t.isInt || t.isFloat

/-- `vcmp` (R106): the immediate form takes integer and bit types, `.uo` and `.ord` floating types only. -/
def accCmp (c : Cond) (imm : Bool) (t : Ty) : Bool :=
  if c == .uo || c == .ord then t.isF && !imm
  else accIntBit t || (t.isF && !imm)

/-- `.b32` and `.b64`: the shuffles (R108) and the bitwise reductions (R113). -/
def accBit32 (t : Ty) : Bool := t == .b32 || t == .b64

/-- `.s32`, `.s64`, `.n32`, `.n64`, `.f32`, `.f64` (R113, R236). -/
def accRed32 (t : Ty) : Bool :=
  t == .s32 || t == .s64 || t == .n32 || t == .n64 || t == .f32 || t == .f64

/-- The pairings of `scan` and `lred` (R113). -/
def accRed : RedOp → Ty → Bool
  | .add, t | .min, t | .max, t => accRed32 t
  | .and, t | .or, t | .xor, t => accBit32 t

/-- The pairings of the atomics (R236). -/
def accAtom : AtomOp → Ty → Bool
  | .add, t | .min, t | .max, t => accRed32 t
  | .and, t | .or, t | .xor, t | .exch, t | .cas, t => accBit32 t

/-- The reduction operators by minor (R58). -/
def RedOp.ofMinor (m : BitVec 4) : Option RedOp :=
  match m.toNat with
  | 0 => some .add | 1 => some .min | 2 => some .max | 3 => some .and | 4 => some .or | 5 => some .xor
  | _ => none

/-- The minor of a reduction operator (R58). -/
def RedOp.minor : RedOp → BitVec 4
  | .add => 0 | .min => 1 | .max => 2 | .and => 3 | .or => 4 | .xor => 5

/-- The atomic operators by minor (R58). -/
def AtomOp.ofMinor (m : BitVec 4) : Option AtomOp :=
  match m.toNat with
  | 0 => some .add | 1 => some .min | 2 => some .max | 3 => some .and | 4 => some .or | 5 => some .xor
  | 6 => some .exch | 7 => some .cas
  | _ => none

/-- The minor of an atomic operator (R58). -/
def AtomOp.minor : AtomOp → BitVec 4
  | .add => 0 | .min => 1 | .max => 2 | .and => 3 | .or => 4 | .xor => 5 | .exch => 6 | .cas => 7

/-- The conditions of `vcmp` (R58); 8 to 15 name none. -/
def Cond.ofCode (c : BitVec 4) : Option Cond :=
  match c.toNat with
  | 0 => some .eq | 1 => some .ne | 2 => some .lt | 3 => some .le | 4 => some .gt | 5 => some .ge
  | 6 => some .uo | 7 => some .ord
  | _ => none

/-- The code of a condition (R58). -/
def Cond.code : Cond → BitVec 4
  | .eq => 0 | .ne => 1 | .lt => 2 | .le => 3 | .gt => 4 | .ge => 5 | .uo => 6 | .ord => 7

/-- The spaces (R43); 5 to 7 name none. -/
def Space.ofCode (c : BitVec 3) : Option Space :=
  match c.toNat with
  | 0 => some .g | 1 => some .sp | 2 => some .wb | 3 => some .ab | 4 => some .cb
  | _ => none

/-- The code of a space (R43). -/
def Space.code : Space → BitVec 3
  | .g => 0 | .sp => 1 | .wb => 2 | .ab => 3 | .cb => 4

/-- The scopes (R43); 6 and 7 name none. -/
def Scope.ofCode (c : BitVec 3) : Option Scope :=
  match c.toNat with
  | 0 => some .wv | 1 => some .gp | 2 => some .wh | 3 => some .vt | 4 => some .pk | 5 => some .dm
  | _ => none

/-- The code of a scope (R43). -/
def Scope.code : Scope → BitVec 3
  | .wv => 0 | .gp => 1 | .wh => 2 | .vt => 3 | .pk => 4 | .dm => 5

/-- The roundings of `vcvt` (R57); 4 to 7 name none. -/
def RoundMode.ofCode (c : BitVec 3) : Option RoundMode :=
  match c.toNat with
  | 0 => some .rn | 1 => some .rz | 2 => some .rd | 3 => some .ru
  | _ => none

/-- The code of a rounding (R57). -/
def RoundMode.code : RoundMode → BitVec 3
  | .rn => 0 | .rz => 1 | .rd => 2 | .ru => 3

/-- The minors of `vmul` (R56). -/
def MulMode.ofMinor (m : BitVec 3) : Option MulMode :=
  match m.toNat with
  | 0 => some .low | 1 => some .hi | 2 => some .sat | 3 => some .wide
  | _ => none

/-- The minor of a `vmul` form (R56). -/
def MulMode.minor : MulMode → BitVec 3
  | .low => 0 | .hi => 1 | .sat => 2 | .wide => 3

/-- A v-register number is odd. -/
def oddNum (n : BitVec 8) : Bool := n.getLsbD 0

/-- The register is an s-register. -/
def Reg.isS : Reg → Bool
  | .s _ => true
  | .v _ => false

/-- The 8-bit number of a register field (R40). -/
def Reg.num : Reg → BitVec 8
  | .v n => n
  | .s n => n.setWidth 8

/-- A register operand agrees with the uniform bit, and with the pair rule for a 64-bit type (R40, R41). -/
def regOk (uni wide : Bool) : Reg → Bool
  | .v n => !uni && !(wide && oddNum n)
  | .s _ => true

end Sys2Proof
end

