-- ==== Sys2Proof/Machine/Stamp.lean ====
section
/-! DEFINITION. Stamps (R86, R160), device-physical addresses and home slices (R87), and small bit helpers. -/

namespace Sys2Proof.Machine

open Sys2Proof

/-- The outcomes of a stamp comparison (R86). -/
inductive StampOrder where
  | lt | eq | gt | far
  deriving DecidableEq, Repr, Inhabited

/-- The count of a stamp: bits [63:14]. -/
def count (a : Stamp) : BitVec 50 := a.extractLsb' 14 50

/-- The origin of a stamp: bits [13:0]. -/
def origin (a : Stamp) : BitVec 14 := a.extractLsb' 0 14

/-- The stamp of a count and an origin (R160). -/
def mkStamp (c : BitVec 50) (o : BitVec 14) : Stamp := c ++ o

/-- `stamp_cmp` (R86). -/
def stampCmp (a b : Stamp) : StampOrder :=
  let d := (count a - count b).toNat
  if d = 0 then
    if (origin a).toNat < (origin b).toNat then .lt
    else if (origin b).toNat < (origin a).toNat then .gt
    else .eq
  else if 2 ^ 49 < d then .lt
  else if d < 2 ^ 49 then .gt
  else .far

/-- `stamp_le` (R86). -/
def stampLe (a b : Stamp) : Bool := stampCmp a b == .lt || stampCmp a b == .eq

/-- `stamp_max` (R86). -/
def stampMax (a b : Stamp) : Stamp := if stampCmp a b = .lt then b else a

/-- `stamp_max` where one side may hold no stamp yet. -/
def stampMaxO (a : Option Stamp) (b : Stamp) : Stamp :=
  match a with
  | some x => stampMax x b
  | none => b

/-- Merge an optional stamp into an optional stamp. -/
def stampJoin (a b : Option Stamp) : Option Stamp :=
  match b with
  | some x => some (stampMaxO a x)
  | none => a

/-- How far a stamp's count lies above a slice's count, where it lies above it (R162): `none` at or below. -/
def countAbove (a cur : BitVec 50) : Option Nat :=
  let d := (a - cur).toNat
  if d = 0 || 2 ^ 49 ≤ d then none else some d

/-- The larger of two counts in the window of R86. -/
def countMax (a b : BitVec 50) : BitVec 50 := if (countAbove b a).isSome then b else a

/-- A 52-bit DPA as a number: the module index, and the rest. -/
def dpaModule (d : Nat) : Nat := d / 2 ^ 44 % 256

/-- The DPA without its module index. -/
def dpaLocal (d : Nat) : Nat := d % 2 ^ 44

/-- The stack index of a DPA (R87). -/
def dpaStack (d : Nat) : Nat := d / 2 ^ 40 % 16

/-- The offset in the stack's range (R87). -/
def dpaOffset (d : Nat) : Nat := d % 2 ^ 40

/-- The device page, numbered over the module: stack and offset [39:16] (R151). -/
def dpaPage (d : Nat) : Nat := dpaLocal d / 2 ^ 16

/-- `c` of `home_slice`: the exclusive or of the 2-bit groups of the offset from bit 9 up (R87). -/
def sliceFold (off : Nat) : Nat → Nat
  | 0 => 0
  | k + 1 => Nat.xor (off / 2 ^ (9 + 2 * k) % 4) (sliceFold off k)

/-- The slice of a DPA within its module (R87). Offset bit 40 does not exist, so the last group is bit 39 alone. -/
def homeSlice (d : Nat) : Nat := dpaStack d * 4 + sliceFold (dpaOffset d) 16

/-- The bytes of a granule attribute (R155). -/
def granSize (g : BitVec 2) : Nat :=
  match g.toNat with
  | 0 => 32
  | 1 => 64
  | 2 => 128
  | _ => 512

/-- The lowest thread of a mask; 64 for none. -/
def lowest (m : Mask) : Nat := ((List.range 64).find? (fun i => m.getLsbD i)).getD 64

/-- The mask of one thread. -/
def oneMask (t : Nat) : Mask := BitVec.twoPow 64 t

/-- The threads of a mask in ascending order. -/
def threads (m : Mask) : List Nat := (List.range 64).filter (fun i => m.getLsbD i)

/-- The mask of a list of threads. -/
def maskOf (l : List Nat) : Mask := l.foldl (fun m t => m ||| oneMask t) 0

/-- How many threads a mask holds. -/
def popcount (m : Mask) : Nat := (threads m).length

/-- Little-endian bytes of a number (R4). -/
def toBytes (n : Nat) : Nat → List Byte
  | 0 => []
  | k + 1 => BitVec.ofNat 8 n :: toBytes (n / 256) k

/-- The number of a list of little-endian bytes (R4). -/
def ofBytes : List Byte → Nat
  | [] => 0
  | b :: t => b.toNat + 256 * ofBytes t

/-- A 64-bit value is canonical: bits [63:56] equal bit [55] (R150). -/
def canonical (a : Word) : Bool :=
  a.extractLsb' 56 8 == 0 && !a.getLsbD 55 || a.extractLsb' 56 8 == 0xFF && a.getLsbD 55

/-- Whether two byte ranges meet. -/
def meets (a n b m : Nat) : Bool := a < b + m && b < a + n

/-- Replace the bytes of a range of a byte list that starts at `base`, by those of `data` at `addr`. -/
def overlay (base : Nat) (old : List Byte) (addr : Nat) (data : List Byte) : List Byte :=
  old.zipIdx.map fun p =>
    let a := base + p.2
    if addr ≤ a && a < addr + data.length then data.getD (a - addr) p.1 else p.1

end Sys2Proof.Machine
end

