-- ==== Sys2Proof/Machine/Table.lean ====
section
/-! DEFINITION. Sparse data by number: lists of (key, value) pairs in one canonical form (keys strictly rising, and where
a default is given no entry equal to it), so that equal tables are equal lists. -/

namespace Sys2Proof

/-- A table: keys strictly rising. -/
abbrev Table (α : Type) := List (Nat × α)

/-- The value listed at a key. -/
def Table.find {α : Type} : Table α → Nat → Option α
  | [], _ => none
  | (k, v) :: t, n => if k = n then some v else Table.find t n

/-- The value at a key, with what an unlisted key holds. -/
def Table.read {α : Type} (t : Table α) (n : Nat) (d : α) : α := (Table.find t n).getD d

/-- List a value at a key, in place of any other. -/
def Table.insert {α : Type} : Table α → Nat → α → Table α
  | [], n, v => [(n, v)]
  | (k, w) :: t, n, v =>
    if k = n then (n, v) :: t
    else if n < k then (n, v) :: (k, w) :: t
    else (k, w) :: Table.insert t n v

/-- Unlist a key. -/
def Table.erase {α : Type} : Table α → Nat → Table α
  | [], _ => []
  | (k, w) :: t, n => if k = n then Table.erase t n else (k, w) :: Table.erase t n

/-- Write a value at a key whose unlisted value is `d`: writing `d` unlists the key. -/
def Table.write {α : Type} [DecidableEq α] (t : Table α) (n : Nat) (v d : α) : Table α :=
  if v = d then Table.erase t n else Table.insert t n v

/-- Change a listed value. -/
def Table.modify {α : Type} (t : Table α) (n : Nat) (f : α → α) : Table α :=
  match Table.find t n with
  | some v => Table.insert t n (f v)
  | none => t

/-- Drop the entries whose key and value satisfy a test. -/
def Table.drop {α : Type} (t : Table α) (p : Nat → α → Bool) : Table α := List.filter (fun e => !p e.1 e.2) t

/-- Apply a function to every listed value. -/
def Table.mapValues {α : Type} (t : Table α) (f : Nat → α → α) : Table α := List.map (fun e => (e.1, f e.1 e.2)) t

/-- The keys rise strictly. -/
def Table.rising {α : Type} : Table α → Bool
  | [] => true
  | (k, _) :: t => (match t with | [] => true | (k', _) :: _ => decide (k < k')) && Table.rising t

/-- No entry equals what its key reads as when it is unlisted. -/
def Table.noDefault {α : Type} [DecidableEq α] (t : Table α) (d : Nat → α) : Bool := List.all t (fun e => decide (e.2 ≠ d e.1))

/-- The listed values. -/
def Table.values {α : Type} (t : Table α) : List α := List.map (·.2) t

/-- The listed keys. -/
def Table.keys {α : Type} (t : Table α) : List Nat := List.map (·.1) t

/-- Put a value in its place among sorted ones, after those that are not above it. -/
def insertSorted {α : Type} (le : α → α → Bool) (x : α) : List α → List α
  | [] => [x]
  | y :: t => if le y x then y :: insertSorted le x t else x :: y :: t

/-- Sort by an order, keeping the order of equals. -/
def sortBy {α : Type} (le : α → α → Bool) (l : List α) : List α := l.foldl (fun acc x => insertSorted le x acc) []

end Sys2Proof
end

