-- ==== Sys2Proof/Machine/State.lean ====
section
/-! DEFINITION. The state of one Q-1600 module as plain data, the reasons a step can stop, and the state after reset. -/

namespace Sys2Proof.Machine

open Sys2Proof

/-- Why a step can stop with a fault. Faults of the hardware are no such stop: they park an entity (R358). -/
inductive Fault where
  /-- Raised by every instruction when `State.actor` names no live entity that could issue it: no hardware has such an
  instruction. Safe: nothing is claimed of it. -/
  | noActor
  deriving DecidableEq, Repr, Inhabited

/-- Why a step can refuse. -/
inductive Refusal where
  /-- Raised by `exec` for an instruction without a meaning yet. Safe. -/
  | notModelled (mnemonic : String)
  deriving DecidableEq, Repr, Inhabited

-- Entities and waves ---------------------------------------------------------------------------------------------------

/-- A record of an entity's list (R298): `pair` is the split's number for a pair record; a serial record has the other side. -/
structure Record where
  pair : Option Nat := none
  /-- of a pair record: this side detached at the split -/
  detached : Bool := false
  token : Word
  other : Mask := 0
  otherpc : Word := 0
  full : Mask := 0
  second : Bool := false
  deriving DecidableEq, Repr, Inhabited

/-- The clause an entity is within (R34): its class, its instruction count. -/
structure Clause where
  cls : BitVec 4
  count : Nat
  deriving DecidableEq, Repr, Inhabited

/-- What a parked entity waits for (R277). -/
inductive Park where
  /-- a flip of this phase of the barrier word (R282) -/
  | bar (word : Nat) (phase : Bool)
  | timeline (tl : BitVec 3) (n : Nat) (sc : Scope)
  | ring (k : Nat) (sd : BitVec 6)
  /-- a larger allocation of a buffer, or a smaller one that issued commands hold up: its size in 4 KiB units (R288, R326) -/
  | bufreq (sp : Space) (units : Nat)
  | xbeg
  /-- the partner of this split at a `join` (R299) -/
  | join (pair : Nat)
  /-- a fault (R358), where it was parked in no wait -/
  | fault
  deriving DecidableEq, Repr, Inhabited

/-- The fault an entity is parked at (R229, R358, R365). `op` is the long-latency instruction that faulted, if one did. -/
structure FaultInfo where
  cause : Cause
  addr : Word
  lanes : Mask
  op : Option Nat := none
  /-- when it was taken -/
  at_ : Nat := 0
  deriving DecidableEq, Repr, Inhabited

/-- The region entry of an entity (R301, R303): `taken` is false when the entry is taken at the next instruction; of a restored
entity it names the marker where it restarts (R367). -/
structure Entry where
  taken : Bool := false
  byRgn : Bool := false
  hdr : Word := 0
  idx : Nat := 0
  vmask : BitVec 32 := 0
  smask : BitVec 16 := 0
  deriving DecidableEq, Repr, Inhabited

/-- A wave or a fragment (R277). -/
structure Entity where
  /-- a fragment, which holds a fragment slot -/
  frag : Bool := false
  mask : Mask
  hdr : Word
  idx : Nat := 0
  /-- the clause it is within; none: its next clause's header is still to be evaluated (R34, R35) -/
  clause : Option Clause := none
  pipe : Option Nat := none
  park : Option Park := none
  fault : Option FaultInfo := none
  recs : List Record := []
  entry : Entry := {}
  passed : Nat := 0
  marked : Bool := false
  /-- the pipes whose next selection it takes no part in, after a `yield` (R311) -/
  skip : BitVec 4 := 0
  /-- how far a stalled instruction has come: 0 not begun, 1 its release is made -/
  stage : Nat := 0
  /-- the threads to which a replayed instruction is confined (R359) -/
  replay : Option Mask := none
  /-- stopped for the debugger (R347, R399) -/
  stopped : Bool := false
  /-- the debugger has let it pass the breakpoint where it stands (R399) -/
  continued : Bool := false
  /-- the answer of another module to its `stmp.hold.dm`: identifier and cause (R244) -/
  answer : Option (Word × Cause) := none
  /-- of a parked `xbeg`: its position, its masks, its fallback and its cause register (R246) -/
  waiting : Option (Word × Nat × BitVec 32 × BitVec 16 × Word × BitVec 6) := none
  deriving DecidableEq, Repr, Inhabited

/-- A piece of a lane access (R188): the thread, the place of its first byte in the thread's value, and the bytes it
covers, at a DPA or at an offset of a local space. -/
structure Piece where
  thread : Nat
  byte : Nat
  addr : Nat
  len : Nat
  deriving DecidableEq, Repr, Inhabited

/-- A refused piece (R229): its thread, its cause and its lowest byte address. -/
structure Denied where
  thread : Nat
  cause : Cause
  addr : Word
  deriving DecidableEq, Repr, Inhabited

/-- A thread's operands of a lane access as they stood at issue (R48): its offset, and an atomic's values. -/
structure LaneOp where
  thread : Nat
  off : Word
  x : Word := 0
  cmp : Word := 0
  deriving DecidableEq, Repr, Inhabited

/-- A thread's part of an atomic (R237). -/
structure AtomItem where
  thread : Nat
  addr : Nat
  x : Word
  cmp : Word
  deriving DecidableEq, Repr, Inhabited

/-- How far `sys.pgattr` has come (R344): not begun; another module is asked to change its page; it has answered; the write of the leaf
of this page's DPA is under way. -/
inductive AttrStep where
  | begun
  | asked
  | answered (ok : Bool)
  | leaf (d : Nat)
  deriving DecidableEq, Repr, Inhabited

/-- What a long-latency instruction still has to do. -/
inductive OpBody where
  /-- a result computed at issue: destination, type, one value per thread (or one for an s-register), FPSTATUS flags -/
  | alu (d : Reg) (ty : Ty) (vals : List Word) (fl : BitVec 6)
  /-- a load: its local pieces still to be read; requests carry the global ones -/
  | load (sp : Space) (d : Reg) (ty : Ty) (pieces : List Piece)
  | asof (d : Reg) (ty : Ty) (t : Stamp) (pieces : List Piece)
  /-- an atomic: old values arrive in `got` -/
  | atom (sp : Space) (op : AtomOp) (ty : Ty) (sc : Scope) (d : Option Reg) (items : List AtomItem)
  | xend
  /-- an engine command in a queue, by its number in `State.cmds` -/
  | cmd (id : Nat)
  | dqPush (x : Word)
  | dqPop (sd : BitVec 6)
  | dqSteal (sd : BitVec 6) (core : Nat)
  /-- `off`: its ring's descriptor has been changed while the message is held (R309) -/
  | msg (sd : BitVec 6) (dest : Word) (src : Nat) (text : Option (List Byte × Stamp)) (off : Bool)
  | launch (sd : BitVec 6) (addr : Word)
  | ctxsave (sd : BitVec 6) (target : Nat)
  | ctxload (sd : BitVec 6) (target : Nat)
  | pgattr (va attrs : Word) (step : AttrStep)
  /-- `mark`: the accesses it waits for have numbers below this one -/
  | tlbinv (win : Bool) (va : Word) (count : Nat) (ctx : BitVec 12) (mark : Option Nat)
  | l1 (drop : Bool)
  | slice (drop : Bool) (dpa len : Nat)
  /-- guarded off: its flag is cleared and set, and nothing else happens (R39) -/
  | off
  deriving DecidableEq, Repr, Inhabited

/-- A base window (R230). -/
structure Window where
  set : Bool := false
  base : Word := 0
  limit : Nat := 0
  /-- the DPA of the first byte, and the leaf entry it was translated from -/
  frame : Nat := 0
  leaf : Word := 0
  /-- the virtual page the frame was taken from, for `sys.wininv` (R322) -/
  page : Nat := 0
  deriving DecidableEq, Repr, Inhabited

/-- A long-latency instruction in flight (R44 to R49). -/
structure LongOp where
  ent : Nat
  hdr : Word
  idx : Nat
  /-- the completion flag, none for 15 -/
  fl : Option Nat
  /-- how many more words of its entity may issue before it completes; none: detached -/
  window : Option Nat
  mask : Mask
  uni : Bool
  body : OpBody
  /-- its release part has been made, where it has one -/
  ready : Bool := false
  refused : List Denied := []
  /-- bytes read so far, by 8 x thread + place -/
  got : Table Byte := []
  /-- registers written since it issued: v n as n, s n as 256 + n, p6 as 512, with the threads (R48) -/
  clob : Table Mask := []
  /-- FPSTATUS flags of an atomic (R95) -/
  flags : BitVec 6 := 0
  /-- it faulted and its entity is parked at it -/
  faulted : Bool := false
  /-- its idempotent region has closed since it issued (R50, R366) -/
  early : Bool := false
  /-- the fragments split from its entity since it issued: it is earlier in their program order too (R190) -/
  also : List Nat := []
  /-- it issued in a forwarding region, where it has neither a release nor an acquire half (R248) -/
  inRegion : Bool := false
  /-- it has faulted in deterministic mode, and counts as retired when its replay completes (R51, R290) -/
  uncounted : Bool := false
  /-- the flag that a save has taken from it (R50): its replay, which issues it again, raises the flag again (R44, R359) -/
  again : Option Nat := none
  /-- it has faulted while its entity was parked at another fault: its own comes after that one -/
  blocked : Bool := false
  /-- in deterministic mode its replay ends the quantum, and it is performed at the boundary (R290, R291) -/
  held : Bool := false
  /-- its threads' operands and window as they stood at issue, for a replay (R48, R49) -/
  lanes : List LaneOp := []
  win : Window := {}
  deriving DecidableEq, Repr, Inhabited

/-- One write of a held store (R233). -/
structure SqItem where
  thread : Nat
  addr : Nat
  data : List Byte
  deriving DecidableEq, Repr, Inhabited

/-- One entry of a store queue (R233): `.g` addresses are DPAs. -/
structure SqEntry where
  sp : Space
  items : List SqItem
  /-- the number it entered the queue with, by which the debugger orders it (R402) -/
  num : Nat := 0
  /-- the held write of an atomic of a deterministic region (log 113) -/
  atom : Bool := false
  deriving DecidableEq, Repr, Inhabited

/-- The forwarding region of a wave (R246): its slot of the Unit, and the shadow. -/
structure Region where
  slot : Nat
  v : Table (List Lane)
  s : Table Word
  p : Table Mask
  b : Table Window
  vmask : BitVec 32
  smask : BitVec 16
  mask : Mask
  ent : Nat
  fallback : Word
  /-- the records of the entity's list at `xbeg` -/
  recs : List Record
  sc : BitVec 6
  /-- an abort waits for delivery, with the record for sc (R251) -/
  aborted : Option Word := none
  /-- reads of `.g` granules in deterministic mode: granule and the count of its home slice then, which a later commit's stamp
  lies above (R292) -/
  reads : Table (BitVec 50) := []
  deriving DecidableEq, Repr, Inhabited

/-- Where a deterministic wave stands in its quantum (R290, R291). -/
inductive Quantum where
  | running
  /-- ended without an ending instruction -/
  | ended
  /-- ended at the instruction of this entity, which is performed at the boundary -/
  | endedAt (ent : Nat)
  /-- the boundary has committed its stores and lets the ending instruction be performed -/
  | granted (ent : Nat)
  /-- its part of the boundary is done -/
  | done
  deriving DecidableEq, Repr, Inhabited

/-- An s-register written while its wave has several entities (R91): those for which the written value stands (the writer,
and what has split from it or merged with it since), and the value from before. -/
structure SRace where
  sure : List Nat
  old : Word
  deriving DecidableEq, Repr, Inhabited

/-- A wave (R28, R336). Every entity of `ents` is live; a wave without entities is Gone. -/
structure Wave where
  slot : Nat
  role : Nat
  blocks : Nat
  v : Table (List Lane) := []
  s : Table Word := []
  p : Table Mask := []
  b : Table Window := []
  /-- pending counts of f0 to f11 (R44) -/
  f : Table Nat := []
  cstamp : Stamp := 0
  fpstatus : BitVec 6 := 0
  cause : Word := 0
  faultaddr : Word := 0
  lanemask : Word := 0
  sysstatus : Word := 0
  trapbase : Word := 0
  trappos : Word := 0
  /-- the largest stamp its loads and atomics have returned (R163) -/
  seen : Option Stamp := none
  /-- the largest stamp its stores and atomics have committed with (R163) -/
  stored : Option Stamp := none
  sq : List SqEntry := []
  /-- released stores to local spaces that wait for acquiring instructions issued before them, numbered (R202) -/
  late : List (Nat × SqEntry) := []
  ops : Table LongOp := []
  region : Option Region := none
  ents : Table Entity := []
  nextEnt : Nat := 1
  nextPair : Nat := 0
  sRace : Table SRace := []
  /-- instructions retired in the current quantum (R311) -/
  retired : Nat := 0
  quantum : Quantum := .running
  /-- resumed, and neither closed a region nor parked since (R362) -/
  resumed : Bool := false
  /-- an uncorrectable error lies in its registers, its store queue or its entities' state (R370) -/
  bad : Bool := false
  deriving DecidableEq, Repr, Inhabited

-- Groups, launches, contexts --------------------------------------------------------------------------------------------

/-- An allocation of a local space (R184, R186). -/
structure Buf where
  size : Nat := 0
  bytes : Table Byte := []
  valid : Table Bool := []
  /-- the words whose stored code holds an uncorrectable error (R370) -/
  bad : Table Bool := []
  /-- of the scratchpad, by 4-byte word: the causal stamp that the wave which wrote it had then (R203) -/
  stamps : Table Stamp := []
  deriving DecidableEq, Repr, Inhabited

/-- The synchronisation unit's stamps beside a barrier word (R305): of the current phase and of the last completed one. -/
structure BarMark where
  cur : Option Stamp := none
  last : Option Stamp := none
  deriving DecidableEq, Repr, Inhabited

/-- The numbering of one queue of a group (R124, R285): the next number, the counter's value, the numbers completed above
it, and how often `tlset` has written it. -/
structure Queue where
  next : Nat := 1
  c : Nat := 0
  ahead : List Nat := []
  epoch : Nat := 0
  /-- the largest causal stamp of the completed commands (R163) -/
  stamp : Option Stamp := none
  deriving DecidableEq, Repr, Inhabited

/-- R273. Queued groups have no record yet: their launch counts them. -/
inductive GState where
  | running | swapped | draining | freed
  deriving DecidableEq, Repr, Inhabited

/-- A group that has been placed (R271). While it is Swapped this record is its save image (R365). -/
structure Group where
  pnum : Nat
  lin : Nat
  launch : Nat
  ctx : BitVec 12
  core : Nat
  state : GState := .running
  sp : Buf := {}
  wb : Buf := {}
  ab : Buf := {}
  cb : Buf := {}
  marks : Table BarMark := []
  handles : Table (BitVec 256) := []
  bufacl : Word := 0
  bufreq : Word := 0
  /-- the wave and entity that wrote BUFREQ last: its outcome is theirs (R288) -/
  bufBy : Option (Nat × Nat) := none
  uninitcount : Word := 0
  uninitaddr : Word := 0
  ringdesc : Table Word := []
  tlfault : Table Word := []
  qfault : Table Word := []
  /-- the queue each timeline is bound to (R269) -/
  bind : Table Nat := []
  queues : Table Queue := []
  waves : List Wave := []
  /-- a `sys.ctxsave` or a POWER command is saving it (R362) -/
  saving : Bool := false
  /-- the POWER command has begun that save (R363) -/
  powerSave : Bool := false
  /-- eligible for placement while Swapped, in this order (R274) -/
  eligible : Option Nat := none
  /-- it was ended while Swapped: it drains without holding any part of a core (R360) -/
  offCore : Bool := false
  /-- a replay trigger covers these faulted entities (wave, entity) (R359) -/
  triggered : List (Nat × Nat) := []
  /-- the first cause recorded for the group (R273) -/
  cause : Cause := 0
  deriving DecidableEq, Repr, Inhabited

/-- A range record of a launch (R181). -/
structure Range where
  base : Nat
  len : Nat
  cls : BitVec 2
  /-- its place in the launch's list of range records, by which it is reported (R183) -/
  idx : Nat := 0
  deriving DecidableEq, Repr, Inhabited

/-- An accepted launch that has not completed (R269, R273). -/
structure Launch where
  ctx : BitVec 12
  block : List Word
  handles : List (Nat × BitVec 256) := []
  ranges : List Range := []
  coremap : List Nat := []
  /-- the host tag of a LAUNCH command; none for `launch` -/
  tag : Option (BitVec 16) := none
  stamp : Option Stamp := none
  /-- of a `launch` instruction the count of its issuer's causal stamp, and the first round that counts (R163) -/
  seedCount : Option (BitVec 50) := none
  round : Nat := 0
  next : Nat := 0
  back : List Nat := []
  freed : Nat := 0
  cause : Cause := 0
  /-- the bytes its fetch still sees in place of its own stores (R36), by DPA in the module -/
  hidden : Table Byte := []
  /-- a deterministic boundary is being taken, at this stage (R291) -/
  boundary : Option Nat := none
  /-- of a deterministic launch: the largest stamp of its commits (R293) -/
  last : Option Stamp := none
  deriving DecidableEq, Repr, Inhabited

/-- A context (R315, R316). -/
structure Context where
  root : BitVec 35
  sys : Bool
  dbg : Bool
  ended : Bool := false
  deriving DecidableEq, Repr, Inhabited

/-- A stamp hold of a context on this module (R172, R244). -/
structure Hold where
  stamp : Stamp
  order : Nat
  deriving DecidableEq, Repr, Inhabited

-- Memory ----------------------------------------------------------------------------------------------------------------

/-- A device page: its indirection entry (R178), page stamp (R168), the stamp of every granule without one of its own, and
its owner entry (R323). A stamp is none while no commit has made one since the cold reset. -/
structure Page where
  mapped : Bool
  capacity : Bool
  gran : BitVec 2 := 1
  v : Bool := false
  migrating : Bool := false
  frame : BitVec 32
  stamp : Option Stamp := none
  base : Option Stamp := none
  owner : BitVec 16 := 0
  deriving DecidableEq, Repr, Inhabited

/-- A Whey record (R169). -/
structure WheyRec where
  pos : Nat
  gran : BitVec 2
  dpa : Nat
  old : Stamp
  sup : Stamp
  link : Option Nat
  data : List Byte
  /-- the error pattern of its stored codewords (R169, R373) -/
  flips : Table Byte := []
  deriving DecidableEq, Repr, Inhabited

/-- The Turner's counts of one range in a period (R181). -/
structure RangeCount where
  reqs : Nat := 0
  capReqs : Nat := 0
  cursor : Nat := 0
  deriving DecidableEq, Repr, Inhabited

/-- A migration in progress (R182). -/
structure Migration where
  page : Nat
  capacity : Bool
  frame : BitVec 32
  copied : Nat := 0
  deriving DecidableEq, Repr, Inhabited

/-- One stack (R168 to R183). -/
structure Stack where
  whey : Nat := 0
  rind : Nat := 0
  log : List WheyRec := []
  next : Nat := 0
  base : Nat := 0
  h : Stamp := 0
  /-- H as of the last round closed -/
  hRound : Stamp := 0
  refused : Nat := 0
  corrected : BitVec 32 := 0
  uncorrectable : BitVec 32 := 0
  /-- granule requests in the Turner's period, and each range's, by launch x 1024 + index -/
  period : Nat := 0
  counts : Table RangeCount := []
  /-- victim cursors: unranged pages at 4, class c at c -/
  victims : Table Nat := []
  /-- pages still to be moved, with their direction (true: promote), and how many have been moved in the period -/
  moves : List (Nat × Bool) := []
  promoted : Nat := 0
  demoted : Nat := 0
  reports : List Word := []
  migration : Option Migration := none
  /-- the ranges' counts of periods that have ended, until the Turner acts on them (R180, R183) -/
  ended : List (Table RangeCount) := []
  /-- how often a record has been reclaimed: a refused append is tried again at once then (R173) -/
  freed : Nat := 0
  deriving DecidableEq, Repr, Inhabited

/-- Who sent a request (R152). -/
inductive Agent where
  /-- a long-latency instruction of a wave -/
  | op (g w id : Nat)
  /-- the released stores of a wave -/
  | wave (g w : Nat)
  | cmd (id : Nat)
  | task (id : Nat)
  | host
  /-- another module's request: the number of its agent there, and of the request -/
  | peer (module : BitVec 8) (stream tag : Nat)
  deriving DecidableEq, Repr, Inhabited

/-- What a request asks of its granule. -/
inductive ReqKind where
  | load
  | asof (t : Stamp)
  | store
  | atom (op : AtomOp) (ty : Ty)
  /-- of another module: new attributes of the page (R344) -/
  | attrs (x : Word) (big : Bool)
  deriving DecidableEq, Repr, Inhabited

/-- One access of a request: for a store `data` are the bytes, for an atomic `x` and `cmp` its operands. -/
structure ReqItem where
  thread : Nat
  byte : Nat
  addr : Nat
  len : Nat
  data : List Byte := []
  x : Word := 0
  cmp : Word := 0
  /-- its number in a message between modules -/
  num : Nat := 0
  deriving DecidableEq, Repr, Inhabited

/-- Why a request is held at its slice (R152). -/
inductive Held where
  /-- its Whey append was refused, last tried in this round, after so many reclaims and ended holds (R173) -/
  | whey (round freed : Nat)
  /-- a region's slot, with the start count that tells the region from a later one in the slot -/
  | behind (slot : Nat) (start : BitVec 50)
  | edge (slot : Nat) (start : BitVec 50)
  /-- of another module's memory: not sent yet, since what precedes it has not been performed (R202, R291) -/
  | unsent
  deriving DecidableEq, Repr, Inhabited

/-- A granule request (R152, R154) on its way to, or held at, its home slice. `ctx` is 0 for the host. -/
structure Req where
  agent : Agent
  ctx : BitVec 12
  launch : Option Nat
  kind : ReqKind
  /-- the granule's first byte, a DPA of this module without its module index; for another module's, see `away` -/
  gran : Nat
  items : List ReqItem
  carried : Option Stamp
  /-- the region it belongs to -/
  slot : Option Nat := none
  /-- of a region's store: the number of the store instruction, whose queue entry frees with its last acceptance (R233) -/
  store : Nat := 0
  held : Option Held := none
  /-- sent over the fabric to this module, and no answer yet -/
  away : Option (BitVec 8) := none
  deriving DecidableEq, Repr, Inhabited

/-- A line of an L1 (R153, R232). -/
structure L1Line where
  data : List Byte
  stamp : Stamp
  /-- what the slice's count was at least when the line was filled (R204) -/
  count : BitVec 50
  deriving DecidableEq, Repr, Inhabited

/-- The contention predictor's entry of a granule (R239). -/
structure Contention where
  counter : BitVec 2 := 0
  owner : Option Nat := none
  served : Nat := 0
  deriving DecidableEq, Repr, Inhabited

/-- An entry of a duplicate table (R240). -/
structure Dup where
  module : BitVec 8
  core : BitVec 8
  seq : BitVec 32
  slice : Nat
  old : Word
  stamp : Stamp
  deriving DecidableEq, Repr, Inhabited

-- The Region Order Unit --------------------------------------------------------------------------------------------------

/-- The kinds of edge (R249). -/
inductive EdgeKind where
  | forward | wait | order
  deriving DecidableEq, Repr, Inhabited

/-- An uncommitted write of a region, numbered in the order the slices accepted it (R206, R249). -/
structure UWrite where
  order : Nat
  addr : Nat
  data : List Byte
  /-- an atomic's -/
  atom : Bool := false
  deriving DecidableEq, Repr, Inhabited

/-- A directory entry of a region (R248). -/
structure DirEntry where
  gran : Nat
  reads : Bool
  writes : Bool
  deriving DecidableEq, Repr, Inhabited

/-- The state of a slot (R348); a slot that is not listed is free. -/
inductive SlotState where
  | live | committing | aborting
  deriving DecidableEq, Repr, Inhabited

/-- A slot of the Region Order Unit (R246 to R252). -/
structure Slot where
  state : SlotState := .live
  start : BitVec 50
  depth : Nat := 0
  core : Nat
  g : Nat
  w : Nat
  dir : List DirEntry := []
  writes : List UWrite := []
  /-- edges from this region to others -/
  edges : List (Nat × EdgeKind) := []
  /-- its `xend` has reached the Unit, in this order -/
  ending : Option Nat := none
  /-- Whey bytes reserved, by stack (R252) -/
  reserved : Table Nat := []
  /-- its last refused reservation: the round, the stack, and its reclaims and the ended holds then (R173) -/
  tried : Option (Nat × Nat × Nat) := none
  /-- the stamps of the regions it consumed from -/
  sources : Option Stamp := none
  deriving DecidableEq, Repr, Inhabited

-- Engines and tasks ------------------------------------------------------------------------------------------------------

/-- Where an accepted task record stands (R141 to R146); `broken` and `faulted` are still to be written to the record; of an `ended` one
the last write is still to be performed. -/
inductive TaskState where
  | waiting | ready | running | signalling | broken | faulted | ended
  deriving DecidableEq, Repr, Inhabited

/-- A task record accepted by a die's scheduler (R142). -/
structure Task where
  die : Nat
  ctx : BitVec 12
  launch : Nat
  addr : Word
  /-- where the record lies: its identity -/
  dpa : Nat
  cstamp : Stamp
  wave : Bool
  state : TaskState
  core : Option Nat := none
  /-- its chain: identity, position, length (R144) -/
  chain : Nat := 0
  pos : Nat := 0
  len : Nat := 1
  /-- the engine work of a running matrix task, as a command of no queue -/
  work : Option Nat := none
  /-- the cause that its record is to receive -/
  cause : Cause := 0
  /-- the successor at the signalled index has been signalled, and the index is still to be written (R146) -/
  sent : Bool := false
  /-- why a write of the scheduler for it has been refused (R263, R372) -/
  refused : Option Cause := none
  deriving DecidableEq, Repr, Inhabited

/-- The commands of the engine queues (R123). -/
inductive CmdKind where
  | copy (tr rb mc : Bool)
  | gather
  | scatter
  /-- a matrix product: ternary W, initialised, the first row and column of its quadrant and its size -/
  | product (tern init : Bool) (m0 n0 mq nq : Nat)
  | collective (e : SubEntry)
  /-- `task.push` of a record, `task.push.wave` into a core's deque -/
  | push (rec : Word)
  | pushWave (core entry : Word)
  deriving DecidableEq, Repr, Inhabited

/-- A command in an engine queue (R123 to R139). `recs` are its handles' records as they stood at issue. -/
structure Cmd where
  g : Nat
  /-- the wave that issued it -/
  wave : Nat := 0
  queue : Nat
  num : Nat
  epoch : Nat
  kind : CmdKind
  recs : List (BitVec 256) := []
  bar : Option Nat := none
  /-- its wave's causal stamp at issue, which its requests carry (R154) -/
  cstamp : Stamp := 0
  /-- the largest stamp of what its landings have committed, which its completion and its counts release too (R163) -/
  top : Option Stamp := none
  /-- the wave and long-latency instruction whose flag it sets; none for a collective, or when that wave abandoned it -/
  op : Option (Nat × Nat) := none
  progress : Nat := 0
  /-- pieces landed or skipped -/
  landed : List Nat := []
  /-- a page that is not present holds it (R139): its address; a trigger lets it resume -/
  suspended : Option Word := none
  resume : Bool := false
  /-- the first error recorded for it -/
  err : Option Cause := none
  /-- it has been checked before its first K-step (R131), or a push has been answered -/
  begun : Bool := false
  /-- all its work is done; completion is still to be reported -/
  finished : Bool := false
  /-- pieces that go to the firmware (R140) -/
  absent : Bool := false
  /-- buffers and ranks a collective has gathered: rank and bytes -/
  gathered : Table (List Byte) := []
  /-- the granules of this module it has read, each by one request (R154): a byte whose code is uncorrectable is none -/
  fetched : Table (List (Option Byte)) := []
  /-- of a push whose write of the record is under way: the task it makes (R142) -/
  pushed : Option Task := none
  /-- of a collective that another module's host has posted: that module, and its tag there (R265) -/
  guest : Option (BitVec 8 × BitVec 16) := none
  deriving DecidableEq, Repr, Inhabited

/-- An open chain (R144): its die, context and identity, the core that ran position 0, and the position that is next. -/
structure Chain where
  die : Nat
  ctx : BitVec 12
  ident : Nat
  core : Nat
  next : Nat
  deriving DecidableEq, Repr, Inhabited

/-- An entry of a deque with the stamp it was released with (R163): a push of an instruction, or a task's push of a wave-task,
whose pop is the task's start (R145, R193). -/
structure DqEntry where
  word : Word
  stamp : Stamp
  task : Bool := false
  deriving DecidableEq, Repr, Inhabited

/-- The parts of a core that its groups share (R153, R240, R283). -/
structure Core where
  /-- the deque's entries, top first, and the counts T and B -/
  deque : List DqEntry := []
  top : Nat := 0
  bottom : Nat := 0
  /-- the launch that last pushed -/
  dqLaunch : Option Nat := none
  seq : BitVec 32 := 0
  deriving DecidableEq, Repr, Inhabited

-- Host, security, fabric -------------------------------------------------------------------------------------------------

/-- A mailbox command in flight (R259, R379). -/
inductive Flight where
  | launch (id : Nat)
  | collective (cmd : Nat)
  /-- POWER: the target and the state it started from -/
  | power (target : Nat) (from_ : Nat) (saved : List Nat)
  | contextEnd (ctx : BitVec 12)
  /-- a COLLECTIVE of a group of another module, which that module takes up (R265) -/
  | abroad (module : BitVec 8)
  deriving DecidableEq, Repr, Inhabited

/-- The mailbox (R259, R361, R379). -/
structure Mailbox where
  ctl : Word := 0
  sqbase : Word := 0
  cqbase : Word := 0
  qsize : Word := 0
  sqtail : Word := 0
  cqhead : Word := 0
  consumed : Nat := 0
  posted : Nat := 0
  flights : List (BitVec 16 × Flight) := []
  /-- completions that wait for room, records that wait (at most 1,024), records lost -/
  waiting : List (Word × Word) := []
  records : List (Word × Word) := []
  lost : BitVec 16 := 0
  deriving DecidableEq, Repr, Inhabited

/-- Security states (R327, R328). -/
inductive Security where
  | unprovisioned | secure | failed
  deriving DecidableEq, Repr, Inhabited

/-- The answers of the SPDM responder (R329). -/
inductive SpdmAnswer where
  | version (l : List (Nat × Nat))
  | capabilities
  | algorithms
  | digests (d : List Byte)
  /-- a part of the chain, and how many bytes are left -/
  | certificate (part : List Byte) (left : Nat)
  | challenge (signature : List Byte)
  /-- measurements by index, and their signature -/
  | measurements (l : List (Nat × List Byte)) (signature : List Byte)
  | keyExchange (share : List Byte) (signature : List Byte)
  | finish
  | keyUpdate
  | endSession
  | error
  deriving DecidableEq, Repr, Inhabited

/-- What the host's accesses to device memory have been answered with (R257, R258, R331): the data of one granule's part, by DPA;
data that cannot be corrected; a write taken; Unsupported Request; an error completion. -/
inductive HostAnswer where
  | data (dpa : Nat) (l : List Byte)
  | lost (dpa : Nat)
  | taken
  | unsupported
  | error
  deriving DecidableEq, Repr, Inhabited

/-- The SPDM connection (R329). -/
structure Spdm where
  algorithms : Bool := false
  session : Option (List Byte) := none
  /-- the handshake has finished -/
  secured : Bool := false
  /-- the IDE keys, programmed only inside a session -/
  ide : Option (List Byte) := none
  /-- the answers sent, newest first -/
  answers : List SpdmAnswer := []
  deriving DecidableEq, Repr, Inhabited

/-- Firmware and attestation (R327 to R330). -/
structure Boot where
  security : Security := .secure
  /-- provisioning is done (R327) -/
  provisioned : Bool := true
  /-- the debug mode in force and the one requested: 0, 1, 2 -/
  mode : Nat := 0
  wanted : Nat := 0
  token : List Byte := []
  /-- the token that came with the request verifies over the nonce that then stood (R330) -/
  unlocked : Bool := false
  nonce : List Byte := []
  fwaddr : Word := 0
  fwlen : Word := 0
  /-- the firmware image; none: the one in place at first boot -/
  image : Option (List Byte) := none
  /-- the fused counter of the least security version (R328) -/
  floor : Nat := 0
  /-- the measurements that the boot ROM recorded, by index (R328) -/
  measurements : List (Nat × List Byte) := []
  spdm : Spdm := {}
  deriving DecidableEq, Repr, Inhabited

/-- What the debugger has read (R399, R402, R409), or the cause that ended its access (R330). -/
inductive Seen where
  | refused (c : Cause)
  | done
  | bytes (l : List Byte)
  /-- bytes of a local space; none for those of a word that nothing has written -/
  | places (l : List (Option Byte))
  | words (l : List Word)
  | stores (l : List SqEntry)
  | commands (l : List Cmd)
  | queues (l : List Queue)
  /-- a save image, with the group's matrix commands and their progress (R365) -/
  | image (gr : Group) (cmds : List Cmd)
  /-- of a granule: its page's granule and V, its home slice; of the 32-bit word at the address: its committed value and stamp,
  uncommitted writes with their slots and addresses, and its kept versions, newest first -/
  | history (gran : BitVec 2) (v : Bool) (slice : Nat) (cur : List Byte) (stamp : Stamp) (writes : List (Nat × Nat × List Byte))
      (kept : List (List Byte × Stamp))
  | unit (l : Table Slot)
  | log (l : List WheyRec)
  | control (b : Boot)
  deriving DecidableEq, Repr, Inhabited

/-- What the debugger has under way: the requests whose writes come first (R413), and of `map` and `unmap` the invalidation that follows
them (R409): its context, its address, the present bit, and the number that the accesses it waits for lie below (R322). -/
structure DebugWork where
  writes : List Nat
  remap : Option (BitVec 12 × Word × Bool) := none
  mark : Option Nat := none
  deriving DecidableEq, Repr, Inhabited

/-- The debugger (R399, R402, R413). -/
structure Mbd where
  attached : Bool := false
  /-- breakpoints: context, address, wave, group -/
  breaks : List (BitVec 12 × Word × Option Nat × Option (BitVec 32)) := []
  /-- `khold`: core and K-step -/
  kholds : List (Nat × Nat) := []
  /-- the engines that stand at such a hold: the core, and its current command -/
  halts : Table Nat := []
  /-- its access that is not complete yet: the next ones wait for it -/
  work : Option DebugWork := none
  /-- the answers to the debugger, newest first -/
  answers : List Seen := []
  deriving DecidableEq, Repr, Inhabited

/-- A fabric port (R263). -/
structure Port where
  trained : Bool := false
  failed : Bool := false
  deriving DecidableEq, Repr, Inhabited

/-- The fabric interface (R261 to R263). -/
structure Fabric where
  index : BitVec 8 := 0
  /-- the modules of the domain with the ports of their routes -/
  routes : Table (List Nat) := []
  ports : Table Port := []
  /-- per module: the next sequence to send, the sequence accepted from it, the flits not yet acknowledged, oldest first -/
  sent : Table Nat := []
  accepted : Table Nat := []
  unacked : Table (List Flit) := []
  /-- the flits put on the wire, newest first -/
  wire : List Flit := []
  /-- the collective commands and send buffers heard from other modules (R265) -/
  heard : List (List Word × List Byte) := []
  deriving DecidableEq, Repr, Inhabited

/-- What the interfaces of a module have put into a round of the side notification network (R165, R264): its slices' largest
count, and the broadcasts by source number. -/
structure Announce where
  count : BitVec 50
  bcasts : List (Nat × Broadcast)
  deriving DecidableEq, Repr, Inhabited

/-- The whole machine. -/
structure State where
  -- the model's own: who moves next, the counter of the free values, whose instruction `exec` runs, the next number
  agenda : List Turn
  tick : Nat
  actor : Actor
  nextId : Nat
  -- memory, by DPA without the module index
  mem : Table Byte
  pages : Table Page
  gstamps : Table Stamp
  glinks : Table Nat
  /-- error patterns of stored codewords, by granule x 1024 + byte of the codeword, those of the capacity tier from 640 on -/
  flips : Table Byte
  /-- granules whose slice line is modified, at most 8 MiB of a slice (R10): what media holds -/
  dirty : Table (List Byte)
  counts : Table (BitVec 50)
  /-- the count below which a slice's sweep has raised stored stamps, and the slice's count when it last swept (R175) -/
  sweeps : Table (BitVec 50)
  sweptAt : Table (BitVec 50)
  contention : Table Contention
  dups : List Dup
  l1 : Table L1Line
  tlb : Table Word
  reqs : Table Req
  hostLines : List Nat
  hostSeen : List HostAnswer
  stackTable : Table Stack
  holds : Table Hold
  holdOrder : Nat
  /-- how often a hold has been dropped or revoked (R173) -/
  holdsEnded : Nat
  -- the side notification network: its round, what this module has put into it, what other modules have put into it and into
  -- rounds after it, oldest first, and the broadcasts that wait for a round
  round : Nat
  placed : Option Announce
  announced : Table (List Announce)
  /-- by module, how many more rounds this module has closed than that one has said to have closed (R264) -/
  unclosed : Table Int
  bcasts : List (Nat × Broadcast)
  -- the Region Order Unit
  slots : Table Slot
  startCount : BitVec 50
  /-- the count of the stamp of the region that committed last (R207) -/
  cmCount : BitVec 50
  xbegQueue : List Actor
  unitOrder : Nat
  -- work
  ctxs : Table Context
  launches : Table Launch
  groups : Table Group
  cores : Table Core
  cmds : Table Cmd
  tasks : Table Task
  chains : List Chain
  lastDie : Option Nat
  batches : List (Nat × Nat × Nat)
  nextPnum : Nat
  eligibleOrder : Nat
  -- host and module
  mbx : Mailbox
  hostMem : Table Byte
  msix : List Nat
  power : Nat
  boot : Boot
  mbd : Mbd
  fabric : Fabric
  machine : Option Cause
  resetting : Bool
  warmResets : BitVec 32
  coldResets : BitVec 32
  link : LinkMode
  deriving DecidableEq, Repr, Inhabited

/-- The state of one Q-1600 right after a cold reset (R375), before RESET_COMPLETE (R377). Values the manual gives: no
context, group, launch, hold, history or cause record, mailbox registers zero, every device page free, unversioned and
G64 (the default of `pages`), every granule zero. Values of the model's log: P0, D0, Secure, module index 0, counts and H
zero, one cold reset, CXL 3.1 (logs 5 and 6). -/
def State.reset : State where
  agenda := []
  tick := 0
  actor := ⟨0, 0, 0⟩
  nextId := 1
  mem := []
  pages := []
  gstamps := []
  glinks := []
  flips := []
  dirty := []
  counts := []
  sweeps := []
  sweptAt := []
  contention := []
  dups := []
  l1 := []
  tlb := []
  reqs := []
  hostLines := []
  hostSeen := []
  stackTable := []
  holds := []
  holdOrder := 0
  holdsEnded := 0
  round := 0
  placed := none
  announced := []
  unclosed := []
  bcasts := []
  slots := []
  startCount := 0
  cmCount := 0
  xbegQueue := []
  unitOrder := 0
  ctxs := []
  launches := []
  groups := []
  cores := []
  cmds := []
  tasks := []
  chains := []
  lastDie := none
  batches := []
  nextPnum := 1
  eligibleOrder := 0
  mbx := {}
  hostMem := []
  msix := []
  power := 0
  boot := {}
  mbd := {}
  fabric := {}
  machine := none
  resetting := true
  warmResets := 0
  coldResets := 1
  link := .cxl31

end Sys2Proof.Machine
end

