-- ==== Sys2Proof/Machine/Access.lean ====
section
/-! DEFINITION. Reading and changing one group, wave or entity of the state; the registers (R19, R28), each with its one
way in and out. -/

namespace Sys2Proof.Machine

open Sys2Proof

/-- Change one wave of a group. -/
def Group.modWave (gr : Group) (w : Nat) (f : Wave → Wave) : Group := { gr with waves := gr.waves.modify w f }

/-- Change one entity of a wave. -/
def Wave.modEnt (wv : Wave) (e : Nat) (f : Entity → Entity) : Wave := { wv with ents := Table.modify wv.ents e f }

/-- Change one long-latency instruction of a wave. -/
def Wave.modOp (wv : Wave) (o : Nat) (f : LongOp → LongOp) : Wave := { wv with ops := Table.modify wv.ops o f }

/-- The group of a number. -/
def State.group? (s : State) (g : Nat) : Option Group := Table.find s.groups g

/-- A wave of a group. -/
def State.wave? (s : State) (g w : Nat) : Option Wave := (s.group? g).bind fun gr => gr.waves[w]?

/-- An entity of a wave. -/
def State.entity? (s : State) (a : Actor) : Option Entity := (s.wave? a.g a.w).bind fun wv => Table.find wv.ents a.e

/-- Change one group. -/
def State.modGroup (s : State) (g : Nat) (f : Group → Group) : State := { s with groups := Table.modify s.groups g f }

/-- Change one wave. -/
def State.modWave (s : State) (g w : Nat) (f : Wave → Wave) : State := s.modGroup g fun gr => gr.modWave w f

/-- Change one entity. -/
def State.modEnt (s : State) (a : Actor) (f : Entity → Entity) : State := s.modWave a.g a.w fun wv => wv.modEnt a.e f

/-- Change one long-latency instruction. -/
def State.modOp (s : State) (g w o : Nat) (f : LongOp → LongOp) : State := s.modWave g w fun wv => wv.modOp o f

/-- The launch of a group. -/
def State.launchOf (s : State) (gr : Group) : Option Launch := Table.find s.launches gr.launch

/-- A word of the launch block (R269); 0 for a launch that does not exist. -/
def State.blockWord (s : State) (gr : Group) (k : Nat) : Word := ((s.launchOf gr).map (fun l => l.block.getD k 0)).getD 0

/-- The group runs in deterministic mode (R269 word 0 [49]). -/
def State.det (s : State) (gr : Group) : Bool := (s.blockWord gr 0).getLsbD 49

/-- The group of a number runs in deterministic mode. -/
def State.detAt (s : State) (g : Nat) : Bool := ((s.group? g).map s.det).getD false

/-- The uninitialised-read mode warns (R269 word 0 [48]). -/
def State.warns (s : State) (gr : Group) : Bool := (s.blockWord gr 0).getLsbD 48

/-- Q of the launch (R269 word 0 [47:44]). -/
def State.quantumOf (s : State) (gr : Group) : Nat := 2 ^ (((s.blockWord gr 0).extractLsb' 44 4).toNat + 10)

/-- The wheel size of a launch block (R269 word 0 [51:50]). -/
def wheelSize (w0 : Word) : Nat :=
  match (w0.extractLsb' 50 2).toNat with
  | 0 => 1
  | 1 => 2
  | _ => 4

/-- The group's context runs at system privilege (R317). -/
def State.sysPriv (s : State) (ctx : BitVec 12) : Bool := ((Table.find s.ctxs ctx.toNat).map (·.sys)).getD false

/-- `mbd` is attached with reach over the context (R330): D1 with the debug-enable bit, or D2. -/
def State.reaches (s : State) (ctx : BitVec 12) : Bool :=
  s.mbd.attached && (s.boot.mode == 2 || s.boot.mode == 1 && ((Table.find s.ctxs ctx.toNat).map (·.dbg)).getD false)

/-- The stack of an index. -/
def State.stack (s : State) (k : Nat) : Stack := Table.read s.stackTable k {}

/-- Change one stack. -/
def State.modStack (s : State) (k : Nat) (f : Stack → Stack) : State :=
  { s with stackTable := Table.write s.stackTable k (f (s.stack k)) {} }

/-- The core of an index. -/
def State.coreOf (s : State) (k : Nat) : Core := Table.read s.cores k {}

/-- Change one core. -/
def State.modCore (s : State) (k : Nat) (f : Core → Core) : State :=
  { s with cores := Table.write s.cores k (f (s.coreOf k)) {} }

/-- The count of a slice (R161). -/
def State.sliceCount (s : State) (k : Nat) : BitVec 50 := Table.read s.counts k 0

/-- Set the count of a slice. -/
def State.setCount (s : State) (k : Nat) (c : BitVec 50) : State := { s with counts := Table.write s.counts k c 0 }

/-- The origin of a slice of this module (R160). -/
def State.originOf (s : State) (k : Nat) : BitVec 14 := s.fabric.index ++ BitVec.ofNat 6 k

/-- The DPA, with this module's index, of an address within the module. -/
def State.dpaOf (s : State) (a : Nat) : Nat := s.fabric.index.toNat * 2 ^ 44 + a

/-- The DPA lies on this module. -/
def State.ours (s : State) (d : Nat) : Bool := dpaModule d == s.fabric.index.toNat

/-- Number something, in order. -/
def State.fresh (s : State) : Nat × State := (s.nextId, { s with nextId := s.nextId + 1 })

-- Registers ---------------------------------------------------------------------------------------------------------------

/-- What a v-register that nothing has written holds. -/
def zeroLanes : List Lane := List.replicate 64 0

/-- A thread's 32 bits of a v-register. -/
def Wave.vLane (wv : Wave) (r t : Nat) : Lane := (Table.read wv.v r zeroLanes).getD t 0

/-- Write a v-register in the threads of a mask; the others keep their value. -/
def Wave.setLanes (wv : Wave) (r : Nat) (act : Mask) (f : Nat → Lane) : Wave :=
  let lanes := (List.range 64).map fun t => if act.getLsbD t then f t else wv.vLane r t
  { wv with v := Table.write wv.v r lanes zeroLanes }

/-- An s-register. -/
def Wave.sReg (wv : Wave) (n : Nat) : Word := Table.read wv.s n 0

/-- Write an s-register. -/
def Wave.setS (wv : Wave) (n : Nat) (x : Word) : Wave := { wv with s := Table.write wv.s n x 0 }

/-- A predicate; p7 reads true in every thread (R28). -/
def Wave.pReg (wv : Wave) (p : BitVec 3) : Mask := if p = 7 then BitVec.allOnes 64 else Table.read wv.p p.toNat 0

/-- Write a predicate in the threads of a mask; a write to p7 is discarded (R40). -/
def Wave.setP (wv : Wave) (p : BitVec 3) (act vals : Mask) : Wave :=
  if p = 7 then wv
  else { wv with p := Table.write wv.p p.toNat ((wv.pReg p &&& ~~~act) ||| (vals &&& act)) 0 }

/-- A window (R230). -/
def Wave.win (wv : Wave) (b : BitVec 4) : Window := Table.read wv.b b.toNat {}

/-- A completion flag's pending count (R44). -/
def Wave.pending (wv : Wave) (f : Nat) : Nat := Table.read wv.f f 0

/-- A flag reads set exactly when its count is 0 (R44). -/
def Wave.flagSet (wv : Wave) (f : Nat) : Bool := wv.pending f == 0

/-- Add to a flag's pending count, or take from it. -/
def Wave.flagUp (wv : Wave) (f : Option Nat) : Wave :=
  match f with
  | some k => { wv with f := Table.write wv.f k (wv.pending k + 1) 0 }
  | none => wv

/-- A completion takes one from the flag's pending count (R44). -/
def Wave.flagDown (wv : Wave) (f : Option Nat) : Wave :=
  match f with
  | some k => { wv with f := Table.write wv.f k (wv.pending k - 1) 0 }
  | none => wv

/-- The flag a completion part names (R37): 15 names none. -/
def flagIndex (f : Flag) : Option Nat := if f.fl.toNat < 12 then some f.fl.toNat else none

/-- The lookahead window of a completion part: none when detached (R47). -/
def flagWindow (f : Flag) : Option Nat := if f.la = 15 then none else some f.la.toNat

/-- The number by which `LongOp.clob` names a register. -/
def regKey : Reg → Nat
  | .v n => n.toNat
  | .s n => 256 + n.toNat

/-- The v-registers that a destination of a type covers (R40). -/
def destKeys (d : Reg) (wide : Bool) : List Nat :=
  match d with
  | .v n => if wide then [n.toNat, n.toNat + 1] else [n.toNat]
  | .s n => [256 + n.toNat]

/-- The registers a long-latency instruction will write (R48). -/
def OpBody.dests : OpBody → List Nat
  | .alu d ty _ _ => destKeys d ty.wide
  | .load _ d ty _ | .asof d ty _ _ => destKeys d ty.wide
  | .atom _ _ ty _ (some d) _ => destKeys d ty.wide
  | .dqPush _ => [512]
  | .dqPop sd | .dqSteal sd _ => [256 + sd.toNat, 512]
  | .msg sd _ _ _ _ | .launch sd _ | .ctxsave sd _ | .ctxload sd _ => [256 + sd.toNat]
  | .pgattr _ _ _ => [512]
  | _ => []

/-- Fill a value of a type to the destination's width (R65): sign for `.s`, zero otherwise. -/
def fillWord (ty : Ty) (x : Word) : Word :=
  if ty.width == 64 then x
  else if ty.isS then (x.setWidth ty.width).signExtend 64
  else (x.setWidth ty.width).setWidth 64

/-- The bytes of one thread that a long-latency load has read so far. -/
def LongOp.gotWord (o : LongOp) (t n : Nat) : Option Word :=
  let bs := (List.range n).map fun k => Table.find o.got (8 * t + k)
  if bs.all (·.isSome) then some (BitVec.ofNat 64 (ofBytes (bs.map (·.getD 0)))) else none

/-- The value a long-latency instruction has for a thread, if it is known already. -/
def LongOp.newWord (o : LongOp) (t : Nat) : Option Word :=
  match o.body with
  | .alu _ _ vals _ => some (vals.getD (if o.uni then 0 else t) 0)
  | .load _ _ ty _ | .asof _ ty _ _ | .atom _ _ ty _ (some _) _ => (o.gotWord (if o.uni then 0 else t) ty.bytes).map (fillWord ty)
  | _ => none

/-- The part of a 64-bit result that goes to a register key: the high half to the odd register of a pair. -/
def halfFor (key first : Nat) (x : Word) : Lane := if key = first then x.setWidth 32 else (x >>> 32).setWidth 32

/-- A v-register's value in a thread as an instruction reads it: where an instruction in flight will write the register,
either the old value or the new one (R48). -/
def Wave.readLane (wv : Wave) (tick r t : Nat) : Lane :=
  wv.ops.foldl (fun cur p =>
    let keys := p.2.body.dests
    if keys.contains r && p.2.mask.getLsbD t then
      match p.2.newWord t with
      | some x => if Config.pick tick (2 ^ 20 * p.1 + 1024 * r + t) then halfFor r (keys.headD r) x else cur
      | none => cur
    else cur) (wv.vLane r t)

/-- An s-register as an entity reads it: R48 for an instruction in flight, R91 for a write of another entity. -/
def Wave.readS (wv : Wave) (tick e n : Nat) : Word :=
  let cur := match Table.find wv.sRace n with
    | some r => if !r.sure.contains e && Config.pick tick (1024 * (512 + n)) then r.old else wv.sReg n
    | none => wv.sReg n
  wv.ops.foldl (fun cur p =>
    if p.2.body.dests.contains (256 + n) then
      match p.2.newWord 0 with
      | some x => if Config.pick tick (2 ^ 20 * p.1 + 1024 * (256 + n)) then x else cur
      | none => cur
    else cur) cur

/-- Note in every instruction in flight that a register it will write has been written (R48). -/
def Wave.noteWrite (wv : Wave) (keys : List Nat) (act : Mask) : Wave :=
  let note (o : LongOp) (k : Nat) : LongOp :=
    if o.body.dests.contains k then { o with clob := Table.write o.clob k (Table.read o.clob k 0 ||| act) 0 } else o
  { wv with ops := Table.mapValues wv.ops fun _ o => keys.foldl note o }

/-- Write an s-register as an entity does: with other entities alive the later writer may lose (R91). -/
def Wave.writeS (wv : Wave) (tick e n : Nat) (x : Word) : Wave :=
  let wv := wv.noteWrite [256 + n] (BitVec.allOnes 64)
  if wv.ents.length ≤ 1 then wv.setS n x
  else
    let stands := match Table.find wv.sRace n with
      | some r => r.sure.contains e || Config.pick tick (1024 * (640 + n))
      | none => true
    let race : SRace := ⟨[e], wv.sReg n⟩
    if stands then { wv.setS n x with sRace := Table.insert wv.sRace n race } else wv

/-- Write a v-register operand of a type in the threads of a mask (R65, R90): a 64-bit value goes to a pair. -/
def Wave.writeV (wv : Wave) (r : Nat) (wide : Bool) (act : Mask) (f : Nat → Word) : Wave :=
  let wv := wv.noteWrite (if wide then [r, r + 1] else [r]) act
  let wv := wv.setLanes r act fun t => (f t).setWidth 32
  if wide then wv.setLanes (r + 1) act fun t => (f t >>> 32).setWidth 32 else wv

/-- Write a register operand: an s-register once, with the value of thread 0 of `f`. -/
def Wave.writeReg (wv : Wave) (tick e : Nat) (d : Reg) (wide : Bool) (act : Mask) (f : Nat → Word) : Wave :=
  match d with
  | .v n => wv.writeV n.toNat wide act f
  | .s n => wv.writeS tick e n.toNat (f 0)

/-- Write a predicate as an instruction does (R48, R40). -/
def Wave.putP (wv : Wave) (p : BitVec 3) (act vals : Mask) : Wave :=
  (if p = 6 then wv.noteWrite [512] act else wv).setP p act vals

/-- Set p6 in threads of a mask (R283, R288, R310, R335). -/
def Wave.setP6 (wv : Wave) (act : Mask) (b : Bool) : Wave :=
  (wv.noteWrite [512] act).setP 6 act (if b then BitVec.allOnes 64 else 0)

/-- Merge a stamp into CSTAMP by maximum (R163). -/
def Wave.mergeStamp (wv : Wave) (x : Option Stamp) : Wave :=
  match x with
  | some t => { wv with cstamp := stampMax wv.cstamp t }
  | none => wv

/-- The registers merged by an acquire: what loads and atomics have returned (R163). -/
def Wave.acquire (wv : Wave) : Wave := wv.mergeStamp wv.seen

/-- What a release merges: the stamps of the wave's stores and atomics (R163). -/
def Wave.releaseStamps (wv : Wave) : Wave := wv.mergeStamp wv.stored

end Sys2Proof.Machine
end

