-- ==== Sys2Proof/Machine/Cause.lean ====
section
/-! DEFINITION. The causes of R353 to R356 by their names. -/

namespace Sys2Proof.Cause

def none : Cause := 0x000
def badHeader : Cause := 0x001
def rsvField : Cause := 0x002
def undefOp : Cause := 0x003
def classMismatch : Cause := 0x004
def regRange : Cause := 0x005
def slotPos : Cause := 0x006
def xlInactive : Cause := 0x007
def xlRange : Cause := 0x008
def fmtAbsent : Cause := 0x009
def handleBad : Cause := 0x00A
def handleKind : Cause := 0x00B
def wheelAbsent : Cause := 0x00C
def divergeDepth : Cause := 0x00D
def joinOrder : Cause := 0x00E
def sysregBad : Cause := 0x00F
def trapState : Cause := 0x010
def histReclaimed : Cause := 0x0C0
def notVersioned : Cause := 0x0C1
def stampWindow : Cause := 0x0C2
def holdRevoked : Cause := 0x0C3
def holdFull : Cause := 0x0C4
def holdBad : Cause := 0x0C5
def attrRefused : Cause := 0x0C6
def wheyBusy : Cause := 0x0C7
def xrCapacity : Cause := 0x0D0
def xrCycle : Cause := 0x0D1
def xrCascade : Cause := 0x0D2
def xrExplicit : Cause := 0x0D3
def xrForbidden : Cause := 0x0D4
def tlBackward : Cause := 0x100
def tlSaturate : Cause := 0x101
def barCount : Cause := 0x102
def barKind : Cause := 0x103
def allocRefused : Cause := 0x104
def mcNoReceiver : Cause := 0x105
def dqFull : Cause := 0x106
def launchBad : Cause := 0x107
def dqBadCore : Cause := 0x108
def msgNoReceiver : Cause := 0x109
def ringOff : Cause := 0x10A
def taskRecord : Cause := 0x138
def taskUnderflow : Cause := 0x139
def taskNoArea : Cause := 0x13A
def priv : Cause := 0x140
def debugLocked : Cause := 0x141
def ctxBad : Cause := 0x142
def powerBlocked : Cause := 0x143
def linkFail : Cause := 0x150
def machine : Cause := 0x151

/-- Access kinds of class 1 (R228, R354). -/
def kLoad : Nat := 0
def kStore : Nat := 1
def kAtomic : Nat := 2
def kAsof : Nat := 3
def kScratch : Nat := 4
def kTyped : Nat := 5
def kFetch : Nat := 6

/-- Reasons (R228). -/
def rNotPresent : Nat := 0
def rPermission : Nat := 1
def rBound : Nat := 2
def rMisaligned : Nat := 3
def rUninit : Nat := 4
def rUncorrectable : Nat := 5

/-- Engine kinds of class 2 (R355). -/
def eCopy : Nat := 0
def eMatrix : Nat := 1
def eGather : Nat := 2
def eCollective : Nat := 3
def eTask : Nat := 4
def eMessage : Nat := 5
def eWalk : Nat := 6

/-- A class-1 cause: 0x040 + 8 x kind + reason (R228, R353). -/
def access (kind reason : Nat) : Cause := BitVec.ofNat 9 (0x040 + 8 * kind + reason)

/-- A class-2 cause: 0x080 + 8 x engine kind + reason (R355). -/
def engine (kind reason : Nat) : Cause := BitVec.ofNat 9 (0x080 + 8 * kind + reason)

/-- `SP_BOUND` (R177). -/
def spBound : Cause := access kScratch rBound

/-- The causes that the Q-1600 produces, and 0, the status of success (R353 to R357). -/
def produced (c : Cause) : Bool :=
  let n := c.toNat
  let within (lo hi : Nat) : Bool := lo ≤ n && n ≤ hi
  within 0x000 0x010 || (within 0x040 0x077 && n % 8 ≤ 5) || (within 0x080 0x0B7 && n % 8 ≤ 5) || within 0x0C0 0x0C7 || within 0x0D0 0x0D4
    || within 0x100 0x10A || within 0x138 0x13A || within 0x140 0x143 || within 0x150 0x151

/-- A class-1 fault with reason not present or permission and access kind 0, 1, 2, 3 or 6 is replayable (R358). -/
def replayable (c : Cause) : Bool :=
  c.extractLsb' 6 3 == 1 && (c.extractLsb' 0 3 == 0 || c.extractLsb' 0 3 == 1)
    && (c.extractLsb' 3 3 == 0 || c.extractLsb' 3 3 == 1 || c.extractLsb' 3 3 == 2 || c.extractLsb' 3 3 == 3
      || c.extractLsb' 3 3 == 6)

end Sys2Proof.Cause
end

