-- ==== Sys2Proof/Machine/Pages.lean ====
section
/-! DEFINITION. Device memory: bytes, device pages, stored codes and their errors (R151 to R159, R166, R178, R371), and
translation from virtual addresses (R319 to R323). -/

namespace Sys2Proof.Machine

open Sys2Proof

/-- Device pages of a stack's range whose media is the stack's own: 80 of its 96 GiB (R13; DESIGN CHOICE, log 4). -/
def stackPages : Nat := 1310720

/-- Device pages whose media is the stack's share of the capacity tier: 252 of its 256 GiB (R180; DESIGN CHOICE, log 4). -/
def capacityPages : Nat := 4128768

/-- 64 KiB frames that device pages may use in the stack's own media, beside 12 GiB of Whey and Rind (R169), and in its share
of the capacity tier (R180). -/
def stackFrames : Nat := 1376256
def capacityFrames : Nat := 4194304

/-- A device page that nothing has changed since the cold reset: free, unversioned, G64 (R375). Which DPAs are mapped is
the model's (DESIGN CHOICE, log 4): the first 80 GiB of each stack's range in its own media, the next 252 GiB in its
share of the capacity tier, the rest not mapped. -/
def initialPage (k : Nat) : Page :=
  let off := k % 2 ^ 24
  if off < stackPages then { mapped := true, capacity := false, frame := BitVec.ofNat 32 off }
  else if off < stackPages + capacityPages then { mapped := true, capacity := true, frame := BitVec.ofNat 32 (off - stackPages) }
  else { mapped := false, capacity := false, frame := 0 }

/-- The device page of a number. -/
def State.page (s : State) (k : Nat) : Page := (Table.find s.pages k).getD (initialPage k)

/-- Write a device page. -/
def State.setPage (s : State) (k : Nat) (p : Page) : State := { s with pages := Table.write s.pages k p (initialPage k) }

/-- What a byte of device memory that nothing has written reads as: zero after a cold reset (R375). -/
def unlistedByte : Byte := 0

/-- A byte of device memory, by its DPA without the module index. -/
def State.byte (s : State) (a : Nat) : Byte := Table.read s.mem a unlistedByte

/-- Bytes of device memory in ascending address order. -/
def State.bytes (s : State) (a n : Nat) : List Byte := (List.range n).map fun k => s.byte (a + k)

/-- Write one byte; writing what an unlisted byte reads as unlists it. -/
def writeByte (m : Table Byte) (a : Nat) (b : Byte) : Table Byte := Table.write m a b unlistedByte

/-- Write bytes in ascending address order. -/
def writeBytes (m : Table Byte) (a : Nat) : List Byte → Table Byte
  | [] => m
  | b :: t => writeBytes (writeByte m a b) (a + 1) t

/-- The memory is in its canonical form: addresses strictly rising, no entry equal to what an unlisted one reads as. -/
def Memory.wf (m : Table Byte) : Bool := Table.rising m && Table.noDefault m fun _ => unlistedByte

/-- The first byte of the granule of an address, at its page's granule (R155). -/
def State.granOf (s : State) (a : Nat) : Nat := a - a % granSize (s.page (dpaPage a)).gran

-- Check codes -----------------------------------------------------------------------------------------------------------

/-- How many bits of a byte are set. -/
def weight8 (n : Nat) : Nat := (List.range 8).foldl (fun k i => k + n / 2 ^ i % 2) 0

/-- The columns of the SEC-DED code: the 56 values of weight 3, then the first 8 of weight 5, ascending (R157). -/
def secdedColumns : List Nat :=
  ((List.range 256).filter fun n => weight8 n = 3) ++ (((List.range 256).filter fun n => weight8 n = 5).take 8)

/-- The exclusive or of the columns of the data bits in error, and of the check byte's error: the syndrome (R157). -/
def syndrome (data check : Nat) : Nat :=
  ((List.range 64).zip secdedColumns).foldl (fun x c => if data / 2 ^ c.1 % 2 = 1 then Nat.xor x c.2 else x) check

/-- The data that reading a 72-bit word with an error pattern gives, as the pattern that stays in it: none when the error
is uncorrectable; the flag tells that something was corrected (R157). -/
def secdedRead (data check : Nat) : Option (Nat × Bool) :=
  let y := syndrome data check
  if y = 0 then some (data, false)
  else
    match secdedColumns.findIdx? (fun c => c = y) with
    | some j => some (Nat.xor data (2 ^ j), true)
    | none => if weight8 y = 1 then some (data, true) else none

/-- A granule lies in the capacity tier: while its page is migrated, a granule already copied lies where the page goes (R178, R182). -/
def State.capAt (s : State) (a : Nat) : Bool :=
  let p := s.page (dpaPage a)
  match (s.stack (dpaStack a)).migration with
  | some m => if p.migrating && m.page = dpaPage a && a % 2 ^ 16 / granSize p.gran < m.copied then m.capacity else p.capacity
  | none => p.capacity

/-- The 64-bit words of a SEC-DED granule carry their own code: G32, G64, and the capacity tier's 64-byte granules
(R156; for the capacity tier's own code PRESUMED the same, log 13). -/
def State.secded (s : State) (a : Nat) : Bool :=
  let g := (s.page (dpaPage a)).gran
  s.capAt a || g == 0 || g == 1

/-- Where the codeword of an address begins and its data bytes: its granule, or in the capacity tier the 64 bytes that are coded
there whatever the page's granule (R14, R179). -/
def State.codeBase (s : State) (a : Nat) : Nat := if s.capAt a then a - a % 64 else s.granOf a
def State.codeSize (s : State) (a : Nat) : Nat := if s.capAt a then 64 else granSize (s.page (dpaPage a)).gran

/-- Where the errors of a codeword of the capacity tier stand in `State.flips`, behind those of the stack tier's at the same address: both
exist while a page is moved (R182). -/
def State.codePlace (s : State) (a : Nat) : Nat := if s.capAt a then 640 else 0

/-- The error byte at a place of a codeword: data bytes first, then the side bytes in their order (R156, R158). -/
def State.flip (s : State) (base k : Nat) : Byte := Table.read s.flips (1024 * base + k) 0

/-- How many symbols of a Reed-Solomon codeword are in error: bytes of G128, pairs of bytes of G512 (R158). -/
def State.symbolErrors (s : State) (base : Nat) (g512 : Bool) : Nat :=
  if g512 then
    ((List.range 288).filter fun k => s.flip base (2 * k) ≠ 0 || s.flip base (2 * k + 1) ≠ 0).length
  else ((List.range 144).filter fun k => s.flip base k ≠ 0).length

/-- What reading a stored unit gives: its bytes, whether something was corrected; none for an uncorrectable error. -/
abbrev CodeRead := Option (List Byte × Bool)

/-- Read 64-bit word w of a codeword with its check byte at `side`, through an error pattern (R157). -/
def readWord (err : Nat → Byte) (w side : Nat) (bs : List Byte) : CodeRead :=
  match secdedRead (ofBytes ((List.range 8).map fun k => err (8 * w + k))) (err side).toNat with
  | some (left, fixed) => some (bs.zipWith (· ^^^ ·) (toBytes left 8), fixed)
  | none => none

/-- The 8-byte word at an address of a SEC-DED granule, as it reads (R157). -/
def State.readWord (s : State) (a : Nat) : CodeRead :=
  let base := s.codeBase a
  let w := (a - base) / 8
  Sys2Proof.Machine.readWord (fun k => s.flip base (s.codePlace a + k)) w (s.codeSize a + w) (s.bytes (base + 8 * w) 8)

/-- The addresses of the 8-byte words that bytes lie in. -/
def wordsAt (a n : Nat) : List Nat := (List.range ((a + n - 1) / 8 + 1 - a / 8)).map fun k => 8 * (a / 8 + k)

/-- A Reed-Solomon granule can be read, its stamp and link included, and something in it was corrected (R158, R159). -/
def State.readSymbols (s : State) (base : Nat) : Option Bool :=
  let g512 := (s.page (dpaPage base)).gran == 3
  let e := s.symbolErrors base g512
  if e = 0 then some false else if e ≤ (if g512 then 12 else 4) then some true else none

/-- Read bytes that lie in one granule, through its code (R157 to R159). Under a SEC-DED code what can be read is told word by word: only
lanes that read an uncorrectable word fault (DESIGN CHOICE, log 122). -/
def State.readCoded (s : State) (a n : Nat) : CodeRead :=
  if s.flips.isEmpty then some (s.bytes a n, false)
  else if s.secded a then
    let ws := (wordsAt a n).map s.readWord
    if ws.all (·.isSome) then
      some ((((ws.map fun w => (w.getD ([], false)).1).flatten.drop (a % 8)).take n), ws.any fun w => (w.getD ([], false)).2)
    else none
  else (s.readSymbols (s.granOf a)).map fun fixed => (s.bytes a n, fixed)

/-- Forget the errors of bytes of a codeword and of side bytes of it: a commit has written the unit whole, or it has been corrected
and rewritten (R159, R371). -/
def State.repair (s : State) (base lo n : Nat) (side : List Nat) : State :=
  { s with flips := Table.drop s.flips fun k _ =>
      k / 1024 == base && ((lo ≤ k % 1024 && k % 1024 < lo + n) || side.contains (k % 1024)) }

/-- Repair one word with its check byte. -/
def State.repairWord (s : State) (a : Nat) : State :=
  let base := s.codeBase a
  let w := (a - base) / 8
  s.repair base (s.codePlace a + 8 * w) 8 [s.codePlace a + s.codeSize a + w]

/-- Repair the units that bytes of a granule lie in: words with their check bytes, or the whole granule. -/
def State.repairRange (s : State) (a n : Nat) : State :=
  if s.flips.isEmpty then s
  else if s.secded a then (wordsAt a n).foldl State.repairWord s
  else s.repair (s.granOf a) 0 640 []

/-- Add one to a saturating 32-bit count (R336). -/
def satUp (c : BitVec 32) : BitVec 32 := if c = BitVec.allOnes 32 then c else c + 1

/-- A corrected error is counted in STACKERR (R159). -/
def State.countCorrected (s : State) (a : Nat) : State := s.modStack (dpaStack a) fun k => { k with corrected := satUp k.corrected }

/-- An uncorrectable error is counted in STACKERR (R372). -/
def State.countUncorrectable (s : State) (a : Nat) : State :=
  s.modStack (dpaStack a) fun k => { k with uncorrectable := satUp k.uncorrectable }

-- Stamps of granules ------------------------------------------------------------------------------------------------------

/-- A stored stamp as a slice keeps it: one below its last sweep's bound has been raised to it, with its origin (R175). -/
def State.aged (s : State) (slice : Nat) (x : Option Stamp) : Stamp :=
  match Table.find s.sweeps slice, x with
  | some f, some x => if (countAbove f (count x)).isSome then mkStamp f (origin x) else x
  | some f, none => mkStamp f 0
  | none, x => x.getD 0

/-- The stamp stored for a granule. -/
def State.ownStamp (s : State) (base : Nat) : Stamp :=
  s.aged (homeSlice base) ((Table.find s.gstamps base).or (s.page (dpaPage base)).base)

/-- The page stamp of the page of a granule (R166). -/
def State.pageStamp (s : State) (base : Nat) : Stamp := s.aged (homeSlice (base - base % 2 ^ 16)) (s.page (dpaPage base)).stamp

/-- The stamp a read of a granule returns: its own, or the page stamp where the page keeps only that (R166). -/
def State.versionStamp (s : State) (base : Nat) : Stamp :=
  let p := s.page (dpaPage base)
  if p.v then s.ownStamp base
  else if s.capAt base || p.gran == 0 || p.gran == 1 then s.pageStamp base
  else s.ownStamp base

/-- Give a granule a new stamp; the page stamp is the largest of its page (R166). -/
def State.setStamp (s : State) (base : Nat) (x : Stamp) : State :=
  let k := dpaPage base
  { s.setPage k { s.page k with stamp := some (stampMax (s.pageStamp base) x) } with gstamps := Table.insert s.gstamps base x }

/-- The page stamp and the default stamp of a page, where every slice of its stack has swept past them (R175): nothing then lies
2^47 counts or more below the lowest of their bounds. -/
def State.sweepPage (s : State) (k : Nat) (p : Page) : Page :=
  match (List.range 4).map fun i => Table.find s.sweeps (4 * (k / 2 ^ 24) + i) with
  | [some a, some b, some c, some d] =>
    let low := [b, c, d].foldl (fun (m x : BitVec 50) => if (countAbove m x).isSome then x else m) a
    let up (x : Option Stamp) : Option Stamp := x.map fun y => if (countAbove low (count y)).isSome then mkStamp low (origin y) else y
    { p with stamp := up p.stamp, base := up p.base }
  | _ => p

/-- A slice sweeps the granules it homes (R175): what it stores 2^47 counts or more below its count is rewritten to that count
less 2^47, with the same origin. -/
def State.sweep (s : State) (slice : Nat) : State :=
  let c := s.sliceCount slice
  let f := c - BitVec.ofNat 50 (2 ^ 47)
  let s := { s with sweptAt := Table.insert s.sweptAt slice c }
  if c.toNat < 2 ^ 47 && (Table.find s.sweeps slice).isNone then s
  else
    let s := { s with
      gstamps := Table.mapValues s.gstamps fun a x => if homeSlice a = slice && (countAbove f (count x)).isSome then mkStamp f (origin x) else x
      sweeps := Table.insert s.sweeps slice f }
    { s with pages := Table.mapValues s.pages fun k p => if k / 2 ^ 24 = slice / 4 then s.sweepPage k p else p }

/-- Merge a carried stamp into a slice's count: by maximum, and not beyond the window (R161, R162). -/
def mergeCount (cur : BitVec 50) (carried : Option Stamp) : BitVec 50 :=
  match carried with
  | some c =>
    match countAbove (count c) cur with
    | some d => if d ≤ 2 ^ 40 then count c else cur
    | none => cur
  | none => cur

/-- A slice merges what a request carries before it performs the request (R162). -/
def State.merge (s : State) (k : Nat) (carried : Option Stamp) : State := s.setCount k (mergeCount (s.sliceCount k) carried)

/-- `stamp_commit` at a slice (R161). -/
def State.stampCommit (s : State) (k : Nat) (carried : Option Stamp) : Stamp × State :=
  let c := mergeCount (s.sliceCount k) carried + 1
  (mkStamp c (s.originOf k), s.setCount k c)

-- Translation -------------------------------------------------------------------------------------------------------------

/-- A page-table entry's rules (R320): whether it is present and breaks no rule of its level. -/
def pteOk (level : Nat) (e : Word) : Bool :=
  e.getLsbD 63 && e.extractLsb' 52 3 == 0 && e.extractLsb' 0 16 == 0 &&
  (match level with
   | 3 => !e.getLsbD 62
   | 2 => !e.getLsbD 62 || e.extractLsb' 16 13 == 0
   | _ => e.getLsbD 62) &&
  (e.getLsbD 62 || e.extractLsb' 59 3 == 0)

/-- A port carries traffic: trained and not failed (R263, R377). -/
def State.portUp (s : State) (p : Nat) : Bool :=
  let q := Table.read s.fabric.ports p {}
  q.trained && !q.failed

/-- A route to a module remains (R263). -/
def State.routeUp (s : State) (m : Nat) : Bool :=
  match Table.find s.fabric.routes m with
  | some ps => ps.any s.portUp
  | none => false

/-- Why a translation is refused: a reason of R228 for the access, a reason met by the walk itself (R355), or no route to the
module of a table or of the page (R263). -/
inductive Refused where
  | reason (r : Nat)
  | walk (r : Nat)
  | link
  deriving DecidableEq, Repr, Inhabited

/-- The cause of a refusal for an access kind (R228, R355). -/
def Refused.cause (k : Nat) : Refused → Cause
  | .reason r => Cause.access k r
  | .walk r => Cause.engine Cause.eWalk r
  | .link => Cause.linkFail

/-- One page-table entry, read as a load at its home slice without a stamp (R319): one of another module's memory over the
fabric, where a route remains (log 14); one beyond the DPA range of a stack is met with reason bound. -/
def State.readPte (s : State) (d : Nat) : Except Refused Word :=
  if !s.ours d then
    if !s.routeUp (dpaModule d) then .error .link
    else
      match Config.farPte s.tick d with
      | some w => .ok w
      | none => .error (.walk Cause.rUncorrectable)
  else if stackPages + capacityPages ≤ dpaPage d % 2 ^ 24 then .error (.walk Cause.rBound)
  else if !(s.page (dpaPage d)).mapped then .error (.reason Cause.rNotPresent)
  else
    match s.readCoded (dpaLocal d) 8 with
    | some (bs, _) => .ok (BitVec.ofNat 64 (ofBytes bs))
    | none => .error (.walk Cause.rUncorrectable)

/-- The frame of an entry: DPA [51:16]. -/
def pteFrame (e : Word) : Nat := (e.extractLsb' 16 36).toNat * 2 ^ 16

/-- The walk of three levels (R319, R320): the leaf, whether it is a 512 MiB page, and where the leaf entry lies. -/
def State.walk (s : State) (root : BitVec 35) (va : Word) : Except Refused (Word × Bool × Nat) := do
  let a3 := root.toNat * 2 ^ 17 + 8 * (va.extractLsb' 42 14).toNat
  let e3 ← s.readPte a3
  if !pteOk 3 e3 then .error (.reason Cause.rNotPresent) else
  let a2 := pteFrame e3 + 8 * (va.extractLsb' 29 13).toNat
  let e2 ← s.readPte a2
  if !pteOk 2 e2 then .error (.reason Cause.rNotPresent) else
  if e2.getLsbD 62 then .ok (e2, true, a2) else
  let a1 := pteFrame e2 + 8 * (va.extractLsb' 16 13).toNat
  let e1 ← s.readPte a1
  if !pteOk 1 e1 then .error (.reason Cause.rNotPresent) else .ok (e1, false, a1)

/-- The entries that a walk reads, as far as it comes. -/
def State.walkReads (s : State) (root : BitVec 35) (va : Word) : List Nat :=
  let a3 := root.toNat * 2 ^ 17 + 8 * (va.extractLsb' 42 14).toNat
  match s.readPte a3 with
  | .error _ => [a3]
  | .ok e3 =>
    let a2 := pteFrame e3 + 8 * (va.extractLsb' 29 13).toNat
    if !pteOk 3 e3 then [a3]
    else
      match s.readPte a2 with
      | .error _ => [a3, a2]
      | .ok e2 => if !pteOk 2 e2 || e2.getLsbD 62 then [a3, a2] else [a3, a2, pteFrame e2 + 8 * (va.extractLsb' 16 13).toNat]

/-- The leaf of a virtual page, as a translation cache keeps it: with the frame of the 64 KiB page itself. -/
def leafFor (va e : Word) (big : Bool) : Word :=
  if big then e ||| (va &&& 0x1FFF0000#64) else e

/-- The key of a cached translation: 0 to 255 a core's, 256 to 319 a cluster's, then context and virtual page (R321). -/
def tlbKey (unit : Nat) (ctx : BitVec 12) (va : Word) : Nat :=
  (unit * 2 ^ 12 + ctx.toNat) * 2 ^ 40 + (va.extractLsb' 16 40).toNat

/-- The walk of a context's tables. -/
def State.leafWalk (s : State) (ctx : BitVec 12) (va : Word) : Except Refused Word :=
  match Table.find s.ctxs ctx.toNat with
  | none => .error (.reason Cause.rNotPresent)
  | some c => do
    let (e, big, _) ← s.walk c.root va
    .ok (leafFor va e big)

/-- A cached translation of a page that a core or its cluster may still hold, where it is what serves this access (R321, log 8). -/
def State.cachedLeaf (s : State) (core : Nat) (ctx : BitVec 12) (va : Word) : Option Word :=
  let take (k : Nat) (e : Word) : Option Word := if Config.pick s.tick (2 ^ 65 + k) then some e else none
  match Table.find s.tlb (tlbKey core ctx va), Table.find s.tlb (tlbKey (256 + core / 4) ctx va) with
  | some e, _ => take (tlbKey core ctx va) e
  | none, some e => take (tlbKey (256 + core / 4) ctx va) e
  | none, none => none

/-- Translate the page of an address for a context, on behalf of a core: through a cached translation that may still be
held, or by a walk, whose answer the caches then may hold (R319 to R321, log 8). -/
def State.leaf (s : State) (core : Nat) (ctx : BitVec 12) (va : Word) : Except Refused Word :=
  if !canonical va then .error (.reason Cause.rBound)
  else
    match s.cachedLeaf core ctx va with
    | some e => .ok e
    | none => s.leafWalk ctx va

/-- Keep a translation in the caches of a core and of its cluster (R321). -/
def State.cacheLeaf (s : State) (core : Nat) (ctx : BitVec 12) (va e : Word) : State :=
  { s with tlb := Table.insert (Table.insert s.tlb (tlbKey core ctx va) e) (tlbKey (256 + core / 4) ctx va) e }

/-- The permissions an access needs (R320): read, write, fetch. -/
structure Need where
  r : Bool := false
  w : Bool := false
  x : Bool := false
  deriving DecidableEq, Repr, Inhabited

/-- The leaf's permission bits and the user bit allow the access (R320). -/
def leafAllows (e : Word) (sys : Bool) (n : Need) : Bool :=
  (!n.r || e.getLsbD 58) && (!n.w || e.getLsbD 57) && (!n.x || e.getLsbD 56) && (sys || e.getLsbD 55)

/-- The owner entry lets the context use the page (R323): [15] shared, or the owner is the context. -/
def ownerAllows (o : BitVec 16) (ctx : BitVec 12) : Bool := o.getLsbD 15 || (o.extractLsb' 0 12 == ctx && ctx != 0)

/-- The DPA an address has under a leaf. -/
def leafDpa (e va : Word) : Nat := pteFrame e + (va.extractLsb' 0 16).toNat

/-- What the home slice's page says of an access: not mapped, or refused by its owner entry (R178, R323). Another
module's page is judged there. -/
def State.pageRefuses (s : State) (ctx : BitVec 12) (d : Nat) : Option Nat :=
  if s.ours d then
    let p := s.page (dpaPage d)
    if !p.mapped then some Cause.rNotPresent
    else if !ownerAllows p.owner ctx then some Cause.rPermission
    else none
  else none

/-- Translate an address for an access of a context (R227, R228, R320, R323): its DPA, or the refusal, with the reasons
in the order bound, not present, permission (R229). -/
def State.translate (s : State) (core : Nat) (ctx : BitVec 12) (n : Need) (va : Word) : Except Refused Nat := do
  let e ← s.leaf core ctx va
  let d := leafDpa e va
  match s.pageRefuses ctx d with
  | some r => .error (.reason r)
  | none => if leafAllows e (s.sysPriv ctx) n then .ok d else .error (.reason Cause.rPermission)

end Sys2Proof.Machine
end

