-- ==== Sys2Proof/Machine/Slice.lean ====
section
/-! DEFINITION. What a home slice and its stack do to one granule: commits with the Whey (R161, R169 to R173, R371 to
R373), reads (R166), as-of reads (R174), atomics (R237, R239); reclaiming (R170, R171); the Turner's counts (R180). -/

namespace Sys2Proof.Machine

open Sys2Proof

/-- Every hold on the module lets a record with this superseding stamp be reclaimed (R171, R172). -/
def State.holdsAllow (s : State) (sup : Stamp) : Bool := s.holds.all fun h => stampLe sup h.2.stamp

/-- Place a broadcast; it is applied when its round closes (R209, R264). -/
def State.broadcast (s : State) (src : Nat) (b : Broadcast) : State := { s with bcasts := s.bcasts ++ [(src, b)] }

/-- Reclaim the oldest record of a stack (R170): the base passes it and H rises to its superseding stamp. -/
def State.reclaim (s : State) (k : Nat) : State :=
  let st := s.stack k
  match st.log with
  | [] => s
  | r :: t =>
    let h := stampMax st.h r.sup
    let base := match t with | r' :: _ => r'.pos | [] => st.next
    (s.modStack k fun st => { st with log := t, base := base, h := h, freed := st.freed + 1 }).broadcast (64 + k) (.horizon k h)

/-- How often a refused append of a stack could have come to find room (R173): its reclaims, and the holds that have ended. -/
def State.freedAt (s : State) (k : Nat) : Nat := (s.stack k).freed + s.holdsEnded

/-- A refused append or reservation may be tried again (R173): once in every round, and at once when the stack has reclaimed a
record or a hold has ended. -/
def State.mayRetry (s : State) (round freed stack : Nat) : Bool := round ≠ s.round || freed ≠ s.freedAt stack

/-- Bytes of a stack's Whey that regions have reserved (R252), those of one region left out. -/
def State.reservedBytes (s : State) (k : Nat) (except : Option Nat) : Nat :=
  s.slots.foldl (fun n p => if except = some p.1 then n else n + Table.read p.2.reserved k 0) 0

/-- Room for so many bytes in a stack's Whey. -/
def State.wheyRoom (s : State) (k n : Nat) (except : Option Nat) : Bool :=
  let st := s.stack k
  (st.next - st.base) + s.reservedBytes k except + n ≤ st.whey

/-- Make room by reclaiming from the oldest end, as far as holds allow (R171); `fuel` records at most. -/
def State.makeRoom (s : State) (k n : Nat) (except : Option Nat) : Nat → State
  | 0 => s
  | fuel + 1 =>
    if s.wheyRoom k n except then s
    else
      match (s.stack k).log with
      | [] => s
      | r :: _ => if s.holdsAllow r.sup then State.makeRoom (s.reclaim k) k n except fuel else s

/-- The bytes of a record: a header of 32 and the old data (R169). -/
def recordBytes (g : BitVec 2) : Nat := 32 + granSize g

/-- Append the current version of a granule to the Whey of its stack; the flag tells whether there was room (R169, R173). The stamps
of the record are the granule's own and the one that supersedes it. -/
def State.append (s : State) (base : Nat) (data : List Byte) (sup : Stamp) (except : Option Nat) : State × Bool :=
  let k := dpaStack base
  let g := (s.page (dpaPage base)).gran
  let n := recordBytes g
  let s := s.makeRoom k n except ((s.stack k).log.length + 1)
  if s.wheyRoom k n except then
    let pos := (s.stack k).next
    let r : WheyRec := ⟨pos, g, s.dpaOf base, s.ownStamp base, sup, Table.find s.glinks base, data, []⟩
    let s := s.modStack k fun st => { st with log := st.log ++ [r], next := pos + n, refused := 0 }
    ({ s with glinks := Table.insert s.glinks base pos }, true)
  else (s.modStack k fun st => { st with refused := st.refused + 1 }, false)

/-- Drop a granule's link: no older version is reachable (R167, R373). -/
def State.unlink (s : State) (base : Nat) : State := { s with glinks := Table.erase s.glinks base }

/-- The 8-byte words, or the whole granule, that carry one code (R156): first byte and length of the unit of a byte. -/
def State.unitOf (s : State) (a : Nat) : Nat × Nat :=
  if s.secded a then (a - a % 8, 8) else (s.granOf a, granSize (s.page (dpaPage a)).gran)

/-- A byte is written by some part of a commit. -/
def written (ws : List (Nat × List Byte)) (a : Nat) : Bool := ws.any fun w => w.1 ≤ a && a < w.1 + w.2.length

/-- A commit would write only a part of a unit whose stored code is uncorrectable (R372). -/
def State.partial? (s : State) (ws : List (Nat × List Byte)) : Bool :=
  !s.flips.isEmpty &&
  ws.any fun w =>
    (List.range w.2.length).any fun i =>
      let u := s.unitOf (w.1 + i)
      (s.readCoded u.1 u.2).isNone && !(List.range u.2).all fun j => written ws (u.1 + j)

/-- The commit's launch keeps the old bytes for its own fetches (R36). -/
def hide (h : Table Byte) (old : Nat → Byte) (a : Nat) : Nat → Table Byte
  | 0 => h
  | n + 1 =>
    let h := hide h old a n
    if (Table.find h (a + n)).isSome then h else Table.insert h (a + n) (old (a + n))

/-- Note for a launch the bytes its own store replaces (R36). -/
def State.hideFor (s : State) (l : Option Nat) (ws : List (Nat × List Byte)) : State :=
  match l with
  | none => s
  | some i =>
    let old := s.byte
    { s with launches := Table.modify s.launches i fun x =>
        { x with hidden := ws.foldl (fun h w => hide h old w.1 w.2.length) x.hidden } }

/-- The bytes of the modified lines of a slice. -/
def State.dirtyBytes (s : State) (slice : Nat) : Nat :=
  s.dirty.foldl (fun n p => if homeSlice p.1 = slice then n + p.2.length else n) 0

/-- A slice holds 8 MiB (R10): modified lines are written back, in an order the manual leaves open, until no more are listed. -/
def State.writeBack (s : State) (slice : Nat) : Nat → State
  | 0 => s
  | fuel + 1 =>
    if s.dirtyBytes slice ≤ 2 ^ 23 then s
    else
      let own := (s.dirty.filter fun p => homeSlice p.1 = slice).map (·.1)
      let out := own.getD ((Config.freeValue s.tick (2 ^ 73 + fuel)).toNat % own.length) 0
      State.writeBack { s with dirty := Table.erase s.dirty out } slice fuel

/-- Put the bytes of a commit in place: memory, codes, and what media still holds (R346). -/
def State.place (s : State) (base : Nat) (ws : List (Nat × List Byte)) : State :=
  let size := granSize (s.page (dpaPage base)).gran
  let s := if (Table.find s.dirty base).isSome then s
    else ({ s with dirty := Table.insert s.dirty base (s.bytes base size) } : State).writeBack (homeSlice base) 16
  let s := ws.foldl (fun s w => s.repairRange w.1 w.2.length) s
  { s with mem := ws.foldl (fun m w => writeBytes m w.1 w.2) s.mem }

/-- What becomes of a commit at its slice. -/
inductive Committed where
  | done (x : Stamp) (s : State)
  /-- its Whey append found no room (R173) -/
  | refused (s : State)
  /-- it was dropped (R372) -/
  | dropped (s : State)
  deriving Repr

/-- Commit bytes to one granule at its home slice (R152, R161): the stamp is formed there, or is a region's (`given`).
On a versioned page the old version goes to the Whey, except where its data is uncorrectable (R373). -/
def State.commit (s : State) (base : Nat) (ws : List (Nat × List Byte)) (carried given : Option Stamp)
    (launch slot : Option Nat) : Committed :=
  let p := s.page (dpaPage base)
  if s.partial? ws then .dropped (s.countUncorrectable base)
  else
    let k := homeSlice base
    let (x, s1) := match given with
      | some x => (x, s)
      | none => s.stampCommit k carried
    let finish (s : State) : Committed := .done x (((s.hideFor launch ws).place base ws).setStamp base x)
    if p.v then
      match s1.readCoded base (granSize p.gran) with
      | none => finish (s1.unlink base)
      | some (old, _) =>
        match s1.append base old x slot with
        | (s2, true) => finish s2
        | (s2, false) => .refused { s2 with counts := s.counts }
    else finish s1

/-- Where a granule lies for the Turner: in the capacity tier. -/
def State.inCapacity (s : State) (base : Nat) : Bool := s.capAt base

/-- The virtual addresses of a range's pages (R181). -/
def Range.pages (r : Range) : List Nat := (List.range (r.len / 2 ^ 16)).map fun k => r.base + 2 ^ 16 * k

/-- The device pages of a range as the launch's context maps them now, ascending (R181). -/
def State.rangePages (s : State) (ctx : BitVec 12) (r : Range) : List Nat :=
  sortBy (fun a b => a ≤ b) (r.pages.filterMap fun va =>
    match s.leafWalk ctx (BitVec.ofNat 64 va) with
    | .ok e => if s.ours (pteFrame e) then some (dpaPage (pteFrame e)) else none
    | .error _ => none)

/-- The range that gives a device page its class: of the launches resident, the most recently accepted that names it (R181); of
that launch's ranges the first listed (log 102). The answer is the launch, the range's index and its class. -/
def State.rangeOf (s : State) (page : Nat) : Option (Nat × Nat × BitVec 2) :=
  s.launches.foldl (fun acc l =>
    match l.2.ranges.find? fun r => (s.rangePages l.2.ctx r).contains page with
    | some r => some (l.1, r.idx, r.cls)
    | none => acc) none

/-- The ranges that name a device page, by launch x 1024 + index (R181). -/
def State.rangesNaming (s : State) (page : Nat) : List Nat :=
  s.launches.flatMap fun l => (l.2.ranges.filter fun r => (s.rangePages l.2.ctx r).contains page).map fun r => 1024 * l.1 + r.idx

/-- A period of 2^20 requests ends with its last request (R180): the ranges' counts of it are kept for the Turner. -/
def Stack.endPeriod (st : Stack) : Stack :=
  if st.period < 2 ^ 20 then st
  else
    { st with
      period := 0
      ended := st.ended ++ [st.counts]
      counts := Table.mapValues st.counts fun _ (c : RangeCount) => { c with reqs := 0, capReqs := 0 }
      promoted := 0
      demoted := 0 }

/-- A granule request is counted in its stack's period, and in the ranges that name its page (R180, R181). -/
def State.countRequest (s : State) (base : Nat) : State :=
  let keys := s.rangesNaming (dpaPage base)
  let cap := if s.inCapacity base then 1 else 0
  s.modStack (dpaStack base) fun st =>
    { st with
      period := st.period + 1
      counts := keys.foldl (fun t key =>
        let c := Table.read t key {}
        Table.insert t key { c with reqs := c.reqs + 1, capReqs := c.capReqs + cap }) st.counts }.endPeriod

/-- The bytes an item of a load reads; a corrected error is rewritten and counted (R159). -/
def State.readItem (s : State) (a n : Nat) : Option (List Byte) × State :=
  match s.readCoded a n with
  | some (bs, true) => (some bs, (s.repairRange a n).countCorrected a)
  | some (bs, false) => (some bs, s)
  | none => (none, s.countUncorrectable a)

/-- A walk has been made for an access: its reads are counted, what could be corrected is rewritten (R159, R180, R319), and its
answer may be kept (R321). -/
def State.walked (s : State) (core : Nat) (ctx : BitVec 12) (va : Word) : State :=
  let reads := if !canonical va || (s.cachedLeaf core ctx va).isSome then []
    else ((Table.find s.ctxs ctx.toNat).map fun c => (s.walkReads c.root va).filter s.ours).getD []
  let t := reads.foldl (fun s d => ((s.readItem (dpaLocal d) 8).2).countRequest (s.granOf (dpaLocal d))) s
  match s.leaf core ctx va with
  | .ok e => t.cacheLeaf core ctx va e
  | .error _ => t

/-- The words of a Whey record as they read, with the G64 code (R157, R169): whether one was corrected; none where one cannot be. -/
def WheyRec.reads (r : WheyRec) : Option Bool :=
  if r.flips.isEmpty then some false
  else
    let n := recordBytes r.gran
    let ws := (List.range (n / 8)).map fun w => readWord (fun k => Table.read r.flips k 0) w (n + w) []
    if ws.all (·.isSome) then some (ws.any fun w => (w.getD ([], false)).2) else none

/-- Where an as-of walk ends (R174, R373). -/
inductive Walked where
  | found (r : WheyRec)
  | reclaimed
  | bad
  deriving DecidableEq, Repr

/-- The version of a granule that an as-of walk reaches (R174), with the positions of the records it has read; none when a needed
version is reclaimed. `fuel` bounds the chain by the records kept. -/
def walkVersions (log : List WheyRec) (rbase : Nat) (t : Stamp) (link : Option Nat) (met : List Nat) : Nat → Walked × List Nat
  | 0 => (.reclaimed, met)
  | fuel + 1 =>
    match link with
    | none => (.reclaimed, met)
    | some p =>
      if p < rbase then (.reclaimed, met)
      else
        match log.find? (fun r => r.pos == p) with
        | none => (.reclaimed, met)
        | some r =>
          if r.reads.isNone then (.bad, met)
          else if stampLe r.old t then (.found r, met ++ [p])
          else walkVersions log rbase t r.link (met ++ [p]) fuel

/-- Records that a walk has read with a corrected error are rewritten, and each is counted (R159). -/
def State.repairRecords (s : State) (k : Nat) (met : List Nat) : State :=
  let fixed := ((s.stack k).log.filter fun r => met.contains r.pos && r.reads == some true).length
  if fixed = 0 then s
  else s.modStack k fun st => { st with
    corrected := (List.range fixed).foldl (fun c _ => satUp c) st.corrected
    log := st.log.map fun r => if met.contains r.pos then { r with flips := [] } else r }

/-- The stamp and the link of a granule can be read where they lie inline, under its Reed-Solomon code (R156, R159). -/
def State.readInline (s : State) (base : Nat) : Bool × State :=
  if s.flips.isEmpty || s.secded base then (true, s)
  else
    match s.readSymbols base with
    | some true => (true, (s.repairRange base 1).countCorrected base)
    | some false => (true, s)
    | none => (false, s.countUncorrectable base)

/-- T's count lies more than 2^40 above a slice's count (R162). -/
def State.beyondWindow (s : State) (k : Nat) (t : Stamp) : Bool :=
  match countAbove (count t) (s.sliceCount k) with
  | some d => decide (2 ^ 40 < d)
  | none => false

/-- `asof_read` of bytes of one granule at T (R174): the bytes, or the cause. H is the one of the last round closed (R170). -/
def State.asof (s : State) (base : Nat) (t : Stamp) (a n : Nat) : Except Cause (List Byte) × State :=
  let p := s.page (dpaPage base)
  let k := homeSlice base
  let st := s.stack (dpaStack base)
  let cur := s.sliceCount k
  let bad : Cause := Cause.access Cause.kAsof Cause.rUncorrectable
  if !p.v then (.error Cause.notVersioned, s)
  else if s.beyondWindow k t then (.error Cause.stampWindow, s)
  else
    match stampCmp t st.hRound with
    | .far => (.error Cause.stampWindow, s)
    | .lt => (.error Cause.histReclaimed, s)
    | _ =>
      let s := if stampLe t (mkStamp cur (s.originOf k)) then s else s.setCount k (count t)
      match s.readInline base with
      | (false, s) => (.error bad, s)
      | (true, s) =>
        if stampLe (s.ownStamp base) t then
          match s.readItem a n with
          | (some bs, s) => (.ok bs, s)
          | (none, s) => (.error bad, s)
        else
          match walkVersions st.log st.base t (Table.find s.glinks base) [] (st.log.length + 1) with
          | (.found r, met) => (.ok ((r.data.drop (a - base)).take n), s.repairRecords (dpaStack base) met)
          | (.reclaimed, met) => (.error Cause.histReclaimed, s.repairRecords (dpaStack base) met)
          | (.bad, met) => (.error bad, (s.repairRecords (dpaStack base) met).countUncorrectable base)

end Sys2Proof.Machine
end

