-- ==== Sys2Proof/Machine/Link.lean ====
section
/-! DEFINITION. The fabric interface's sending side (R261 to R263) and the mailbox's completion queue with the interrupt
vectors (R259, R260, R361). -/

namespace Sys2Proof.Machine

open Sys2Proof

/-- A module of the domain: this one, or one the route table names (R244, R261). -/
def State.inDomain (s : State) (m : Nat) : Bool := m == s.fabric.index.toNat || (Table.find s.fabric.routes m).isSome

/-- Send a payload to a module: the next flit of the ordered pair, kept until it is acknowledged (R262). -/
def State.send (s : State) (dst : BitVec 8) (body : Payload) : State :=
  let k := dst.toNat
  let n := Table.read s.fabric.sent k 0
  let f : Flit := ⟨s.fabric.index, dst, BitVec.ofNat 32 n, BitVec.ofNat 32 (Table.read s.fabric.accepted k 0), body⟩
  { s with fabric := { s.fabric with
      sent := Table.write s.fabric.sent k (n + 1) 0
      unacked := Table.write s.fabric.unacked k (Table.read s.fabric.unacked k [] ++ [f]) []
      wire := f :: s.fabric.wire } }

/-- Raise an MSI-X vector (R260). -/
def State.raiseVector (s : State) (v : Nat) : State := { s with msix := v :: s.msix }

/-- The queue size is one the mailbox works with: a power of two from 16 to 4,096 (R259). -/
def queueSize (w : Word) : Option Nat :=
  let n := (w.extractLsb' 0 16).toNat
  if n ∈ [16, 32, 64, 128, 256, 512, 1024, 2048, 4096] then some n else none

/-- The mailbox is enabled (R259). -/
def State.mailboxOn (s : State) : Bool := s.mbx.ctl.getLsbD 0 && (queueSize s.mbx.qsize).isSome

/-- The completion queue has room: one entry stays free, so that a full queue is told from an empty one (log 15). -/
def State.completionRoom (s : State) : Bool :=
  match queueSize s.mbx.qsize with
  | some q => s.mailboxOn && (s.mbx.posted + q - s.mbx.cqhead.toNat % q) % q + 1 < q
  | none => false

/-- Write a completion entry at the next place of the queue, with its phase bit (R259). -/
def State.writeCompletion (s : State) (w0 w1 : Word) : State :=
  let q := (queueSize s.mbx.qsize).getD 1
  let n := s.mbx.posted
  let phase : Word := if n / q % 2 = 0 then 0x8000000000000000 else 0
  let a := s.mbx.cqbase.toNat + 16 * (n % q)
  { s with
    hostMem := writeBytes s.hostMem a (toBytes (w0 ||| phase).toNat 8 ++ toBytes w1.toNat 8)
    mbx := { s.mbx with posted := n + 1 } }

/-- The first word of a command completion: tag and status (R259). -/
def completionWord (tag : BitVec 16) (status : Cause) : Word := status.setWidth 64 <<< 16 ||| tag.setWidth 64

/-- Complete a command: the entry goes to the queue, or waits for room (R259, R260). -/
def State.complete (s : State) (tag : BitVec 16) (status : Cause) : State :=
  if s.completionRoom && s.mbx.waiting.isEmpty then (s.writeCompletion (completionWord tag status) 0).raiseVector 0
  else { s with mbx := { s.mbx with waiting := s.mbx.waiting ++ [(completionWord tag status, 0)] } }

/-- The kinds of cause record (R361). -/
inductive RecordKind where
  | waveFault | commandError | holdRevoked | task | writeDropped | machine | groupEnded
  deriving DecidableEq, Repr, Inhabited

/-- The kind's number (R361). -/
def RecordKind.code : RecordKind → BitVec 16
  | .waveFault => 1 | .commandError => 2 | .holdRevoked => 3 | .task => 4 | .writeDropped => 5 | .machine => 6
  | .groupEnded => 7

/-- The first word of a cause record without its phase (R361). -/
def recordWord (k : RecordKind) (c : Cause) (ctx : BitVec 12) (core slot : Nat) : Word :=
  (1 : BitVec 2) ++ ctx ++ BitVec.ofNat 8 core ++ BitVec.ofNat 5 slot ++ (0 : BitVec 12) ++ c ++ k.code

/-- Post a cause record: to the queue, else to the device buffer of 1,024 entries, else it is counted as lost (R361). -/
def State.record (s : State) (k : RecordKind) (c : Cause) (ctx : BitVec 12) (core slot : Nat) (w1 : Word) : State :=
  let w0 := recordWord k c ctx core slot
  if s.completionRoom && s.mbx.waiting.isEmpty && s.mbx.records.isEmpty then (s.writeCompletion w0 w1).raiseVector 2
  else if s.mbx.records.length < 1024 then { s with mbx := { s.mbx with records := s.mbx.records ++ [(w0, w1)] } }
  else { s with mbx := { s.mbx with lost := if s.mbx.lost = BitVec.allOnes 16 then s.mbx.lost else s.mbx.lost + 1 } }

/-- Write what waits for the completion queue, completions before records, as far as room goes (R361). -/
def State.drain (s : State) : Nat → State
  | 0 => s
  | fuel + 1 =>
    if !s.completionRoom then s
    else
      match s.mbx.waiting with
      | (a, b) :: t => State.drain ({ (s.writeCompletion a b).raiseVector 0 with
          mbx := { (s.writeCompletion a b).mbx with waiting := t } }) fuel
      | [] =>
        match s.mbx.records with
        | (a, b) :: t => State.drain ({ (s.writeCompletion a b).raiseVector 2 with
            mbx := { (s.writeCompletion a b).mbx with records := t } }) fuel
        | [] => s

end Sys2Proof.Machine
end

