-- ==== Sys2Proof/Machine/Unit.lean ====
section
/-! DEFINITION. The Region Order Unit: edges and reachability, the cycle rule (R250), aborts and their cascades (R251). -/

namespace Sys2Proof.Machine

open Sys2Proof

/-- The slots of the Unit (R246). -/
def unitSlots : Nat := 256

/-- The slots that edges lead to from one. -/
def State.successors (s : State) (k : Nat) : List Nat := ((Table.find s.slots k).map fun x => x.edges.map (·.1)).getD []

/-- Grow a set of slots by the slots its members' edges lead to. -/
def State.grow (s : State) (set : List Nat) : List Nat :=
  set.foldl (fun acc k => (s.successors k).foldl (fun acc j => if acc.contains j then acc else acc ++ [j]) acc) set

/-- Grow a set so many times. -/
def State.closure (s : State) (set : List Nat) : Nat → List Nat
  | 0 => set
  | n + 1 => State.closure s (s.grow set) n

/-- The recorded edges hold a path from one region to another (R250, R348). -/
def State.reach (s : State) (x y : Nat) : Bool := (s.closure (s.successors x) unitSlots).contains y

/-- A start count is older than another (R247). -/
def older (a b : BitVec 50) : Bool := (countAbove b a).isSome

/-- The start count of a slot. -/
def State.startOf (s : State) (k : Nat) : BitVec 50 := ((Table.find s.slots k).map (·.start)).getD 0

/-- The slot of a list with the lowest start stamp. -/
def State.oldest (s : State) (l : List Nat) : Nat :=
  l.foldl (fun m k => if older (s.startOf k) (s.startOf m) then k else m) (l.headD 0)

/-- The slot of a list with the highest start stamp. -/
def State.youngest (s : State) (l : List Nat) : Nat :=
  l.foldl (fun m k => if older (s.startOf m) (s.startOf k) then k else m) (l.headD 0)

/-- The record that `sc` receives: the `xabt` code and the cause (R251). -/
def abortWord (code : BitVec 8) (c : Cause) : Word := (0 : BitVec 40) ++ code ++ (0 : BitVec 7) ++ c

/-- The Unit removes one region: its entries, uncommitted writes and edges are discarded, its slot is free, the abort is
broadcast, and its wave awaits delivery (R251). -/
def State.removeSlot (s : State) (k : Nat) (word : Word) : State :=
  match Table.find s.slots k with
  | none => s
  | some x =>
    let s := { s with
      slots := Table.mapValues (Table.erase s.slots k) fun _ y => { y with edges := y.edges.filter fun e => e.1 ≠ k }
      reqs := Table.drop s.reqs fun _ r => r.slot == some k }
    let s := s.broadcast 80 (.abort k)
    s.modWave x.g x.w fun wv =>
      { wv with region := wv.region.map fun r => if r.slot = k && r.aborted.isNone then { r with aborted := some word } else r }

/-- `abort(R, cause)` with its cascade over forward edges (R251); no chain of regions is longer than the slots. -/
def State.abort (s : State) (k : Nat) (word : Word) : Nat → State
  | 0 => s
  | fuel + 1 =>
    let consumers := ((Table.find s.slots k).map fun x => (x.edges.filter fun e => e.2 == .forward).map (·.1)).getD []
    consumers.foldl (fun s j => State.abort s j (abortWord 0 Cause.xrCascade) fuel) (s.removeSlot k word)

/-- Abort a region. -/
def State.abortRegion (s : State) (k : Nat) (code : BitVec 8) (c : Cause) : State := s.abort k (abortWord code c) (unitSlots + 1)

/-- Record an edge, once. -/
def State.recordEdge (s : State) (f g : Nat) (kind : EdgeKind) : State :=
  { s with slots := Table.modify s.slots f fun x =>
      if x.edges.contains (g, kind) then x else { x with edges := x.edges ++ [(g, kind)] } }

/-- `add_edge(F, G)` for G's access (R250): false when G was aborted and its access is not performed. -/
def State.addEdge (s : State) (f g : Nat) (kind : EdgeKind) : Nat → State × Bool
  | 0 => (s, true)
  | fuel + 1 =>
    if s.reach g f then
      let c := [f, g] ++ (s.slots.keys.filter fun r => r ≠ f && r ≠ g && s.reach g r && s.reach r f)
      let o := s.oldest c
      if g ≠ o then (s.abortRegion g 0 Cause.xrCycle, false)
      else State.addEdge (s.abortRegion (s.youngest (c.filter (· ≠ o))) 0 Cause.xrCycle) f g kind fuel
    else if (Table.find s.slots f).isSome then (s.recordEdge f g kind, true)
    else (s, true)

/-- A live region with an entry on a granule. -/
def State.onGranule (s : State) (base : Nat) : List Nat :=
  (s.slots.filter fun p => p.2.dir.any fun d => d.gran == base).map (·.1)

/-- How many directory entries a slice holds (R248). -/
def State.entriesAt (s : State) (slice : Nat) : Nat :=
  s.slots.foldl (fun n p => n + (p.2.dir.filter fun d => homeSlice d.gran == slice).length) 0

/-- Note in a region's directory that it has read or written a granule (R248). -/
def State.enter (s : State) (k base : Nat) (write : Bool) : State :=
  { s with slots := Table.modify s.slots k fun x =>
      if x.dir.any fun d => d.gran == base then
        { x with dir := x.dir.map fun d =>
            if d.gran == base then { d with reads := d.reads || !write, writes := d.writes || write } else d }
      else { x with dir := x.dir ++ [⟨base, !write, write⟩] } }

/-- An uncommitted byte of a region: its last write to it (R206). -/
def uncommitted (ws : List UWrite) (a : Nat) : Option (Nat × Byte) :=
  ws.foldl (fun acc w => if w.addr ≤ a && a < w.addr + w.data.length then some (w.order, w.data.getD (a - w.addr) 0) else acc) none

/-- A byte as a region reads it: of its own writes and of its forward sources' the one performed last, else the committed
byte (R206, R249). -/
def State.regionByte (s : State) (k : Nat) (sources : List Nat) (a : Nat) (committed : Byte) : Byte :=
  match (Table.find s.slots k).bind (fun x => uncommitted x.writes a) with
  | some (_, b) => b
  | none =>
    ((sources.filterMap fun f => (Table.find s.slots f).bind fun x => uncommitted x.writes a).foldl
      (fun (acc : Option (Nat × Byte)) w =>
        match acc with
        | some (n, _) => if n < w.1 then some w else acc
        | none => some w) none).elim committed (·.2)

end Sys2Proof.Machine
end

