-- ==== Sys2Proof/Machine/Ops.lean ====
section
/-! DEFINITION. The named operations the meanings share: local buffers and barrier words (R184 to R186, R281, R305), the
release of a store queue (R233), retiring an instruction (R45, R51), taking a fault (R358 to R361, R416) and ending a
group, waking, and the checks every instruction passes before it acts (R39, R40, R61, R62). -/

namespace Sys2Proof.Machine

open Sys2Proof

-- Local spaces -----------------------------------------------------------------------------------------------------------

/-- The group's allocation of a local space. -/
def Group.buf (gr : Group) : Space → Buf
  | .wb => gr.wb
  | .ab => gr.ab
  | .cb => gr.cb
  | _ => gr.sp

/-- Replace the group's allocation of a local space. -/
def Group.setBuf (gr : Group) (sp : Space) (b : Buf) : Group :=
  match sp with
  | .wb => { gr with wb := b }
  | .ab => { gr with ab := b }
  | .cb => { gr with cb := b }
  | _ => { gr with sp := b }

/-- The physical bytes of a local space (R17, R18). -/
def physical : Space → Nat
  | .wb => 2 * 2 ^ 20
  | .ab => 2 ^ 20
  | .cb => 512 * 2 ^ 10
  | _ => 512 * 2 ^ 10

/-- The valid bit of the 4-byte word of an offset (R184). -/
def Buf.isValid (b : Buf) (off : Nat) : Bool := Table.read b.valid (off / 4) false

/-- A byte of an allocation; a byte of an invalid word reads as zero (R185). -/
def Buf.byte (b : Buf) (off : Nat) : Byte := if b.isValid off then Table.read b.bytes off 0 else 0

/-- Bytes of an allocation in ascending order. -/
def Buf.read (b : Buf) (off n : Nat) : List Byte := (List.range n).map fun k => b.byte (off + k)

/-- Every word that the bytes lie in is valid. -/
def Buf.allValid (b : Buf) (off n : Nat) : Bool := (List.range n).all fun k => b.isValid (off + k)

/-- Write one byte: in an invalid word the other bytes become zero and the word valid (R184). -/
def Buf.writeByte (b : Buf) (off : Nat) (x : Byte) : Buf :=
  let w := off / 4
  let clean := if b.isValid off then b.bytes
    else Table.erase (Table.erase (Table.erase (Table.erase b.bytes (4 * w)) (4 * w + 1)) (4 * w + 2)) (4 * w + 3)
  { b with bytes := Table.write clean off x 0, valid := Table.write b.valid w true false }

/-- Write bytes in ascending order. -/
def Buf.put (b : Buf) (off : Nat) : List Byte → Buf
  | [] => b
  | x :: t => Buf.put (b.writeByte off x) (off + 1) t

/-- Write bytes: a word written whole has a good code again, one written in part keeps its error (R370, log 92). -/
def Buf.write (b : Buf) (off : Nat) (l : List Byte) : Buf :=
  { b.put off l with bad := Table.drop b.bad fun w _ => off ≤ 4 * w && 4 * w + 4 ≤ off + l.length }

/-- No word that the bytes lie in holds an uncorrectable error (R370). -/
def Buf.sound (b : Buf) (off n : Nat) : Bool := (List.range n).all fun k => !Table.read b.bad ((off + k) / 4) false

/-- The wave that writes the words has come so far in its causal stamp (R203). -/
def Buf.noteStamps (b : Buf) (off n : Nat) (x : Stamp) : Buf :=
  let ws := ((List.range n).map fun k => (off + k) / 4).eraseDups
  { b with stamps := ws.foldl (fun t w => Table.insert t w (stampMaxO (Table.find t w) x)) b.stamps }

/-- The largest causal stamp of the writers of the words that the bytes lie in (R203). -/
def Buf.stampOf (b : Buf) (off n : Nat) : Option Stamp :=
  (List.range n).foldl (fun acc k => stampJoin acc (Table.find b.stamps ((off + k) / 4))) none

/-- A 64-bit word at an offset. -/
def Buf.word (b : Buf) (off : Nat) : Word := BitVec.ofNat 64 (ofBytes (b.read off 8))

/-- Write a 64-bit word. -/
def Buf.setWord (b : Buf) (off : Nat) (x : Word) : Buf := b.write off (toBytes x.toNat 8)

/-- Keep the first `n` bytes of an allocation (R288). -/
def Buf.shrink (b : Buf) (n : Nat) : Buf :=
  { size := n
    bytes := Table.drop b.bytes fun k _ => n ≤ k
    valid := Table.drop b.valid fun k _ => n ≤ 4 * k
    bad := Table.drop b.bad fun k _ => n ≤ 4 * k
    stamps := Table.drop b.stamps fun k _ => n ≤ 4 * k }

-- Barrier words (R281, R305) -----------------------------------------------------------------------------------------------

/-- Expected (R281). -/
def barExpected (w : Word) : Nat := (w.extractLsb' 32 29).toNat

/-- Arrived (R281). -/
def barArrived (w : Word) : Nat := (w.extractLsb' 3 29).toNat

/-- A barrier word from its fields (R281). -/
def barWord (phase kind err : Bool) (expected arrived : Nat) : Word :=
  BitVec.ofBool phase ++ BitVec.ofBool kind ++ BitVec.ofBool err ++ BitVec.ofNat 29 expected ++ BitVec.ofNat 29 arrived
    ++ (0 : BitVec 3)

/-- How many phases an update completes, and what is left in the last (R281). Expected is not 0. -/
def barFlips (a expected : Nat) : Nat × Nat := (a / expected, a % expected)

/-- Wake an entity: it goes on after its parking instruction, without a new header evaluation (R34), or stays parked at a fault that an
instruction in flight has met meanwhile (R49). -/
def Entity.wake (e : Entity) : Entity := { e with park := if e.fault.isSome then some .fault else none }

/-- Wake the entities of a group that are parked on a phase of a barrier word (R281, R282), each acquiring at the scope
of the word's kind (R305): its wave merges the phase's stamp and what its own reads returned. -/
def Group.wakeBar (gr : Group) (word : Nat) (phase : Bool) (x : Option Stamp) : Group :=
  { gr with waves := gr.waves.map fun wv =>
      if wv.ents.any fun p => p.2.park == some (.bar word phase) then
        { (wv.acquire.mergeStamp x) with ents := Table.mapValues wv.ents fun _ e => if e.park == some (.bar word phase) then e.wake else e }
      else wv }

/-- One step of the synchronisation unit: an update of n on a well-formed word, with a causal stamp (R281, R305). The
stamp joins the current phase, and the next one too where the surplus carries on; a surplus that `bar.expect` uncovers
carries the stamps it was counted with. -/
def Group.barUpdate (gr : Group) (word n : Nat) (x : Option Stamp) : Group :=
  let w := gr.sp.word (8 * word)
  let e := barExpected w
  let (flips, left) := barFlips (barArrived w + n) e
  let m : BarMark := (Table.find gr.marks word).getD {}
  let cur := stampJoin m.cur x
  let phase := w.getLsbD 63
  let phase' := if flips % 2 = 0 then phase else !phase
  let carry := if n = 0 then cur else x
  let m' : BarMark := if flips = 0 then ⟨cur, m.last⟩ else ⟨if left = 0 then none else carry, if flips = 1 then cur else carry⟩
  let gr := { gr with
    sp := gr.sp.setWord (8 * word) (barWord phase' (w.getLsbD 62) (w.getLsbD 61) e left)
    marks := Table.insert gr.marks word m' }
  let gr := if flips = 0 then gr else gr.wakeBar word phase cur
  if flips ≤ 1 then gr else gr.wakeBar word (!phase) carry

/-- An entity of the group is parked on a barrier word. -/
def Group.waitsOn (gr : Group) (word : Nat) : Bool :=
  gr.waves.any fun wv => wv.ents.any fun p => match p.2.park with | some (.bar k _) => k == word | _ => false

/-- A lane store to a barrier word is one update of the unit: error bit [61] reads 0 after it (R306). -/
def Group.clearErrors (gr : Group) (off n : Nat) : Group :=
  gr.marks.foldl (fun gr p =>
    if meets off n (8 * p.1) 8 then
      { gr with sp := gr.sp.setWord (8 * p.1) (gr.sp.word (8 * p.1) &&& ~~~(0x2000000000000000 : Word)) }
    else gr) gr

/-- Perform a store to a local space (R184, R306). -/
def Group.storeLocal (gr : Group) (sp : Space) (off : Nat) (data : List Byte) : Group :=
  let gr := gr.setBuf sp ((gr.buf sp).write off data)
  if sp == .sp then gr.clearErrors off data.length else gr

-- The reads of a long-latency load from a local space ------------------------------------------------------------------------

/-- The first uninitialised read is recorded, and each instruction counts once (R185). -/
def Group.noteUninit (gr : Group) (sp : Space) (off : Nat) : Group :=
  { gr with
    uninitcount := if gr.uninitcount = BitVec.allOnes 64 then gr.uninitcount else gr.uninitcount + 1
    uninitaddr := if gr.uninitaddr.getLsbD 63 then gr.uninitaddr
      else (1 : BitVec 1) ++ sp.code ++ (0 : BitVec 39) ++ BitVec.ofNat 21 off }

/-- The kind of a local space's refusals (R228). -/
def localKind (sp : Space) : Nat := if sp == .sp then Cause.kScratch else Cause.kTyped

/-- The cause of an uninitialised read (R185). -/
def uninitCause (sp : Space) : Cause := Cause.access (localKind sp) Cause.rUninit

/-- The cause of a read of a word with an uncorrectable error (R370). -/
def unsoundCause (sp : Space) : Cause := Cause.access (localKind sp) Cause.rUncorrectable

/-- The bytes of a piece that lie in invalid words. -/
def Buf.invalidIn (b : Buf) (off n : Nat) : List Nat := ((List.range n).map (off + ·)).filter fun a => !b.isValid a

/-- Why a read of bytes of a local space is refused (R185, R229, R370): in trap mode for an invalid word, then for an
uncorrectable error. -/
def Buf.refuses (b : Buf) (warn : Bool) (sp : Space) (off n : Nat) : Option Cause :=
  if !warn && !b.allValid off n then some (uninitCause sp)
  else if !b.sound off n then some (unsoundCause sp)
  else none

/-- The first 8-byte word of a uniform read of the scratchpad that is refused, and why (R188, R229). -/
def Group.spRefused (gr : Group) (warn : Bool) (off n : Nat) : Option (Cause × Nat) :=
  ((List.range (n / 8)).map (off + 8 * ·)).findSome? fun a => (gr.sp.refuses warn .sp a 8).map (·, a)

/-- What warning mode records of a uniform read of the scratchpad that completes (R185). -/
def Group.noteSp (gr : Group) (off n : Nat) : Group :=
  match gr.sp.invalidIn off n with
  | a :: _ => gr.noteUninit .sp a
  | [] => gr

/-- Read the local pieces of a load into what it has got (R185). -/
def Group.readPieces (gr : Group) (warn : Bool) (sp : Space) (o : LongOp) (ps : List Piece) : LongOp :=
  let b := gr.buf sp
  ps.foldl (fun o p =>
    match b.refuses warn sp p.addr p.len with
    | some c => { o with refused := o.refused ++ [⟨p.thread, c, BitVec.ofNat 64 p.addr⟩] }
    | none => { o with got := ((b.read p.addr p.len).zipIdx).foldl (fun t x => Table.insert t (8 * p.thread + p.byte + x.2) x.1) o.got }) o

/-- The lowest offset that is read from an invalid word: of the bytes read, not of the words they lie in (DESIGN CHOICE, log 93). -/
def Buf.firstInvalid (b : Buf) (ps : List Piece) : Option Nat :=
  (ps.flatMap fun p => b.invalidIn p.addr p.len).foldl (fun acc a => match acc with | some m => some (min m a) | none => some a) none

/-- Perform what a load still has to read of a local space (R185). -/
def State.readLocal (s : State) (g w id : Nat) : State :=
  match s.group? g, s.wave? g w with
  | some gr, some wv =>
    match Table.find wv.ops id with
    | some o =>
      match o.body with
      | .load sp d ty (p :: ps) =>
        if sp == .g then s
        else
          let warn := s.warns gr
          let o' := gr.readPieces warn sp { o with body := .load sp d ty [] } (p :: ps)
          let stamp := (p :: ps).foldl (fun acc p => stampJoin acc ((gr.buf sp).stampOf p.addr p.len)) none
          let s := s.modOp g w id fun _ => o'
          let s := s.modWave g w fun wv => { wv with seen := stampJoin wv.seen stamp }
          match (gr.buf sp).firstInvalid (p :: ps) with
          | some a => if warn && o'.refused.isEmpty then s.modGroup g fun gr => gr.noteUninit sp a else s
          | none => s
      | _ => s
    | none => s
  | _, _ => s

/-- Before a store of a wave to a local space is performed, the wave's loads of those spaces issued before it read (R199). -/
def State.readLocals (s : State) (g w n : Nat) : State :=
  match s.wave? g w with
  | some wv => wv.ops.foldl (fun s p => if p.1 < n then s.readLocal g w p.1 else s) s
  | none => s

/-- A long-latency instruction that acquires when it completes (R193): an atomic of a forwarding region does not (R248). -/
def LongOp.acquires (o : LongOp) : Bool :=
  match o.body with
  | .atom _ _ _ _ (some _) _ => !o.inRegion
  | .dqPop _ | .dqSteal _ _ => true
  | _ => false

/-- The instruction is earlier in an entity's program order (R190): it issued it, or the entity has split from its issuer since. -/
def LongOp.isOf (o : LongOp) (e : Nat) : Bool := o.ent == e || o.also.contains e

/-- An acquiring instruction of the wave, issued before a number, has not completed: what follows it waits (R202). -/
def Wave.acquiresBefore (wv : Wave) (n : Nat) : Bool := wv.ops.any fun o => o.1 < n && o.2.acquires

/-- An acquiring instruction before an entity's instruction has not completed (R202). -/
def Wave.acquiring (wv : Wave) (e n : Nat) : Bool := wv.ops.any fun o => o.1 < n && o.2.isOf e && o.2.acquires

/-- An instruction is an atomic. -/
def OpBody.isAtom : OpBody → Bool
  | .atom _ _ _ _ _ _ => true
  | _ => false

/-- What an atomic will still ask for: DPAs with lengths. -/
def OpBody.atomTargets : OpBody → List (Nat × Nat)
  | .atom .g _ ty _ _ items => items.map fun i => (i.addr, ty.bytes)
  | _ => []

-- Sending requests -----------------------------------------------------------------------------------------------------------

/-- Add a request to those on their way to home slices. -/
def State.addReq (s : State) (r : Req) : State :=
  { s with reqs := Table.insert s.reqs s.nextId r, nextId := s.nextId + 1 }

/-- The next atomic sequence number of a core (R240). -/
def State.nextSeq (s : State) (core : Nat) : BitVec 32 × State :=
  ((s.coreOf core).seq, s.modCore core fun c => { c with seq := c.seq + 1 })

/-- A request was sent by a wave, for its stores or for an instruction of it. -/
def Agent.isWave (a : Agent) (g w : Nat) : Bool :=
  match a with
  | .op g' w' _ => g' == g && w' == w
  | .wave g' w' => g' == g && w' == w
  | _ => false

/-- A request writes. -/
def ReqKind.writes : ReqKind → Bool
  | .store | .atom _ _ => true
  | _ => false

/-- A request asks for the granule of an address of this module, or for one of so many bytes of another's. -/
def State.touches (s : State) (r : Req) (d n : Nat) : Bool :=
  if s.ours d then r.away.isNone && r.gran == s.granOf (dpaLocal d)
  else r.away.isSome && r.items.any fun i => meets i.addr i.len d n

/-- An atomic in flight asks for a granule that a request asks for too. -/
def State.atomMeets (s : State) (g w id : Nat) (o : LongOp) (r : Req) : Bool :=
  o.body.isAtom && ((o.body.atomTargets.any fun t => s.touches r t.1 t.2) ||
    s.reqs.any fun q => q.2.agent == .op g w id && q.2.gran == r.gran && q.2.away == r.away)

/-- The group of a command. -/
def State.groupOfCmd (s : State) (c : Nat) : Nat :=
  match Table.find s.cmds c with
  | some k => k.g
  | none => 0

/-- In deterministic mode the writes of a wave, and those of a command, are performed in their order (R291, R293). -/
def State.afterWrites (s : State) (id : Nat) (r : Req) : Bool :=
  r.kind.writes &&
  (match r.agent with
   | .op g w _ | .wave g w => s.detAt g && s.reqs.any fun q => q.1 < id && q.2.agent.isWave g w && q.2.kind.writes
   | .cmd c => s.detAt (s.groupOfCmd c) && s.reqs.any fun q => q.1 < id && q.2.agent == .cmd c && q.2.kind.writes
   | _ => false)

/-- A request still stands at its core (R199, R202, R291): an acquiring instruction before it has not completed, an atomic before
it to the same place has not been performed, or, in deterministic mode, a write before it. -/
def State.atCore (s : State) (id : Nat) (r : Req) : Bool :=
  s.afterWrites id r ||
  (match r.agent with
   | .op g w o =>
     match s.wave? g w with
     | some wv =>
       match Table.find wv.ops o with
       | some x => wv.acquiring x.ent o || wv.ops.any fun p => p.1 < o && p.2.isOf x.ent && s.atomMeets g w p.1 p.2 r
       | none => false
     | none => false
   | .wave g w =>
     match s.wave? g w with
     | some wv => wv.acquiresBefore id || wv.ops.any fun p => p.1 < id && s.atomMeets g w p.1 p.2 r
     | none => false
   | _ => false)

/-- Two requests of one agent (R152): the wave, the command, the task, the host, or another module's stream. -/
def sameAgent : Agent → Agent → Bool
  | .op g w _, b => b.isWave g w
  | .wave g w, b => b.isWave g w
  | .cmd i, .cmd j => i == j
  | .task i, .task j => i == j
  | .host, .host => true
  | .peer m n _, .peer m' n' _ => m == m' && n == n'
  | _, _ => false

/-- An earlier request to the granule, which its slice has received, holds this one back (R152): of the same agent in any case;
a held one holds back every later non-region write. -/
def State.heldBack (s : State) (id : Nat) (r : Req) : Bool :=
  s.reqs.any fun p =>
    p.1 < id && p.2.away.isNone && p.2.gran == r.gran && !s.atCore p.1 p.2 &&
      (sameAgent p.2.agent r.agent || (r.kind.writes && r.slot.isNone && p.2.held.isSome))

/-- The held append or reservation that is to be tried again now (R173): the slice or the Unit does so before anything else happens. -/
def State.dueRetry (s : State) : Option HeldRef :=
  let due (r : Nat × Req) : Bool := match r.2.held with
    | some (.whey n f) => s.mayRetry n f (dpaStack r.2.gran) && !s.heldBack r.1 r.2
    | _ => false
  match s.reqs.find? due with
  | some r => some (.req r.1)
  | none => (s.slots.find? fun p => p.2.state == .committing &&
      (match p.2.tried with | some (n, st, f) => s.mayRetry n f st | none => false)).map fun p => .region p.1

/-- The largest stamp of a deterministic launch's commits so far, for a group of it (R210, R293): the launch's next commit lies above it, so
that the order of its commits does not follow the slices' counts (DEDUCED, log 120). -/
def State.lastOf (s : State) (g : Nat) : Option Stamp := ((s.group? g).bind fun gr => Table.find s.launches gr.launch).bind (·.last)

/-- A group's launch has committed with a stamp. -/
def State.noteLast (s : State) (g : Nat) (x : Stamp) : State :=
  match s.group? g with
  | some gr =>
    if s.det gr then { s with launches := Table.modify s.launches gr.launch fun l => { l with last := stampJoin l.last (some x) } } else s
  | none => s

/-- The causal stamp that a request comes to its slice with (R152, R293). -/
def State.carriedOf (s : State) (r : Req) : Option Stamp :=
  match r.agent with
  | .op g _ _ | .wave g _ => if r.kind.writes then stampJoin r.carried (s.lastOf g) else r.carried
  | .cmd c => if r.kind.writes then stampJoin r.carried (s.lastOf (s.groupOfCmd c)) else r.carried
  | _ => r.carried

/-- A number for the agent of a request, by which its home slice on another module tells the agents of this one apart (R152). -/
def Agent.stream : Agent → Nat
  | .op g w _ | .wave g w => 1024 * g + 32 * w
  | .cmd i => 1024 * i + 1
  | .task i => 1024 * i + 2
  | .host => 3
  | .peer _ _ _ => 4

/-- The core of a group. -/
def State.coreOfGroup (s : State) (g : Nat) : Nat := ((s.group? g).map (·.core)).getD 0

/-- The core an agent's requests come from. -/
def State.coreOfAgent (s : State) : Agent → Nat
  | .op g _ _ | .wave g _ => s.coreOfGroup g
  | .cmd c => ((Table.find s.cmds c).map fun k => s.coreOfGroup k.g).getD 0
  | .task t => ((Table.find s.tasks t).map fun t => 16 * t.die).getD 0
  | _ => 0

/-- The message that asks another module for a request's items (R261, R262). -/
def State.transmit (s : State) (tag : Nat) (r : Req) : State :=
  match r.away, r.items.head? with
  | some m, some it =>
    let d (i : ReqItem) := BitVec.ofNat 52 i.addr
    let c := (s.carriedOf r).getD 0
    let n := r.agent.stream
    let s := { s with reqs := Table.modify s.reqs tag fun r => { r with held := none } }
    match r.kind with
    | .load => s.send m (.readReq tag n r.ctx (r.items.map fun i => (d i, i.len)) c)
    | .asof t => s.send m (.asofReq tag n r.ctx (r.items.map fun i => (d i, i.len)) t c)
    | .store => s.send m (.writeReq tag n r.ctx (r.items.map fun i => (d i, i.data)) c)
    | .attrs x big => s.send m (.attrReq tag n r.ctx (d it) x big c)
    | .atom op ty =>
      let core := s.coreOfAgent r.agent
      let (q, s) := s.nextSeq core
      { s.send m (.atomReq (BitVec.ofNat 8 core) q n r.ctx (d it) op ty it.x it.cmp c) with
        reqs := Table.modify s.reqs tag fun r => { r with gran := q.toNat } }
  | _, _ => s

/-- Send a request to another module where nothing keeps it at its core, and no earlier one of its agent to that module waits. -/
def State.trySend (s : State) (tag : Nat) : State :=
  match Table.find s.reqs tag with
  | some r =>
    let route := (r.away.map fun m => s.routeUp m.toNat).getD false
    let behind := s.reqs.any fun q => q.1 < tag && q.2.held == some .unsent && q.2.away == r.away && q.2.agent.stream == r.agent.stream
    if !route || behind || s.atCore tag r then s else s.transmit tag r
  | none => s

/-- Send items of a request to another module: one message, answered under the request's number. -/
def State.sendAway (s : State) (m : Nat) (r : Req) (its : List ReqItem) : State :=
  let tag := s.nextId
  (s.addReq { r with
    gran := (its.head?.map (·.addr)).getD 0
    items := its.zipIdx.map fun i => { i.1 with num := i.2 }
    away := some (BitVec.ofNat 8 m)
    held := some .unsent }).trySend tag

/-- Send items that lie on other modules: each module gets those of its own together; an atomic has an identity for each (R240). -/
def State.sendFar (s : State) (r : Req) (far : List ReqItem) : State :=
  match r.kind with
  | .atom _ _ => far.foldl (fun s i => s.sendAway (dpaModule i.addr) r [i]) s
  | _ => (far.map fun i => dpaModule i.addr).eraseDups.foldl
      (fun s m => s.sendAway m r (far.filter fun i => dpaModule i.addr == m)) s

/-- Split the items of one instruction into granule requests, in the order the granules are first touched (R154), and send
them: those of this module to their home slices, the others over the fabric, where they are split by granule on arrival. -/
def State.sendItems (s : State) (r : Req) (its : List ReqItem) : State :=
  let near := its.filter fun i => s.ours i.addr
  let far := its.filter fun i => !s.ours i.addr
  let grans := (near.map fun i => s.granOf (dpaLocal i.addr)).eraseDups
  let s := grans.foldl (fun s b =>
    s.addReq { r with
      gran := b
      items := (near.filter fun i => s.granOf (dpaLocal i.addr) == b).map fun i => { i with addr := dpaLocal i.addr } }) s
  s.sendFar r far

-- The store queue and the idempotent region (R233, R302, R303) -----------------------------------------------------------------

/-- Note beside the words that a wave writes how far it has come in its causal stamp (R203). -/
def Group.noteStamps (gr : Group) (sp : Space) (off n : Nat) (x : Stamp) : Group := gr.setBuf sp ((gr.buf sp).noteStamps off n x)

/-- A wave has acquired by an instruction of the number `id`: the stores and loads that waited for it at the core leave with the causal
stamp that it has now (R203, R204). -/
def State.recarry (s : State) (g w id : Nat) (o : LongOp) : State :=
  match s.wave? g w with
  | none => s
  | some wv =>
    let waited (n : Nat) (r : Req) : Bool := match r.agent with
      | .op g' w' i => g' == g && w' == w && id < i && (r.away.isNone || r.held == some .unsent) &&
          ((Table.find wv.ops i).map fun x => o.isOf x.ent).getD false
      | .wave g' w' => g' == g && w' == w && id < n && (r.away.isNone || r.held == some .unsent)
      | _ => false
    { s with reqs := s.reqs.map fun p =>
        if waited p.1 p.2 then (p.1, { p.2 with carried := some (stampMaxO p.2.carried wv.cstamp) }) else p }

/-- Perform a released store to a local space. -/
def State.performLocal (s : State) (g w n : Nat) (e : SqEntry) : State :=
  let s := s.readLocals g w n
  let c := ((s.wave? g w).map (·.cstamp)).getD 0
  s.modGroup g fun gr => e.items.foldl (fun gr i => (gr.storeLocal e.sp i.addr i.data).noteStamps e.sp i.addr i.data.length c) gr

/-- Perform the released local stores of a wave whose turn has come, in order (R202, R233). -/
def State.flushLate (s : State) (g w : Nat) : Nat → State
  | 0 => s
  | fuel + 1 =>
    match s.wave? g w with
    | some wv =>
      match wv.late with
      | (n, e) :: t =>
        if wv.acquiresBefore n then s
        else State.flushLate ((s.modWave g w fun wv => { wv with late := t }).performLocal g w n e) g w fuel
      | [] => s
    | none => s

/-- Release one held entry (R233): a `.g` store goes to its home slices with the wave's CSTAMP; another is performed, once
the acquiring instructions before it have completed. -/
def State.releaseEntry (s : State) (g w : Nat) (e : SqEntry) : State :=
  match s.group? g, s.wave? g w with
  | some gr, some wv =>
    if e.sp == .g then
      s.sendItems { agent := .wave g w, ctx := gr.ctx, launch := some gr.launch, kind := .store, gran := 0, items := [], carried := some wv.cstamp }
        (e.items.map fun i => { thread := i.thread, byte := 0, addr := i.addr, len := i.data.length, data := i.data })
    else
      let (n, s) := s.fresh
      (s.modWave g w fun wv => { wv with late := wv.late ++ [(n, e)] }).flushLate g w (wv.late.length + 1)
  | _, _ => s

/-- Every entity of the wave takes a new entry at its next instruction (R303); one that has still to restart at its marker
goes on to do so. -/
def Wave.newEntries (wv : Wave) : Wave :=
  { wv with
    ents := Table.mapValues wv.ents fun _ e => { e with entry := if e.entry.taken then {} else e.entry }
    ops := Table.mapValues wv.ops fun _ o => { o with early := true }
    resumed := false }

/-- Close the wave's idempotent region: its held stores are released in queue order (R233, R302, R303). -/
def State.closeRegion (s : State) (g w : Nat) : State :=
  match s.wave? g w with
  | none => s
  | some wv =>
    let s := s.modWave g w fun wv => { wv with sq := [] }
    let s := wv.sq.foldl (fun s e => s.releaseEntry g w e) s
    s.modWave g w Wave.newEntries

-- What a wave has in flight ------------------------------------------------------------------------------------------------------

/-- A store of the wave sent before a number, or an atomic issued before it, has not been performed (R163, R241). -/
def State.storesBefore (s : State) (g w n : Nat) : Bool :=
  (s.reqs.any fun r => r.1 < n && r.2.agent.isWave g w && r.2.kind.writes) ||
  (match s.wave? g w with
   | some wv => wv.late.any (fun e => e.1 < n) || wv.ops.any fun o => o.1 < n && o.2.body.isAtom &&
      (!o.2.ready || s.reqs.any fun r => r.2.agent == .op g w o.1)
   | none => false)

/-- A load of the entity, issued before a number, has not been performed. A release orders it too (R202). -/
def State.loadsBefore (s : State) (a : Actor) (n : Nat) : Bool :=
  match s.wave? a.g a.w with
  | some wv => wv.ops.any fun o => o.1 < n && o.2.isOf a.e &&
      ((match o.2.body with
        | .load sp _ _ ps => sp != .g && !ps.isEmpty
        | _ => false) ||
       s.reqs.any fun r => r.2.agent == .op a.g a.w o.1)
  | none => false

/-- An acquiring instruction of the entity, issued before a number, has not completed: a release does not go ahead of it either
(R193, R202). -/
def State.acquiresBefore (s : State) (a : Actor) (n : Nat) : Bool :=
  match s.wave? a.g a.w with
  | some wv => wv.acquiring a.e n
  | none => false

/-- What a release waits for has been performed (R163, R193, R202). -/
def State.released (s : State) (a : Actor) (n : Nat) : Bool :=
  !s.storesBefore a.g a.w n && !s.loadsBefore a n && !s.acquiresBefore a n

/-- What an acquire waits for has been performed: the reads of the entity issued before a number, so that the acquire merges what they
have returned (R204). -/
def State.readsDone (s : State) (a : Actor) (n : Nat) : Bool :=
  !s.loadsBefore a n &&
    !(match s.wave? a.g a.w with
      | some wv => wv.ops.any fun o => o.1 < n && o.2.isOf a.e && o.2.body.isAtom && !o.2.ready
      | none => false)

/-- A load or atomic of the entity has not completed (R241). -/
def Wave.loadsInFlight (wv : Wave) (e : Nat) : Bool :=
  wv.ops.any fun o => o.2.isOf e && (match o.2.body with | .load _ _ _ _ | .atom _ _ _ _ _ _ | .asof _ _ _ _ => true | _ => false)

/-- A non-detached long-latency instruction of the entity has not completed (R46). -/
def Wave.inFlight (wv : Wave) (e : Nat) : Bool := wv.ops.any fun o => o.2.ent == e && o.2.window.isSome

/-- The lookahead rule stops the entity's next word (R45): an instruction's window is used up. -/
def Wave.blocked (wv : Wave) (e : Nat) : Bool := wv.ops.any fun o => o.2.ent == e && o.2.window == some 0

/-- Drop the lines of a core's L1 (R153). -/
def State.dropL1 (s : State) (core : Nat) : State := { s with l1 := Table.drop s.l1 fun k _ => k / 2 ^ 52 == core }

/-- An update of a barrier word of a group: waiters woken on a word of kind bytes acquire at `.wh`, and their core's L1 lines
are dropped (R153, R281, R305). -/
def State.barUpdate (s : State) (g word n : Nat) (x : Option Stamp) : State :=
  match s.group? g with
  | none => s
  | some gr =>
    let kind := (gr.sp.word (8 * word)).getLsbD 62
    let gr' := gr.barUpdate word n x
    let s := s.modGroup g fun _ => gr'
    if kind && gr.waitsOn word && gr'.sp.word (8 * word) != gr.sp.word (8 * word) then s.dropL1 gr.core else s

/-- A scope of `.wh` or wider (R153). -/
def Scope.wide : Scope → Bool
  | .wv | .gp => false
  | _ => true

-- Causes recorded for groups, and groups ended by a fault (R360) -----------------------------------------------------------------------

/-- The first cause recorded for a launch's groups is its status (R273). -/
def State.blame (s : State) (g : Nat) (c : Cause) : State :=
  match s.group? g with
  | none => s
  | some gr =>
    let s := s.modGroup g fun gr => { gr with cause := if gr.cause = 0 then c else gr.cause }
    { s with launches := Table.modify s.launches gr.launch fun l => { l with cause := if l.cause = 0 then c else l.cause } }

/-- A wave that is Gone: its region, held stores and long-latency instructions are discarded (R360). -/
def Wave.gone (wv : Wave) : Wave := { wv with ents := [], sq := [], late := [], ops := [], region := none }

/-- A `sys.ctxsave` that is abandoned leaves the save it has begun: the group goes on (R342, R365). -/
def State.leaveSave (s : State) (o : LongOp) : State :=
  match o.body with
  | .ctxsave _ t =>
    let left (gr : Group) : Bool := o.ready && gr.pnum % 2 ^ 32 = t && gr.saving && !gr.powerSave
    { s with groups := Table.mapValues s.groups fun _ gr => if left gr then { gr with saving := false } else gr }
  | _ => s

/-- End a group at once (R360): its forwarding regions are removed as though aborted (R368), every wave is Gone, commands
already issued complete, and the group drains. -/
def State.endGroup (s : State) (g : Nat) (c : Cause) : State :=
  match s.group? g with
  | none => s
  | some gr =>
    let s := gr.waves.foldl (fun s wv => match wv.region with
      | some r => if r.aborted.isNone then s.abortRegion r.slot 0 Cause.xrCascade else s
      | none => s) s
    let s := gr.waves.foldl (fun s wv => wv.ops.foldl (fun s o => s.leaveSave o.2) s) s
    let s := s.blame g c
    let s := { s with
      reqs := Table.drop s.reqs fun _ r => match r.agent with | .op g' _ _ => g' == g | _ => false
      cmds := Table.mapValues s.cmds fun _ k => if k.g = g then { k with op := none } else k
      xbegQueue := s.xbegQueue.filter fun a => a.g ≠ g }
    s.modGroup g fun gr => { gr with
      waves := gr.waves.map Wave.gone
      offCore := gr.state == .swapped
      state := .draining
      saving := false
      powerSave := false
      eligible := none }

/-- A replay trigger no longer stands for an entity (R359). -/
def State.untrigger (s : State) (a : Actor) : State :=
  s.modGroup a.g fun gr => { gr with triggered := gr.triggered.filter fun t => t ≠ (a.w, a.e) }

/-- The entity parks at a fault (R49, R358): it gives up its pipe, and when it resumes, the header of its clause is fetched again
(R35). Where an instruction in flight has met the fault while the entity was parked in a wait, it stays in that wait too. -/
def Entity.parkAt (e : Entity) (f : FaultInfo) : Entity :=
  { e with
    park := some (if f.op.isSome then e.park.getD .fault else .fault)
    pipe := none
    clause := none
    fault := some f }

/-- Take a fault (R229, R358 to R361, R416): the wave's CAUSE, FAULTADDR and LANEMASK are set, the entity parks at the
faulting instruction and gives up its pipe, and a record of kind 1 is posted. A terminal fault ends the group unless `mbd`
reaches it. In deterministic mode the wave's quantum ends (R290). -/
def State.takeFault (s : State) (a : Actor) (c : Cause) (addr : Word) (lanes : Mask) (op : Option Nat) : State :=
  match s.group? a.g, s.wave? a.g a.w with
  | some gr, some wv =>
    let s := s.modWave a.g a.w fun wv => { wv with
      cause := c.setWidth 64, faultaddr := addr, lanemask := lanes, resumed := false
      quantum := if s.det gr then .ended else wv.quantum }
    let s := (s.modEnt a fun e => e.parkAt ⟨c, addr, lanes, op, s.tick⟩).untrigger a
    let s := s.record .waveFault c gr.ctx gr.core wv.slot addr
    if Cause.replayable c || s.reaches gr.ctx then s else s.endGroup a.g c
  | _, _ => s

-- The instruction at hand -----------------------------------------------------------------------------------------------------------

/-- The entity whose instruction runs, with its wave, its group and its clause. -/
structure View where
  a : Actor
  gr : Group
  wv : Wave
  en : Entity
  cl : Clause
  deriving Repr

/-- The entity `State.actor` names, where it is live and within a clause. -/
def State.view? (s : State) : Option View :=
  match s.group? s.actor.g with
  | none => none
  | some gr =>
    match gr.waves[s.actor.w]? with
    | none => none
    | some wv =>
      match Table.find wv.ents s.actor.e with
      | none => none
      | some en => en.clause.map fun cl => ⟨s.actor, gr, wv, en, cl⟩

/-- The address of an instruction word of a clause (R32). -/
def wordAddr (hdr : Word) (idx : Nat) : Word := hdr + BitVec.ofNat 64 (8 * (idx + 1))

/-- The address of the instruction. -/
def View.addr (v : View) : Word := wordAddr v.en.hdr v.en.idx

/-- The header after the instruction's clause (R32). -/
def View.nextHdr (v : View) : Word := v.en.hdr + BitVec.ofNat 64 (8 * (v.cl.count + 1))

/-- The region entry an instruction takes where none is taken yet: its own position, every register live (R303). -/
def Entity.takeEntry (e : Entity) : Entity :=
  if e.entry.taken then e
  else { e with entry := { taken := true, hdr := e.hdr, idx := e.idx, vmask := BitVec.allOnes 32, smask := BitVec.allOnes 16 } }

/-- The entity past so many slots of its clause; past the last, at the next header position, without a pipe (R32, R34). -/
def Entity.advance (e : Entity) (cl : Clause) (n : Nat) : Entity :=
  let e := { e.takeEntry with stage := 0, replay := none, fault := none, continued := false }
  if e.idx + n < cl.count then { e with idx := e.idx + n }
  else { e with hdr := e.hdr + BitVec.ofNat 64 (8 * (cl.count + 1)), idx := 0, clause := none, pipe := none }

/-- The entity at a header (R32), without a pipe. -/
def Entity.jump (e : Entity) (hdr : Word) : Entity :=
  { e.takeEntry with stage := 0, replay := none, fault := none, continued := false, hdr := hdr, idx := 0, clause := none, pipe := none }

/-- One word of an entity has issued (R45): the windows of its instructions in flight narrow. -/
def Wave.narrow (wv : Wave) (e : Nat) : Wave :=
  { wv with ops := Table.mapValues wv.ops fun _ o => if o.ent = e then { o with window := o.window.map (· - 1) } else o }

/-- One instruction has retired (R51): in deterministic mode it counts, an instruction the boundary has let run is done,
and at Q the quantum ends (R290, R311). -/
def Wave.countRetired (wv : Wave) (det : Bool) (q e : Nat) : Wave :=
  if !det then wv
  else
    let n := wv.retired + 1
    match wv.quantum with
    | .running =>
      if q ≤ n then { wv.modEnt e (fun x => { x with pipe := none }) with retired := n, quantum := .ended }
      else { wv with retired := n }
    | _ => { wv.modEnt e (fun x => { x with pipe := none }) with retired := n, quantum := .done }

/-- The wave after an instruction of the entity has issued and retired, with the entity moved by `f`. -/
def Wave.step (wv : Wave) (det : Bool) (q e : Nat) (f : Entity → Entity) : Wave :=
  ((wv.narrow e).modEnt e f).countRetired det q e

/-- Retire the instruction at hand: the entity moves past `n` slots. -/
def State.retire (s : State) (v : View) (n : Nat) : State :=
  s.modWave v.a.g v.a.w fun wv => wv.step (s.det v.gr) (s.quantumOf v.gr) v.a.e fun e => e.advance v.cl n

/-- Retire a branch: the entity goes on at a header. -/
def State.retireTo (s : State) (v : View) (hdr : Word) : State :=
  s.modWave v.a.g v.a.w fun wv => wv.step (s.det v.gr) (s.quantumOf v.gr) v.a.e fun e => e.jump hdr

/-- Retire an instruction that writes registers of its wave. -/
def State.retireWith (s : State) (v : View) (f : Wave → Wave) : State := (s.modWave v.a.g v.a.w f).retire v 1

/-- A commit-class instruction closes the region when it retires (R302); in a forwarding region it does not (R248), and in
deterministic mode the quantum is the region (R290). -/
def State.close (s : State) (v : View) : State :=
  if v.wv.region.isSome || s.det v.gr && v.wv.quantum == .running then s else s.closeRegion v.a.g v.a.w

/-- Retire a commit-class instruction. -/
def State.retireClose (s : State) (v : View) (f : Wave → Wave) : State := (s.retireWith v f).close v

/-- Park the entity of the instruction at hand: it gives up its pipe and stands after the instruction (R34, R364). -/
def State.parkAfter (s : State) (v : View) (p : Park) : State :=
  let s := s.retire v 1
  (s.modEnt v.a fun e => { e with park := some p, pipe := none }).modWave v.a.g v.a.w fun wv => { wv with resumed := false }

/-- A fault of the instruction at hand that no access raised (R416): a uniform instruction names its lowest active thread,
a lane instruction every active thread. -/
def State.faultHere (s : State) (v : View) (lane : Bool) (c : Cause) : State :=
  s.takeFault v.a c v.addr (if lane then v.en.mask else oneMask (lowest v.en.mask)) none

/-- A uniform instruction reads words of the scratchpad outside its address operands (R122, R304, R310): beyond the allocation
`SP_BOUND` (R416), else the first refused word is named (R229), else the rest follows. -/
def State.spChecked (s : State) (v : View) (off n : Nat) (k : State → State) : State :=
  let gr := (s.group? v.a.g).getD v.gr
  if gr.sp.size < off + n then s.faultHere v false Cause.spBound
  else
    match gr.spRefused (s.warns gr) off n with
    | some (c, a) => s.takeFault v.a c (BitVec.ofNat 64 a) (oneMask (lowest v.en.mask)) none
    | none => k s

/-- Where an instruction must stand in its clause (R61). -/
inductive Place where
  | any | last | first | notLast
  deriving DecidableEq, Repr, Inhabited

/-- What every meaning tells the shared checks about its instruction. -/
structure Meta where
  guard : Guard
  /-- a lane instruction: the guard is judged in each thread (R39) -/
  lane : Bool
  /-- the highest v-registers it names (R40) -/
  vregs : List Nat := []
  place : Place := .any
  /-- it may issue in a forwarding region (R248) -/
  inRegion : Bool := false
  /-- it needs system privilege (R317) -/
  sys : Bool := false
  /-- it ends a quantum of a deterministic wave and is performed at the boundary (R290, R335) -/
  ends : Bool := false
  /-- the completion part of a long-latency instruction -/
  long : Option Flag := none
  /-- it retires only when the entity's instructions in flight have completed (R46) -/
  drains : Bool := false
  slots : Nat := 1

/-- The threads in which a guard holds (R39). -/
def Wave.guardMask (wv : Wave) (g : Guard) : Mask := if g.neg then ~~~(wv.pReg g.p) else wv.pReg g.p

/-- The acting threads (R39, R88): of a lane instruction those active in which the guard holds, confined to a replay's
threads (R359); of a uniform one its lowest active thread, if the guard holds there. -/
def View.acting (v : View) (m : Meta) : Mask :=
  let on := v.wv.guardMask m.guard
  if m.lane then v.en.mask &&& on &&& v.en.replay.getD (BitVec.allOnes 64)
  else if on.getLsbD (lowest v.en.mask) then oneMask (lowest v.en.mask) else 0

/-- The position rule of R61. -/
def Place.ok (p : Place) (cl : Clause) (idx : Nat) : Bool :=
  match p with
  | .any => true
  | .last => idx + 1 == cl.count
  | .first => idx == 0
  | .notLast => idx + 1 < cl.count

/-- A deterministic wave reaches an instruction that ends its quantum (R290): it is performed at the boundary. The entity gives up its
pipe and keeps its clause, whose header is not fetched again and whose wait is not evaluated again (DESIGN CHOICE, log 121). -/
def State.endQuantum (s : State) (v : View) : State :=
  s.modWave v.a.g v.a.w fun wv =>
    { wv.modEnt v.a.e (fun e => { e with pipe := none }) with quantum := if wv.quantum == .running then .endedAt v.a.e else wv.quantum }

/-- A deterministic wave's quantum ends before the instruction at hand (R290). -/
def State.endBefore (s : State) (v : View) : State :=
  s.modWave v.a.g v.a.w fun wv => { wv.modEnt v.a.e (fun e => { e with pipe := none }) with quantum := .ended }

/-- Issue a long-latency instruction (R44, R45): it retires from its slot and goes in flight, numbered, with its flag
raised. -/
def State.issueLong (s : State) (v : View) (f : Flag) (act : Mask) (uni : Bool) (body : OpBody) (ready : Bool)
    (refused : List Denied) : State :=
  let id := s.nextId
  let o : LongOp := {
    ent := v.a.e
    hdr := v.en.hdr
    idx := v.en.idx
    fl := flagIndex f
    window := flagWindow f
    mask := act
    uni := uni
    body := body
    ready := ready
    refused := refused
    inRegion := v.wv.region.isSome }
  let s := ({ s with nextId := id + 1 } : State).retire v 1
  s.modWave v.a.g v.a.w fun wv => { wv.flagUp o.fl with ops := Table.insert wv.ops id o }

/-- A guarded-off instruction only retires; one with a completion part clears and sets its flag, and waits like any other while
fifteen are pending (R39, R44). -/
def State.guardedOff (s : State) (v : View) (m : Meta) : State :=
  match m.long with
  | none => s.retire v m.slots
  | some f => if (flagIndex f).any (fun k => 15 ≤ v.wv.pending k) then s else s.issueLong v f 0 (!m.lane) .off true []

/-- The checks of an instruction and its effect (R39, R40, R46, R61, R62): the v-registers lie in the role's budget; the
position in the clause; instructions that must wait; a guarded-off instruction has no effect; a region's ban before
privilege; a deterministic quantum's end. What is left is the effect, with the acting threads. -/
def instr (m : Meta) (s : State) (effect : View → Mask → State) : Host.Outcome State Fault Refusal :=
  match s.view? with
  | none => .fault .noActor
  | some v =>
    .next (
      if m.vregs.any (16 * v.wv.blocks ≤ ·) then s.faultHere v m.lane Cause.regRange
      else if !m.place.ok v.cl v.en.idx then s.faultHere v m.lane Cause.slotPos
      else if m.drains && v.wv.inFlight v.a.e then s
      else if v.acting m = 0 then s.guardedOff v m
      else if v.wv.region.isSome && !m.inRegion then s.faultHere v m.lane Cause.xrForbidden
      else if m.sys && !s.sysPriv v.gr.ctx then s.faultHere v m.lane Cause.priv
      else if m.ends && s.det v.gr && v.wv.quantum ≠ .granted v.a.e then s.endQuantum v
      else if (m.long.bind flagIndex).any (fun f => 15 ≤ v.wv.pending f) then s
      else effect v (v.acting m))

/-- The release part of a fixed-latency instruction (R193, R302): on its first turn it closes the region; it waits until
what the wave issued before has been performed; then it merges the stamps and the rest follows. -/
def State.afterRelease (s : State) (v : View) (k : State → View → State) : State :=
  let s1 := if v.en.stage = 0 then (s.close v).modEnt v.a fun e => { e with stage := 1 } else s
  if s1.released v.a s1.nextId then
    let s2 := s1.modWave v.a.g v.a.w Wave.releaseStamps
    match s2.view? with
    | some v' => k s2 v'
    | none => s2
  else s1

/-- A commit-class instruction whose own step touches memory: what the wave held is released first, so that its own earlier
stores precede it (R199, R302), and a released store that still waits for an acquire makes it wait too (R202). -/
def State.closeFirst (s : State) (v : View) (k : State → View → State) : State :=
  let s1 := s.close v
  match s1.view? with
  | some v' => if v'.wv.late.isEmpty then k s1 v' else s1
  | none => s1

/-- A read of a local space waits for the wave's released stores that have not been performed (R234). -/
def State.afterLate (s : State) (v : View) (k : State → State) : State :=
  if ((s.wave? v.a.g v.a.w).map (·.late.isEmpty)).getD true then k s else s

/-- An acquire of the instruction at hand waits for the entity's reads (R204). -/
def State.afterReads (s : State) (v : View) (k : State → State) : State := if s.readsDone v.a s.nextId then k s else s

/-- An acquire at a scope (R163, R193): merge what reads returned and the stamp waited for; at `.wh` or wider the core's L1
lines are dropped (R153). -/
def State.acquireAt (s : State) (v : View) (sc : Scope) (x : Option Stamp) : State :=
  let s := s.modWave v.a.g v.a.w fun wv => wv.acquire.mergeStamp x
  if Scope.wide sc then s.dropL1 v.gr.core else s

/-- The value of a source operand of a type in a thread (R90): its low bits. -/
def View.operand (v : View) (tick : Nat) (wide : Bool) (r : Reg) (t : Nat) : Word :=
  match r with
  | .v n =>
    if wide then (v.wv.readLane tick (n.toNat + 1) t ++ v.wv.readLane tick n.toNat t)
    else (v.wv.readLane tick n.toNat t).setWidth 64
  | .s n => v.wv.readS tick v.a.e n.toNat

/-- An s-register operand of the instruction at hand. -/
def View.sval (v : View) (tick : Nat) (n : BitVec 6) : Word := v.wv.readS tick v.a.e n.toNat

/-- Write an s-register destination. -/
def View.putS (v : View) (tick : Nat) (n : BitVec 6) (x : Word) (wv : Wave) : Wave := wv.writeS tick v.a.e n.toNat x

/-- The highest v-register that an operand of a type names, for check 6 (R40, R62). -/
def vHigh (wide : Bool) : Reg → List Nat
  | .v n => [if wide then n.toNat + 1 else n.toNat]
  | .s _ => []

/-- The v-registers of the groups of a live-in mask: a group must lie wholly in the budget (R55). -/
def maskHigh (m : BitVec 32) : List Nat := ((List.range 32).filter fun i => m.getLsbD i).map fun i => 8 * i + 7

end Sys2Proof.Machine
end

