-- ==== Sys2Proof/Machine/Flags.lean ====
section
/-! DEFINITION. The flags of FPSTATUS (R93, R94) and what raises each. -/

namespace Sys2Proof.Machine

open Sys2Proof

/-- A set of FPSTATUS flags (R93): NV, DZ, OF, UF, NX, SAT in bits 0 to 5. -/
abbrev Flags := BitVec 6

/-- Invalid operation. -/
def flNV : Flags := 0x01
/-- Division by zero. -/
def flDZ : Flags := 0x02
/-- Overflow; it also sets NX (R94). -/
def flOF : Flags := 0x14
/-- Underflow; it also sets NX (R94). -/
def flUF : Flags := 0x18
/-- Inexact. -/
def flNX : Flags := 0x10
/-- An integer `.sat` form clamped. -/
def flSAT : Flags := 0x20

/-- A flag set where a condition holds. -/
def flagIf (c : Bool) (f : Flags) : Flags := if c then f else 0

/-- The flags of an instruction: those of every acting thread (R94). -/
def orFlags (l : List (Word × Flags)) : Flags := l.foldl (fun a p => a ||| p.2) 0

/-- Merge flags into FPSTATUS: they only ever become set (R93, R95). -/
def Wave.raise (wv : Wave) (f : Flags) : Wave := { wv with fpstatus := wv.fpstatus ||| f }

end Sys2Proof.Machine
end

