-- ==== Sys2Proof/Machine/Operands.lean ====
section
/-! DEFINITION. Operands: how a value is read from a register or an immediate (R65, R90, R102), the integers' ranges
(R65, R66), and the offset of an access (R230, R231). -/

namespace Sys2Proof.Machine

open Sys2Proof

/-- The integer a type reads in the low bits of a word (R65, R66); a bit type reads as unsigned. -/
def intVal (ty : Ty) (x : Word) : Int :=
  if ty.isS then (x.setWidth ty.width).toInt else ((x.setWidth ty.width).toNat : Int)

/-- The unsigned number in the low n bits. -/
def natVal (ty : Ty) (x : Word) : Nat := (x.setWidth ty.width).toNat

/-- The low n bits of an integer, filled by the type (R65, R66). -/
def ofInt (ty : Ty) (v : Int) : Word := fillWord ty (BitVec.ofInt 64 v)

/-- The smallest value of an integer type (R65). -/
def minInt (ty : Ty) : Int := if ty.isS then -(2 ^ (ty.width - 1) : Nat) else 0

/-- The largest value of an integer type (R65). -/
def maxInt (ty : Ty) : Int := if ty.isS then (2 ^ (ty.width - 1) : Nat) - 1 else (2 ^ ty.width : Nat) - 1

/-- `sat_s`, `sat_n` (R85): clamp to the type's range. -/
def clampInt (ty : Ty) (v : Int) : Int := if v < minInt ty then minInt ty else if maxInt ty < v then maxInt ty else v

/-- A VI immediate: the field sign-extended to n bits (R90). -/
def immWord (ty : Ty) (imm : BitVec 21) : Word := fillWord ty (imm.signExtend 64)

/-- The value of a source operand of a type in a thread (R90). -/
def View.src (v : View) (tick : Nat) (ty : Ty) (r : Reg) (t : Nat) : Word := v.operand tick ty.wide r t

/-- The count operand of a shift (R102): 32 bits of a v-register, 64 of a pair or an s-register. -/
def View.shiftCount (v : View) (tick : Nat) (ty : Ty) (r : Reg) (t : Nat) : Nat := (v.operand tick ty.wide r t).toNat

/-- The count of the immediate form of a shift (R102): sign-extended to 64 bits and read as unsigned. -/
def immCount (imm : BitVec 21) : Nat := (imm.signExtend 64).toNat

/-- The type as wide as a `.wide` product (R97). -/
def wideTy : Ty → Ty
  | .s8 => .s16 | .s16 => .s32 | .s32 => .s64
  | .n8 => .n16 | .n16 => .n32 | .n32 => .n64
  | t => t

/-- The highest v-registers of operands with their widths (R40, R62). -/
def vHighs (l : List (Bool × Reg)) : List Nat := l.flatMap fun p => vHigh p.1 p.2

/-- The low 32 bits of a register in a thread, as a signed number (R111). -/
def View.signed32 (v : View) (tick : Nat) (r : Reg) (t : Nat) : Int := ((v.operand tick false r t).setWidth 32).toInt

/-- The low 32 bits of a register in a thread, as an unsigned number (R111). -/
def View.unsigned32 (v : View) (tick : Nat) (r : Reg) (t : Nat) : Nat := ((v.operand tick false r t).setWidth 32).toNat

end Sys2Proof.Machine
end

