-- ==== Sys2Proof/Machine/Float.lean ====
section
/-! DEFINITION. Floating formats (R67, R68), the rounding rule (R69), and the floating operations (R70, R71), with the
flags of R94: operands become exact values, results are rounded once. -/

namespace Sys2Proof.Machine

open Sys2Proof

/-- A floating format (R67): fraction bits, exponent bits, bias, and whether it has infinities. -/
structure Fmt where
  frac : Nat
  exp : Nat
  bias : Nat
  hasInf : Bool
  deriving DecidableEq, Repr

/-- The format of a floating type (R67). -/
def fmtOf : Ty → Fmt
  | .f16 => ⟨10, 5, 15, true⟩
  | .bf16 => ⟨7, 8, 127, true⟩
  | .f64 => ⟨52, 11, 1023, true⟩
  | .e4m3 => ⟨3, 4, 7, false⟩
  | .e5m2 => ⟨2, 5, 15, true⟩
  | _ => ⟨23, 8, 127, true⟩

/-- prec(fmt) (R67). -/
def Fmt.prec (f : Fmt) : Nat := f.frac + 1

/-- emin(fmt) (R67). -/
def Fmt.emin (f : Fmt) : Int := 1 - (f.bias : Int)

/-- The sign bit's place. -/
def Fmt.signAt (f : Fmt) : Nat := f.frac + f.exp

/-- The largest finite value's bits (R67). -/
def Fmt.maxBits (f : Fmt) : Nat := if f.hasInf then (2 ^ f.exp - 1) * 2 ^ f.frac - 1 else 2 ^ f.signAt - 2

/-- The infinity's bits (R67). -/
def Fmt.infBits (f : Fmt) : Nat := (2 ^ f.exp - 1) * 2 ^ f.frac

/-- canon_nan(fmt) (R67). -/
def Fmt.nanBits (f : Fmt) : Nat := if f.hasInf then f.infBits + 2 ^ (f.frac - 1) else 2 ^ f.signAt - 1

/-- Bits with a sign. -/
def Fmt.signed (f : Fmt) (s : Bool) (x : Nat) : Nat := if s then 2 ^ f.signAt + x else x

/-- A decoded value: a NaN, signalling or not; an infinity; or s m x 2^e exactly (R67, R68). -/
inductive Fp where
  | nan (signalling : Bool)
  | inf (s : Bool)
  | fin (s : Bool) (m : Nat) (e : Int)
  deriving DecidableEq, Repr

/-- fp_decode (R85): the 8-bit formats have no signalling NaNs (R94). -/
def Fmt.decode (f : Fmt) (x : Nat) : Fp :=
  let s := x / 2 ^ f.signAt % 2 = 1
  let e := x / 2 ^ f.frac % 2 ^ f.exp
  let m := x % 2 ^ f.frac
  if f.hasInf && e = 2 ^ f.exp - 1 then
    if m = 0 then .inf s else .nan (f.prec > 3 && m < 2 ^ (f.frac - 1))
  else if !f.hasInf && e = 2 ^ f.exp - 1 && m = 2 ^ f.frac - 1 then .nan false
  else if e = 0 then .fin s m (f.emin - f.frac)
  else .fin s (2 ^ f.frac + m) ((e : Int) - f.bias - f.frac)

/-- A value of a type. -/
def fpVal (ty : Ty) (x : Word) : Fp := (fmtOf ty).decode (natVal ty x)

/-- An exact magnitude m x 2^e, or a little more where `sticky`: more by less than 2^e. -/
structure Mag where
  m : Nat
  e : Int
  sticky : Bool := false
  deriving DecidableEq, Repr

/-- floor_log2 of a magnitude that is not zero. -/
def Mag.log (a : Mag) : Int := (Nat.log2 a.m : Int) + a.e

/-- A magnitude in units of 2^t: the whole units, whether a half or more is left, and whether anything else is left. -/
def Mag.units (a : Mag) (t : Int) : Nat × Bool × Bool :=
  if t ≤ a.e then (a.m * 2 ^ (a.e - t).toNat, false, a.sticky)
  else
    let n := (t - a.e).toNat
    let r := a.m % 2 ^ n
    (a.m / 2 ^ n, 2 ^ (n - 1) ≤ r, a.sticky || r % 2 ^ (n - 1) ≠ 0)

/-- One step of `round_to` (R69): the units after rounding under a mode, and whether that was inexact. -/
def roundUnits (mode : RoundMode) (s : Bool) (u : Nat × Bool × Bool) : Nat × Bool :=
  let (k, half, more) := u
  let inexact := half || more
  let up := match mode with
    | .rn => half && (more || k % 2 = 1)
    | .rz => false
    | .rd => s && inexact
    | .ru => !s && inexact
  (if up then k + 1 else k, inexact)

/-- A floating result: bits and flags. -/
abbrev FpRes := Nat × Flags

/-- overflow(fmt, s, m, sat) (R69). -/
def Fmt.overflow (f : Fmt) (s : Bool) (mode : RoundMode) (sat : Bool) : Nat :=
  if sat then f.signed s f.maxBits
  else if !f.hasInf then f.nanBits
  else
    match mode with
    | .rn => f.signed s f.infBits
    | .rz => f.signed s f.maxBits
    | .rd => if s then f.signed true f.infBits else f.maxBits
    | .ru => if s then f.signed true f.maxBits else f.infBits

/-- `round_to` (R69) with its flags (R94). -/
def Fmt.round (f : Fmt) (s : Bool) (a : Mag) (mode : RoundMode) (sat : Bool) : FpRes :=
  if a.m = 0 && !a.sticky then (f.signed s 0, 0)
  else
    let t0 := f.emin - f.prec + 1
    let e := a.log
    let t := if e < f.emin then t0 else e - f.prec + 1
    let (k, inexact) := roundUnits mode s (a.units t)
    let bits := (t - t0).toNat * 2 ^ f.frac + k
    if f.maxBits < bits then (f.overflow s mode sat, flOF)
    else
      let tiny := e < f.emin - 1 || (e == f.emin - 1 && (roundUnits mode s (a.units (e - f.prec + 1))).1 < 2 ^ f.prec)
      (f.signed s bits, if inexact then (if tiny then flUF else flNX) else 0)

/-- round_rne of an exact signed value (R69). -/
def Fmt.rne (f : Fmt) (s : Bool) (a : Mag) : FpRes := f.round s a .rn false

/-- A NaN operand or an invalid operation (R70): the canonical NaN; NV for a signalling NaN, and for an invalid
operation on operands that are no NaN (R94). -/
def Fmt.nan (f : Fmt) (nv : Bool) : FpRes := (f.nanBits, flagIf nv flNV)

/-- Whether an operand is a NaN. -/
def Fp.isNan : Fp → Bool
  | .nan _ => true
  | _ => false

/-- Whether an operand is a signalling NaN. -/
def Fp.isSnan : Fp → Bool
  | .nan q => q
  | _ => false

/-- A value with its sign inverted. -/
def Fp.neg : Fp → Fp
  | .nan q => .nan q
  | .inf s => .inf !s
  | .fin s m e => .fin (!s) m e

/-- The exact sum of two finite values: sign, and magnitude; an exact zero is +0 unless both are -0 (R70). -/
def addExact (s1 : Bool) (m1 : Nat) (e1 : Int) (s2 : Bool) (m2 : Nat) (e2 : Int) : Bool × Mag :=
  let e := min e1 e2
  let a := m1 * 2 ^ (e1 - e).toNat
  let b := m2 * 2 ^ (e2 - e).toNat
  if s1 = s2 then (s1, ⟨a + b, e, false⟩)
  else if a = b then (false, ⟨0, e, false⟩)
  else if b < a then (s1, ⟨a - b, e, false⟩)
  else (s2, ⟨b - a, e, false⟩)

/-- fp_add on decoded values (R70). -/
def Fmt.add (f : Fmt) (x y : Fp) : FpRes :=
  match x, y with
  | .nan q, z => f.nan (q || z.isSnan)
  | _, .nan q => f.nan q
  | .inf s, .inf s' => if s = s' then (f.signed s f.infBits, 0) else f.nan true
  | .inf s, _ => (f.signed s f.infBits, 0)
  | _, .inf s => (f.signed s f.infBits, 0)
  | .fin s1 m1 e1, .fin s2 m2 e2 =>
    let (s, a) := addExact s1 m1 e1 s2 m2 e2
    f.rne s a

/-- fp_sub (R70). -/
def Fmt.sub (f : Fmt) (x y : Fp) : FpRes := f.add x y.neg

/-- fp_mul (R70). -/
def Fmt.mul (f : Fmt) (x y : Fp) : FpRes :=
  match x, y with
  | .nan q, z => f.nan (q || z.isSnan)
  | _, .nan q => f.nan q
  | .inf s, .inf s' => (f.signed (s != s') f.infBits, 0)
  | .inf s, .fin s' m _ => if m = 0 then f.nan true else (f.signed (s != s') f.infBits, 0)
  | .fin s m _, .inf s' => if m = 0 then f.nan true else (f.signed (s != s') f.infBits, 0)
  | .fin s1 m1 e1, .fin s2 m2 e2 => f.rne (s1 != s2) ⟨m1 * m2, e1 + e2, false⟩

/-- fp_fma (R70, R98): the exact a x b + c, rounded once; 0 x infinity gives the NaN whatever c is. -/
def Fmt.fma (f : Fmt) (x y z : Fp) : FpRes :=
  if x.isNan || y.isNan || z.isNan then f.nan (x.isSnan || y.isSnan || z.isSnan)
  else
    let prod : Fp := match x, y with
      | .inf s, .inf s' => .inf (s != s')
      | .inf s, .fin s' m _ => if m = 0 then .nan true else .inf (s != s')
      | .fin s m _, .inf s' => if m = 0 then .nan true else .inf (s != s')
      | .fin s1 m1 e1, .fin s2 m2 e2 => .fin (s1 != s2) (m1 * m2) (e1 + e2)
      | _, _ => .nan true
    f.add prod z

/-- fp_div (R70): a quotient of at least prec + 3 bits, with what is left over. -/
def Fmt.div (f : Fmt) (x y : Fp) : FpRes :=
  match x, y with
  | .nan q, z => f.nan (q || z.isSnan)
  | _, .nan q => f.nan q
  | .inf _, .inf _ => f.nan true
  | .inf s, .fin s' _ _ => (f.signed (s != s') f.infBits, 0)
  | .fin s _ _, .inf s' => (f.signed (s != s') 0, 0)
  | .fin s1 m1 e1, .fin s2 m2 e2 =>
    if m2 = 0 then
      if m1 = 0 then f.nan true else (f.signed (s1 != s2) f.infBits, flDZ)
    else if m1 = 0 then (f.signed (s1 != s2) 0, 0)
    else
      let n := f.prec + 4 + Nat.log2 m2
      let a := m1 * 2 ^ n
      f.rne (s1 != s2) ⟨a / m2, e1 - e2 - n, a % m2 ≠ 0⟩

/-- The integer square root by its bits, from bit k - 1 down. -/
def sqrtBits (n r : Nat) : Nat → Nat
  | 0 => r
  | k + 1 => if (r + 2 ^ k) * (r + 2 ^ k) ≤ n then sqrtBits n (r + 2 ^ k) k else sqrtBits n r k

/-- The integer square root. -/
def isqrt (n : Nat) : Nat := sqrtBits n 0 (Nat.log2 n / 2 + 1)

/-- The square root of a magnitude, to `bits` bits at least. -/
def Mag.sqrt (a : Mag) (bits : Nat) : Mag :=
  let n := 2 * bits + (if (a.e - (2 * bits : Nat)) % 2 = 0 then 0 else 1)
  let m := a.m * 2 ^ n
  let r := isqrt m
  ⟨r, (a.e - n) / 2, r * r ≠ m⟩

/-- fp_sqrt (R70). -/
def Fmt.sqrt (f : Fmt) (x : Fp) : FpRes :=
  match x with
  | .nan q => f.nan q
  | .inf s => if s then f.nan true else (f.infBits, 0)
  | .fin s m e =>
    if m = 0 then (f.signed s 0, 0)
    else if s then f.nan true
    else f.rne false (Mag.sqrt ⟨m, e, false⟩ (f.prec + 4))

/-- An order key of a value that is no NaN: with -0 below +0 (R71). -/
def Fmt.key (f : Fmt) (x : Nat) : Int :=
  let m := x % 2 ^ f.signAt
  if x / 2 ^ f.signAt % 2 = 1 then -(m : Int) - 1 else m

/-- Floating `vmin` or `vmax` (R71). -/
def Fmt.extreme (f : Fmt) (greater : Bool) (x y : Nat) : FpRes :=
  let a := f.decode x
  let b := f.decode y
  let fl := flagIf (a.isSnan || b.isSnan) flNV
  if a.isNan then (if b.isNan then f.nanBits else y, fl)
  else if b.isNan then (x, fl)
  else (if (f.key x < f.key y) != greater then x else y, fl)

/-- The order of two values that are no NaN, with +0 equal to -0 (R106). -/
def Fmt.compareKey (f : Fmt) (x : Nat) : Int :=
  let m := x % 2 ^ f.signAt
  if x / 2 ^ f.signAt % 2 = 1 then -(m : Int) else m

/-- Floating `vcmp` (R106) with its flags (R94). -/
def Fmt.compare (f : Fmt) (c : Cond) (x y : Nat) : Bool × Flags :=
  let a := f.decode x
  let b := f.decode y
  let un := a.isNan || b.isNan
  let ordered := c == .lt || c == .le || c == .gt || c == .ge
  let fl := flagIf (a.isSnan || b.isSnan || (un && ordered)) flNV
  let i := f.compareKey x
  let j := f.compareKey y
  (match c with
    | .eq => !un && i == j
    | .ne => un || i != j
    | .lt => !un && decide (i < j)
    | .le => !un && decide (i ≤ j)
    | .gt => !un && decide (j < i)
    | .ge => !un && decide (j ≤ i)
    | .uo => un
    | .ord => !un, fl)

/-- A floating result as a word. -/
def fpWord (r : FpRes) : Word × Flags := (BitVec.ofNat 64 r.1, r.2)

/-- round_half_even of a signed exact value (R85). -/
def halfEven (s : Bool) (a : Mag) : Int :=
  let (k, _) := roundUnits .rn s (a.units 0)
  if s then -(k : Int) else k

end Sys2Proof.Machine
end

