-- ==== Sys2Proof/Machine/Alu.lean ====
section
/-! DEFINITION. The class-0 instructions that compute in each thread: arithmetic (R96 to R100), division and square root
(R99), bits and shifts (R101, R102), moves (R103), conversion (R72, R104), compares and predicates (R106, R107). -/

namespace Sys2Proof.Machine

open Sys2Proof

-- Shared forms -----------------------------------------------------------------------------------------------------------

/-- What an instruction computes in each acting thread, once for a uniform one (R88). -/
def perThread (d : Reg) (act : Mask) (f : Nat → Word × Flags) : List (Word × Flags) :=
  if d.isS then [f (lowest act)]
  else (List.range 64).map fun t => if act.getLsbD t then f t else (0, 0)

/-- A fixed-latency instruction of class 0 (R88, R89, R95): `vregs` are the highest v-registers it names. -/
def aluFixed (g : Guard) (d : Reg) (wide : Bool) (vregs : List Nat) (s : State) (f : View → Nat → Word × Flags) :
    Host.Outcome State Fault Refusal :=
  instr { guard := g, lane := !d.isS, vregs := vregs, inRegion := true } s fun v act =>
    let rs := perThread d act (f v)
    s.retireWith v fun wv => (wv.writeReg s.tick v.a.e d wide act fun t => (rs.getD t (0, 0)).1).raise (orFlags rs)

/-- A long-latency instruction of class 0: its results are of the operands at issue (R48). -/
def aluLong (g : Guard) (fg : Flag) (ty : Ty) (d : Reg) (vregs : List Nat) (s : State) (f : View → Nat → Word × Flags) :
    Host.Outcome State Fault Refusal :=
  instr { guard := g, lane := !d.isS, vregs := vregs, inRegion := true, long := some fg } s fun v act =>
    let rs := perThread d act (f v)
    s.issueLong v fg act d.isS (.alu d ty (rs.map (·.1)) (orFlags rs)) true []

/-- Two register operands of one type. -/
def aluTwo (g : Guard) (ty : Ty) (d a b : Reg) (s : State) (f : Word → Word → Word × Flags) : Host.Outcome State Fault Refusal :=
  aluFixed g d ty.wide (vHighs [(ty.wide, d), (ty.wide, a), (ty.wide, b)]) s fun v t =>
    f (v.src s.tick ty a t) (v.src s.tick ty b t)

/-- A register operand and an immediate. -/
def aluImm (g : Guard) (ty : Ty) (d a : Reg) (imm : BitVec 21) (s : State) (f : Word → Word → Word × Flags) :
    Host.Outcome State Fault Refusal :=
  aluFixed g d ty.wide (vHighs [(ty.wide, d), (ty.wide, a)]) s fun v t => f (v.src s.tick ty a t) (immWord ty imm)

/-- One register operand. -/
def aluOne (g : Guard) (ty : Ty) (d a : Reg) (s : State) (f : Word → Word × Flags) : Host.Outcome State Fault Refusal :=
  aluFixed g d ty.wide (vHighs [(ty.wide, d), (ty.wide, a)]) s fun v t => f (v.src s.tick ty a t)

-- Values -----------------------------------------------------------------------------------------------------------------

/-- An exact integer result (R66, R97): its low bits, or clamped with SAT. -/
def intResult (ty : Ty) (sat : Bool) (v : Int) : Word × Flags :=
  if sat then (ofInt ty (clampInt ty v), flagIf (clampInt ty v != v) flSAT) else (ofInt ty v, 0)

/-- `vadd` (R97). -/
def addVal (ty : Ty) (sat : Bool) (x y : Word) : Word × Flags :=
  if ty.isFloat then fpWord ((fmtOf ty).add (fpVal ty x) (fpVal ty y)) else intResult ty sat (intVal ty x + intVal ty y)

/-- `vsub` (R97). -/
def subVal (ty : Ty) (sat : Bool) (x y : Word) : Word × Flags :=
  if ty.isFloat then fpWord ((fmtOf ty).sub (fpVal ty x) (fpVal ty y)) else intResult ty sat (intVal ty x - intVal ty y)

/-- `vmul` (R97): the product's low half, its high half as a 2n-bit value, clamped, or whole. -/
def mulVal (mode : MulMode) (ty : Ty) (x y : Word) : Word × Flags :=
  if ty.isFloat then fpWord ((fmtOf ty).mul (fpVal ty x) (fpVal ty y))
  else
    let v := intVal ty x * intVal ty y
    match mode with
    | .low => intResult ty false v
    | .sat => intResult ty true v
    | .hi => (ofInt ty (v / (2 ^ ty.width : Nat)), 0)
    | .wide => (ofInt (wideTy ty) v, 0)

/-- `vmin` and `vmax` (R71, R100). -/
def extremeVal (greater : Bool) (ty : Ty) (x y : Word) : Word × Flags :=
  if ty.isFloat then fpWord ((fmtOf ty).extreme greater (natVal ty x) (natVal ty y))
  else
    let i := intVal ty x
    let j := intVal ty y
    (ofInt ty (if greater then max i j else min i j), 0)

/-- `vfma` (R98). -/
def fmaVal (ty : Ty) (x y z : Word) : Word × Flags :=
  if ty.isFloat then fpWord ((fmtOf ty).fma (fpVal ty x) (fpVal ty y) (fpVal ty z))
  else (ofInt ty (intVal ty x * intVal ty y + intVal ty z), 0)

/-- div_s and div_n (R66, R85). -/
def divInt (ty : Ty) (x y : Int) : Int := if y = 0 then (if ty.isS then -1 else maxInt ty) else x.tdiv y

/-- `vdiv` (R99). -/
def divVal (ty : Ty) (x y : Word) : Word × Flags :=
  if ty.isFloat then fpWord ((fmtOf ty).div (fpVal ty x) (fpVal ty y)) else (ofInt ty (divInt ty (intVal ty x) (intVal ty y)), 0)

/-- `vsqrt` (R99). -/
def sqrtVal (ty : Ty) (x : Word) : Word × Flags := fpWord ((fmtOf ty).sqrt (fpVal ty x))

/-- A bitwise operation (R101). -/
def bitVal (ty : Ty) (op : Word → Word → Word) (x y : Word) : Word × Flags := (fillWord ty (op x y), 0)

/-- `vshl` (R102). -/
def shlVal (ty : Ty) (x : Word) (c : Nat) : Word × Flags :=
  (if ty.width ≤ c then 0 else fillWord ty (x <<< c), 0)

/-- `vshr` (R102): arithmetic for `.s`. -/
def shrVal (ty : Ty) (x : Word) (c : Nat) : Word × Flags :=
  (if ty.isS then ofInt ty (intVal ty x / (2 ^ min c ty.width : Nat))
   else if ty.width ≤ c then 0 else fillWord ty (BitVec.ofNat 64 (natVal ty x / 2 ^ c)), 0)

/-- The bits of the low n, lowest first. -/
def lowBits (ty : Ty) (x : Word) : List Bool := (List.range ty.width).map fun i => x.getLsbD i

/-- Number of leading false values. -/
def leadingFalse : List Bool → Nat
  | [] => 0
  | b :: t => if b then 0 else leadingFalse t + 1

/-- `vbit.popc` (R102). -/
def popcVal (ty : Ty) (x : Word) : Word × Flags := (BitVec.ofNat 64 ((lowBits ty x).filter id).length, 0)

/-- `vbit.clz` (R102). -/
def clzVal (ty : Ty) (x : Word) : Word × Flags := (BitVec.ofNat 64 (leadingFalse (lowBits ty x).reverse), 0)

/-- `vbit.ctz` (R102). -/
def ctzVal (ty : Ty) (x : Word) : Word × Flags := (BitVec.ofNat 64 (leadingFalse (lowBits ty x)), 0)

/-- The number of bits listed lowest first. -/
def bitsNat : List Bool → Nat
  | [] => 0
  | b :: t => b.toNat + 2 * bitsNat t

/-- `vbit.rev` (R102). -/
def revVal (ty : Ty) (x : Word) : Word × Flags := (BitVec.ofNat 64 (bitsNat (lowBits ty x).reverse), 0)

/-- `vmov` (R103). -/
def movVal (ty : Ty) (x : Word) : Word × Flags := (fillWord ty x, 0)

/-- Round an exact value to an integer under a mode (R72). -/
def roundInt (mode : RoundMode) (s : Bool) (a : Mag) : Int × Bool :=
  let (k, inexact) := roundUnits mode s (a.units 0)
  (if s then -(k : Int) else k, inexact)

/-- Floating to integer (R72, R94). -/
def toIntVal (ty : Ty) (mode : RoundMode) (x : Fp) : Word × Flags :=
  match x with
  | .nan _ => (0, flNV)
  | .inf s => (ofInt ty (if s then minInt ty else maxInt ty), flNV)
  | .fin s m e =>
    let (v, inexact) := roundInt mode s ⟨m, e, false⟩
    if clampInt ty v != v then (ofInt ty (clampInt ty v), flNV) else (ofInt ty v, flagIf inexact flNX)

/-- Floating to floating (R72, R94). -/
def toFloatVal (ty : Ty) (mode : RoundMode) (sat : Bool) (x : Fp) : Word × Flags :=
  let f := fmtOf ty
  match x with
  | .nan q => fpWord (f.nan q)
  | .inf s =>
    if sat then fpWord (f.signed s f.maxBits, 0)
    else if f.hasInf then fpWord (f.signed s f.infBits, 0)
    else fpWord (f.nan true)
  | .fin s m e => fpWord (f.round s ⟨m, e, false⟩ mode sat)

/-- `vcvt` (R72, R104). -/
def cvtVal (sat : Bool) (mode : RoundMode) (dty sty : Ty) (x : Word) : Word × Flags :=
  if sty.isFloat then
    if dty.isFloat then toFloatVal dty mode sat (fpVal sty x) else toIntVal dty mode (fpVal sty x)
  else
    let v := intVal sty x
    if dty.isFloat then fpWord ((fmtOf dty).round (decide (v < 0)) ⟨v.natAbs, 0, false⟩ mode sat) else intResult dty sat v

/-- Whether a condition of `vcmp` holds (R106). -/
def cmpVal (c : Cond) (ty : Ty) (x y : Word) : Bool × Flags :=
  if ty.isFloat then (fmtOf ty).compare c (natVal ty x) (natVal ty y)
  else
    let i := intVal ty x
    let j := intVal ty y
    (match c with
      | .eq => i == j
      | .ne => i != j
      | .lt => decide (i < j)
      | .le => decide (i ≤ j)
      | .gt => decide (j < i)
      | .ge => decide (j ≤ i)
      | .uo => false
      | .ord => true, 0)

-- Meanings ----------------------------------------------------------------------------------------------------------------

/-- VADD (R97). -/
def execVadd (g : Guard) (sat : Bool) (ty : Ty) (d a b : Reg) (s : State) : Host.Outcome State Fault Refusal :=
  aluTwo g ty d a b s (addVal ty sat)

/-- VADD_IMM (R97). -/
def execVaddImm (g : Guard) (ty : Ty) (d a : Reg) (imm : BitVec 21) (s : State) : Host.Outcome State Fault Refusal :=
  aluImm g ty d a imm s (addVal ty false)

/-- VSUB (R97). -/
def execVsub (g : Guard) (sat : Bool) (ty : Ty) (d a b : Reg) (s : State) : Host.Outcome State Fault Refusal :=
  aluTwo g ty d a b s (subVal ty sat)

/-- VSUB_IMM (R97). -/
def execVsubImm (g : Guard) (ty : Ty) (d a : Reg) (imm : BitVec 21) (s : State) : Host.Outcome State Fault Refusal :=
  aluImm g ty d a imm s (subVal ty false)

/-- VMUL (R97): a `.wide` product has a destination twice as wide. -/
def execVmul (g : Guard) (mode : MulMode) (ty : Ty) (d a b : Reg) (s : State) : Host.Outcome State Fault Refusal :=
  let dw := if mode == .wide then (wideTy ty).wide else ty.wide
  aluFixed g d dw (vHighs [(dw, d), (ty.wide, a), (ty.wide, b)]) s fun v t =>
    mulVal mode ty (v.src s.tick ty a t) (v.src s.tick ty b t)

/-- VMUL_IMM (R97). -/
def execVmulImm (g : Guard) (ty : Ty) (d a : Reg) (imm : BitVec 21) (s : State) : Host.Outcome State Fault Refusal :=
  aluImm g ty d a imm s (mulVal .low ty)

/-- VMIN (R100). -/
def execVmin (g : Guard) (ty : Ty) (d a b : Reg) (s : State) : Host.Outcome State Fault Refusal :=
  aluTwo g ty d a b s (extremeVal false ty)

/-- VMIN_IMM (R100). -/
def execVminImm (g : Guard) (ty : Ty) (d a : Reg) (imm : BitVec 21) (s : State) : Host.Outcome State Fault Refusal :=
  aluImm g ty d a imm s (extremeVal false ty)

/-- VMAX (R100). -/
def execVmax (g : Guard) (ty : Ty) (d a b : Reg) (s : State) : Host.Outcome State Fault Refusal :=
  aluTwo g ty d a b s (extremeVal true ty)

/-- VMAX_IMM (R100). -/
def execVmaxImm (g : Guard) (ty : Ty) (d a : Reg) (imm : BitVec 21) (s : State) : Host.Outcome State Fault Refusal :=
  aluImm g ty d a imm s (extremeVal true ty)

/-- VFMA (R98). -/
def execVfma (g : Guard) (ty : Ty) (d a b c : Reg) (s : State) : Host.Outcome State Fault Refusal :=
  aluFixed g d ty.wide (vHighs [(ty.wide, d), (ty.wide, a), (ty.wide, b), (ty.wide, c)]) s fun v t =>
    fmaVal ty (v.src s.tick ty a t) (v.src s.tick ty b t) (v.src s.tick ty c t)

/-- VDIV (R99). -/
def execVdiv (g : Guard) (f : Flag) (ty : Ty) (d a b : Reg) (s : State) : Host.Outcome State Fault Refusal :=
  aluLong g f ty d (vHighs [(ty.wide, d), (ty.wide, a), (ty.wide, b)]) s fun v t =>
    divVal ty (v.src s.tick ty a t) (v.src s.tick ty b t)

/-- VSQRT (R99). -/
def execVsqrt (g : Guard) (f : Flag) (ty : Ty) (d a : Reg) (s : State) : Host.Outcome State Fault Refusal :=
  aluLong g f ty d (vHighs [(ty.wide, d), (ty.wide, a)]) s fun v t => sqrtVal ty (v.src s.tick ty a t)

/-- VCVT (R104). -/
def execVcvt (g : Guard) (sat : Bool) (rm : RoundMode) (dty sty : Ty) (d a : Reg) (s : State) :
    Host.Outcome State Fault Refusal :=
  aluFixed g d dty.wide (vHighs [(dty.wide, d), (sty.wide, a)]) s fun v t => cvtVal sat rm dty sty (v.src s.tick sty a t)

/-- VAND (R101). -/
def execVand (g : Guard) (ty : Ty) (d a b : Reg) (s : State) : Host.Outcome State Fault Refusal :=
  aluTwo g ty d a b s (bitVal ty (· &&& ·))

/-- VAND_IMM (R101). -/
def execVandImm (g : Guard) (ty : Ty) (d a : Reg) (imm : BitVec 21) (s : State) : Host.Outcome State Fault Refusal :=
  aluImm g ty d a imm s (bitVal ty (· &&& ·))

/-- VOR (R101). -/
def execVor (g : Guard) (ty : Ty) (d a b : Reg) (s : State) : Host.Outcome State Fault Refusal :=
  aluTwo g ty d a b s (bitVal ty (· ||| ·))

/-- VOR_IMM (R101). -/
def execVorImm (g : Guard) (ty : Ty) (d a : Reg) (imm : BitVec 21) (s : State) : Host.Outcome State Fault Refusal :=
  aluImm g ty d a imm s (bitVal ty (· ||| ·))

/-- VXOR (R101). -/
def execVxor (g : Guard) (ty : Ty) (d a b : Reg) (s : State) : Host.Outcome State Fault Refusal :=
  aluTwo g ty d a b s (bitVal ty (· ^^^ ·))

/-- VXOR_IMM (R101). -/
def execVxorImm (g : Guard) (ty : Ty) (d a : Reg) (imm : BitVec 21) (s : State) : Host.Outcome State Fault Refusal :=
  aluImm g ty d a imm s (bitVal ty (· ^^^ ·))

/-- VSHL (R102). -/
def execVshl (g : Guard) (ty : Ty) (d a b : Reg) (s : State) : Host.Outcome State Fault Refusal :=
  aluFixed g d ty.wide (vHighs [(ty.wide, d), (ty.wide, a), (ty.wide, b)]) s fun v t =>
    shlVal ty (v.src s.tick ty a t) (v.shiftCount s.tick ty b t)

/-- VSHL_IMM (R102). -/
def execVshlImm (g : Guard) (ty : Ty) (d a : Reg) (imm : BitVec 21) (s : State) : Host.Outcome State Fault Refusal :=
  aluOne g ty d a s fun x => shlVal ty x (immCount imm)

/-- VSHR (R102). -/
def execVshr (g : Guard) (ty : Ty) (d a b : Reg) (s : State) : Host.Outcome State Fault Refusal :=
  aluFixed g d ty.wide (vHighs [(ty.wide, d), (ty.wide, a), (ty.wide, b)]) s fun v t =>
    shrVal ty (v.src s.tick ty a t) (v.shiftCount s.tick ty b t)

/-- VSHR_IMM (R102). -/
def execVshrImm (g : Guard) (ty : Ty) (d a : Reg) (imm : BitVec 21) (s : State) : Host.Outcome State Fault Refusal :=
  aluOne g ty d a s fun x => shrVal ty x (immCount imm)

/-- VBIT_POPC (R102). -/
def execVbitPopc (g : Guard) (ty : Ty) (d a : Reg) (s : State) : Host.Outcome State Fault Refusal := aluOne g ty d a s (popcVal ty)

/-- VBIT_CLZ (R102). -/
def execVbitClz (g : Guard) (ty : Ty) (d a : Reg) (s : State) : Host.Outcome State Fault Refusal := aluOne g ty d a s (clzVal ty)

/-- VBIT_CTZ (R102). -/
def execVbitCtz (g : Guard) (ty : Ty) (d a : Reg) (s : State) : Host.Outcome State Fault Refusal := aluOne g ty d a s (ctzVal ty)

/-- VBIT_REV (R102). -/
def execVbitRev (g : Guard) (ty : Ty) (d a : Reg) (s : State) : Host.Outcome State Fault Refusal := aluOne g ty d a s (revVal ty)

/-- VSEL (R103): the predicate is read in each thread, once for a uniform form. -/
def execVsel (g : Guard) (ty : Ty) (d a b : Reg) (pk : BitVec 3) (s : State) : Host.Outcome State Fault Refusal :=
  aluFixed g d ty.wide (vHighs [(ty.wide, d), (ty.wide, a), (ty.wide, b)]) s fun v t =>
    movVal ty (v.src s.tick ty (if (v.wv.pReg pk).getLsbD t then a else b) t)

/-- VMOV (R103). -/
def execVmov (g : Guard) (ty : Ty) (d a : Reg) (s : State) : Host.Outcome State Fault Refusal := aluOne g ty d a s (movVal ty)

/-- VMOV_IMM (R103). -/
def execVmovImm (g : Guard) (ty : Ty) (d : Reg) (imm : BitVec 21) (s : State) : Host.Outcome State Fault Refusal :=
  aluFixed g d ty.wide (vHighs [(ty.wide, d)]) s fun _ _ => (immWord ty imm, 0)

/-- The b operand of `vcmp` in a thread (R90, R106). -/
def View.cmpArg (v : View) (tick : Nat) (ty : Ty) (b : CmpArg) (t : Nat) : Word :=
  match b with
  | .reg r => v.src tick ty r t
  | .imm i => immWord ty i

/-- The v-registers the b operand of `vcmp` names. -/
def cmpHigh (ty : Ty) : CmpArg → List Nat
  | .reg r => vHigh ty.wide r
  | .imm _ => []

/-- VCMP (R106): a uniform compare computes once and writes the predicate in every active thread. -/
def execVcmp (g : Guard) (uni : Bool) (cond : Cond) (ty : Ty) (pd : BitVec 3) (a : Reg) (b : CmpArg) (s : State) :
    Host.Outcome State Fault Refusal :=
  instr { guard := g, lane := !uni, vregs := vHigh ty.wide a ++ cmpHigh ty b, inRegion := true } s fun v act =>
    let one (t : Nat) : Bool × Flags := cmpVal cond ty (v.src s.tick ty a t) (v.cmpArg s.tick ty b t)
    if uni then
      let r := one (lowest act)
      s.retireWith v fun wv => (wv.putP pd v.en.mask (if r.1 then BitVec.allOnes 64 else 0)).raise r.2
    else
      let rs := (threads act).map fun t => (t, one t)
      let val := maskOf ((rs.filter fun r => r.2.1).map (·.1))
      s.retireWith v fun wv => (wv.putP pd act val).raise (rs.foldl (fun x r => x ||| r.2.2) 0)

/-- A predicate instruction (R107): on whole masks, written in the acting threads. -/
def predOp (g : Guard) (pd : BitVec 3) (s : State) (f : Wave → Mask) : Host.Outcome State Fault Refusal :=
  instr { guard := g, lane := true, inRegion := true } s fun v act =>
    s.retireWith v fun wv => wv.putP pd act (f v.wv)

/-- VPRED_AND (R107). -/
def execVpredAnd (g : Guard) (pd pa pb : BitVec 3) (s : State) : Host.Outcome State Fault Refusal :=
  predOp g pd s fun wv => wv.pReg pa &&& wv.pReg pb

/-- VPRED_OR (R107). -/
def execVpredOr (g : Guard) (pd pa pb : BitVec 3) (s : State) : Host.Outcome State Fault Refusal :=
  predOp g pd s fun wv => wv.pReg pa ||| wv.pReg pb

/-- VPRED_XOR (R107). -/
def execVpredXor (g : Guard) (pd pa pb : BitVec 3) (s : State) : Host.Outcome State Fault Refusal :=
  predOp g pd s fun wv => wv.pReg pa ^^^ wv.pReg pb

/-- VPRED_NOT (R107). -/
def execVpredNot (g : Guard) (pd pa : BitVec 3) (s : State) : Host.Outcome State Fault Refusal :=
  predOp g pd s fun wv => ~~~(wv.pReg pa)

/-- VPRED_MOV (R107). -/
def execVpredMov (g : Guard) (pd pa : BitVec 3) (s : State) : Host.Outcome State Fault Refusal :=
  predOp g pd s fun wv => wv.pReg pa

end Sys2Proof.Machine
end

