-- ==== Sys2Proof/Machine/Cross.lean ====
section
/-! DEFINITION. The cross-lane instructions (R108 to R114) and the fixed trees of R82 and R83. -/

namespace Sys2Proof.Machine

open Sys2Proof

/-- One value of each thread that takes part. -/
abbrev Present := List (Option Word)

/-- An operator that may raise flags. -/
abbrev TreeOp := Word → Word → Word × Flags

/-- The operators of `scan` and `lred` on a type (R113). -/
def redVal (op : RedOp) (ty : Ty) : TreeOp := fun x y =>
  match op with
  | .add => addVal ty false x y
  | .min => extremeVal false ty x y
  | .max => extremeVal true ty x y
  | .and => bitVal ty (· &&& ·) x y
  | .or => bitVal ty (· ||| ·) x y
  | .xor => bitVal ty (· ^^^ ·) x y

/-- Combine two operands of a tree, skipping an absent one (R82). -/
def combine (op : TreeOp) (fl : Flags) : Option Word → Option Word → Option Word × Flags
  | some a, some b => (some (op a b).1, fl ||| (op a b).2)
  | some a, none => (some a, fl)
  | none, b => (b, fl)

/-- One level of `lane_reduce` (R82): neighbours are combined, the lower first. -/
def reduceLevel (op : TreeOp) : Present → Flags → Present × Flags
  | a :: b :: t, fl =>
    let (x, fl) := combine op fl a b
    let (r, fl) := reduceLevel op t fl
    (x :: r, fl)
  | r, fl => (r, fl)

/-- `lane_reduce` (R82) of 2^k values. -/
def laneReduce (op : TreeOp) (xs : Present) (fl : Flags) : Nat → Option Word × Flags
  | 0 => (xs.headD none, fl)
  | k + 1 => laneReduce op (reduceLevel op xs fl).1 (reduceLevel op xs fl).2 k

/-- One level of `lane_scan` (R83): every value from place h up is combined with the value h below, that one first. -/
def scanLevel (op : TreeOp) (xs : Present) (h : Nat) (fl : Flags) : Present × Flags :=
  let rs : List (Option Word × Flags) := List.zipWith (combine op 0) (List.replicate h none ++ xs) xs
  (rs.map (·.1), rs.foldl (fun a r => a ||| r.2) fl)

/-- `lane_scan` (R83), inclusive, of 2^k values, from step h. -/
def laneScan (op : TreeOp) (xs : Present) (h : Nat) (fl : Flags) : Nat → Present × Flags
  | 0 => (xs, fl)
  | k + 1 => laneScan op (scanLevel op xs h fl).1 (2 * h) (scanLevel op xs h fl).2 k

/-- The operator's identity (R83). -/
def redIdentity (op : RedOp) (ty : Ty) : Word :=
  let f := fmtOf ty
  match op with
  | .add => if ty.isFloat then BitVec.ofNat 64 (f.signed true 0) else 0
  | .min => if ty.isFloat then BitVec.ofNat 64 f.infBits else ofInt ty (maxInt ty)
  | .max => if ty.isFloat then BitVec.ofNat 64 (f.signed true f.infBits) else ofInt ty (minInt ty)
  | .and => fillWord ty (BitVec.allOnes 64)
  | .or => 0
  | .xor => 0

/-- The values an exclusive scan gives (R83): of each place, the last present result below it, or the identity. -/
def exclusive (ident : Word) : Present → Option Word → List Word
  | [], _ => []
  | x :: t, last => last.getD ident :: exclusive ident t (if x.isSome then x else last)

/-- The acting threads' values of an operand (R113). -/
def View.present (v : View) (tick : Nat) (ty : Ty) (a : BitVec 8) (act : Mask) : Present :=
  (List.range 64).map fun t => if act.getLsbD t then some (v.src tick ty (.v a) t) else none

/-- SCAN (R113). -/
def execScan (g : Guard) (op : RedOp) (excl : Bool) (ty : Ty) (d a : BitVec 8) (s : State) : Host.Outcome State Fault Refusal :=
  instr { guard := g, lane := true, vregs := vHighs [(ty.wide, .v d), (ty.wide, .v a)], inRegion := true } s fun v act =>
    let xs := v.present s.tick ty a act
    let (ys, fl) := laneScan (redVal op ty) xs 1 0 6
    let kept := (ys.zip xs).map fun p => if p.2.isSome then p.1 else none
    let out := if excl then exclusive (redIdentity op ty) kept none else kept.map (·.getD 0)
    s.retireWith v fun wv => (wv.writeV d.toNat ty.wide act fun t => fillWord ty (out.getD t 0)).raise fl

/-- LRED (R113). -/
def execLred (g : Guard) (op : RedOp) (ty : Ty) (d a : BitVec 8) (s : State) : Host.Outcome State Fault Refusal :=
  instr { guard := g, lane := true, vregs := vHighs [(ty.wide, .v d), (ty.wide, .v a)], inRegion := true } s fun v act =>
    let (r, fl) := laneReduce (redVal op ty) (v.present s.tick ty a act) 0 6
    s.retireWith v fun wv => (wv.writeV d.toNat ty.wide act fun _ => fillWord ty (r.getD 0)).raise fl

/-- What a thread of a shuffle names: a source thread, or no thread; `bad` for a width-relative register shift outside 1
to 7, which the permissive bit does not excuse (R110 to R112). -/
inductive Source where
  | thread (j : Nat)
  | outside
  | bad
  deriving DecidableEq, Repr

/-- A signed thread number as a source (R109). -/
def sourceOf (j : Int) : Source := if 0 ≤ j ∧ j < 64 then .thread j.toNat else .outside

/-- W >> k (R111). -/
def widthShift (k : Nat) : Nat := wwidth / 2 ^ k

/-- The source of `shfl.idx` (R111). -/
def View.idxSource (v : View) (tick : Nat) (rel : Bool) (b : ShflArg) (i : Nat) : Source :=
  if rel then
    let k : Int := match b with
      | .imm x => x.toNat
      | .reg r => v.signed32 tick r i
    if 1 ≤ k ∧ k ≤ 7 then .thread (Nat.xor i (widthShift k.toNat)) else .bad
  else
    sourceOf (match b with
      | .imm x => (x.toNat : Int)
      | .reg r => (v.unsigned32 tick r i : Int))

/-- The source of `shfl.rel` (R112). -/
def View.relSource (v : View) (tick : Nat) (rel : Bool) (b : ShflArg) (i : Nat) : Source :=
  let x : Int := match b with
    | .imm x => x.toInt
    | .reg r => v.signed32 tick r i
  if rel then
    let k := x.natAbs
    if 1 ≤ k ∧ k ≤ 7 then
      let o : Int := if x < 0 then -(widthShift k : Int) else widthShift k
      .thread (((i : Int) + o) % 64).toNat
    else .bad
  else sourceOf (i + x)

/-- The b operand's v-registers. -/
def shflHigh : ShflArg → List Nat
  | .reg r => vHigh false r
  | .imm _ => []

/-- A shuffle (R109, R110): all reads before any write; a bad source faults unless the permissive bit reads it as 0. -/
def shuffle (g : Guard) (z : Bool) (ty : Ty) (d a : BitVec 8) (b : ShflArg) (s : State)
    (source : View → Nat → Source) : Host.Outcome State Fault Refusal :=
  instr { guard := g, lane := true, vregs := vHighs [(ty.wide, .v d), (ty.wide, .v a)] ++ shflHigh b, inRegion := true } s
    fun v act =>
    let srcs := (threads act).map fun i => (i, source v i)
    let shiftBad := (srcs.filter fun p => p.2 == .bad).map (·.1)
    let range := (srcs.filter fun p => p.2 == .bad || p.2 == .outside).map (·.1)
    let inactive := (srcs.filter fun p => match p.2 with | .thread j => !v.en.mask.getLsbD j | _ => false).map (·.1)
    let fault (c : Cause) (l : List Nat) : State := s.takeFault v.a c v.addr (maskOf l) none
    if !z && !range.isEmpty then fault Cause.xlRange range
    else if !shiftBad.isEmpty then fault Cause.xlRange shiftBad
    else if !z && !inactive.isEmpty then fault Cause.xlInactive inactive
    else
      let vals := (List.range 64).map fun i =>
        if act.getLsbD i then
          match source v i with
          | .thread j => if v.en.mask.getLsbD j then v.src s.tick ty (.v a) j else 0
          | _ => 0
        else 0
      s.retireWith v fun wv => wv.writeV d.toNat ty.wide act fun t => fillWord ty (vals.getD t 0)

/-- SHFL_IDX (R111). -/
def execShflIdx (g : Guard) (z rel : Bool) (ty : Ty) (d a : BitVec 8) (b : ShflArg) (s : State) :
    Host.Outcome State Fault Refusal :=
  shuffle g z ty d a b s fun v i => v.idxSource s.tick rel b i

/-- SHFL_REL (R112). -/
def execShflRel (g : Guard) (z rel : Bool) (ty : Ty) (d a : BitVec 8) (b : ShflArg) (s : State) :
    Host.Outcome State Fault Refusal :=
  shuffle g z ty d a b s fun v i => v.relSource s.tick rel b i

/-- VOTE_ALL (R114). -/
def execVoteAll (g : Guard) (pd pa : BitVec 3) (s : State) : Host.Outcome State Fault Refusal :=
  instr { guard := g, lane := true, inRegion := true } s fun v act =>
    s.retireWith v fun wv => wv.putP pd act (if v.wv.pReg pa &&& act = act then BitVec.allOnes 64 else 0)

/-- VOTE_ANY (R114). -/
def execVoteAny (g : Guard) (pd pa : BitVec 3) (s : State) : Host.Outcome State Fault Refusal :=
  instr { guard := g, lane := true, inRegion := true } s fun v act =>
    s.retireWith v fun wv => wv.putP pd act (if v.wv.pReg pa &&& act ≠ 0 then BitVec.allOnes 64 else 0)

/-- VOTE_BALLOT (R114): a window at or beyond W faults (R110), and LANEMASK names the acting threads (DESIGN CHOICE, log 111). -/
def execVoteBallot (g : Guard) (d : BitVec 8) (pa : BitVec 3) (k : BitVec 8) (s : State) : Host.Outcome State Fault Refusal :=
  instr { guard := g, lane := true, vregs := vHigh true (.v d), inRegion := true } s fun v act =>
    if wwidth ≤ 64 * k.toNat then s.takeFault v.a Cause.xlRange v.addr act none
    else s.retireWith v fun wv => wv.writeV d.toNat true act fun _ => v.wv.pReg pa &&& act

end Sys2Proof.Machine
end

