-- ==== Sys2Proof/Machine/Mem.lean ====
section
/-! DEFINITION. The class-1 instructions that reach memory: addresses and refusals (R227 to R229), windows (R230), loads
and stores with the store queue (R231 to R234), as-of loads (R235), atomics (R236 to R238), fences (R241), stamps and
holds (R242 to R245). -/

namespace Sys2Proof.Machine

open Sys2Proof

-- Pieces and refusals -----------------------------------------------------------------------------------------------------

/-- The longest aligned piece of at most 8 bytes at an address with so many bytes left (R188). -/
def pieceLen (a n : Nat) : Nat :=
  if a % 8 = 0 && 8 ≤ n then 8 else if a % 4 = 0 && 4 ≤ n then 4 else if a % 2 = 0 && 2 ≤ n then 2 else 1

/-- The pieces of an access (R188): places and lengths; `fuel` is the access's length. -/
def splitAccess (a byte left : Nat) : Nat → List (Nat × Nat)
  | 0 => []
  | fuel + 1 =>
    if left = 0 then []
    else (byte, pieceLen (a + byte) left) :: splitAccess a (byte + pieceLen (a + byte) left) (left - pieceLen (a + byte) left) fuel

/-- What a lane access asks for: its space, permissions, access kind (R228), bytes, and whether it must be aligned. -/
structure Access where
  sp : Space
  need : Need
  kind : Nat
  n : Nat
  aligned : Bool := false
  deriving DecidableEq, Repr

/-- The DPA of a piece of a `.g` access (R227 to R230, R248, R263): an empty window and a non-canonical address are out of
bound; through the window's frame up to its limit, else through translation. -/
def State.pieceTarget (s : State) (gr : Group) (region : Bool) (w : Window) (c : Access) (off va : Word) : Except Cause Nat :=
  if !w.set || !canonical va then .error (Cause.access c.kind Cause.rBound)
  else
    let r : Except Refused Nat :=
      if off.toNat + c.n ≤ w.limit then
        let d := w.frame + (va - w.base).toNat
        match s.pageRefuses gr.ctx d with
        | some r => .error (.reason r)
        | none => if leafAllows w.leaf (s.sysPriv gr.ctx) c.need then .ok d else .error (.reason Cause.rPermission)
      else s.translate gr.core gr.ctx c.need va
    match r with
    | .error e => .error (e.cause c.kind)
    | .ok d =>
      if s.ours d then .ok d
      else if region then .error Cause.xrForbidden
      else if s.routeUp (dpaModule d) then .ok d
      else .error Cause.linkFail

/-- The pieces of a `.g` access, in order, up to the first that is refused (R229). -/
def State.piecesG (s : State) (gr : Group) (region : Bool) (w : Window) (c : Access) (l : LaneOp) :
    List (Nat × Nat) → Except Denied (List Piece)
  | [] => .ok []
  | (b, n) :: t =>
    let va := w.base + l.off + BitVec.ofNat 64 b
    match s.pieceTarget gr region w c l.off va with
    | .error e => .error ⟨l.thread, e, if w.set then va else l.off⟩
    | .ok d =>
      match s.piecesG gr region w c l t with
      | .error e => .error e
      | .ok ps => .ok (⟨l.thread, b, d, n⟩ :: ps)

/-- Whether BUFACL lets a lane access use a typed buffer (R121): bit 0 of each four for loads, bit 1 for stores. -/
def Group.lanesAllowed (gr : Group) (sp : Space) (write : Bool) : Bool :=
  let i := if write then 1 else 0
  match sp with
  | .wb => gr.bufacl.getLsbD i
  | .ab => gr.bufacl.getLsbD (4 + i)
  | .cb => gr.bufacl.getLsbD (8 + i)
  | _ => true

/-- The pieces of a thread's access, or its refusal with the reasons in the order of R229. -/
def State.plan (s : State) (gr : Group) (region : Bool) (w : Window) (c : Access) (l : LaneOp) : Except Denied (List Piece) :=
  if c.sp == .g then
    let va := w.base + l.off
    let ps := if c.aligned then [(0, c.n)] else splitAccess va.toNat 0 c.n c.n
    match s.piecesG gr region w c l ps with
    | .error e => .error e
    | .ok ps => if c.aligned && va.toNat % c.n ≠ 0 then .error ⟨l.thread, Cause.access c.kind Cause.rMisaligned, va⟩ else .ok ps
  else
    let k := localKind c.sp
    let o := l.off.toNat
    let ps := if c.aligned then [(0, c.n)] else splitAccess o 0 c.n c.n
    if !gr.lanesAllowed c.sp c.need.w then .error ⟨l.thread, Cause.access k Cause.rPermission, l.off⟩
    else if (gr.buf c.sp).size < o + c.n then
      let p := (ps.find? fun p => (gr.buf c.sp).size < o + p.1 + p.2).getD (0, 0)
      .error ⟨l.thread, Cause.access k Cause.rBound, l.off + BitVec.ofNat 64 p.1⟩
    else if c.aligned && o % c.n ≠ 0 then .error ⟨l.thread, Cause.access k Cause.rMisaligned, l.off⟩
    else .ok (ps.map fun p => ⟨l.thread, p.1, o + p.1, p.2⟩)

/-- The threads an access can be performed for, with their pieces, and the refusals. -/
def State.planAll (s : State) (gr : Group) (region : Bool) (w : Window) (c : Access) (ls : List LaneOp) :
    List (LaneOp × List Piece) × List Denied :=
  ls.foldr (fun l acc =>
    match s.plan gr region w c l with
    | .ok ps => ((l, ps) :: acc.1, acc.2)
    | .error e => (acc.1, e :: acc.2)) ([], [])

/-- The translations an access took are kept in the caches (R321). -/
def State.keepLeaves (s : State) (gr : Group) (w : Window) (c : Access) (ls : List (LaneOp × List Piece)) : State :=
  if c.sp != .g then s
  else
    ls.foldl (fun s l =>
      if l.1.off.toNat + c.n ≤ w.limit then s
      else
        l.2.foldl (fun s p =>
          let va := w.base + l.1.off + BitVec.ofNat 64 p.byte
          s.walked gr.core gr.ctx va) s) s

/-- The offset operand of an access in a thread (R227). -/
def View.offset (v : View) (tick : Nat) (off : Option Reg) (t : Nat) : Word :=
  match off with
  | none => 0
  | some r => v.operand tick false r t

/-- The acting threads' operands; a uniform instruction has one, under number 0. -/
def View.laneOps (v : View) (tick : Nat) (act : Mask) (uni : Bool) (off : Option Reg) (x cmp : Nat → Word) : List LaneOp :=
  (threads act).map fun t => ⟨if uni then 0 else t, v.offset tick off t, x t, cmp t⟩

/-- A forwarding region forbids an access: the instruction is not performed (R248). -/
def forbidden (ds : List Denied) : Bool := ds.any fun d => d.cause = Cause.xrForbidden

/-- The mask of refused threads (R229): a uniform instruction names its lowest active thread. -/
def deniedMask (uni : Bool) (act : Mask) (ds : List Denied) : Mask := if uni then act else maskOf (ds.map (·.thread))

/-- The fault of a set of refused threads (R229): that of the lowest. Where a forwarding region forbids one of the accesses,
nothing is performed, and every acting thread is unfinished (DEDUCED, log 94). -/
def State.refuse (s : State) (v : View) (uni : Bool) (act : Mask) (ds : List Denied) : State :=
  match ds with
  | [] => s
  | d :: _ => s.takeFault v.a d.cause d.addr (if forbidden ds then act else deniedMask uni act ds) none

-- The store queue -----------------------------------------------------------------------------------------------------------

/-- The byte an entry writes at an address: its last item that covers it (R233). -/
def SqEntry.byteAt (e : SqEntry) (a : Nat) : Option Byte :=
  e.items.foldl (fun acc i => if i.addr ≤ a && a < i.addr + i.data.length then some (i.data.getD (a - i.addr) 0) else acc) none

/-- The bytes of a thread's read that an entry writes, by place. -/
def SqEntry.bytesOf (e : SqEntry) (ps : List Piece) : List (Nat × Option Byte) :=
  ps.flatMap fun p => (List.range p.len).map fun k => (p.byte + k, e.byteAt (p.addr + k))

/-- How held stores cover a read (R234). -/
inductive Cover where
  | free
  | full (bytes : List (Nat × Byte))
  | some
  deriving DecidableEq, Repr

/-- The full-cover rule (R234): the newest entry of the space that writes a byte of the read decides. -/
def coverOf (sq : List SqEntry) (sp : Space) (ps : List Piece) : Cover :=
  match sq.reverse.find? fun e => e.sp == sp && (e.bytesOf ps).any fun b => b.2.isSome with
  | Option.none => .free
  | Option.some e =>
    let bs := e.bytesOf ps
    if bs.all fun b => b.2.isSome then .full (bs.map fun b => (b.1, b.2.getD 0)) else .some

/-- The byte that the newest entry of a space writing it holds (R234, inside a forwarding region). -/
def queueByte (sq : List SqEntry) (sp : Space) (a : Nat) : Option Byte :=
  sq.foldl (fun acc e => if e.sp == sp then (e.byteAt a).or acc else acc) none

/-- Held stores of the wave to bytes of the scratchpad a step is about to read are released before it, as where a load is
partly covered (R234); otherwise the region stays open until the instruction retires, so that a fault leaves it open (R302). -/
def State.closeCovered (s : State) (v : View) (off n : Nat) (k : State → View → State) : State :=
  if !v.wv.late.isEmpty || (List.range n).any fun i => (queueByte v.wv.sq .sp (off + i)).isSome then s.closeFirst v k else k s v

/-- Take each byte of a piece from the queue where it holds one; what is left of the piece is read. -/
def mergePiece (sq : List SqEntry) (sp : Space) (p : Piece) : List (Nat × Byte) × List Piece :=
  let bs := (List.range p.len).map fun k => (k, queueByte sq sp (p.addr + k))
  if bs.all fun b => b.2.isNone then ([], [p])
  else
    ((bs.filterMap fun b => b.2.map fun x => (p.byte + b.1, x)),
     (bs.filter fun b => b.2.isNone).map fun b => ⟨p.thread, p.byte + b.1, p.addr + b.1, 1⟩)

/-- Bytes that a load has got, by 8 x thread + place. -/
def gotBytes (g : Table Byte) (t : Nat) (bs : List (Nat × Byte)) : Table Byte :=
  bs.foldl (fun g b => Table.insert g (8 * t + b.1) b.2) g

/-- The bytes a load has before it reads, and the pieces it has to read, for each thread it can be performed in. -/
def served (sq : List SqEntry) (merge : Bool) (queue : Bool) (sp : Space) (ls : List (LaneOp × List Piece)) : Table Byte × List Piece :=
  ls.foldl (fun acc l =>
    if merge then
      l.2.foldl (fun acc p =>
        let r := mergePiece sq sp p
        (gotBytes acc.1 l.1.thread r.1, acc.2 ++ r.2)) acc
    else
      match (if queue then coverOf sq sp l.2 else .free) with
      | .full bs => (gotBytes acc.1 l.1.thread bs, acc.2)
      | _ => (acc.1, acc.2 ++ l.2)) ([], [])

-- Loads -----------------------------------------------------------------------------------------------------------------------

/-- The slot that an access of the wave belongs to (R248); in deterministic mode regions do not forward (R292). -/
def State.slotOf (s : State) (v : View) : Option Nat := if s.det v.gr then none else v.wv.region.map (·.slot)

/-- The key of a line in a core's L1: the DPA where it begins. -/
def l1Key (core dpa : Nat) : Nat := core * 2 ^ 52 + dpa

/-- Where the line that would serve a piece begins: at its granule here, at the piece itself in another module's memory, of
which no more has come (log 8). -/
def State.lineOf (s : State) (p : Piece) : Nat := if s.ours p.addr then s.dpaOf (s.granOf (dpaLocal p.addr)) else p.addr

/-- The line holds the piece: of this module's memory it has its granule's size. -/
def State.lineFits (s : State) (p : Piece) (l : L1Line) : Bool :=
  if s.ours p.addr then l.data.length == granSize (s.page (dpaPage (dpaLocal p.addr))).gran else decide (p.len ≤ l.data.length)

/-- A line of the core's L1 serves a piece (R153, R232): it may still be there (log 8); nothing that the wave has sent to its place,
no atomic of the wave and no acquire before it is under way (R199, R202); and the slice had come as far in its count as the wave's
causal stamp when the line was filled, so that no later commit can be stamped below it (R204). A deterministic wave is served at
the home slice (R210). -/
def State.l1Hit (s : State) (v : View) (p : Piece) : Option L1Line :=
  match Table.find s.l1 (l1Key v.gr.core (s.lineOf p)) with
  | some l =>
    if !s.det v.gr && s.lineFits p l && Config.pick s.tick (2 ^ 68 + l1Key v.gr.core (s.lineOf p))
      && (countAbove (count v.wv.cstamp) l.count).isNone && !v.wv.acquiring v.a.e s.nextId
      && !(v.wv.ops.any fun o => o.2.body.isAtom) && !(s.reqs.any fun r => r.2.agent.isWave v.a.g v.a.w && s.touches r.2 p.addr p.len)
    then some l else none
  | none => none

/-- Serve pieces from L1 where its lines hold them: bytes, the largest stamp, the pieces left. -/
def State.fromL1 (s : State) (v : View) (g : Table Byte) (ps : List Piece) : Table Byte × Option Stamp × List Piece :=
  ps.foldl (fun acc p =>
    match s.l1Hit v p with
    | some l =>
      let at_ := p.addr - s.lineOf p
      (gotBytes acc.1 p.thread ((List.range p.len).map fun k => (p.byte + k, l.data.getD (at_ + k) 0)),
       stampJoin acc.2.1 (some l.stamp), acc.2.2)
    | none => (acc.1, acc.2.1, acc.2.2 ++ [p])) (g, none, [])

/-- A piece as an item of a request. -/
def Piece.item (p : Piece) : ReqItem := { thread := p.thread, byte := p.byte, addr := p.addr, len := p.len }

/-- A request of a wave's instruction. -/
def View.req (v : View) (id : Nat) (kind : ReqKind) (slot : Option Nat) : Req :=
  { agent := .op v.a.g v.a.w id, ctx := v.gr.ctx, launch := some v.gr.launch, kind := kind, gran := 0, items := [],
    carried := some v.wv.cstamp, slot := slot }

/-- Issue a load (R232, R234): what the queue or L1 holds is taken, a request asks for the rest. -/
def State.issueLoad (s : State) (v : View) (f : Flag) (act : Mask) (c : Access) (ty : Ty) (d : Reg) (w : Window)
    (lanes : List LaneOp) (oks : List (LaneOp × List Piece)) (ds : List Denied) : State :=
  let region := v.wv.region.isSome
  let det := s.det v.gr
  let id := s.nextId
  let (got, ps) := served v.wv.sq (region && (c.sp != .g || det)) (!region) c.sp oks
  let (got, stamp, ps) := if c.sp == .g && !region then s.fromL1 v got ps else (got, none, ps)
  let s := s.issueLong v f act d.isS (.load c.sp d ty (if c.sp == .g then [] else ps)) true ds
  let s := s.modOp v.a.g v.a.w id fun o => { o with got := got, lanes := lanes, win := { w with limit := 0 } }
  let s := s.modWave v.a.g v.a.w fun wv => { wv with seen := stampJoin wv.seen stamp }
  if c.sp == .g then s.sendItems (v.req id .load (s.slotOf v)) (ps.map Piece.item) else s

/-- LD (R231, R232, R234). -/
def execLd (g : Guard) (f : Flag) (sp : Space) (ty : Ty) (d : Reg) (win : BitVec 4) (off : Option Reg) (s : State) :
    Host.Outcome State Fault Refusal :=
  instr { guard := g, lane := !d.isS, vregs := vHigh ty.wide d ++ (off.map (vHigh false)).getD [], inRegion := true, long := some f }
    s fun v act =>
    let c : Access := { sp := sp, need := { r := true }, kind := Cause.kLoad, n := ty.bytes }
    let lanes := v.laneOps s.tick act d.isS off (fun _ => 0) fun _ => 0
    let w := v.wv.win win
    let region := v.wv.region.isSome
    let (oks, ds) := s.planAll v.gr region w c lanes
    if forbidden ds then s.refuse v d.isS act ds
    else
      let partly := !region && oks.any fun l => coverOf v.wv.sq sp l.2 == .some
      if partly && s.det v.gr then s.endBefore v
      else
        let s := s.keepLeaves v.gr w c oks
        let s := if partly then s.closeRegion v.a.g v.a.w else s
        s.issueLoad v f act c ty d w lanes oks ds

/-- LD_ASOF (R235): it reads no queue, no L1 and no uncommitted write. -/
def execLdAsof (g : Guard) (f : Flag) (ty : Ty) (d : Reg) (win : BitVec 4) (off : Option Reg) (t : BitVec 6) (s : State) :
    Host.Outcome State Fault Refusal :=
  instr { guard := g, lane := !d.isS, vregs := vHigh ty.wide d ++ (off.map (vHigh false)).getD [], inRegion := true, long := some f }
    s fun v act =>
    let c : Access := { sp := .g, need := { r := true }, kind := Cause.kAsof, n := ty.bytes }
    let lanes := v.laneOps s.tick act d.isS off (fun _ => 0) fun _ => 0
    let w := v.wv.win win
    let (oks, ds) := s.planAll v.gr v.wv.region.isSome w c lanes
    if forbidden ds then s.refuse v d.isS act ds
    else
      let at_ := v.sval s.tick t
      let id := s.nextId
      let s := (s.keepLeaves v.gr w c oks).issueLong v f act d.isS (.asof d ty at_ []) true ds
      let s := s.modOp v.a.g v.a.w id fun o => { o with lanes := lanes, win := { w with limit := 0 } }
      s.sendItems (v.req id (.asof at_) none) (oks.flatMap fun l => l.2.map Piece.item)

-- Stores ------------------------------------------------------------------------------------------------------------------------

/-- How many entries of the queue a wave's stores hold: those in it, the held writes of atomics left out (log 113), and a region's stores
not yet accepted (R233). -/
def State.queued (s : State) (v : View) : Nat :=
  let sent := (s.reqs.filterMap fun r =>
    if r.2.agent == .wave v.a.g v.a.w && r.2.slot.isSome then some r.2.store else none).eraseDups
  (v.wv.sq.filter fun e => !e.atom).length + sent.length

/-- Put a store's entry in the queue; inside a forwarding region a `.g` store goes to its slices as uncommitted writes
(R233). -/
def State.enqueue (s : State) (v : View) (e : SqEntry) : State :=
  if e.items.isEmpty then s
  else
    match (if e.sp == .g then s.slotOf v else none) with
    | some k =>
      let r : Req := { v.req 0 .store (some k) with agent := .wave v.a.g v.a.w, store := s.nextId }
      s.sendItems r (e.items.map fun i => { thread := i.thread, byte := 0, addr := i.addr, len := i.data.length, data := i.data })
    | none => s.modWave v.a.g v.a.w fun wv => { wv with sq := wv.sq ++ [{ e with num := s.nextId }] }

/-- The data of a thread's piece. -/
def pieceData (x : Word) (p : Piece) : List Byte := toBytes (x.toNat / 2 ^ (8 * p.byte)) p.len

/-- ST (R231, R233): the store enters the queue; the refused threads fault. -/
def execSt (g : Guard) (sp : Space) (ty : Ty) (win : BitVec 4) (off : Option Reg) (a : Reg) (s : State) :
    Host.Outcome State Fault Refusal :=
  let uni := a.isS && !(match off with | some (.v _) => true | _ => false)
  instr { guard := g, lane := !uni, vregs := vHigh ty.wide a ++ (off.map (vHigh false)).getD [], inRegion := true } s fun v act =>
    let c : Access := { sp := sp, need := { w := true }, kind := Cause.kStore, n := ty.bytes }
    let lanes := v.laneOps s.tick act uni off (fun t => v.src s.tick ty a t) fun _ => 0
    let w := v.wv.win win
    let region := v.wv.region
    let (oks, ds) := s.planAll v.gr region.isSome w c lanes
    if forbidden ds then s.refuse v uni act ds
    else
      let full := !oks.isEmpty && 32 ≤ s.queued v
      match region with
      | some r =>
        if full then s.abortRegion r.slot 0 Cause.xrCapacity
        else
          let s := (s.keepLeaves v.gr w c oks).enqueue v
            { sp := sp, items := oks.flatMap fun l => l.2.map fun p => ⟨p.thread, p.addr, pieceData l.1.x p⟩ }
          if ds.isEmpty then s.retire v 1 else s.refuse v uni act ds
      | none =>
        if full && s.det v.gr then s.endBefore v
        else
          let s := if full then s.closeRegion v.a.g v.a.w else s
          let s := (s.keepLeaves v.gr w c oks).enqueue v
            { sp := sp, items := oks.flatMap fun l => l.2.map fun p => ⟨p.thread, p.addr, pieceData l.1.x p⟩ }
          if ds.isEmpty then s.retire v 1 else s.refuse v uni act ds

-- Atomics ----------------------------------------------------------------------------------------------------------------------

/-- The new value of an atomic, none for a failed `.cas`, with its flags (R237). -/
def atomVal (op : AtomOp) (ty : Ty) (old x cmp : Word) : Option Word × Flags :=
  match op with
  | .add => (some (addVal ty false old x).1, (addVal ty false old x).2)
  | .min => (some (extremeVal false ty old x).1, (extremeVal false ty old x).2)
  | .max => (some (extremeVal true ty old x).1, (extremeVal true ty old x).2)
  | .and => (some (old &&& x), 0)
  | .or => (some (old ||| x), 0)
  | .xor => (some (old ^^^ x), 0)
  | .exch => (some x, 0)
  | .cas => (if natVal ty old = natVal ty cmp then some x else none, 0)

/-- The item of an atomic's request. -/
def AtomItem.item (n : Nat) (i : AtomItem) : ReqItem := { thread := i.thread, byte := 0, addr := i.addr, len := n, x := i.x, cmp := i.cmp }

/-- Issue an atomic (R236 to R238): outside a region it closes the idempotent region and is performed once its release
half is made; inside one it acts without release and acquire halves (R248). -/
def atomic (g : Guard) (f : Flag) (sp : Space) (op : AtomOp) (sc : Scope) (ty : Ty) (d : Option Reg) (a : Reg) (win : BitVec 4)
    (off : Option Reg) (s : State) : Host.Outcome State Fault Refusal :=
  let uni := match d with
    | some r => r.isS
    | none => a.isS && !(match off with | some (.v _) => true | _ => false)
  let vregs := vHigh ty.wide a ++ (d.map (vHigh ty.wide)).getD [] ++ (off.map (vHigh false)).getD []
  instr { guard := g, lane := !uni, vregs := vregs, inRegion := sp == .g, ends := true, long := some f } s fun v act =>
    let c : Access := { sp := sp, need := { r := true, w := true }, kind := Cause.kAtomic, n := ty.bytes, aligned := true }
    let cmp (t : Nat) : Word := match d with
      | some r => v.src s.tick ty r t
      | none => 0
    let lanes := v.laneOps s.tick act uni off (fun t => v.src s.tick ty a t) cmp
    let w := v.wv.win win
    let region := v.wv.region.isSome
    let (oks, ds) := s.planAll v.gr region w c lanes
    if forbidden ds then s.refuse v uni act ds
    else
      let items : List AtomItem := oks.flatMap fun l => l.2.map fun p => ⟨p.thread, p.addr, l.1.x, l.1.cmp⟩
      let s := (s.keepLeaves v.gr w c oks).close v
      let id := s.nextId
      let s := s.issueLong v f act uni (.atom sp op ty sc d items) region ds
      let s := s.modOp v.a.g v.a.w id fun o => { o with lanes := lanes, win := { w with limit := 0 } }
      if region then s.sendItems (v.req id (.atom op ty) (s.slotOf v)) (items.map (AtomItem.item ty.bytes)) else s

/-- ATOM_G (R236 to R239). -/
def execAtomG (g : Guard) (f : Flag) (op : AtomOp) (sc : Scope) (_prm : Bool) (ty : Ty) (d a : Reg) (win : BitVec 4)
    (off : Option Reg) (s : State) : Host.Outcome State Fault Refusal := atomic g f .g op sc ty (some d) a win off s

/-- ATOM_SP (R236 to R239). -/
def execAtomSp (g : Guard) (f : Flag) (op : AtomOp) (sc : Scope) (_prm : Bool) (ty : Ty) (d a : Reg) (off : Option Reg)
    (s : State) : Host.Outcome State Fault Refusal := atomic g f .sp op sc ty (some d) a 0 off s

/-- ATOMN_G (R236 to R239). -/
def execAtomnG (g : Guard) (f : Flag) (op : AtomOp) (sc : Scope) (ty : Ty) (a : Reg) (win : BitVec 4) (off : Option Reg)
    (s : State) : Host.Outcome State Fault Refusal := atomic g f .g op sc ty none a win off s

/-- ATOMN_SP (R236 to R239). -/
def execAtomnSp (g : Guard) (f : Flag) (op : AtomOp) (sc : Scope) (ty : Ty) (a : Reg) (off : Option Reg) (s : State) :
    Host.Outcome State Fault Refusal := atomic g f .sp op sc ty none a 0 off s

-- Fences --------------------------------------------------------------------------------------------------------------------------

/-- The acquire part of a fence (R241): it waits for the entity's loads and atomics. -/
def State.fenceAcquire (s : State) (v : View) (sc : Scope) : State :=
  if v.wv.loadsInFlight v.a.e then s else (s.acquireAt v sc none).retire v 1

/-- FENCE_ACQ (R241). Promotion widens the releases an acquire observes (R195); every release of this model is as wide as
any, so it changes nothing. -/
def execFenceAcq (g : Guard) (sc : Scope) (_prm : Bool) (s : State) : Host.Outcome State Fault Refusal :=
  instr { guard := g, lane := false, inRegion := true } s fun v _ => s.fenceAcquire v sc

/-- FENCE_REL (R241): inside a forwarding region the release part has no effect. -/
def execFenceRel (g : Guard) (_sc : Scope) (s : State) : Host.Outcome State Fault Refusal :=
  instr { guard := g, lane := false, inRegion := true } s fun v _ =>
    if v.wv.region.isSome then s.retire v 1 else s.afterRelease v fun s v => s.retire v 1

/-- FENCE_AR (R241). -/
def execFenceAr (g : Guard) (sc : Scope) (_prm : Bool) (s : State) : Host.Outcome State Fault Refusal :=
  instr { guard := g, lane := false, inRegion := true } s fun v _ =>
    if v.wv.region.isSome then s.fenceAcquire v sc else s.afterRelease v fun s v => s.fenceAcquire v sc

-- Windows ---------------------------------------------------------------------------------------------------------------------------

/-- The end of the page that holds an address (R230): of a 512 MiB leaf where the walk finds one, else of the 64 KiB page. -/
def State.pageEnd (s : State) (ctx : BitVec 12) (va : Word) : Nat :=
  match (Table.find s.ctxs ctx.toNat).map fun c => s.walk c.root va with
  | some (.ok (_, true, _)) => (va.toNat / 2 ^ 29 + 1) * 2 ^ 29
  | _ => (va.toNat / 2 ^ 16 + 1) * 2 ^ 16

/-- The window a `win` makes of a base and a limit (R230). -/
def State.makeWindow (s : State) (gr : Group) (base : Word) (limit : Nat) : Window :=
  let none_ : Window := { set := true, base := base, page := base.toNat / 2 ^ 16 }
  match s.leaf gr.core gr.ctx base with
  | .error _ => none_
  | .ok e =>
    let d := leafDpa e base
    if s.ours d && !(s.page (dpaPage d)).mapped then none_
    else { none_ with limit := min limit (s.pageEnd gr.ctx base - base.toNat), frame := d, leaf := e }

/-- Both forms of `win` (R230). -/
def setWindow (g : Guard) (bd : BitVec 4) (sa : BitVec 6) (s : State) (limit : View → Nat) : Host.Outcome State Fault Refusal :=
  instr { guard := g, lane := false, inRegion := true } s fun v _ =>
    let base := v.sval s.tick sa
    let w := s.makeWindow v.gr base (min (limit v) (2 ^ 32 - 1))
    (s.walked v.gr.core v.gr.ctx base).retireWith v fun wv => { wv with b := Table.write wv.b bd.toNat w {} }

/-- WIN (R230). -/
def execWin (g : Guard) (bd : BitVec 4) (sa : BitVec 6) (limit : BitVec 32) (s : State) : Host.Outcome State Fault Refusal :=
  setWindow g bd sa s fun _ => limit.toNat

/-- WIN_REG (R230): the register limit is an unsigned 64-bit number. -/
def execWinReg (g : Guard) (bd : BitVec 4) (sa sb : BitVec 6) (s : State) : Host.Outcome State Fault Refusal :=
  setWindow g bd sa s fun v => (v.sval s.tick sb).toNat

-- Stamps and holds --------------------------------------------------------------------------------------------------------------------

/-- STMP_GET (R243). -/
def execStmpGet (g : Guard) (sd : BitVec 6) (s : State) : Host.Outcome State Fault Refusal :=
  instr { guard := g, lane := false, inRegion := true } s fun v _ => s.retireWith v (v.putS s.tick sd v.wv.cstamp)

/-- The key of a context's hold slot on this module. -/
def holdKey (ctx : BitVec 12) (slot : Nat) : Nat := 16 * ctx.toNat + slot

/-- The lowest free hold slot of a context on this module (R244). -/
def State.freeHold (s : State) (ctx : BitVec 12) : Option Nat :=
  (List.range 16).find? fun k => (Table.find s.holds (holdKey ctx k)).isNone

/-- The lowest-numbered stack that refuses a hold at a stamp, with its cause (R244). -/
def State.holdRefused (s : State) (t : Stamp) : Option Cause :=
  ((List.range 16).filterMap fun k =>
    match stampCmp t (s.stack k).h with
    | .far => some Cause.stampWindow
    | .lt => some Cause.histReclaimed
    | _ => none).head?

/-- A hold identifier (R244). -/
def holdIdent (m : BitVec 8) (slot : Nat) : Word := (1 : BitVec 49).setWidth 64 <<< 16 ||| (m.setWidth 64 <<< 8) ||| BitVec.ofNat 64 slot

/-- Place a hold of a context on this module (R244): the identifier, or the cause. -/
def State.placeHold (s : State) (ctx : BitVec 12) (t : Stamp) : Except Cause Word × State :=
  match s.freeHold ctx with
  | none => (.error Cause.holdFull, s)
  | some k =>
    match s.holdRefused t with
    | some c => (.error c, s)
    | none =>
      (.ok (holdIdent s.fabric.index k),
       { s with holds := Table.insert s.holds (holdKey ctx k) ⟨t, s.holdOrder⟩, holdOrder := s.holdOrder + 1 })

/-- Finish a `stmp.hold` with its answer. -/
def State.holdDone (s : State) (v : View) (sd : BitVec 6) (r : Except Cause Word) : State :=
  match r with
  | .ok x => s.retireWith v (v.putS s.tick sd x)
  | .error c => s.faultHere v false c

/-- STMP_HOLD (R244), on the wave's own module. -/
def execStmpHold (g : Guard) (sd sa : BitVec 6) (s : State) : Host.Outcome State Fault Refusal :=
  instr { guard := g, lane := false, inRegion := true } s fun v _ =>
    let (r, s') := s.placeHold v.gr.ctx (v.sval s.tick sa)
    s'.holdDone v sd r

/-- The number under which another module answers a hold request of an entity, and the entity of a number. -/
def actorTag (a : Actor) : Nat := a.g * 2 ^ 32 + a.w * 2 ^ 24 + a.e

/-- The entity of a tag. -/
def tagActor (t : Nat) : Actor := ⟨t / 2 ^ 32, t / 2 ^ 24 % 256, t % 2 ^ 24⟩

/-- STMP_HOLD_DM (R244): another module is asked over the fabric, and the wave keeps its pipe until the answer. -/
def execStmpHoldDm (g : Guard) (sd sa sc : BitVec 6) (s : State) : Host.Outcome State Fault Refusal :=
  instr { guard := g, lane := false, inRegion := true } s fun v _ =>
    let t := v.sval s.tick sa
    let m := (v.sval s.tick sc).setWidth 8
    if !s.inDomain m.toNat then s.faultHere v false Cause.holdBad
    else if m = s.fabric.index then
      let (r, s') := s.placeHold v.gr.ctx t
      s'.holdDone v sd r
    else if !s.routeUp m.toNat then s.faultHere v false Cause.linkFail
    else
      match v.en.answer with
      | some (x, c) =>
        let s := s.modEnt v.a fun e => { e with answer := none, stage := 0 }
        s.holdDone v sd (if c = 0 then .ok x else .error c)
      | none =>
        if v.en.stage = 0 then
          (s.send m (.holdReq (actorTag v.a) v.gr.ctx t)).modEnt v.a fun e => { e with stage := 1 }
        else s

/-- Drop a hold of a context on this module (R245): a free slot, which a revoked one is (log 103), is left as it is. -/
def State.dropHold (s : State) (ctx : BitVec 12) (k : Nat) : State :=
  if (Table.find s.holds (holdKey ctx k)).isNone then s
  else { s with holds := Table.erase s.holds (holdKey ctx k), holdsEnded := s.holdsEnded + 1 }

/-- STMP_DROP (R245). -/
def execStmpDrop (g : Guard) (sa : BitVec 6) (s : State) : Host.Outcome State Fault Refusal :=
  instr { guard := g, lane := false, inRegion := true } s fun v _ =>
    let x := v.sval s.tick sa
    let m := (x.extractLsb' 8 8).toNat
    if !x.getLsbD 16 || x.extractLsb' 17 47 != 0 || x.extractLsb' 4 4 != 0 || !s.inDomain m then s.faultHere v false Cause.holdBad
    else if m = s.fabric.index.toNat then (s.dropHold v.gr.ctx (x.extractLsb' 0 4).toNat).retire v 1
    else (s.send (BitVec.ofNat 8 m) (.holdDrop v.gr.ctx (x.extractLsb' 0 4))).retire v 1

end Sys2Proof.Machine
end

