-- ==== Sys2Proof/Machine/Control.lean ====
section
/-! DEFINITION. Class 3: branches, splits and merges (R295 to R300), `rgn` (R301, R303), barrier words (R304 to R306),
timelines (R307), deques (R308), messages and rings (R309, R310), `yield` and `qend` (R311), `launch` (R312). -/

namespace Sys2Proof.Machine

open Sys2Proof

-- Branches, splits, merges ------------------------------------------------------------------------------------------------

/-- The address a word offset names, counted from an instruction (R52, R296). -/
def View.target (v : View) (off : Word) : Word := v.addr + off <<< 3

/-- BR (R296). -/
def execBr (g : Guard) (off : BitVec 24) (s : State) : Host.Outcome State Fault Refusal :=
  instr { guard := g, lane := false, place := .last, inRegion := true, drains := true } s fun v _ =>
    s.retireTo v (v.target (off.signExtend 64))

/-- The fragment slots of a core in use (R17, R277): those of the groups that occupy it. -/
def State.fragments (s : State) (core : Nat) : Nat :=
  s.groups.foldl (fun n p =>
    if p.2.core = core && (p.2.state == .running || p.2.state == .draining) then
      p.2.waves.foldl (fun n w => n + (w.ents.filter fun e => e.2.frag).length) n
    else n) 0

/-- The side that stays and the side that detaches at a split (R297): mask and position of each. -/
structure Split where
  stay : Mask
  stayPc : Word
  leave : Mask
  leavePc : Word
  deriving DecidableEq, Repr

/-- The minority detaches, and the taken side on a tie (R297). -/
def split (taken other : Mask) (target next : Word) : Split :=
  if popcount taken ≤ popcount other then ⟨other, next, taken, target⟩ else ⟨taken, target, other, next⟩

/-- An entity on one side of a split: its records with one more, its region entry new (R297, R303). -/
def Entity.onSide (e : Entity) (mask : Mask) (pc : Word) (r : Record) : Entity :=
  { e.jump pc with
    mask := mask
    recs := r :: e.recs
    entry := {} }

/-- The fragment that detaches (R297). -/
def Entity.fragment (e : Entity) (mask : Mask) (pc : Word) (r : Record) : Entity where
  frag := true
  mask := mask
  hdr := pc
  recs := r :: e.recs

/-- What one entity is sure of in a race of s-registers holds for what splits from it (R91). -/
def Wave.shareRace (wv : Wave) (e f : Nat) : Wave :=
  { wv with sRace := Table.mapValues wv.sRace fun _ (r : SRace) => if r.sure.contains e then { r with sure := f :: r.sure } else r }

/-- Split an entity with a fragment slot (R297): what the entity has in flight is earlier in the program order of both (R190). -/
def Wave.detach (wv : Wave) (e : Nat) (x : Split) (token : Word) : Wave :=
  let r : Record := { pair := some wv.nextPair, token := token }
  let f := wv.nextEnt
  match Table.find wv.ents e with
  | none => wv
  | some en =>
    let wv := wv.modEnt e fun en => en.onSide x.stay x.stayPc r
    let wv := { wv with ops := Table.mapValues wv.ops fun _ (o : LongOp) => if o.isOf e then { o with also := f :: o.also } else o }
    { wv.shareRace e f with
      ents := Table.insert wv.ents f (en.fragment x.leave x.leavePc { r with detached := true })
      nextEnt := f + 1
      nextPair := wv.nextPair + 1 }

/-- BRC (R297): it reads its predicate once, in every active thread. -/
def execBrc (pn : BitVec 3) (neg : Bool) (off tok : BitVec 19) (s : State) : Host.Outcome State Fault Refusal :=
  instr { guard := ⟨7, false⟩, lane := true, place := .last, inRegion := true, drains := true } s fun v _ =>
    let taken := v.en.mask &&& v.wv.guardMask ⟨pn, neg⟩
    let other := v.en.mask &&& ~~~taken
    let target := v.target (off.signExtend 64)
    let token := v.target (tok.signExtend 64)
    if taken = 0 then s.retireTo v v.nextHdr
    else if other = 0 then s.retireTo v target
    else if 16 ≤ v.en.recs.length then s.faultHere v true Cause.divergeDepth
    else
      let x := split taken other target v.nextHdr
      if s.fragments v.gr.core < 64 then (s.retireTo v x.stayPc).modWave v.a.g v.a.w fun wv => wv.detach v.a.e x token
      else
        let r : Record := { token := token, other := x.leave, otherpc := x.leavePc, full := v.en.mask }
        (s.retireTo v x.stayPc).modEnt v.a fun e => e.onSide x.stay x.stayPc r

/-- Another entity than one holds a pair record of a split: the partner is not Gone (R299, R300). -/
def Wave.hasPartner (wv : Wave) (e pair : Nat) : Bool := wv.ents.any fun p => p.1 ≠ e && p.2.recs.any fun r => r.pair == some pair

/-- The entity parked at a `join` for a split (R299). -/
def Wave.waiting? (wv : Wave) (e pair : Nat) : Option Nat := (wv.ents.find? fun p => p.1 ≠ e && p.2.park == some (.join pair)).map (·.1)

/-- An entity parked at a `join` whose partner is Gone passes it alone (R299, R300). -/
def Wave.passJoins (wv : Wave) : Wave :=
  { wv with ents := Table.mapValues wv.ents fun k e =>
      match e.park with
      | some (.join pair) => if wv.hasPartner k pair then e else { e.wake with recs := e.recs.drop 1 }
      | _ => e }

/-- An entity is Gone: with one entity left, no race of s-registers goes on (R91). -/
def Wave.dropEnt (wv : Wave) (e : Nat) : Wave :=
  let ents := Table.erase wv.ents e
  { wv with ents := ents, sRace := if ents.length ≤ 1 then [] else wv.sRace }

/-- Merge two entities (R299): one survives with both masks and continues after the `join`; what the other had in flight,
which is detached, is the survivor's. -/
def Wave.merge (wv : Wave) (stay gone : Nat) : Wave :=
  let mask := ((Table.find wv.ents gone).map (·.mask)).getD 0
  let wv := wv.modEnt stay fun e => { e with mask := e.mask ||| mask, recs := e.recs.drop 1, park := none, entry := {} }
  let wv := { wv with
    ops := Table.mapValues wv.ops fun _ (o : LongOp) =>
      let o := if o.isOf gone then { o with also := stay :: o.also } else o
      if o.ent = gone then { o with ent := stay } else o
    sRace := Table.mapValues wv.sRace fun _ (r : SRace) =>
      if r.sure.contains gone then { r with sure := stay :: r.sure.filter (· ≠ gone) } else r }
  wv.dropEnt gone

/-- JOIN (R299): its token is the address of its clause's header. It waits while its partner stands at a fault of an instruction in
flight (R49). -/
def execJoin (s : State) : Host.Outcome State Fault Refusal :=
  instr { guard := ⟨7, false⟩, lane := false, place := .first, inRegion := true, drains := true } s fun v _ =>
    match v.en.recs with
    | [] => s.retire v 1
    | r :: t =>
      if r.token ≠ v.en.hdr then
        if t.any fun x => x.token == v.en.hdr then s.faultHere v false Cause.joinOrder else s.retire v 1
      else
        match r.pair with
        | none =>
          if r.second then (s.retire v 1).modEnt v.a fun e => { e with mask := r.full, recs := t, entry := {} }
          else (s.retireTo v r.otherpc).modEnt v.a fun e => { e with mask := r.other, recs := { r with second := true } :: t, entry := {} }
        | some pair =>
          match v.wv.waiting? v.a.e pair with
          | some k =>
            if ((Table.find v.wv.ents k).bind (·.fault)).isSome then s
            else (s.retire v 1).modWave v.a.g v.a.w fun wv => if r.detached then wv.merge k v.a.e else wv.merge v.a.e k
          | none =>
            if v.wv.hasPartner v.a.e pair then s.parkAfter v (.join pair)
            else (s.retire v 1).modEnt v.a fun e => { e with recs := t }

/-- Threads that have ended are in no mask of a record (R300). -/
def Record.without (r : Record) (ended : Mask) : Record := { r with other := r.other &&& ~~~ended, full := r.full &&& ~~~ended }

/-- The step of R300 for the records of an entity whose active threads have ended: the entity that goes on, or none. After
a serial record's second side it goes on behind its `join`, the first instruction of the token's clause. -/
def afterExit (e : Entity) : List Record → Option Entity
  | [] => none
  | r :: t =>
    if r.pair.isSome then none
    else if !r.second && r.other ≠ 0 then
      some { e.jump r.otherpc with mask := r.other, recs := { r with second := true } :: t, entry := {} }
    else if r.full ≠ 0 then some { e.jump r.token with idx := 1, mask := r.full, recs := t, entry := {} }
    else afterExit e t

/-- End the active threads of an entity (R300). -/
def Wave.exitEnt (wv : Wave) (e : Nat) : Wave :=
  match Table.find wv.ents e with
  | none => wv
  | some en =>
    let wv := { wv with ents := Table.mapValues wv.ents fun _ x => { x with recs := x.recs.map fun (r : Record) => r.without en.mask } }
    match afterExit en (en.recs.map fun (r : Record) => r.without en.mask) with
    | some x => wv.modEnt e fun _ => x
    | none => (wv.dropEnt e).passJoins

/-- A group whose waves are all Gone drains (R273, R300). -/
def Group.drainIfGone (gr : Group) : Group :=
  if gr.state == .running && gr.waves.all (fun w => w.ents.isEmpty) then { gr with state := .draining } else gr

/-- EXIT (R300): it closes the region and releases at `.pk` before its threads end. -/
def execExit (g : Guard) (s : State) : Host.Outcome State Fault Refusal :=
  instr { guard := g, lane := false, place := .last, drains := true, ends := true } s fun v _ =>
    s.afterRelease v fun s v =>
      let s := (s.retire v 1).modWave v.a.g v.a.w fun wv => wv.exitEnt v.a.e
      s.modGroup v.a.g Group.drainIfGone

-- Idempotent regions ----------------------------------------------------------------------------------------------------------

/-- The entity is at the marker that opened its saved region: restarting there opens the region again, and is no progress
(R301, R362, R367). -/
def Entity.restarting (e : Entity) : Bool := !e.entry.taken && e.entry.byRgn && e.entry.hdr == e.hdr && e.entry.idx == e.idx

/-- RGN (R301): it closes the wave's region and opens one whose entry is the marker; in deterministic mode it only passes its
checks. -/
def execRgn (smask : BitVec 16) (vmask : BitVec 32) (s : State) : Host.Outcome State Fault Refusal :=
  instr { guard := ⟨7, false⟩, lane := false, vregs := maskHigh vmask } s fun v _ =>
    if s.det v.gr then s.retire v 1
    else
      let entry : Entry := { taken := true, byRgn := true, hdr := v.en.hdr, idx := v.en.idx, vmask := vmask, smask := smask }
      let again := v.wv.resumed && v.en.restarting
      let s := s.closeRegion v.a.g v.a.w
      let s := if again then s.modWave v.a.g v.a.w fun wv => { wv with resumed := true } else s
      (s.modEnt v.a fun e => { e with entry := entry }).retire v 1

-- Barrier words (R304 to R306) ----------------------------------------------------------------------------------------------------

/-- The value of a barrier operand (R304). -/
def View.barArg (v : View) (tick : Nat) : BarArg → Nat
  | .imm i => i.toNat
  | .reg r => (v.sval tick r).toNat

/-- A count of R304: 1 to 2^29 - 1. -/
def barCountOk (n : Nat) : Bool := 1 ≤ n && n < 2 ^ 29

/-- A barrier word, or the cause that stops a barrier instruction before its step (R304): beyond the allocation, invalid in
trap mode, or damaged (R370). -/
def State.barCheck (s : State) (v : View) (idx : BitVec 16) (k : State → Word → State) : State :=
  let off := 8 * idx.toNat
  s.spChecked v off 8 fun s => k s (((s.group? v.a.g).getD v.gr).sp.word off)

/-- Bits [2:0] of a barrier word are nonzero (R281). -/
def barBad (w : Word) : Bool := w.extractLsb' 0 3 != 0

/-- The step of `bar.init` (R305): a word already set up so is left alone. -/
def Group.barInit (gr : Group) (word n : Nat) (bytes : Bool) : Group :=
  let off := 8 * word
  let w := gr.sp.word off
  let gr := { gr with marks := if (Table.find gr.marks word).isSome then gr.marks else Table.insert gr.marks word {} }
  if gr.sp.allValid off 8 && w.getLsbD 62 == bytes && barExpected w == n && !barBad w then gr
  else { gr with sp := gr.sp.setWord off (barWord false bytes false n 0) }

/-- `bar.init` and `bar.init.bytes`. -/
def State.barInit (s : State) (v : View) (idx : BitVec 16) (n : BarArg) (bytes : Bool) : State :=
  let c := v.barArg s.tick n
  if v.gr.sp.size < 8 * idx.toNat + 8 then s.faultHere v false Cause.spBound
  else if !barCountOk c then s.faultHere v false Cause.barCount
  else s.closeFirst v fun s v => (s.modGroup v.a.g fun gr => gr.barInit idx.toNat c bytes).retire v 1

/-- BAR_INIT (R304, R305). -/
def execBarInit (g : Guard) (idx : BitVec 16) (n : BarArg) (s : State) : Host.Outcome State Fault Refusal :=
  instr { guard := g, lane := false } s fun v _ => s.barInit v idx n false

/-- BAR_INIT_BYTES (R304, R305). -/
def execBarInitBytes (g : Guard) (idx : BitVec 16) (n : BarArg) (s : State) : Host.Outcome State Fault Refusal :=
  instr { guard := g, lane := false } s fun v _ => s.barInit v idx n true

/-- BAR_EXPECT (R305): it may complete phases. -/
def execBarExpect (g : Guard) (idx : BitVec 16) (n : BarArg) (s : State) : Host.Outcome State Fault Refusal :=
  instr { guard := g, lane := false } s fun v _ =>
    let c := v.barArg s.tick n
    if !barCountOk c then s.faultHere v false Cause.barCount
    else
      s.closeCovered v (8 * idx.toNat) 8 fun s v =>
        s.barCheck v idx fun s w =>
          if !w.getLsbD 62 || barBad w then s.faultHere v false Cause.barKind
          else
            s.closeFirst v fun s v =>
              let w' := barWord (w.getLsbD 63) true (w.getLsbD 61) c (barArrived w)
              let s := s.modGroup v.a.g fun gr =>
                let gr := gr.noteSp (8 * idx.toNat) 8
                { gr with sp := gr.sp.setWord (8 * idx.toNat) w' }
              (s.barUpdate v.a.g idx.toNat 0 none).retire v 1

/-- An arrival (R305): the release comes first, then the checks, then one arrival with the wave's causal stamp. -/
def State.barArrive (s : State) (v : View) (idx : BitVec 16) (n : BarArg) (k : State → View → Word → State) : State :=
  if v.gr.sp.size < 8 * idx.toNat + 8 then s.faultHere v false Cause.spBound
  else
    let c := v.barArg s.tick n
    s.afterRelease v fun s v =>
      s.barCheck v idx fun s w =>
        if w.getLsbD 62 || barBad w then s.faultHere v false Cause.barKind
        else if barExpected w = 0 || c ≠ barExpected w then s.faultHere v false Cause.barCount
        else
          let s := s.modGroup v.a.g fun gr => gr.noteSp (8 * idx.toNat) 8
          k (s.barUpdate v.a.g idx.toNat 1 (some v.wv.cstamp)) v w

/-- BAR_ARRIVE (R305). -/
def execBarArrive (g : Guard) (idx : BitVec 16) (n : BarArg) (s : State) : Host.Outcome State Fault Refusal :=
  instr { guard := g, lane := false, ends := true } s fun v _ => s.barArrive v idx n fun s v _ => s.retire v 1

/-- The wait of R305 on a phase: it acquires with the stamp of the last completed phase, or parks until a flip. -/
def State.barWait (s : State) (v : View) (idx : BitVec 16) (w : Word) (phase : Bool) : State :=
  if w.getLsbD 63 != phase then
    let m : BarMark := ((s.group? v.a.g).bind fun gr => Table.find gr.marks idx.toNat).getD {}
    (s.acquireAt v (if w.getLsbD 62 then .wh else .gp) m.last).retire v 1
  else s.parkAfter v (.bar idx.toNat phase)

/-- The phase a `bar.wait` names (R304): an immediate, or bit 0 of a register. -/
def View.phaseArg (v : View) (tick : Nat) : BarArg → Bool
  | .imm i => i.getLsbD 0
  | .reg r => (v.sval tick r).getLsbD 0

/-- BAR_WAIT (R304, R305). In warning mode an invalid word reads as zero and is recorded (R185). -/
def execBarWait (g : Guard) (idx : BitVec 16) (p : BarArg) (s : State) : Host.Outcome State Fault Refusal :=
  instr { guard := g, lane := false, ends := true } s fun v _ =>
    s.closeCovered v (8 * idx.toNat) 8 fun s v =>
      s.barCheck v idx fun s w =>
        if barBad w then s.faultHere v false Cause.barKind
        else
          s.closeFirst v fun s v => s.afterReads v fun s =>
            let s := s.modGroup v.a.g fun gr =>
              let gr := gr.noteSp (8 * idx.toNat) 8
              if (Table.find gr.marks idx.toNat).isSome then gr else { gr with marks := Table.insert gr.marks idx.toNat {} }
            s.barWait v idx w (v.phaseArg s.tick p)

/-- BAR_ARW (R305): an arrival, then a wait on the phase that stood before it. -/
def execBarArw (g : Guard) (idx : BitVec 16) (n : BarArg) (s : State) : Host.Outcome State Fault Refusal :=
  instr { guard := g, lane := false, ends := true } s fun v _ =>
    s.barArrive v idx n fun s v w =>
      let w' := ((s.group? v.a.g).map fun gr => gr.sp.word (8 * idx.toNat)).getD 0
      s.barWait v idx w' (w.getLsbD 63)

-- Timelines (R285, R307) ------------------------------------------------------------------------------------------------------------

/-- The queue a timeline is bound to (R269 word 7). -/
def Group.boundTo (gr : Group) (tl : BitVec 3) : Nat := Table.read gr.bind tl.toNat 0

/-- A queue's numbering. -/
def Group.queue (gr : Group) (q : Nat) : Queue := Table.read gr.queues q {}

/-- Write a queue's numbering. -/
def Group.setQueue (gr : Group) (q : Nat) (x : Queue) : Group := { gr with queues := Table.write gr.queues q x {} }

/-- The counter of a timeline (R285). -/
def Group.timeline (gr : Group) (tl : BitVec 3) : Nat := (gr.queue (gr.boundTo tl)).c

/-- The value of a timeline operand (R307, R341). -/
def View.tlArg (v : View) (tick : Nat) : TlArg → Nat
  | .imm i => i.toNat
  | .reg r => (v.sval tick r).toNat

/-- TLWAIT (R307). A counter moves only after the commands it counts have been performed, at `.wv` as at `.gp` (log 105). -/
def execTlwait (g : Guard) (tl : BitVec 3) (sc : Scope) (n : TlArg) (s : State) : Host.Outcome State Fault Refusal :=
  instr { guard := g, lane := false, ends := true } s fun v _ =>
    let k := v.tlArg s.tick n
    s.afterReads v fun s =>
      if k ≤ v.gr.timeline tl then (s.acquireAt v sc (v.gr.queue (v.gr.boundTo tl)).stamp).retireClose v id
      else (s.close v).parkAfter v (.timeline tl k sc)

/-- TLREAD (R307): no acquire, no wait; it is not commit-class. -/
def execTlread (g : Guard) (sd : BitVec 6) (tl : BitVec 3) (s : State) : Host.Outcome State Fault Refusal :=
  instr { guard := g, lane := false } s fun v _ => s.retireWith v (v.putS s.tick sd (BitVec.ofNat 64 (v.gr.timeline tl)))

-- Deques, messages, launches: long-latency (R308, R309, R312) ------------------------------------------------------------------------

/-- DQ_PUSH (R308): its release at `.gp` begins at issue. -/
def execDqPush (g : Guard) (f : Flag) (sa : BitVec 6) (s : State) : Host.Outcome State Fault Refusal :=
  instr { guard := g, lane := false, ends := true, long := some f } s fun v _ =>
    (s.close v).issueLong v f v.en.mask true (.dqPush (v.sval s.tick sa)) false []

/-- DQ_POP (R308). -/
def execDqPop (g : Guard) (f : Flag) (sd : BitVec 6) (s : State) : Host.Outcome State Fault Refusal :=
  instr { guard := g, lane := false, ends := true, long := some f } s fun v _ =>
    (s.close v).issueLong v f v.en.mask true (.dqPop sd) true []

/-- DQ_STEAL (R308): a core number of 256 or more faults at issue. -/
def execDqSteal (g : Guard) (f : Flag) (sd sa : BitVec 6) (s : State) : Host.Outcome State Fault Refusal :=
  instr { guard := g, lane := false, ends := true, long := some f } s fun v _ =>
    let core := (v.sval s.tick sa).toNat
    if 256 ≤ core then s.faultHere v false Cause.dqBadCore
    else (s.close v).issueLong v f v.en.mask true (.dqSteal sd core) true []

/-- MSG_SEND (R309): its release at `.dm` begins at issue; the message is read after it. -/
def execMsgSend (g : Guard) (f : Flag) (sd sa sb : BitVec 6) (s : State) : Host.Outcome State Fault Refusal :=
  instr { guard := g, lane := false, ends := true, long := some f } s fun v _ =>
    (s.close v).issueLong v f v.en.mask true (.msg sd (v.sval s.tick sa) (v.sval s.tick sb).toNat none false) false []

/-- LAUNCH (R312): its release at `.pk` begins at issue; the block is read after it. -/
def execLaunch (g : Guard) (f : Flag) (sd sa : BitVec 6) (s : State) : Host.Outcome State Fault Refusal :=
  instr { guard := g, lane := false, ends := true, long := some f } s fun v _ =>
    (s.close v).issueLong v f v.en.mask true (.launch sd (v.sval s.tick sa)) false []

-- Receive rings (R284, R310) -----------------------------------------------------------------------------------------------------------

/-- A ring's descriptor read as R284 has it. -/
structure Ring where
  slots : Nat
  base : Nat
  deriving DecidableEq, Repr

/-- The ring of a descriptor, where it is enabled (R284). -/
def ringOf (d : Word) : Option Ring :=
  let code := (d.extractLsb' 16 12).toNat
  if d.getLsbD 63 && code ≤ 11 then some ⟨2 ^ (code + 1), 8 * (d.extractLsb' 0 16).toNat⟩ else none

/-- A ring of a group. -/
def Group.ring (gr : Group) (k : Nat) : Option Ring := ringOf (Table.read gr.ringdesc k 0)

/-- Where the slot of a message count lies, and its stamp word (R284). -/
def Ring.slotAt (r : Ring) (n : Nat) : Nat := r.base + 64 + n % r.slots * 64
def Ring.stampAt (r : Ring) (n : Nat) : Nat := r.base + 64 + r.slots * 64 + n % r.slots * 8

/-- The head and tail words of a ring (R284). -/
def Group.ringHead (gr : Group) (r : Ring) : Word := gr.sp.word r.base
def Group.ringTail (gr : Group) (r : Ring) : Word := gr.sp.word (r.base + 8)

/-- Take the message of a count (R310): its slot's offset in `sd`, p6, and an acquire at `.dm` with its stamp word. -/
def Wave.takeMessage (wv : Wave) (tick e : Nat) (gr : Group) (r : Ring) (n : Nat) (sd : BitVec 6) (mask : Mask) : Wave :=
  ((wv.acquire.mergeStamp (some (gr.sp.word (r.stampAt n)))).setP6 mask true).writeS tick e sd.toNat (BitVec.ofNat 64 (r.slotAt n))

/-- What warning mode records of a take: the instruction counts once (R185). -/
def Group.noteRing (gr : Group) (r : Ring) (n : Nat) : Group :=
  if gr.sp.allValid r.base 16 then gr.noteSp (r.stampAt n) 8 else gr.noteSp r.base 16

/-- The shared part of R310: the words it reads are checked like any (R313); the ring, and what an empty ring does. -/
def State.ringTake (s : State) (v : View) (sd sa : BitVec 6) (empty : State → View → Nat → State) : State :=
  let k := (v.sval s.tick sa).toNat
  match (if k < 8 then v.gr.ring k else none) with
  | none => s.faultHere v false Cause.ringOff
  | some r =>
    s.closeCovered v r.base 16 fun s v =>
      s.spChecked v r.base 16 fun s =>
        let h := v.gr.ringHead r
        if v.gr.ringTail r = h then
          s.closeFirst v fun s v => s.afterReads v fun s => empty (s.modGroup v.a.g fun gr => gr.noteSp r.base 16) v k
        else
          s.closeCovered v (r.stampAt h.toNat) 8 fun s v =>
            s.spChecked v (r.stampAt h.toNat) 8 fun s =>
              s.closeFirst v fun s v => s.afterReads v fun s =>
                let s := s.modGroup v.a.g fun gr => gr.noteRing r h.toNat
                let s := s.retireWith v fun wv => wv.takeMessage s.tick v.a.e v.gr r h.toNat sd v.en.mask
                s.dropL1 v.gr.core

/-- RING_WAIT (R310). -/
def execRingWait (g : Guard) (sd sa : BitVec 6) (s : State) : Host.Outcome State Fault Refusal :=
  instr { guard := g, lane := false, ends := true } s fun v _ =>
    s.ringTake v sd sa fun s v k => s.parkAfter v (.ring k sd)

/-- RING_TAKE (R310): on an empty ring it clears p6. -/
def execRingTake (g : Guard) (sd sa : BitVec 6) (s : State) : Host.Outcome State Fault Refusal :=
  instr { guard := g, lane := false, ends := true } s fun v _ =>
    s.ringTake v sd sa fun s v _ => s.retireWith v fun wv => wv.setP6 v.en.mask false

-- Yield and quantum end (R311) -----------------------------------------------------------------------------------------------------------

/-- YIELD (R311): in ordinary mode the entity sits out the next selection of each pipe. -/
def execYield (g : Guard) (s : State) : Host.Outcome State Fault Refusal :=
  instr { guard := g, lane := false, place := .last, ends := true } s fun v _ =>
    let s1 := s.retireClose v id
    if s.det v.gr then s1 else s1.modEnt v.a fun e => { e with skip := 0xF }

/-- QEND (R311). -/
def execQend (g : Guard) (s : State) : Host.Outcome State Fault Refusal :=
  instr { guard := g, lane := false, place := .last, ends := true } s fun v _ => s.retireClose v id

end Sys2Proof.Machine
end

