-- ==== Sys2Proof/Machine/Counting.lean ====
section
/-! DEFINITION. What every engine command shares: its error words (R124) and the counting of what lands into barrier words
(R138, R281). -/

namespace Sys2Proof.Machine

open Sys2Proof

/-- What a command's counts and its completion release (R163): its wave's causal stamp at issue, and the stamps of what it has
committed. -/
def Cmd.stamp (k : Cmd) : Stamp := stampMaxO k.top k.cstamp

/-- A word of error (R124). -/
def errorWord (c : Cause) (n : Nat) : Word := (1 : BitVec 1) ++ c ++ (0 : BitVec 6) ++ BitVec.ofNat 48 n

/-- Record an error in a word under the first-error rule (R124). -/
def firstError (t : Table Word) (k : Nat) (x : Word) : Table Word :=
  if (Table.read t k 0).getLsbD 63 then t else Table.write t k x 0

/-- The timelines bound to a queue. -/
def Group.boundTimelines (gr : Group) (q : Nat) : List Nat := (List.range 8).filter fun k => Table.read gr.bind k 0 = q

/-- Record an error of a command (R124): in its queue's QFAULT word and in the TLFAULT word of every timeline bound to the
queue. -/
def Group.noteError (gr : Group) (q num : Nat) (c : Cause) : Group :=
  let x := errorWord c num
  { gr with
    qfault := firstError gr.qfault q x
    tlfault := (gr.boundTimelines q).foldl (fun t k => firstError t k x) gr.tlfault }

/-- Record an error of a command; the command keeps its first. The work of a task is of no queue (R146). -/
def State.cmdError (s : State) (id : Nat) (c : Cause) : State :=
  match Table.find s.cmds id with
  | none => s
  | some k =>
    let s := { s with cmds := Table.insert s.cmds id { k with err := k.err.or (some c) } }
    if k.queue < 5 then s.modGroup k.g fun gr => gr.noteError k.queue k.num c else s

/-- The engine kind of a command's refusals (R137, R139, R355): a gather's are those of copy, a push's those of task (R146). -/
def Cmd.refusalKind (k : Cmd) : Nat :=
  match k.kind with
  | .push _ | .pushWave _ _ => Cause.eTask
  | _ => if k.queue = 3 then Cause.eCollective else Cause.eCopy

/-- The class-2 code of a refusal of a command. -/
def State.refusalOf (s : State) (id r : Nat) : Cause := Cause.engine (((Table.find s.cmds id).map Cmd.refusalKind).getD Cause.eCopy) r

/-- The fate of a count at a barrier word (R138): the cause that leaves the word unchanged, if there is one. -/
def Group.countRefused (gr : Group) (word : Nat) : Option Cause :=
  let off := 8 * word
  let w := gr.sp.word off
  if gr.sp.size < off + 8 then some Cause.spBound
  else if !gr.sp.allValid off 8 || !w.getLsbD 62 || w.extractLsb' 0 3 != 0 then some Cause.barKind
  else if barExpected w = 0 then some Cause.barCount
  else none

/-- Set the error bit of a barrier word (R138). -/
def Group.markBad (gr : Group) (word : Nat) : Group :=
  { gr with sp := gr.sp.setWord (8 * word) (gr.sp.word (8 * word) ||| 0x2000000000000000) }

/-- Count bytes that a command has landed, or has failed to land, into its barrier word in a receiving group (R138). -/
def State.countLanding (s : State) (id g n : Nat) (bad : Bool) : State :=
  match Table.find s.cmds id, s.group? g with
  | some k, some gr =>
    match k.bar with
    | none => s
    | some word =>
      match gr.countRefused word with
      | some c => s.cmdError id c
      | none => (if bad then s.modGroup g fun gr => gr.markBad word else s).barUpdate g word n (some k.stamp)
  | _, _ => s

end Sys2Proof.Machine
end

