-- ==== Sys2Proof/Machine/Reach.lean ====
section
/-! DEFINITION. Reads of virtual memory that a unit of the module makes in one step: a launch's lists (R269), task records
(R141), launch blocks (R312). -/

namespace Sys2Proof.Machine

open Sys2Proof

/-- The outcome of such an access, with the state it leaves: done, refused, a page that is not present, or not possible yet. -/
inductive Reach (α : Type) where
  | ok (x : α) (s : State)
  | bad (r : Refused) (s : State)
  | absent (va : Word) (s : State)
  | wait (s : State)

/-- Go on where an access is done. -/
def Reach.andThen {α β : Type} (r : Reach α) (f : α → State → Reach β) : Reach β :=
  match r with
  | .ok x s => f x s
  | .bad e s => .bad e s
  | .absent va s => .absent va s
  | .wait s => .wait s

/-- Read one piece through a context, with the granule of this module that it lies in: a word of another module's memory comes as it
does for a fetch (log 16). -/
def State.readVaPiece (s : State) (core : Nat) (ctx : BitVec 12) (carried : Option Stamp) (va : Word) (n : Nat) :
    Reach (List Byte × Option Nat) :=
  let t := s.walked core ctx va
  match s.translate core ctx { r := true } va with
  | .error (.reason 0) => .absent va t
  | .error r => .bad r t
  | .ok d =>
    if s.ours d then
      let a := dpaLocal d
      match (t.merge (homeSlice a) carried).readItem a n with
      | (some bs, t) => .ok (bs, some (t.granOf a)) t
      | (none, t) => .bad (.reason Cause.rUncorrectable) t
    else if !s.routeUp (dpaModule d) then .bad .link t
    else
      match Config.farWord s.tick (d - d % 8) with
      | none => .wait t
      | some (.ok w) => .ok (((toBytes w.toNat 8).drop (d % 8)).take n, none) t
      | some (.error r) => .bad (.reason r.code) t

/-- A granule read has been one request (R154, R180); `met` is the one that the piece before it lay in. -/
def State.countGranule (s : State) (met : Option Nat) : Option Nat → State
  | some b => if met = some b then s else s.countRequest b
  | none => s

/-- Read pieces in order. -/
def State.readVaPieces (s : State) (core : Nat) (ctx : BitVec 12) (carried : Option Stamp) (va : Word) (met : Option Nat) :
    List (Nat × Nat) → Reach (List Byte)
  | [] => .ok [] s
  | (b, n) :: rest =>
    (s.readVaPiece core ctx carried (va + BitVec.ofNat 64 b) n).andThen fun x s =>
      ((s.countGranule met x.2).readVaPieces core ctx carried va x.2 rest).andThen fun l s => .ok (x.1 ++ l) s

/-- Read n bytes at a virtual address of a context, with the stamp the requests carry. -/
def State.readVa (s : State) (core : Nat) (ctx : BitVec 12) (carried : Option Stamp) (va : Word) (n : Nat) : Reach (List Byte) :=
  s.readVaPieces core ctx carried va none (splitAccess va.toNat 0 n n)

end Sys2Proof.Machine
end

