-- ==== Sys2Proof/Machine/SliceEvents.lean ====
section
/-! DEFINITION. What home slices and stacks do when their turn comes: loads, commits, atomics and as-of reads (R152, R161,
R162, R174, R237 to R240), held requests (R152, R173), revoked holds and the horizon's lag (R173, R175), the sweep (R175),
the contention counter (R239) and the close of a round (R165, R209, R264). -/

namespace Sys2Proof.Machine

open Sys2Proof

-- Order ---------------------------------------------------------------------------------------------------------------------

/-- A request of this module's slices that can be performed now. -/
def State.turnOf (s : State) (id : Nat) : Option Req :=
  match Table.find s.reqs id with
  | none => none
  | some r => if r.away.isNone && r.held.isNone && !s.heldBack id r && !s.atCore id r then some r else none

/-- A request is done. -/
def State.dropReq (s : State) (id : Nat) : State := { s with reqs := Table.erase s.reqs id }

/-- A request is held. -/
def State.holdReq (s : State) (id : Nat) (h : Held) : State :=
  { s with reqs := Table.modify s.reqs id fun r => { r with held := some h } }

/-- A request whose Whey append was refused is held (R173). -/
def State.holdWhey (s : State) (id gran : Nat) : State := s.holdReq id (.whey s.round (s.freedAt (dpaStack gran)))

-- Answers ---------------------------------------------------------------------------------------------------------------------

/-- The virtual address of a piece of a long-latency access (R229). -/
def LongOp.vaOf (o : LongOp) (t byte : Nat) : Word :=
  match o.lanes.find? fun l => l.thread = t with
  | some l => o.win.base + l.off + BitVec.ofNat 64 byte
  | none => o.win.base

/-- A piece has been read: its bytes. -/
def LongOp.take (o : LongOp) (i : ReqItem) (bs : List Byte) : LongOp :=
  { o with got := gotBytes o.got i.thread (bs.zipIdx.map fun b => (i.byte + b.2, b.1)) }

/-- A piece has been refused (R229). -/
def LongOp.deny (o : LongOp) (i : ReqItem) (c : Cause) : LongOp :=
  { o with refused := o.refused ++ [⟨i.thread, c, o.vaOf i.thread i.byte⟩] }

/-- A wave's read has returned a stamp (R163). -/
def State.noteSeen (s : State) (g w : Nat) (x : Stamp) : State := s.modWave g w fun wv => { wv with seen := stampJoin wv.seen (some x) }

/-- A wave's write has been committed (R163); of a deterministic launch the next one's stamp lies above it (R293). -/
def State.noteStored (s : State) (g w : Nat) (x : Stamp) : State :=
  (s.modWave g w fun wv => { wv with stored := stampJoin wv.stored (some x) }).noteLast g x

/-- A write by an agent of a core drops the core's own line (R153). -/
def State.dropLine (s : State) (a : Agent) (base : Nat) : State :=
  let core : Option Nat := match a with
    | .op g _ _ => some (s.coreOfGroup g)
    | .wave g _ => some (s.coreOfGroup g)
    | .cmd c => (Table.find s.cmds c).map fun k => s.coreOfGroup k.g
    | _ => none
  match core with
  | some k => { s with l1 := Table.erase s.l1 (l1Key k (s.dpaOf base)) }
  | none => s

/-- The number under which an atomic of another module is answered (R240). -/
def atomTag (core : BitVec 8) (seq : BitVec 32) : Nat := 2 ^ 64 + core.toNat * 2 ^ 32 + seq.toNat

/-- A cause as an error of a task's work (R146); where no route remains it is `LINK_FAIL` (R263). -/
def taskCode (c : Cause) : Cause := if c = Cause.linkFail then c else Cause.engine Cause.eTask (c.extractLsb' 0 3).toNat

/-- A write of a die's scheduler has been refused: its task is told (R146). -/
def State.refuseTask (s : State) (id : Nat) (c : Cause) : State :=
  { s with tasks := Table.modify s.tasks id fun t => { t with refused := t.refused.or (some (taskCode c)) } }

/-- A refusal goes back to where the request came from. -/
def State.refuseItem (s : State) (r : Req) (i : ReqItem) (c : Cause) : State :=
  match r.agent with
  | .op g w o => s.modOp g w o fun x => x.deny i c
  | .peer m _ tag => s.send m (.refusal tag i.num c)
  | .task t => s.refuseTask t c
  | .host => { s with hostSeen := .lost (s.dpaOf i.addr) :: s.hostSeen }
  | _ => s

/-- The kind of an access for its refusal. -/
def ReqKind.access : ReqKind → Nat
  | .load => Cause.kLoad
  | .asof _ => Cause.kAsof
  | .store => Cause.kStore
  | .atom _ _ => Cause.kAtomic
  | .attrs _ _ => Cause.kLoad

/-- An instruction's own store outside a region is the write of a page-table leaf (R344). -/
def Req.ofLeaf (r : Req) : Bool :=
  match r.agent, r.kind with
  | .op _ _ _, .store => r.slot.isNone
  | _, _ => false

/-- A request is checked against the owner entry of its page (R323): not the host's, and not what `sys.pgattr` changes (R344). -/
def Req.owned (r : Req) : Bool :=
  r.agent != .host && !r.ofLeaf && (match r.kind with | .attrs _ _ => false | _ => true)

/-- The owner entry of the page does not let a request in (R323). -/
def State.barred (s : State) (r : Req) : Bool := r.owned && !ownerAllows (s.page (dpaPage r.gran)).owner r.ctx

-- Ownership (R239) ---------------------------------------------------------------------------------------------------

/-- The contention predictor sees an atomic of a core, none for another module's (R239): ownership is granted at counter 0
or 1, recalled by another core's request, and from 2 on atomics are served at the slice. -/
def Contention.touch (c : Contention) (core : Option Nat) : Contention :=
  if c.counter < 2 then
    match c.owner with
    | none => { c with owner := core }
    | some o =>
      if core = some o then c
      else
        let n := c.counter + 1
        { counter := n, owner := if n < 2 then core else none, served := 0 }
  else { c with served := c.served + 1 }

/-- The state after the predictor has seen an atomic on a granule. -/
def State.contend (s : State) (base : Nat) (core : Option Nat) : State :=
  { s with contention := Table.write s.contention base ((Table.read s.contention base {}).touch core) {} }

/-- The core of this module that a request comes from, where one does (R239). -/
def State.requester (s : State) : Agent → Option Nat
  | .host | .peer _ _ _ => none
  | a => some (s.coreOfAgent a)

/-- Another core's request recalls the ownership of a granule (R239). -/
def State.recall (s : State) (base : Nat) (core : Option Nat) : State :=
  let c := Table.read s.contention base {}
  if c.counter < 2 && c.owner.isSome && c.owner ≠ core then
    { s with contention := Table.write s.contention base { counter := c.counter + 1, owner := none, served := 0 } {} }
  else s

-- Refusals at the slice (R323, R372) --------------------------------------------------------------------------------------

/-- A commit that was dropped is reported (R372). -/
def State.reportDropped (s : State) (r : Req) (c : Cause) : State :=
  s.record .writeDropped c r.ctx 0 0 (BitVec.ofNat 64 (s.dpaOf r.gran))

/-- A copy's write to `.g` is counted when it is performed (R138). -/
def State.countStored (s : State) (id : Nat) (r : Req) (bad : Bool) : State :=
  match Table.find s.cmds id with
  | some k => s.countLanding id k.g ((r.items.map (·.len)).foldl (· + ·) 0) bad
  | none => s

/-- A request is refused whole by the owner entry of its page (R323, R324): a retired store is reported (log 29). -/
def State.refuseReq (s : State) (id : Nat) (r : Req) : State :=
  let c := Cause.access r.kind.access Cause.rPermission
  let s := (r.items.foldl (fun s i => s.refuseItem r i c) s).dropReq id
  match r.agent with
  | .wave _ _ => s.reportDropped r c
  | .cmd k => (s.cmdError k (s.refusalOf k Cause.rPermission)).countStored k r true
  | _ => s

-- Loads ---------------------------------------------------------------------------------------------------------------------------

/-- The bytes that a core's L1 holds. -/
def State.l1Bytes (s : State) (core : Nat) : Nat :=
  s.l1.foldl (fun n p => if p.1 / 2 ^ 52 = core then n + p.2.data.length else n) 0

/-- A core's L1 holds 256 KiB (R17): lines give way, in an order the manual leaves open, until it holds no more. -/
def State.trimL1 (s : State) (core : Nat) : Nat → State
  | 0 => s
  | fuel + 1 =>
    if s.l1Bytes core ≤ 2 ^ 18 then s
    else
      let own := (s.l1.filter fun p => p.1 / 2 ^ 52 = core).map (·.1)
      State.trimL1 { s with l1 := Table.erase s.l1 (own.getD ((Config.freeValue s.tick (2 ^ 72 + fuel)).toNat % own.length) 0) } core fuel

/-- The lines of a core's L1 over a range of DPAs are dropped (R153). -/
def State.dropFar (s : State) (core dpa n : Nat) : State :=
  { s with l1 := Table.drop s.l1 fun k l => k / 2 ^ 52 == core && meets (k % 2 ^ 52) l.data.length dpa n }

/-- Put a line into a core's L1, in place of those that it overlaps (R199). -/
def State.putL1 (s : State) (core dpa : Nat) (l : L1Line) : State :=
  let s := s.dropFar core dpa l.data.length
  ({ s with l1 := Table.insert s.l1 (l1Key core dpa) l } : State).trimL1 core (s.l1.length + 1)

/-- A line of the granule comes to the L1 of the core whose load was performed (R153, R232). -/
def State.fillL1 (s : State) (core base : Nat) : State :=
  match s.readCoded base (granSize (s.page (dpaPage base)).gran) with
  | some (bs, _) => s.putL1 core (s.dpaOf base) ⟨bs, s.versionStamp base, s.sliceCount (homeSlice base)⟩
  | none => s

/-- The wave's region that a request belongs to in deterministic mode, where regions do not forward (R292): its instruction has been
issued in it. -/
def State.detRegion (s : State) (r : Req) : Bool :=
  match r.agent with
  | .op g w o =>
    match s.group? g, s.wave? g w with
    | some gr, some wv => s.det gr && wv.region.isSome && ((Table.find wv.ops o).map (·.inRegion)).getD false
    | _, _ => false
  | _ => false

/-- A granule that a deterministic region has read, with the count of its home slice then (R292). -/
def State.noteRead (s : State) (g w base : Nat) : State :=
  s.modWave g w fun wv =>
    { wv with region := wv.region.map fun r =>
        if (Table.find r.reads base).isSome then r else { r with reads := Table.insert r.reads base (s.sliceCount (homeSlice base)) } }

/-- Perform one item of a load. -/
def State.loadItem (s : State) (r : Req) (i : ReqItem) : State :=
  let (bs, s) := s.readItem i.addr i.len
  match bs with
  | none => s.refuseItem r i (Cause.access Cause.kLoad Cause.rUncorrectable)
  | some bs =>
    match r.agent with
    | .op g w o => s.modOp g w o fun x => x.take i bs
    | .peer m _ tag => s.send m (.answer tag [(i.num, bs)] (s.versionStamp r.gran))
    | .host => { s with hostSeen := .data (s.dpaOf i.addr) bs :: s.hostSeen }
    | _ => s

/-- Perform a load at its home slice: the carried stamp is merged first (R162, R166). -/
def State.performLoad (s : State) (id : Nat) (r : Req) : State :=
  let s := ((s.merge (homeSlice r.gran) r.carried).countRequest r.gran).recall r.gran (s.requester r.agent)
  let s := r.items.foldl (fun s i => s.loadItem r i) s
  let s := match r.agent with
    | .op g w _ =>
      let s := s.noteSeen g w (s.versionStamp r.gran)
      if s.detRegion r then s.noteRead g w r.gran else s.fillL1 (s.coreOfGroup g) r.gran
    | _ => s
  s.dropReq id

/-- SLICE_LOAD_REQUEST. -/
def execSliceLoadRequest (req : Nat) (s : State) : Host.Outcome State Fault Refusal :=
  .next (match s.turnOf req with
    | some r => if r.kind == .load && r.slot.isNone then (if s.barred r then s.refuseReq req r else s.performLoad req r) else s
    | none => s)

-- Commits ---------------------------------------------------------------------------------------------------------------------------

/-- A non-region write waits while a live region has an entry on its granule (R206). -/
def State.behindRegion (s : State) (base : Nat) : Option Nat := (s.onGranule base).head?

/-- A write of a granule that the host may hold waits for the snoop (R257). -/
def State.snooping (s : State) (base : Nat) : Bool :=
  s.hostLines.any fun l => meets (64 * l) 64 base (granSize (s.page (dpaPage base)).gran)

/-- The acknowledgement of a store's items. -/
def Req.acks (r : Req) : List (Nat × List Byte) := r.items.map fun i => (i.num, [])

/-- Commit a store at its home slice (R152, R161, R173, R206). -/
def State.performStore (s : State) (id : Nat) (r : Req) : State :=
  if s.snooping r.gran && r.agent != .host then s
  else
    match s.behindRegion r.gran with
    | some k => s.holdReq id (.behind k (s.startOf k))
    | none =>
      let s := s.recall r.gran (s.requester r.agent)
      match s.commit r.gran (r.items.map fun i => (i.addr, i.data)) (s.carriedOf r) none r.launch none with
      | .done x s =>
        let s := (s.countRequest r.gran).dropLine r.agent r.gran
        let s := match r.agent with
          | .op g w _ => s.noteStored g w x
          | .wave g w => s.noteStored g w x
          | .cmd c =>
            let s := { s with cmds := Table.modify s.cmds c fun k => { k with top := stampJoin k.top (some x) } }
            let s := s.noteLast (s.groupOfCmd c) x
            s.countStored c r false
          | .peer m _ tag => s.send m (.answer tag r.acks x)
          | _ => s
        s.dropReq id
      | .refused s => s.holdWhey id r.gran
      | .dropped s =>
        let s := ((s.countRequest r.gran).reportDropped r (Cause.access Cause.kStore Cause.rUncorrectable)).dropReq id
        match r.agent with
        | .peer m _ tag => s.send m (.answer tag r.acks (s.versionStamp r.gran))
        | .task t => s.refuseTask t (Cause.access Cause.kStore Cause.rUncorrectable)
        | .cmd c => (s.cmdError c (s.refusalOf c Cause.rUncorrectable)).countStored c r true
        | _ => s

-- Words that a unit of the module writes (R141, R344) -------------------------------------------------------------------------------

/-- A write that is held at the slice stands before others of the granule (R152). -/
def State.queuedOn (s : State) (base : Nat) : Bool :=
  s.reqs.any fun p => p.2.away.isNone && p.2.gran == base && p.2.kind.writes && p.2.held.isSome

/-- Write one word: a request that is performed in this step where nothing holds it (R152, R173), or that another module performs; the
agent goes on once it has been. -/
def State.sendWord (s : State) (a : Agent) (ctx : BitVec 12) (carried : Option Stamp) (d : Nat) (w : Word) : Reach Unit :=
  let r : Req := {
    agent := a
    ctx := ctx
    launch := none
    kind := .store
    gran := 0
    items := []
    carried := carried }
  let i : ReqItem := { thread := 0, byte := 0, addr := d, len := 8, data := toBytes w.toNat 8 }
  if !s.ours d then (if s.routeUp (dpaModule d) then .ok () (s.sendItems r [i]) else .bad .link s)
  else
    let base := s.granOf (dpaLocal d)
    let id := s.nextId
    if s.snooping base || (s.behindRegion base).isSome || s.queuedOn base then .wait s
    else
      .ok () ((s.sendItems r [i]).performStore id { r with
        gran := base
        items := [{ i with addr := dpaLocal d }] })

-- Atomics -----------------------------------------------------------------------------------------------------------------------------

/-- An old value returns to an atomic (R237, R240): to its instruction with its flags, or to the other module with an
entry of the duplicate table. -/
def State.oldValue (s : State) (r : Req) (i : ReqItem) (bs : List Byte) (x : Stamp) (fl : Flags) : State :=
  match r.agent with
  | .op g w o => (s.modOp g w o fun y => { y.take i bs with flags := y.flags ||| fl }).noteSeen g w x
  | .peer m _ tag =>
    let d : Dup := ⟨m, BitVec.ofNat 8 (tag / 2 ^ 32), BitVec.ofNat 32 tag, homeSlice r.gran, BitVec.ofNat 64 (ofBytes bs), x⟩
    ({ s with dups := s.dups ++ [d] }).send m (.answer (atomTag d.core d.seq) [(0, bs)] x)
  | _ => s

/-- The bytes of an item as such a region reads them: its own held writes first (R206). -/
def State.heldBytes (s : State) (r : Req) (i : ReqItem) (bs : List Byte) : List Byte :=
  match r.agent with
  | .op g w _ =>
    match s.wave? g w with
    | some wv => if s.detRegion r then bs.zipIdx.map fun b => (queueByte wv.sq .g (s.dpaOf i.addr + b.2)).getD b.1 else bs
    | none => bs
  | _ => bs

/-- Hold the write of a deterministic region's atomic until its `xend` (R292): in an entry of its own for each thread, which takes none
of the places that R233 gives to stores (DESIGN CHOICE, log 113). -/
def State.holdWrite (s : State) (r : Req) (i : ReqItem) (y : Word) : State :=
  match r.agent with
  | .op g w _ =>
    let e : SqEntry := ⟨.g, [⟨i.thread, s.dpaOf i.addr, toBytes y.toNat i.len⟩], s.nextId, true⟩
    s.modWave g w fun wv => { wv with sq := wv.sq ++ [e] }
  | _ => s

/-- Perform the items of an atomic in thread order (R237); where one has no Whey room, it and those after it are left. -/
def State.atomItems (s : State) (id : Nat) (r : Req) (op : AtomOp) (ty : Ty) : List ReqItem → State
  | [] => s.dropReq id
  | i :: t =>
    let (bs, s) := s.readItem i.addr i.len
    match bs with
    | none =>
      let c := Cause.access Cause.kAtomic Cause.rUncorrectable
      State.atomItems ((s.refuseItem r i c).reportDropped r c) id r op ty t
    | some bs =>
      let bs := s.heldBytes r i bs
      let (new, fl) := atomVal op ty (BitVec.ofNat 64 (ofBytes bs)) i.x i.cmp
      match new with
      | none => State.atomItems (s.oldValue r i bs (s.versionStamp r.gran) fl) id r op ty t
      | some y =>
        if s.detRegion r then State.atomItems ((s.holdWrite r i y).oldValue r i bs (s.versionStamp r.gran) fl) id r op ty t
        else
        match s.commit r.gran [(i.addr, toBytes y.toNat i.len)] (s.carriedOf r) none r.launch none with
        | .done x s =>
          let s := match r.agent with
            | .op g w _ => s.noteStored g w x
            | _ => s
          State.atomItems (s.oldValue r i bs x fl) id r op ty t
        | .refused s =>
          ({ s with reqs := Table.modify s.reqs id fun r => { r with items := i :: t } }).holdWhey id r.gran
        | .dropped s => State.atomItems (s.reportDropped r (Cause.access Cause.kAtomic Cause.rUncorrectable)) id r op ty t

/-- Perform an atomic at its home slice, which every placement agrees with (R200, R239). -/
def State.performAtomic (s : State) (id : Nat) (r : Req) (op : AtomOp) (ty : Ty) : State :=
  if s.snooping r.gran then s
  else
    match s.behindRegion r.gran with
    | some k => s.holdReq id (.behind k (s.startOf k))
    | none =>
      let s := (s.merge (homeSlice r.gran) r.carried).contend r.gran (s.requester r.agent)
      let s := match r.agent with
        | .op g w _ => if s.detRegion r then s.noteRead g w r.gran else s
        | _ => s
      let s := (s.atomItems id r op ty r.items).dropLine r.agent r.gran
      if (Table.find s.reqs id).isNone then s.countRequest r.gran else s

/-- SLICE_ATOMIC. -/
def execSliceAtomic (req : Nat) (s : State) : Host.Outcome State Fault Refusal :=
  .next (match s.turnOf req with
    | some r =>
      match r.kind with
      | .atom op ty => if r.slot.isNone then (if s.barred r then s.refuseReq req r else s.performAtomic req r op ty) else s
      | _ => s
    | none => s)

/-- CONTENTION_DECAY (R239). -/
def execContentionDecay (gran : Nat) (s : State) : Host.Outcome State Fault Refusal :=
  let c : Contention := Table.read s.contention gran {}
  .next (if 2 ≤ c.counter && 1024 ≤ c.served then
      { s with contention := Table.write s.contention gran { c with counter := c.counter - 1, served := c.served - 1024 } {} }
    else s)

-- As-of reads ---------------------------------------------------------------------------------------------------------------------------

/-- Perform one item of an as-of load (R174, R235). -/
def State.asofItem (s : State) (r : Req) (t : Stamp) (i : ReqItem) : State :=
  match s.asof r.gran t i.addr i.len with
  | (.ok bs, s) =>
    match r.agent with
    | .op g w o => s.modOp g w o fun x => x.take i bs
    | .peer m _ tag => s.send m (.answer tag [(i.num, bs)] 0)
    | _ => s
  | (.error c, s) => s.refuseItem r i c

/-- ASOF_READ: on a T outside the window nothing is merged, the carried causal stamp included (R162). -/
def execAsofRead (req : Nat) (s : State) : Host.Outcome State Fault Refusal :=
  .next (match s.turnOf req with
    | some r =>
      match r.kind with
      | .asof t =>
        if s.barred r then s.refuseReq req r
        else
        let s := (if s.beyondWindow (homeSlice r.gran) t then s else s.merge (homeSlice r.gran) r.carried).countRequest r.gran
        (r.items.foldl (fun s i => s.asofItem r t i) (s.recall r.gran (s.requester r.agent))).dropReq req
      | _ => s
    | none => s)

-- Holds, horizon, sweep ---------------------------------------------------------------------------------------------------------------------

/-- The hold with the lowest stamp, the earliest placed on a tie (R173). -/
def State.lowestHold (s : State) : Option (Nat × Hold) :=
  s.holds.foldl (fun acc h =>
    match acc with
    | none => some h
    | some b =>
      match stampCmp h.2.stamp b.2.stamp with
      | .lt => some h
      | .eq => if h.2.order < b.2.order then some h else acc
      | _ => acc) none

/-- Revoke a hold and tell its owner (R173): its slot is free (log 103). -/
def State.revoke (s : State) (k : Nat) (h : Hold) : State :=
  ({ s with holds := Table.erase s.holds k, holdsEnded := s.holdsEnded + 1 } : State).record .holdRevoked Cause.holdRevoked
    (BitVec.ofNat 12 (k / 16)) 0 0 h.stamp

/-- Revoke the lowest hold. -/
def State.revokeLowest (s : State) : State :=
  match s.lowestHold with
  | none => s
  | some (k, h) => s.revoke k h

/-- HOLD_REVOCATION (R173): the count of refused appends starts again (log 19). -/
def execHoldRevocation (stack : Nat) (s : State) : Host.Outcome State Fault Refusal :=
  .next (if 2 ^ 16 ≤ (s.stack stack).refused then (s.revokeLowest).modStack stack fun st => { st with refused := 0 } else s)

/-- How far a slice's count lies above H (R175). -/
def State.lag (s : State) (k : Nat) : Nat :=
  ((List.range 4).map fun i => ((countAbove (s.sliceCount (4 * k + i)) (count (s.stack k).h)).getD 0)).foldl max 0

/-- One step of a stack whose horizon lags (R175): it reclaims its oldest record, or revokes a hold that prevents it; with
no record left, H itself rises, once no hold lies below (log 19). -/
def State.catchUp (s : State) (k : Nat) : State :=
  match (s.stack k).log with
  | [] =>
    let cur := ((List.range 4).map fun i => s.sliceCount (4 * k + i)).foldl countMax (count (s.stack k).h)
    let h := mkStamp (cur - BitVec.ofNat 50 (2 ^ 47) + 1) (s.originOf (4 * k))
    if s.holdsAllow h then (s.modStack k fun st => { st with h := h }).broadcast (64 + k) (.horizon k h) else s.revokeLowest
  | r :: _ => if s.holdsAllow r.sup then s.reclaim k else s.revokeLowest

/-- HORIZON_LAG_RECLAIM (R175): one step of it. -/
def execHorizonLagReclaim (stack : Nat) (s : State) : Host.Outcome State Fault Refusal :=
  .next (if stack < 16 && 2 ^ 47 ≤ s.lag stack then s.catchUp stack else s)

/-- AGE_SWEEP (R175): a slice sweeps what it homes. -/
def execAgeSweep (slice : Nat) (s : State) : Host.Outcome State Fault Refusal := .next (if slice < 64 then s.sweep slice else s)

-- Rounds --------------------------------------------------------------------------------------------------------------------------------------

/-- The launch stamp is formed in a stamp step at slice 0 (R163). -/
def State.formLaunchStamp (s : State) (l : Nat) (announced : BitVec 50) : State :=
  match Table.find s.launches l with
  | none => s
  | some x =>
    let c := countMax (countMax (s.sliceCount 0) announced) (x.seedCount.getD announced) + 1
    { s.setCount 0 c with launches := Table.insert s.launches l { x with stamp := some (mkStamp c (s.originOf 0)) } }

/-- The first four broadcasts of each source, and those that wait for the next round (R264). -/
def splitBroadcasts (l : List (Nat × Broadcast)) : List (Nat × Broadcast) × List (Nat × Broadcast) :=
  l.foldl (fun acc b => if (acc.1.filter fun x => x.1 = b.1).length < 4 then (acc.1 ++ [b], acc.2) else (acc.1, acc.2 ++ [b])) ([], [])

/-- Apply a broadcast (R170, R209): a horizon of one of this module's stacks takes effect for as-of loads. Of another module nothing is
kept here; a region's abort has acted at the Unit (R251), and what a multicast lands is no interface's (R264; DEDUCED, log 119). -/
def State.applyBroadcast (s : State) (m : Nat) (b : Broadcast) : State :=
  match b with
  | .horizon k h => if m = s.fabric.index.toNat then s.modStack k fun st => { st with hRound := h } else s
  | .abort _ => s

/-- The other modules of the domain (R261). -/
def State.others (s : State) : List Nat := s.fabric.routes.keys.filter (· ≠ s.fabric.index.toNat)

/-- The round that this module closed last has closed at every interface of the domain (R264). -/
def State.allClosed (s : State) : Bool := s.others.all fun m => decide (Table.read s.unclosed m 0 ≤ 0)

/-- The token visits this module's interfaces (R165, R264): they announce their counts and place at most four broadcasts each, and
the other modules of the domain are told. The round begins once the one before has closed everywhere. -/
def State.placeRound (s : State) : State :=
  match s.placed with
  | some _ => s
  | none =>
    if !s.allClosed then s
    else
      let own := ((List.range 64).map s.sliceCount).foldl countMax (s.sliceCount 0)
      let (now, later) := splitBroadcasts (sortBy (fun a b => a.1 ≤ b.1) s.bcasts)
      let s := { s with placed := some ⟨own, now⟩, bcasts := later }
      s.others.foldl (fun s m => s.send (BitVec.ofNat 8 m) (.announce own now)) s

/-- What every module of the domain has put into the round, in ascending module index (R264); none until all have. -/
def State.roundOf (s : State) : Option (List (Nat × Announce)) :=
  let own := (s.fabric.index.toNat, s.placed)
  let all := own :: s.others.map fun m => (m, (Table.read s.announced m []).head?)
  if all.all fun x => x.2.isSome then
    some (sortBy (fun a b => a.1 ≤ b.1) (all.filterMap fun x => x.2.map fun a => (x.1, a)))
  else none

/-- Close a round (R163, R165, R209, R264) once the token has visited every interface of the domain: the largest count announced
is merged by every slice, broadcasts apply in ascending source order, the stamps of launches accepted before the round began
are formed. -/
def State.closeRound (s : State) : State :=
  let s := s.placeRound
  match s.roundOf with
  | none => s
  | some l =>
    let top := (l.map (·.2.count)).foldl countMax ((l.head?.map (·.2.count)).getD 0)
    let s := (List.range 64).foldl (fun s k => s.setCount k (countMax (s.sliceCount k) top)) s
    let s := l.foldl (fun s x => x.2.bcasts.foldl (fun s b => s.applyBroadcast x.1 b.2) s) s
    let due := (s.launches.filter fun l => l.2.stamp.isNone && l.2.round ≤ s.round).map (·.1)
    let s := due.foldl (fun s l => s.formLaunchStamp l top) s
    let s := { s with
      round := s.round + 1
      placed := none
      announced := s.others.foldl (fun t m => Table.write t m ((Table.read t m []).drop 1) []) s.announced
      unclosed := s.others.foldl (fun t m => Table.write t m (Table.read t m 0 + 1) 0) s.unclosed }
    s.others.foldl (fun s m => s.send (BitVec.ofNat 8 m) .closed) s

/-- ROUND_CLOSE. -/
def execRoundClose (s : State) : Host.Outcome State Fault Refusal := .next s.closeRound

end Sys2Proof.Machine
end

