-- ==== Sys2Proof/Machine/Bsi.lean ====
section
/-! DEFINITION. Block-scaled integers and ternary weights: values (R73, R74), conversion in (R76) and out (R77), block sums
and their accumulation (R78). -/

namespace Sys2Proof.Machine

open Sys2Proof

/-- floor_log2 of the largest magnitude of a block, where one is not zero. -/
def blockLog (xs : List Fp) : Option Int :=
  xs.foldl (fun acc x =>
    match x with
    | .fin _ m e =>
      if m = 0 then acc
      else
        let l := Mag.log ⟨m, e, false⟩
        match acc with
        | some k => some (max k l)
        | none => some l
    | _ => acc) none

/-- Some element is a NaN or infinite (R76). -/
def blockBad (xs : List Fp) : Bool := xs.any fun x => match x with | .fin _ _ _ => false | _ => true

/-- Every element of an integer block has a magnitude of at most n. -/
def blockWithin (xs : List Fp) (n : Nat) : Bool := xs.all fun x => match x with | .fin _ m _ => decide (m ≤ n) | _ => false

/-- An element is negative, or -0 (R76). -/
def Fp.negative : Fp → Bool
  | .fin s _ _ => s
  | .inf s => s
  | .nan _ => false

/-- round_half_even(x / 2^ex) (R76, R85). -/
def Fp.scaled (x : Fp) (ex : Int) : Int :=
  match x with
  | .fin s m e => halfEven s ⟨m, e - ex, false⟩
  | _ => 0

/-- Clamp an integer. -/
def clampTo (lo hi v : Int) : Int := if v < lo then lo else if hi < v then hi else v

/-- A converted block: its scale field, and its elements as they are stored: w bits, or sign and nonzero bits. -/
abbrev Block := Nat × List Nat

/-- bsi_from (R76). -/
def bsiFrom (xs : List Fp) (w : Nat) (intSrc : Bool) : Block :=
  if blockBad xs then (0xFFF, xs.map fun _ => 0)
  else
    match blockLog xs with
    | none => (0, xs.map fun _ => 0)
    | some l =>
      if w = 1 then
        let ex := if intSrc then 0 else l
        ((ex + 2048).toNat, xs.map fun x => if x.negative then 1 else 0)
      else
        let ex := if intSrc && blockWithin xs (2 ^ (w - 1) - 1) then 0 else l - ((w : Int) - 2)
        ((ex + 2048).toNat, xs.map fun x =>
          let v := clampTo (-(2 ^ (w - 1) : Nat)) ((2 ^ (w - 1) : Nat) - 1) (x.scaled ex)
          (v % (2 ^ w : Nat)).toNat)

/-- tern_from (R76): plane 0 is the nonzero bit, plane 1 the sign (R119). -/
def ternFrom (xs : List Fp) (intSrc : Bool) : Block :=
  if blockBad xs then (0xFFF, xs.map fun _ => 0)
  else
    match blockLog xs with
    | none => (0, xs.map fun _ => 0)
    | some l =>
      let ex := if intSrc && blockWithin xs 1 then 0 else l
      ((ex + 2048).toNat, xs.map fun x =>
        let v := clampTo (-1) 1 (x.scaled ex)
        if v = 0 then 0 else if v < 0 then 3 else 1)

/-- val of a stored element (R73, R74): w bits of a block-scaled integer; nonzero and sign of a ternary weight. -/
def elemVal (tern : Bool) (w e : Nat) : Int :=
  if tern then (if e % 2 = 0 then 0 else if e / 2 % 2 = 1 then -1 else 1)
  else if w = 1 then (if e % 2 = 0 then 1 else -1)
  else if e / 2 ^ (w - 1) % 2 = 1 then (e % 2 ^ w : Nat) - (2 ^ w : Nat) else (e % 2 ^ w : Nat)

/-- An integer times a power of two as an exact value. -/
def scaledInt (v e : Int) : Fp := .fin (decide (v < 0)) v.natAbs e

/-- Conversion out of an element with its block's scale (R77); never -0. -/
def elemOut (dty : Ty) (val : Int) (scale : Nat) : Word :=
  if scale = 0 then 0
  else if scale = 0xFFF then (if dty.isFloat then BitVec.ofNat 64 (fmtOf dty).nanBits else 0)
  else if dty.isFloat then
    let f := fmtOf dty
    let r := (f.rne (decide (val < 0)) ⟨val.natAbs, (scale : Int) - 2048, false⟩).1
    BitVec.ofNat 64 (if r % 2 ^ f.signAt = 0 then 0 else r)
  else ofInt dty (clampInt dty (halfEven (decide (val < 0)) ⟨val.natAbs, (scale : Int) - 2048, false⟩))

/-- bsi_block_sum (R78). -/
def blockSum (a w : List Int) : Int := (List.zipWith (· * ·) a w).foldl (· + ·) 0

/-- acc_add (R78). -/
def accAdd (f : Fmt) (acc : Nat) (a : Nat × List Int) (w : Nat × List Int) : Nat :=
  if a.1 = 0xFFF || w.1 = 0xFFF then f.nanBits
  else
    let sum := if a.1 = 0 || w.1 = 0 then 0 else blockSum a.2 w.2
    let c := if sum = 0 then 0 else (f.rne (decide (sum < 0)) ⟨sum.natAbs, (a.1 : Int) + w.1 - 4096, false⟩).1
    (f.add (f.decode acc) (f.decode c)).1

end Sys2Proof.Machine
end

