-- ==== Sys2Proof/Machine/Tensor.lean ====
section
/-! DEFINITION. Tensor handles (R116 to R122): records, footprints, the layout of the typed buffers; the queues of engine
commands (R123, R124) and the checks and issue of `mma`, `tcopy`, `tgather`, `tscatter` and `task.push` (R127, R133 to R137,
R142). -/

namespace Sys2Proof.Machine

open Sys2Proof

-- Records ---------------------------------------------------------------------------------------------------------------

/-- A valid handle record (R117). `stride` is the row stride, or the scale base of a typed buffer. -/
structure Tensor where
  sp : Space
  fmt : Ty
  /-- the element width of `.bsi`, 2 for `.tern`: its planes -/
  planes : Nat
  rows : Nat
  cols : Nat
  addr : Nat
  stride : Nat
  deriving DecidableEq, Repr, Inhabited

/-- The bytes of an element. -/
def Tensor.esize (t : Tensor) : Nat := t.fmt.bytes

/-- A typed tensor: planes and scales in `.ab` or `.wb`. -/
def Tensor.typed (t : Tensor) : Bool := t.sp == .ab || t.sp == .wb

/-- L, the leading dimension (R119). -/
def Tensor.lead (t : Tensor) : Nat := if t.sp == .wb then t.cols else t.rows

/-- K, the extent along K (R119). -/
def Tensor.kdim (t : Tensor) : Nat := if t.sp == .wb then t.rows else t.cols

/-- KB (R119). -/
def Tensor.kblocks (t : Tensor) : Nat := (t.kdim + 31) / 32

/-- KS (R119). -/
def Tensor.kslices (t : Tensor) : Nat := (t.kdim + 255) / 256

/-- The bytes of the plane area (R119). -/
def Tensor.planeBytes (t : Tensor) : Nat := t.kslices * t.lead * t.planes * 32

/-- The bytes of the scale area (R119). -/
def Tensor.scaleBytes (t : Tensor) : Nat := t.lead * t.kblocks * 2

/-- The plane unit of a line, a K-slice and a plane (R119). -/
def Tensor.unitAt (t : Tensor) (line slice plane : Nat) : Nat := t.addr + ((slice * t.lead + line) * t.planes + plane) * 32

/-- The scale entry of a line and a block (R119). -/
def Tensor.scaleAt (t : Tensor) (line block : Nat) : Nat := t.stride + (line * t.kblocks + block) * 2

/-- Where an element of a plain tensor lies (R120, R135 without qualifiers). -/
def Tensor.elemAt (t : Tensor) (i j : Nat) : Nat :=
  if t.sp == .cb then t.addr + (i * t.cols + j) * t.esize else t.addr + i * t.stride + j * t.esize

/-- The bytes of a local space that a tensor covers, as ranges (R118). -/
def Tensor.footprint (t : Tensor) : List (Nat × Nat) :=
  match t.sp with
  | .g => []
  | .sp => [(t.addr, (t.rows - 1) * t.stride + t.cols * t.esize)]
  | .cb => [(t.addr, t.rows * t.cols * t.esize)]
  | _ => [(t.addr, t.planeBytes), (t.stride, t.scaleBytes)]

/-- Every range of a footprint lies below a size. -/
def Tensor.fits (t : Tensor) (size : Nat) : Bool := t.footprint.all fun r => r.1 + r.2 ≤ size

/-- The formats, alignments and footprints of R118. -/
def Tensor.ok (t : Tensor) (addr : Word) : Bool :=
  match t.sp with
  | .g => t.fmt != .bsi && t.fmt != .tern && canonical addr && t.addr % t.esize = 0 && t.stride % t.esize = 0 && t.cols * t.esize ≤ t.stride
  | .sp => t.fmt != .bsi && t.fmt != .tern && t.addr % t.esize = 0 && t.stride % t.esize = 0 && t.cols * t.esize ≤ t.stride
      && t.fits (physical .sp)
  | .cb => (t.fmt == .f32 || t.fmt == .f64) && t.addr % t.esize = 0 && t.stride = 0 && t.fits (physical .cb)
  | _ => (t.fmt == .bsi || (t.sp == .wb && t.fmt == .tern)) && t.addr % 32 = 0 && t.stride % 2 = 0 && t.fits (physical t.sp)
      && !meets t.addr t.planeBytes t.stride t.scaleBytes

/-- The words of a record (R117). -/
def recWord (r : BitVec 256) (k : Nat) : Word := (r >>> (64 * k)).setWidth 64

/-- The record's valid bit (R117). -/
def recValid (r : BitVec 256) : Bool := r.getLsbD 63

/-- Decode a record by R117 and R118; none: it is empty or invalid. -/
def decodeRec (r : BitVec 256) : Option Tensor :=
  let w0 := recWord r 0
  let w1 := recWord r 1
  let w2 := recWord r 2
  let w3 := recWord r 3
  if !recValid r || w0.extractLsb' 0 51 != 0 || w3.extractLsb' 32 32 != 0 then none
  else
    match Space.ofCode (w0.extractLsb' 60 3), Ty.ofCode (w0.extractLsb' 55 5) with
    | some sp, some fmt =>
      let width := (w0.extractLsb' 51 4).toNat
      let rows := (w1.extractLsb' 32 32).toNat
      let cols := (w1.extractLsb' 0 32).toNat
      let t : Tensor := {
        sp := sp
        fmt := fmt
        planes := if fmt == .bsi then width + 1 else 2
        rows := rows
        cols := cols
        addr := w2.toNat
        stride := (w3.extractLsb' 0 32).toNat }
      if (fmt != .bsi && width ≠ 0) || rows = 0 || cols = 0 || (sp != .g && w2.extractLsb' 32 32 != 0) then none
      else if t.ok w2 then some t
      else none
    | _, _ => none

/-- A handle's record; an empty handle holds zero (R116, R122). -/
def Group.handle (gr : Group) (h : BitVec 6) : BitVec 256 := Table.read gr.handles h.toNat 0

/-- 32 bytes as a record. -/
def recOfBytes (bs : List Byte) : BitVec 256 := BitVec.ofNat 256 (ofBytes bs)

-- hset and hget (R122) ----------------------------------------------------------------------------------------------------

/-- Put a record into a handle (R122): an invalid one with its valid bit set is refused, one with the bit clear empties it. -/
def State.setHandle (s : State) (v : View) (hd : BitVec 6) (r : BitVec 256) (note : Group → Group) : State :=
  if recValid r && (decodeRec r).isNone then s.faultHere v false Cause.handleBad
  else
    let s := s.modGroup v.a.g fun gr =>
      let gr := note gr
      { gr with handles := Table.write gr.handles hd.toNat (if recValid r then r else 0) 0 }
    s.retireClose v id

/-- Read a handle's record from the scratchpad (R122). -/
def State.readHandle (s : State) (v : View) (hd : BitVec 6) (off : Nat) : State :=
  s.spChecked v off 32 fun s =>
    let gr := (s.group? v.a.g).getD v.gr
    s.setHandle v hd (recOfBytes (gr.sp.read off 32)) fun gr => gr.noteSp off 32

/-- HSET (R122): its read of 32 bytes follows the full-cover rule (R234). -/
def execHset (g : Guard) (hd : BitVec 6) (idx : BitVec 16) (s : State) : Host.Outcome State Fault Refusal :=
  instr { guard := g, lane := false } s fun v _ =>
    let off := 8 * idx.toNat
    if v.gr.sp.size < off + 32 then s.faultHere v false Cause.spBound
    else
      match coverOf v.wv.sq .sp [⟨lowest v.en.mask, 0, off, 32⟩] with
      | .full bs => s.setHandle v hd (recOfBytes (bs.map (·.2))) id
      | .some => if s.det v.gr then s.endBefore v else (s.closeRegion v.a.g v.a.w).afterLate v fun s => s.readHandle v hd off
      | .free => s.afterLate v fun s => s.readHandle v hd off

/-- HGET (R122): a 32-byte store, held like any. -/
def execHget (g : Guard) (hd : BitVec 6) (idx : BitVec 16) (s : State) : Host.Outcome State Fault Refusal :=
  instr { guard := g, lane := false } s fun v _ =>
    let off := 8 * idx.toNat
    if v.gr.sp.size < off + 32 then s.faultHere v false Cause.spBound
    else
      let full := 32 ≤ s.queued v
      if full && s.det v.gr then s.endBefore v
      else
        let s := if full then s.closeRegion v.a.g v.a.w else s
        let e : SqEntry := { sp := .sp, items := [⟨lowest v.en.mask, off, toBytes (v.gr.handle hd).toNat 32⟩] }
        (s.enqueue v e).retire v 1

-- Queues (R123, R124) --------------------------------------------------------------------------------------------------------

/-- The queues: copy, matrix, gather, collective, task (R124). -/
def qCopy : Nat := 0
def qMatrix : Nat := 1
def qGather : Nat := 2
def qCollective : Nat := 3
def qTask : Nat := 4

/-- The depth of a queue per group (R123). -/
def queueDepth (q : Nat) : Nat := if q = 0 then 32 else if q = 3 then 8 else 16

/-- The commands of a group in a queue. -/
def State.queueLen (s : State) (g q : Nat) : Nat := (s.cmds.filter fun c => c.2.g = g && c.2.queue = q).length

/-- The number that the next command of a queue receives, and the queue after it (R124, R287). -/
def Queue.take (x : Queue) : Nat × Queue :=
  let n := min x.next (2 ^ 64 - 1)
  (n, { x with next := min (n + 1) (2 ^ 64 - 1) })

/-- Put a command in its queue (R123, R124): it is numbered, and its long-latency instruction is in flight. -/
def State.issueCmd (s : State) (v : View) (f : Flag) (q : Nat) (kind : CmdKind) (recs : List (BitVec 256)) (bar : Option (BitVec 16)) :
    State :=
  let id := s.nextId
  let (n, qu) := (v.gr.queue q).take
  let c : Cmd := {
    g := v.a.g
    wave := v.a.w
    queue := q
    num := n
    epoch := qu.epoch
    kind := kind
    recs := recs
    bar := bar.map (·.toNat)
    cstamp := v.wv.cstamp
    op := some (v.a.w, id + 1) }
  let s := { s with
    nextId := id + 1
    cmds := Table.insert s.cmds id c }
  (s.modGroup v.a.g fun gr => gr.setQueue q qu).issueLong v f v.en.mask true (.cmd id) true []

/-- Issue into a queue, or wait for room in it with the pipe kept (R123). The issue is a release toward the command (R193): the
region is closed and what the wave issued before is performed first. -/
def State.toQueue (s : State) (v : View) (f : Flag) (q : Nat) (kind : CmdKind) (recs : List (BitVec 256)) (bar : Option (BitVec 16)) : State :=
  if queueDepth q ≤ s.queueLen v.a.g q then s else s.afterRelease v fun s v => s.issueCmd v f q kind recs bar

/-- Whether BUFACL lets a copy land in a typed buffer, or take from it (R121). -/
def Group.copyAllowed (gr : Group) (sp : Space) (landing : Bool) : Bool :=
  let i := if landing then 2 else 3
  match sp with
  | .wb => gr.bufacl.getLsbD i
  | .ab => gr.bufacl.getLsbD (4 + i)
  | .cb => gr.bufacl.getLsbD (8 + i)
  | _ => true

/-- A tensor lies inside the group's allocation of its space (R326). -/
def Group.holds (gr : Group) (t : Tensor) : Bool := t.sp == .g || t.fits (gr.buf t.sp).size

-- Matrix products (R127, R128) -------------------------------------------------------------------------------------------------

/-- The quadrant of a rank: first row, first column, rows, columns (R128). -/
def quadrant (m n q : Nat) : Nat × Nat × Nat × Nat :=
  let r := 256 * (q / 2)
  let c := 256 * (q % 2)
  (r, c, min m (r + 256) - r, min n (c + 256) - c)

/-- The handles a product accepts (R127), and its part of the result: the shape, or the cause. -/
def State.productCheck (s : State) (gr : Group) (tern wh : Bool) (c a w : Tensor) : Except Cause (Nat × Nat × Nat × Nat) :=
  let lim := if wh then 512 else 256
  let part := if wh then quadrant a.rows w.cols (gr.core % 4) else (0, 0, a.rows, w.cols)
  let wOk := if wh then w.fmt == .bsi || w.fmt == .tern else if tern then w.fmt == .tern else w.fmt == .bsi
  let empty := wh && (part.2.2.1 = 0 || part.2.2.2 = 0)
  if c.sp != .cb || a.sp != .ab || w.sp != .wb || !wOk || lim < a.rows || lim < w.cols || a.cols ≠ w.rows
      || (!empty && (c.rows ≠ part.2.2.1 || c.cols ≠ part.2.2.2)) then .error Cause.handleKind
  else if wh && wheelSize (s.blockWord gr 0) ≠ 4 then .error Cause.wheelAbsent
  else if !(gr.holds c && gr.holds a && gr.holds w) then .error (Cause.engine Cause.eMatrix Cause.rBound)
  else .ok part

/-- Issue a matrix product (R127). -/
def product (g : Guard) (f : Flag) (tern init wh : Bool) (hc ha hw : BitVec 6) (s : State) : Host.Outcome State Fault Refusal :=
  instr { guard := g, lane := false, ends := true, long := some f } s fun v _ =>
    let rs := [v.gr.handle hc, v.gr.handle ha, v.gr.handle hw]
    match decodeRec (v.gr.handle hc), decodeRec (v.gr.handle ha), decodeRec (v.gr.handle hw) with
    | some c, some a, some w =>
      match s.productCheck v.gr tern wh c a w with
      | .error e => s.faultHere v false e
      | .ok (m0, n0, mq, nq) => s.toQueue v f qMatrix (.product (w.fmt == .tern) init m0 n0 mq nq) rs none
    | _, _, _ => s.faultHere v false Cause.handleBad

/-- MMA (R127 to R129). -/
def execMma (g : Guard) (f : Flag) (hc ha hw : BitVec 6) (s : State) : Host.Outcome State Fault Refusal :=
  product g f false false false hc ha hw s

/-- MMA_INIT (R127 to R129). -/
def execMmaInit (g : Guard) (f : Flag) (hc ha hw : BitVec 6) (s : State) : Host.Outcome State Fault Refusal :=
  product g f false true false hc ha hw s

/-- MMA_TERN (R127 to R129). -/
def execMmaTern (g : Guard) (f : Flag) (hc ha hw : BitVec 6) (s : State) : Host.Outcome State Fault Refusal :=
  product g f true false false hc ha hw s

/-- MMA_TERN_INIT (R127 to R129). -/
def execMmaTernInit (g : Guard) (f : Flag) (hc ha hw : BitVec 6) (s : State) : Host.Outcome State Fault Refusal :=
  product g f true true false hc ha hw s

/-- MMA_WH (R127 to R129). -/
def execMmaWh (g : Guard) (f : Flag) (hc ha hw : BitVec 6) (s : State) : Host.Outcome State Fault Refusal :=
  product g f false false true hc ha hw s

/-- MMA_WH_INIT (R127 to R129). -/
def execMmaWhInit (g : Guard) (f : Flag) (hc ha hw : BitVec 6) (s : State) : Host.Outcome State Fault Refusal :=
  product g f false true true hc ha hw s

-- Copies, gathers, scatters (R133 to R137) ------------------------------------------------------------------------------------------

/-- A pairing of destination and source that R134 accepts. -/
def pairOk (d x : Tensor) : Bool :=
  if d.typed then !x.typed && x.sp != .cb && !x.fmt.isB
  else if x.typed then d.sp != .cb && !d.fmt.isB
  else if d.sp == .cb && x.sp == .cb then false
  else if d.fmt.isB || x.fmt.isB then d.fmt.isB && x.fmt.isB && d.fmt.width == x.fmt.width
  else true

/-- The copy engine converts the pairing natively (R140). -/
def nativePair (d x : Ty) : Bool :=
  let small (t : Ty) : Bool := t == .s8 || t == .s16 || t == .n8 || t == .n16 || t == .f16 || t == .bf16 || t == .f32 || t == .e4m3 || t == .e5m2
  let blocky (t : Ty) : Bool := t == .bsi || t == .tern
  if blocky d then small x
  else if blocky x then small d
  else (d.width ≤ 32 && x.width ≤ 32) || (d == .f64 && (x == .f32 || x == .f64)) || (d == .f32 && x == .f64)

/-- What R135 and R136 ask of a `tcopy`. -/
def copyShapeOk (tr rb mc : Bool) (d x : Tensor) : Bool :=
  (if tr then x.rows == d.cols && x.cols == d.rows && x.sp == .g && (x.esize == 1 || x.esize == 2)
   else x.rows == d.rows && x.cols == d.cols && (!rb || x.sp == .g)) && (!mc || d.sp != .g)

/-- The checks that end a copy's issue (R121, R326). -/
def Group.copyCheck (gr : Group) (kind : Nat) (d : Tensor) (srcs : List Tensor) : Option Cause :=
  if !gr.copyAllowed d.sp true || srcs.any (fun x => !gr.copyAllowed x.sp false) then some (Cause.engine Cause.eCopy Cause.rPermission)
  else if !gr.holds d || srcs.any (fun x => !gr.holds x) then some (Cause.engine kind Cause.rBound)
  else none

/-- TCOPY (R133 to R136). -/
def execTcopy (g : Guard) (f : Flag) (tr rb mc : Bool) (hd ha : BitVec 6) (bar : Option (BitVec 16)) (s : State) :
    Host.Outcome State Fault Refusal :=
  instr { guard := g, lane := false, ends := true, long := some f } s fun v _ =>
    match decodeRec (v.gr.handle hd), decodeRec (v.gr.handle ha) with
    | some d, some x =>
      if !pairOk d x || !copyShapeOk tr rb mc d x then s.faultHere v false Cause.handleKind
      else
        match v.gr.copyCheck Cause.eCopy d [x] with
        | some c => s.faultHere v false c
        | none => s.toQueue v f qCopy (.copy tr rb mc) [v.gr.handle hd, v.gr.handle ha] bar
    | _, _ => s.faultHere v false Cause.handleBad

/-- The shared part of `tgather` and `tscatter` (R137). -/
def gatherScatter (g : Guard) (f : Flag) (kind : CmdKind) (hd ha hx : BitVec 6) (bar : Option (BitVec 16)) (s : State)
    (shape : Tensor → Tensor → Tensor → Bool) : Host.Outcome State Fault Refusal :=
  instr { guard := g, lane := false, ends := true, long := some f } s fun v _ =>
    match decodeRec (v.gr.handle hd), decodeRec (v.gr.handle ha), decodeRec (v.gr.handle hx) with
    | some d, some x, some i =>
      if !pairOk d x || d.cols ≠ x.cols || i.fmt != .n32 || !(i.sp == .g || i.sp == .sp) || !shape d x i then s.faultHere v false Cause.handleKind
      else
        match v.gr.copyCheck Cause.eGather d [x, i] with
        | some c => s.faultHere v false c
        | none => s.toQueue v f qGather kind [v.gr.handle hd, v.gr.handle ha, v.gr.handle hx] bar
    | _, _, _ => s.faultHere v false Cause.handleBad

/-- TGATHER (R137). -/
def execTgather (g : Guard) (f : Flag) (hd ha hx : BitVec 6) (bar : Option (BitVec 16)) (s : State) :
    Host.Outcome State Fault Refusal :=
  gatherScatter g f .gather hd ha hx bar s fun d _ i => i.rows * i.cols == d.rows

/-- TSCATTER (R137). -/
def execTscatter (g : Guard) (f : Flag) (hd ha hx : BitVec 6) (bar : Option (BitVec 16)) (s : State) :
    Host.Outcome State Fault Refusal :=
  gatherScatter g f .scatter hd ha hx bar s fun d x i => i.rows * i.cols == x.rows && (d.sp == .g || d.sp == .sp)

-- Pushes (R142) -----------------------------------------------------------------------------------------------------------------------

/-- TASK_PUSH (R142). -/
def execTaskPush (g : Guard) (f : Flag) (sa : BitVec 6) (s : State) : Host.Outcome State Fault Refusal :=
  instr { guard := g, lane := false, ends := true, long := some f } s fun v _ => s.toQueue v f qTask (.push (v.sval s.tick sa)) [] none

/-- TASK_PUSH_WAVE (R142). -/
def execTaskPushWave (g : Guard) (f : Flag) (sa sb : BitVec 6) (s : State) : Host.Outcome State Fault Refusal :=
  instr { guard := g, lane := false, ends := true, long := some f } s fun v _ =>
    s.toQueue v f qTask (.pushWave (v.sval s.tick sa) (v.sval s.tick sb)) [] none

end Sys2Proof.Machine
end

