-- ==== Sys2Proof/Machine/System.lean ====
section
/-! DEFINITION. Class 4: system registers (R335 to R338) with BUFREQ (R288) and RINGDESC (R284), `trap` and `tret` (R339,
R340), `tlset` (R286, R341), history controls (R343), the issue of the long system instructions (R342 to R346), `sys.brk`,
`sys.dbgrd` (R347) and `sys.dgrd` (R348). -/

namespace Sys2Proof.Machine

open Sys2Proof

/-- What a class-4 instruction tells the shared checks (R335): it is banned in regions and ends a deterministic quantum. -/
def sysMeta (g : Guard) (sys : Bool) : Meta := { guard := g, lane := false, sys := sys, ends := true }

-- System registers: who may, and what they hold (R336) --------------------------------------------------------------------

/-- The least privilege of a system register: (read, write) needs system privilege; none: no such register. A read-only
register ignores writes at any privilege. -/
def sysregPriv (n : Nat) : Option (Bool × Bool) :=
  if n ≤ 0x001 || n = 0x003 || n = 0x004 || n = 0x005 then some (false, false)
  else if n = 0x002 || n = 0x008 || n = 0x009 || n = 0x00A then some (false, true)
  else if n = 0x00B || n = 0x00C || n = 0x00D then some (false, false)
  else if n = 0x010 || n = 0x011 || n = 0x012 then some (false, false)
  else if 0x020 ≤ n && n ≤ 0x023 then some (false, false)
  else if 0x030 ≤ n && n ≤ 0x037 then some (false, false)
  else if 0x040 ≤ n && n ≤ 0x04C then some (false, false)
  else if 0x050 ≤ n && n ≤ 0x05F then some (true, false)
  else if 0x060 ≤ n && n ≤ 0x06F then some (true, true)
  else if n = 0x070 then some (false, false)
  else none

/-- HORIZON: the largest H among the stacks as of the last round closed (R170). -/
def State.horizon (s : State) : Stamp := ((List.range 16).map fun k => (s.stack k).hRound).foldl stampMax (s.stack 0).hRound

/-- COREID (R11, R336). -/
def State.coreId (s : State) (core : Nat) : Word :=
  (0 : BitVec 38) ++ s.fabric.index ++ BitVec.ofNat 4 (core / 16) ++ BitVec.ofNat 6 (core / 4) ++ BitVec.ofNat 8 core

/-- CTXINFO (R336). -/
def State.ctxInfo (s : State) (ctx : BitVec 12) : Word :=
  let dbg := ((Table.find s.ctxs ctx.toNat).map (·.dbg)).getD false
  (0 : BitVec 50) ++ BitVec.ofBool dbg ++ BitVec.ofBool (s.sysPriv ctx) ++ ctx

/-- The value of a system register as an entity reads it (R336). -/
def State.sysreg (s : State) (v : View) (n : Nat) : Word :=
  if n = 0x000 then BitVec.ofNat 64 wwidth
  else if n = 0x001 then v.en.mask
  else if n = 0x002 then v.wv.cstamp
  else if n = 0x003 then s.horizon
  else if n = 0x004 then v.wv.fpstatus.setWidth 64
  else if n = 0x005 then (if s.det v.gr then BitVec.ofNat 32 (s.quantumOf v.gr) ++ BitVec.ofNat 32 v.wv.retired else 0)
  else if n = 0x008 then v.wv.cause
  else if n = 0x009 then v.wv.faultaddr
  else if n = 0x00A then v.wv.lanemask
  else if n = 0x00B then v.wv.sysstatus
  else if n = 0x00C then v.wv.trapbase
  else if n = 0x00D then v.wv.trappos
  else if n = 0x010 then s.coreId v.gr.core
  else if n = 0x011 then s.ctxInfo v.gr.ctx
  else if n = 0x012 then BitVec.ofNat 32 v.gr.lin ++ BitVec.ofNat 32 v.gr.pnum
  else if n = 0x020 then v.gr.bufacl
  else if n = 0x021 then v.gr.bufreq
  else if n = 0x022 then v.gr.uninitcount
  else if n = 0x023 then v.gr.uninitaddr
  else if 0x030 ≤ n && n ≤ 0x037 then Table.read v.gr.ringdesc (n - 0x030) 0
  else if 0x040 ≤ n && n ≤ 0x047 then Table.read v.gr.tlfault (n - 0x040) 0
  else if 0x048 ≤ n && n ≤ 0x04C then Table.read v.gr.qfault (n - 0x048) 0
  else if 0x060 ≤ n && n ≤ 0x06F then (s.stack (n - 0x060)).uncorrectable ++ (s.stack (n - 0x060)).corrected
  else if n = 0x070 then BitVec.ofNat 64 ((s.coreOf v.gr.core).bottom - (s.coreOf v.gr.core).top)
  else 0

/-- The causes of 9 bits that CAUSE and SYSSTATUS keep (R336). -/
def causeBits (x : Word) : Word := x &&& 0x1FF

/-- Write a system register of the wave (R93, R336); the others are unchanged. -/
def Wave.setSysreg (wv : Wave) (n : Nat) (x : Word) : Wave :=
  if n = 0x004 then { wv with fpstatus := x.setWidth 6 }
  else if n = 0x008 then { wv with cause := causeBits x }
  else if n = 0x009 then { wv with faultaddr := x }
  else if n = 0x00A then { wv with lanemask := x }
  else if n = 0x00B then { wv with sysstatus := causeBits x }
  else if n = 0x00C then { wv with trapbase := x }
  else if n = 0x00D then { wv with trappos := x &&& 0x80FFFFFFFFFFFFFF }
  else wv

/-- Write a system register of the group (R121, R124, R185, R336). -/
def Group.setSysreg (gr : Group) (n : Nat) (x : Word) : Group :=
  if n = 0x020 then { gr with bufacl := x &&& 0xFFF }
  else if n = 0x022 then { gr with uninitcount := x }
  else if n = 0x023 then { gr with uninitaddr := x }
  else if 0x040 ≤ n && n ≤ 0x047 then { gr with tlfault := Table.write gr.tlfault (n - 0x040) x 0 }
  else if 0x048 ≤ n && n ≤ 0x04C then { gr with qfault := Table.write gr.qfault (n - 0x048) x 0 }
  else gr

/-- Write a system register of the module (R336): STACKERR. -/
def State.setStackerr (s : State) (n : Nat) (x : Word) : State :=
  if 0x060 ≤ n && n ≤ 0x06F then
    s.modStack (n - 0x060) fun k => { k with corrected := x.setWidth 32, uncorrectable := x.extractLsb' 32 32 }
  else s

/-- The register exists and the context may use it so (R336, R349). -/
def State.sysregCheck (s : State) (v : View) (n : Nat) (write : Bool) : Option Cause :=
  match sysregPriv n with
  | none => some Cause.sysregBad
  | some (r, w) => if (if write then w else r) && !s.sysPriv v.gr.ctx then some Cause.priv else none

/-- SYS_RD (R336, R338). -/
def execSysRd (g : Guard) (sd : BitVec 6) (reg : BitVec 12) (s : State) : Host.Outcome State Fault Refusal :=
  instr (sysMeta g false) s fun v _ =>
    match s.sysregCheck v reg.toNat false with
    | some c => s.faultHere v false c
    | none => s.retireClose v (v.putS s.tick sd (s.sysreg v reg.toNat))

/-- SYS_WR (R336, R338). -/
def execSysWr (g : Guard) (reg : BitVec 12) (sa : BitVec 6) (s : State) : Host.Outcome State Fault Refusal :=
  instr (sysMeta g false) s fun v _ =>
    match s.sysregCheck v reg.toNat true with
    | some c => s.faultHere v false c
    | none =>
      let x := v.sval s.tick sa
      ((s.setStackerr reg.toNat x).modGroup v.a.g fun gr => gr.setSysreg reg.toNat x).retireClose v fun wv => wv.setSysreg reg.toNat x

/-- CSTAMP_WRITE (R163, R336): it merges by maximum. -/
def execCstampWrite (g : Guard) (sa : BitVec 6) (s : State) : Host.Outcome State Fault Refusal :=
  instr (sysMeta g true) s fun v _ =>
    let x := v.sval s.tick sa
    if stampCmp x v.wv.cstamp = .far then s.faultHere v false Cause.stampWindow
    else s.retireClose v fun wv => wv.mergeStamp (some x)

/-- The messages held for a ring whose descriptor is changed end with `RING_OFF` (R309): they are told so. -/
def LongOp.ringChanged (o : LongOp) (lin : Nat) (k : BitVec 3) : LongOp :=
  match o.body with
  | .msg sd dest src (some t) _ =>
    if (dest.extractLsb' 0 32).toNat = lin && dest.extractLsb' 32 3 == k then { o with body := .msg sd dest src (some t) true } else o
  | _ => o

/-- Tell the messages of a launch. -/
def State.ringChanged (s : State) (launch lin : Nat) (k : BitVec 3) : State :=
  let tell (wv : Wave) : Wave := { wv with ops := Table.mapValues wv.ops fun _ o => o.ringChanged lin k }
  { s with groups := Table.mapValues s.groups fun _ gr => if gr.launch = launch then { gr with waves := gr.waves.map tell } else gr }

/-- RINGDESC_WRITE (R284): a ring that is misplaced, has no such slot count, or lies beyond the allocation is disabled. -/
def execRingdescWrite (g : Guard) (k : BitVec 3) (sa : BitVec 6) (s : State) : Host.Outcome State Fault Refusal :=
  instr (sysMeta g false) s fun v _ =>
    let x := v.sval s.tick sa &&& 0x800000000FFFFFFF
    let ok := match ringOf x with
      | some r => x.extractLsb' 0 3 == 0 && r.base + 64 + 72 * r.slots ≤ v.gr.sp.size
      | none => false
    let x' := if ok then x else x &&& 0x7FFFFFFFFFFFFFFF
    let s := if Table.read v.gr.ringdesc k.toNat 0 == x' then s else s.ringChanged v.gr.launch v.gr.lin k
    (s.modGroup v.a.g fun gr => { gr with ringdesc := Table.write gr.ringdesc k.toNat x' 0 }).retireClose v id

/-- TURNRPT_READ (R337): the oldest report leaves the queue. -/
def execTurnrptRead (g : Guard) (sd : BitVec 6) (n : BitVec 4) (s : State) : Host.Outcome State Fault Refusal :=
  instr (sysMeta g true) s fun v _ =>
    let q := (s.stack n.toNat).reports
    (s.modStack n.toNat fun k => { k with reports := k.reports.drop 1 }).retireClose v (v.putS s.tick sd (q.headD 0))

-- Buffer requests (R288, R326) ------------------------------------------------------------------------------------------------

/-- The space a request names (R288). -/
def bufSpace (x : Word) : Space :=
  match (x.extractLsb' 0 2).toNat with
  | 0 => .sp
  | 1 => .wb
  | 2 => .ab
  | _ => .cb

/-- A group occupies its core (R273). -/
def Group.resident (gr : Group) : Bool := gr.state == .running || (gr.state == .draining && !gr.offCore)

/-- The bytes of a buffer of a core that resident groups hold, one group left out. -/
def State.held (s : State) (core : Nat) (sp : Space) (except : Nat) : Nat :=
  s.groups.foldl (fun n p => if p.2.core = core && p.2.resident && p.1 ≠ except then n + (p.2.buf sp).size else n) 0

/-- A barrier word ceases to be one when its offset is freed (R306). -/
def Group.freeMarks (gr : Group) (n : Nat) : Group := { gr with marks := Table.drop gr.marks fun k _ => n < 8 * k + 8 }

/-- Give a group a new size of a buffer (R288): what lies above it is lost, what is new is invalid. -/
def Group.resize (gr : Group) (sp : Space) (units : Nat) : Group :=
  let gr := gr.setBuf sp ((gr.buf sp).shrink (4096 * units))
  if sp == .sp then gr.freeMarks (4096 * units) else gr

/-- A command names an offset of a buffer at or above a size: by a tensor, or by its barrier word. -/
def Cmd.namesBeyond (c : Cmd) (sp : Space) (size : Nat) : Bool :=
  (c.recs.any fun r => match decodeRec r with | some t => t.sp == sp && !t.fits size | none => false) ||
    (sp == .sp && match c.bar with | some k => size < 8 * k + 8 | none => false)

/-- An issued command of the group that names what a smaller allocation would free has not completed (R326). -/
def State.namedBeyond (s : State) (g : Nat) (sp : Space) (size : Nat) : Bool :=
  s.cmds.any fun c => c.2.g = g && c.2.namesBeyond sp size

/-- An entity of a core waits for a larger allocation of a buffer (R288). -/
def State.waitsFor (s : State) (core : Nat) (sp : Space) : Bool :=
  s.groups.any fun p => p.2.core = core && p.2.resident && p.2.waves.any fun w => w.ents.any fun e =>
    match e.2.park with
    | some (.bufreq sp' _) => sp' == sp
    | _ => false

/-- What a BUFREQ write does (R288): p6 is set on a grant; on a refusal it is cleared and BUFREQ records the cause. -/
def State.bufRequest (s : State) (v : View) (x : Word) : State :=
  let sp := bufSpace x
  let units := (x.extractLsb' 2 10).toNat
  let size := (v.gr.buf sp).size
  let held := s.held v.gr.core sp v.a.g
  let s := s.modGroup v.a.g fun gr => { gr with bufreq := x &&& 0xFFF, bufBy := some (v.a.w, v.a.e) }
  if 4096 * units ≤ size then
    if s.namedBeyond v.a.g sp (4096 * units) && 4096 * units < size then s.parkAfter v (.bufreq sp units)
    else (s.modGroup v.a.g fun gr => gr.resize sp units).retireWith v fun wv => wv.setP6 v.en.mask true
  else if physical sp < held + 4096 * units then
    (s.modGroup v.a.g fun gr => { gr with bufreq := (1 : BitVec 1) ++ Cause.allocRefused ++ (0 : BitVec 42) ++ x.extractLsb' 0 12 }).retireWith v
      fun wv => wv.setP6 v.en.mask false
  else s.parkAfter v (.bufreq sp units)

/-- BUFREQ_WRITE (R288). -/
def execBufreqWrite (g : Guard) (sa : BitVec 6) (s : State) : Host.Outcome State Fault Refusal :=
  instr (sysMeta g false) s fun v _ =>
    let x := v.sval s.tick sa
    if x.extractLsb' 12 42 != 0 then s.faultHere v false Cause.rsvField
    else s.closeFirst v fun s v => s.bufRequest v x

-- Trap and return (R339, R340) ----------------------------------------------------------------------------------------------------

/-- Take a trap to the wave's handler table: TRAPPOS saves the header after the clause, and the entity goes on at the entry
of the table (R339). -/
def State.takeTrap (s : State) (v : View) (n : Nat) : State :=
  if v.wv.trapbase = 0 || v.wv.trappos.getLsbD 63 || 1 < v.wv.ents.length then s.faultHere v false Cause.trapState
  else
    let pos : Word := (0x80 : BitVec 8) ++ v.nextHdr.extractLsb' 0 56
    ((s.modWave v.a.g v.a.w fun wv => { wv with trappos := pos }).retireTo v (v.wv.trapbase + BitVec.ofNat 64 (64 * n))).close v

/-- Return from a trap (R340). -/
def State.trapReturn (s : State) (v : View) : State :=
  if !v.wv.trappos.getLsbD 63 || 1 < v.wv.ents.length then s.faultHere v false Cause.trapState
  else
    let pc := (v.wv.trappos.extractLsb' 0 56).signExtend 64
    ((s.modWave v.a.g v.a.w fun wv => { wv with trappos := wv.trappos &&& 0x7FFFFFFFFFFFFFFF }).retireTo v pc).close v

/-- TRAP (R339): 0 to 4 enter the handler table, 5 to 63 raise an MSI-X vector. -/
def execTrap (g : Guard) (n : BitVec 6) (s : State) : Host.Outcome State Fault Refusal :=
  instr { sysMeta g (5 ≤ n.toNat) with place := .last, drains := true } s fun v _ =>
    if n.toNat ≤ 4 then s.takeTrap v n.toNat else (s.raiseVector n.toNat).retireClose v id

/-- TRET (R340). -/
def execTret (g : Guard) (s : State) : Host.Outcome State Fault Refusal :=
  instr { sysMeta g false with place := .last, drains := true } s fun v _ => s.trapReturn v

-- Timelines (R286, R341) --------------------------------------------------------------------------------------------------------------

/-- Wake the entities parked on a timeline of a queue for a value reached, with their acquires (R285, R286, R196). -/
def State.wakeTimelines (s : State) (g q c : Nat) (x : Option Stamp) : State :=
  match s.group? g with
  | none => s
  | some gr =>
    let due (e : Entity) : Bool := match e.park with
      | some (.timeline tl n _) => gr.boundTo tl == q && decide (n ≤ c)
      | _ => false
    let wideDue (e : Entity) : Bool := match e.park with
      | some (.timeline _ _ sc) => Scope.wide sc
      | _ => false
    let woken := gr.waves.flatMap fun w => (w.ents.filter fun e => due e.2).map (·.2)
    let wake (w : Wave) : Wave :=
      if w.ents.any (fun e => due e.2) then
        { (w.acquire.mergeStamp x) with ents := Table.mapValues w.ents fun _ e => if due e then e.wake else e }
      else w
    let s := s.modGroup g fun gr => { gr with waves := gr.waves.map wake }
    if woken.any wideDue then s.dropL1 gr.core else s

/-- The write of R286 to a queue of a group. -/
def State.tlset (s : State) (g q v : Nat) : State :=
  match s.group? g with
  | none => s
  | some gr =>
    let old := gr.queue q
    let faults := if v < old.c then (gr.boundTimelines q).foldl (fun t k => firstError t k (errorWord Cause.tlBackward v)) gr.tlfault
      else gr.tlfault
    let s := s.modGroup g fun gr => { gr.setQueue q { old with c := v, next := v + 1, ahead := [], epoch := old.epoch + 1 } with tlfault := faults }
    s.wakeTimelines g q v old.stamp

/-- TLSET (R341). -/
def execTlset (g : Guard) (tl : BitVec 3) (v : TlArg) (s : State) : Host.Outcome State Fault Refusal :=
  instr (sysMeta g true) s fun vw _ => (s.tlset vw.a.g (vw.gr.boundTo tl) (vw.tlArg s.tick v)).retireClose vw id

-- The long system instructions: their issue (R342, R344 to R346) ---------------------------------------------------------------------------

/-- Issue a long-latency class-4 instruction; what it does comes at completion. -/
def State.issueSys (s : State) (v : View) (f : Flag) (body : OpBody) : State := (s.close v).issueLong v f v.en.mask true body false []

/-- SYS_CTXSAVE (R342). -/
def execSysCtxsave (g : Guard) (f : Flag) (sd sa : BitVec 6) (s : State) : Host.Outcome State Fault Refusal :=
  instr { sysMeta g true with long := some f } s fun v _ => s.issueSys v f (.ctxsave sd (v.sval s.tick sa).toNat)

/-- SYS_CTXLOAD (R342). -/
def execSysCtxload (g : Guard) (f : Flag) (sd sa : BitVec 6) (s : State) : Host.Outcome State Fault Refusal :=
  instr { sysMeta g true with long := some f } s fun v _ => s.issueSys v f (.ctxload sd (v.sval s.tick sa).toNat)

/-- SYS_PGATTR (R344): malformed operands fault at issue. -/
def execSysPgattr (g : Guard) (f : Flag) (sa sb : BitVec 6) (s : State) : Host.Outcome State Fault Refusal :=
  instr { sysMeta g true with long := some f } s fun v _ =>
    let a := v.sval s.tick sa
    let b := v.sval s.tick sb
    if a.extractLsb' 0 16 != 0 || b.extractLsb' 58 3 != 0 || b.extractLsb' 32 23 != 0 || b.extractLsb' 12 19 != 0 then
      s.faultHere v false Cause.rsvField
    else s.issueSys v f (.pgattr a b .begun)

/-- The shared part of R345. -/
def State.issueInvalidate (s : State) (v : View) (f : Flag) (win : Bool) (a b : Word) : State :=
  if a.extractLsb' 0 16 != 0 || b.extractLsb' 44 20 != 0 then s.faultHere v false Cause.rsvField
  else
    let ctx := b.extractLsb' 32 12
    s.issueSys v f (.tlbinv win a (b.extractLsb' 0 32).toNat (if ctx = 0 then v.gr.ctx else ctx) none)

/-- SYS_TLBINV (R322, R345). -/
def execSysTlbinv (g : Guard) (f : Flag) (sa sb : BitVec 6) (s : State) : Host.Outcome State Fault Refusal :=
  instr { sysMeta g true with long := some f } s fun v _ => s.issueInvalidate v f false (v.sval s.tick sa) (v.sval s.tick sb)

/-- SYS_WININV (R322, R345). -/
def execSysWininv (g : Guard) (f : Flag) (sa sb : BitVec 6) (s : State) : Host.Outcome State Fault Refusal :=
  instr { sysMeta g true with long := some f } s fun v _ => s.issueInvalidate v f true (v.sval s.tick sa) (v.sval s.tick sb)

/-- SYS_L1INV (R346). -/
def execSysL1inv (g : Guard) (f : Flag) (s : State) : Host.Outcome State Fault Refusal :=
  instr { sysMeta g false with long := some f } s fun v _ => s.issueSys v f (.l1 true)

/-- SYS_L1WB (R346): no effect on this part. -/
def execSysL1wb (g : Guard) (f : Flag) (s : State) : Host.Outcome State Fault Refusal :=
  instr { sysMeta g false with long := some f } s fun v _ => s.issueSys v f (.l1 false)

/-- The shared part of the slice instructions (R346): the range lies in one stack's DPA range. A first DPA that is not a multiple of 64, or
has a bit above [51:0], faults like a malformed length (DESIGN CHOICE, log 126). -/
def State.issueSlice (s : State) (v : View) (f : Flag) (drop : Bool) (a n : Word) : State :=
  if a.toNat % 64 ≠ 0 || 2 ^ 52 ≤ a.toNat || n.toNat % 64 ≠ 0 || n = 0 || 2 ^ 40 < dpaOffset a.toNat + n.toNat then
    s.faultHere v false Cause.rsvField
  else s.issueSys v f (.slice drop a.toNat n.toNat)

/-- SYS_SLWB (R346). -/
def execSysSlwb (g : Guard) (f : Flag) (sa sb : BitVec 6) (s : State) : Host.Outcome State Fault Refusal :=
  instr { sysMeta g true with long := some f } s fun v _ => s.issueSlice v f false (v.sval s.tick sa) (v.sval s.tick sb)

/-- SYS_SLINV (R346). -/
def execSysSlinv (g : Guard) (f : Flag) (sa sb : BitVec 6) (s : State) : Host.Outcome State Fault Refusal :=
  instr { sysMeta g true with long := some f } s fun v _ => s.issueSlice v f true (v.sval s.tick sa) (v.sval s.tick sb)

-- History controls (R343) ------------------------------------------------------------------------------------------------------------------------

/-- Refuse a history control: p6 is cleared and SYSSTATUS holds the cause (R335, R343). -/
def State.sysRefuse (s : State) (v : View) (c : Cause) : State :=
  s.retireClose v fun wv => { wv.setP6 v.en.mask false with sysstatus := c.setWidth 64 }

/-- A history control has succeeded. -/
def State.sysDone (s : State) (v : View) : State := s.retireClose v fun wv => wv.setP6 v.en.mask true

/-- Reclaim from the oldest end every record at or below a stamp, up to a pinned one (R170, R171, R343). -/
def State.advance (s : State) (k : Nat) (t : Stamp) : Nat → State
  | 0 => s
  | fuel + 1 =>
    match (s.stack k).log with
    | [] => s
    | r :: _ => if stampLe r.sup t && s.holdsAllow r.sup then State.advance (s.reclaim k) k t fuel else s

/-- SYS_HADV (R343). -/
def execSysHadv (g : Guard) (sa sb : BitVec 6) (s : State) : Host.Outcome State Fault Refusal :=
  instr (sysMeta g true) s fun v _ =>
    let t := v.sval s.tick sa
    let b := (v.sval s.tick sb).toNat
    let ks := if b = 16 then List.range 16 else [b]
    if 16 < b then s.sysRefuse v Cause.rsvField
    else if ks.any fun k => stampCmp t (s.stack k).h == .far then s.sysRefuse v Cause.stampWindow
    else (ks.foldl (fun s k => s.advance k t ((s.stack k).log.length)) s).sysDone v

/-- The Rind words that a versioned page needs (R168, R179): its header and its granules' records; of a page that is being moved, those of
the capacity tier. The headers of unversioned pages take no room (DESIGN CHOICE, log 112). -/
def Page.rindWords (p : Page) : Nat :=
  let n := 2 ^ 16 / granSize p.gran
  if !p.v then 0
  else if p.capacity || p.migrating then 2 + 2 * n
  else if p.gran = 3 then 2
  else if p.gran = 2 then 2 + n
  else 2 + 2 * n

/-- The Rind words in use in a stack. -/
def State.rindUsed (s : State) (k : Nat) : Nat :=
  s.pages.foldl (fun n p => if p.1 / 2 ^ 24 = k then n + p.2.rindWords else n) 0

/-- The Rind words of a pool in MiB. -/
def rindRoom (mib : Nat) : Nat := mib * 2 ^ 20 / 8

/-- The stack's media reserve lacks room: the manual gives neither its size nor what it holds, so whether it does is a free
value (R343, R362, log 20). -/
def State.reserveLacks (s : State) (k : Nat) : Bool := Config.pick s.tick (2 ^ 80 + k)

/-- A page of a stack is versioned. -/
def State.versioned (s : State) (k : Nat) : Bool := s.pages.any fun p => p.1 / 2 ^ 24 = k && p.2.v

/-- `sys.wsize` is refused (R343). -/
def State.wsizeRefused (s : State) (k size pool : Nat) : Bool :=
  !s.holds.isEmpty || (size = 0 && s.versioned k) || rindRoom pool < s.rindUsed k || s.reserveLacks k

/-- The one step of `sys.wsize` at a stack (R343): H rises to the largest of its slices' counts, every record is reclaimed,
every link becomes none. -/
def State.wsize (s : State) (k size pool : Nat) : State :=
  let h := (List.range 4).foldl (fun h i => stampMax h (mkStamp (s.sliceCount (4 * k + i)) (s.originOf (4 * k + i)))) (s.stack k).h
  let s := s.modStack k fun st => { st with whey := size, rind := pool, log := [], base := st.next, h := h }
  { s with glinks := Table.drop s.glinks fun a _ => dpaStack a == k }.broadcast (64 + k) (.horizon k h)

/-- SYS_WSIZE (R169, R343). -/
def execSysWsize (g : Guard) (sa sb : BitVec 6) (s : State) : Host.Outcome State Fault Refusal :=
  instr (sysMeta g true) s fun v _ =>
    let size := (v.sval s.tick sa).toNat
    let b := v.sval s.tick sb
    let k := (b.extractLsb' 0 4).toNat
    let pool := (b.extractLsb' 32 16).toNat
    if size % 2 ^ 26 ≠ 0 || 12 * 2 ^ 30 < size || b.extractLsb' 4 28 != 0 || b.extractLsb' 48 16 != 0 then s.sysRefuse v Cause.rsvField
    else if s.wsizeRefused k size pool then s.sysRefuse v Cause.wheyBusy
    else (s.wsize k size pool).sysDone v

/-- Revoke a hold of a context, if it is placed, and tell its owner (R173, R343). -/
def State.revokeHold (s : State) (ctx : BitVec 12) (slot : Nat) : State :=
  match Table.find s.holds (holdKey ctx slot) with
  | some h => s.revoke (holdKey ctx slot) h
  | none => s

/-- SYS_HREVOKE (R343). A hold on another module of the domain is that module's to revoke. -/
def execSysHrevoke (g : Guard) (sa sb : BitVec 6) (s : State) : Host.Outcome State Fault Refusal :=
  instr (sysMeta g true) s fun v _ =>
    let x := v.sval s.tick sa
    let ctx := (v.sval s.tick sb).setWidth 12
    let m := (x.extractLsb' 8 8).toNat
    if !x.getLsbD 16 || x.extractLsb' 17 47 != 0 || x.extractLsb' 4 4 != 0 || !s.inDomain m then s.sysRefuse v Cause.holdBad
    else if m = s.fabric.index.toNat then (s.revokeHold ctx (x.extractLsb' 0 4).toNat).sysDone v
    else (s.send (BitVec.ofNat 8 m) (.holdRevoke ctx (x.extractLsb' 0 4))).sysDone v

-- Debug and the dependence graph (R347, R348) ----------------------------------------------------------------------------------------------------------

/-- SYS_BRK (R347): with `mbd` in reach the entity stops, and n goes to the debugger. -/
def execSysBrk (g : Guard) (n : BitVec 12) (s : State) : Host.Outcome State Fault Refusal :=
  instr (sysMeta g false) s fun v _ =>
    let s1 := s.retireClose v id
    if s.reaches v.gr.ctx then
      { s1.modEnt v.a (fun e => { e with stopped := true, pipe := none }) with
        mbd := { s1.mbd with answers := .words [n.setWidth 64] :: s1.mbd.answers } }
    else s1

/-- SYS_DBGRD (R347). -/
def execSysDbgrd (g : Guard) (sd : BitVec 6) (s : State) : Host.Outcome State Fault Refusal :=
  instr (sysMeta g false) s fun v _ =>
    let x : Word := (0 : BitVec 60) ++ BitVec.ofBool (s.boot.security == .secure) ++ BitVec.ofBool (s.reaches v.gr.ctx) ++ BitVec.ofNat 2 s.boot.mode
    s.retireClose v (v.putS s.tick sd x)

/-- The number of a slot's state (R348). -/
def SlotState.code : SlotState → BitVec 3
  | .live => 1
  | .committing => 2
  | .aborting => 3

/-- The state word of a slot (R348); a free slot's is zero. -/
def State.slotWord (s : State) (i : Nat) : Word :=
  match Table.find s.slots i with
  | some x => x.state.code ++ BitVec.ofNat 3 x.depth ++ BitVec.ofNat 8 x.core ++ x.start
  | none => 0

/-- A word of a row of the dependence or the reachability matrix (R348). -/
def State.matrixWord (s : State) (i w : Nat) (paths : Bool) : Word :=
  let row := if paths then s.closure (s.successors i) unitSlots else s.successors i
  row.foldl (fun x j => if j / 64 = w then x ||| BitVec.twoPow 64 (j % 64) else x) 0

/-- The word of the Unit that a selector names (R348). -/
def State.dgWord (s : State) (a : Word) : Word :=
  let i := (a.extractLsb' 0 8).toNat
  if a.getLsbD 11 then s.slotWord i else s.matrixWord i (a.extractLsb' 9 2).toNat (a.getLsbD 8)

/-- SYS_DGRD (R348). -/
def execSysDgrd (g : Guard) (sd sa : BitVec 6) (s : State) : Host.Outcome State Fault Refusal :=
  instr (sysMeta g true) s fun v _ =>
    let a := v.sval s.tick sa
    if a.extractLsb' 12 52 != 0 then s.faultHere v false Cause.rsvField
    else
      s.retireClose v (v.putS s.tick sd (s.dgWord a))

end Sys2Proof.Machine
end

