-- ==== Sys2Proof/Machine/Engine.lean ====
section
/-! DEFINITION. The engines at work: what a copy, gather or scatter reads and lands (R134 to R140), and the K-steps of a
matrix product (R125, R129 to R132). -/

namespace Sys2Proof.Machine

open Sys2Proof

-- Who lands where -------------------------------------------------------------------------------------------------------

/-- The groups of a group's wheel by rank order (R136, R272): the one of each linear index, unless it is freed. An index of the last
wheel that the launch has no group for counts as a receiver that has exited (DESIGN CHOICE, log 110). -/
def State.wheel (s : State) (gr : Group) : List (Option Nat) :=
  let w := wheelSize (s.blockWord gr 0)
  (List.range w).map fun i =>
    (s.groups.find? fun p => p.2.launch = gr.launch && p.2.lin = gr.lin / w * w + i && p.2.state != .freed).map (·.1)

/-- A copy, gather or scatter with its handles as they stood at issue. -/
structure Job where
  c : Cmd
  gr : Group
  d : Tensor
  x : Tensor
  /-- the index tensor of a gather or scatter -/
  idx : Option Tensor
  deriving Repr

/-- The job of a command. -/
def State.job (s : State) (id : Nat) : Option Job :=
  match Table.find s.cmds id with
  | none => none
  | some c =>
    match s.group? c.g, decodeRec (c.recs.getD 0 0), decodeRec (c.recs.getD 1 0) with
    | some gr, some d, some x =>
      match c.kind with
      | .copy _ _ _ => some ⟨c, gr, d, x, none⟩
      | .gather | .scatter => some ⟨c, gr, d, x, decodeRec (c.recs.getD 2 0)⟩
      | _ => none
    | _, _, _ => none

/-- A scatter. -/
def Job.scatters (j : Job) : Bool := j.c.kind == .scatter

/-- The receivers of the landings (R136). -/
def State.receivers (s : State) (j : Job) : List (Option Nat) :=
  match j.c.kind with
  | .copy _ _ true => s.wheel j.gr
  | _ => [some j.c.g]

/-- Pieces of 32 elements in a row of a plain tensor (log 9). -/
def Tensor.chunks (t : Tensor) : Nat := (t.cols + 31) / 32

/-- The 512-byte spans a row can touch: each holds whole granules of every size. -/
def Tensor.spans (t : Tensor) : Nat := t.cols * t.esize / 512 + 2

/-- The columns of a row that lie in a 512-byte span of the address space. -/
def Tensor.spanCols (t : Tensor) (row span : Nat) : List Nat :=
  let base := t.elemAt row 0
  let lo := (512 * span - base) / t.esize
  (List.range (min t.cols ((512 * (span + 1) - base) / t.esize) - lo)).map (lo + ·)

/-- The elements of a tensor in the b-th span of a row: those of later rows too, and none where the row before reaches it, so that
every span comes once. -/
def Tensor.spanElems (t : Tensor) (row b : Nat) : List (Nat × Nat) :=
  let span := t.elemAt row 0 / 512 + b
  if (t.spanCols row span).isEmpty || (0 < row && !(t.spanCols (row - 1) span).isEmpty) then []
  else (List.range (min 512 (t.rows - row))).flatMap fun i => (t.spanCols (row + i) span).map fun c => (row + i, c)

/-- The pieces of a line or row (log 9): a block of a line of a typed buffer; of a row in `.g`, what lies in one 512-byte span, so
that each granule gets one request (R154); else 32 elements of a row. -/
def Job.perLine (j : Job) : Nat := if j.d.typed then j.d.kblocks else if j.d.sp == .g then j.d.spans else j.d.chunks

/-- The pieces of a job: each lands in every receiver of a multicast at once, so that any two are seen in one order (R209). -/
def Job.pieces (j : Job) : Nat := (if j.d.typed then j.d.lead else if j.scatters then j.x.rows else j.d.rows) * j.perLine


/-- The line and block of a piece, or its row and place in it. -/
def Job.place (j : Job) (p : Nat) : Nat × Nat := (p / j.perLine, p % j.perLine)

/-- The elements of a piece by row and column of the destination; of a scatter by row of the source, whose destination row is
given. -/
def Job.elemsAt (j : Job) (p row : Nat) : List (Nat × Nat) :=
  let (l, b) := j.place p
  if j.d.sp == .g then
    if j.scatters then (j.d.spanCols row (j.d.elemAt row 0 / 512 + b)).map fun c => (l, c) else j.d.spanElems l b
  else
    let n := if j.d.typed then j.d.kdim else j.d.cols
    let ks := (List.range (min 32 (n - 32 * b))).map (32 * b + ·)
    if j.d.sp == .wb then ks.map fun k => (k, l) else ks.map fun k => (l, k)

/-- The elements of a piece that no index places. -/
def Job.elems (j : Job) (p : Nat) : List (Nat × Nat) := j.elemsAt p (j.place p).1

/-- The bytes that a piece counts (R138). -/
def Job.counted (j : Job) (p row : Nat) : Nat := if j.d.typed then 4 * j.d.planes else (j.elemsAt p row).length * j.d.esize

-- Reading ---------------------------------------------------------------------------------------------------------------------

/-- What an engine's read gives: bytes, with whether an invalid word was among them; a refusal; a page that is not present, with its
address; what another module is to be asked for; or no answer yet. -/
inductive EngRead where
  | bytes (l : List Byte) (uninit : Bool)
  | refused (c : Cause)
  | absent (va : Word)
  | ask (i : ReqItem)
  | wait
  deriving DecidableEq, Repr, Inhabited

/-- A read of a command in flight over the fabric. -/
def State.asking (s : State) (id piece k : Nat) : Bool :=
  s.reqs.any fun r => r.2.agent == .cmd id && r.2.away.isSome && r.2.items.any fun i => i.thread = piece && i.byte = k

/-- Where a command keeps what another module has answered. -/
def gatherKey (piece k : Nat) : Nat := 2048 * piece + k

/-- A refused translation, for an access of a command: a walk's own refusal is of engine kind 6, whoever asked (R355). -/
def State.refusedCode (s : State) (id : Nat) : Refused → Cause
  | .reason r => s.refusalOf id r
  | .walk r => Cause.engine Cause.eWalk r
  | .link => Cause.linkFail

/-- A granule as a command gets it by one request (R154): its bytes, none for those whose code is uncorrectable; what can be corrected
is rewritten and counted (R159). -/
def State.fetchGranule (s : State) (base : Nat) : List (Option Byte) × State :=
  let n := granSize (s.page (dpaPage base)).gran
  let units := (List.range (n / 8)).map fun k => s.readCoded (base + 8 * k) 8
  let s := units.zipIdx.foldl (fun s u => match u.1 with
    | some (_, true) => (s.repairRange (base + 8 * u.2) 8).countCorrected base
    | _ => s) s
  (units.flatMap fun u => match u with
    | some (bs, _) => bs.map some
    | none => List.replicate 8 none, s)

/-- The bytes of a granule that a command has fetched: none where one of them could not be corrected. -/
def fetchedBytes (l : List (Option Byte)) (at_ n : Nat) : Option (List Byte) :=
  let bs := (l.drop at_).take n
  if bs.all (·.isSome) then some (bs.map (·.getD 0)) else none

/-- The granule that a command has fetched, as long as its page keeps its granule size. -/
def State.fetchedOf (s : State) (id base : Nat) : Option (List (Option Byte)) :=
  ((Table.find s.cmds id).bind fun c => Table.find c.fetched base).filter fun l => l.length == granSize (s.page (dpaPage base)).gran

/-- A write of a command to a granule is still to be performed: its own read of the granule waits behind it (R152). -/
def State.writesOn (s : State) (id base : Nat) : Bool :=
  s.reqs.any fun r => r.2.agent == .cmd id && r.2.away.isNone && r.2.gran == base && r.2.kind.writes

/-- A command reads bytes of a granule of this module: the first read fetches the granule, as one request that carries the causal stamp of
the command's issue (R154, R162, R180, R239). -/
def State.readGranule (s : State) (id : Nat) (gr : Group) (a n : Nat) : State × EngRead :=
  let base := s.granOf a
  let give (s : State) (l : List (Option Byte)) : State × EngRead :=
    match fetchedBytes l (a - base) n with
    | some bs => (s, .bytes bs false)
    | none => (s.countUncorrectable a, .refused (s.refusalOf id Cause.rUncorrectable))
  match s.fetchedOf id base with
  | some l => give s l
  | none =>
    if s.writesOn id base then (s, .wait)
    else
      let s := ((s.merge (homeSlice base) ((Table.find s.cmds id).map (·.cstamp))).countRequest base).recall base (some gr.core)
      let (l, s) := s.fetchGranule base
      give { s with cmds := Table.modify s.cmds id fun c => { c with fetched := Table.insert c.fetched base l } } l

/-- An engine reads bytes of `.g` (R139): the k-th read of a piece, through the group's context. -/
def State.engineReadG (s : State) (id : Nat) (gr : Group) (piece k : Nat) (va : Word) (n : Nat) : State × EngRead :=
  match s.translate gr.core gr.ctx { r := true } va with
  | .error (.reason 0) => (s, .absent va)
  | .error e => (s, .refused (s.refusedCode id e))
  | .ok d =>
    let s := s.walked gr.core gr.ctx va
    if s.ours d then s.readGranule id gr (dpaLocal d) n
    else if !s.routeUp (dpaModule d) then (s, .refused Cause.linkFail)
    else
      match (Table.find s.cmds id).bind fun c => Table.find c.gathered (gatherKey piece k) with
      | some bs => (s, .bytes bs false)
      | none => (s, if s.asking id piece k then .wait else .ask { thread := piece, byte := k, addr := d, len := n, x := va })

/-- An engine reads bytes of a local space (R139, R184, R370). -/
def State.engineReadL (s : State) (id : Nat) (gr : Group) (sp : Space) (off n : Nat) : EngRead :=
  if (gr.buf sp).sound off n then .bytes ((gr.buf sp).read off n) (!(gr.buf sp).allValid off n)
  else .refused (s.refusalOf id Cause.rUncorrectable)

/-- Read n bytes of a plain tensor's space. -/
def State.engineRead (s : State) (id : Nat) (gr : Group) (sp : Space) (piece k : Nat) (at_ : Nat) (n : Nat) : State × EngRead :=
  if sp == .g then s.engineReadG id gr piece k (BitVec.ofNat 64 at_) n else (s, s.engineReadL id gr sp at_ n)

/-- A command asks other modules for what it still misses: each gets one message (R154). -/
def State.askFar (s : State) (id : Nat) (gr : Group) (asks : List ReqItem) : State :=
  if asks.isEmpty then s
  else
    s.sendFar { agent := .cmd id, ctx := gr.ctx, launch := some gr.launch, kind := .load, gran := 0, items := [],
                carried := (Table.find s.cmds id).map (·.cstamp) } asks

/-- Where the source element of a destination element lies in a plain tensor (R135). -/
def Job.srcAt (j : Job) (row col : Nat) : Nat :=
  match j.c.kind with
  | .copy true _ _ => j.x.addr + col * j.x.stride + row * j.x.esize
  | .copy _ true _ => j.x.addr + col / 32 * j.x.stride + row * 32 * j.x.esize + col % 32 * j.x.esize
  | _ => j.x.elemAt row col

/-- An element of a typed tensor as it is stored: its bits, its scale, whether any of its words is invalid (R119), and whether all
of them have good codes (R370). -/
def Group.typedElem (gr : Group) (t : Tensor) (row col : Nat) : Nat × Nat × Bool × Bool :=
  let line := if t.sp == .wb then col else row
  let k := if t.sp == .wb then row else col
  let b := gr.buf t.sp
  let byteOf (p : Nat) : Nat := t.unitAt line (k / 256) p + k % 256 / 8
  let bits := (List.range t.planes).foldl (fun n p => n + (b.byte (byteOf p)).toNat / 2 ^ (k % 8) % 2 * 2 ^ p) 0
  let at_ := t.scaleAt line (k / 32)
  (bits, ofBytes (b.read at_ 2) % 2 ^ 12, !(b.allValid at_ 2 && (List.range t.planes).all fun p => b.isValid (byteOf p)),
    b.sound at_ 2 && (List.range t.planes).all fun p => b.sound (byteOf p) 1)

/-- Values of a piece as far as they have been read: in order, with what ended the reading. -/
structure Reading where
  s : State
  /-- a plain source's words, or elements with their scales -/
  vals : List (Word × Nat) := []
  uninit : Bool := false
  /-- a row beyond the source's (R137) -/
  beyond : Bool := false
  /-- what is still to be asked of other modules -/
  asks : List ReqItem := []
  stop : Option EngRead := none

/-- Take one answer into a reading: what is to be asked of another module, or has been, does not stop the rest. -/
def Reading.take (a : Reading) (x : State × EngRead) (f : List Byte → Word × Nat) : Reading :=
  match x with
  | (s, .bytes bs u) => { a with s := s, vals := a.vals ++ [f bs], uninit := a.uninit || u }
  | (s, .ask i) => { a with s := s, asks := a.asks ++ [i] }
  | (s, r) => { a with s := s, stop := some r }

/-- Read the index of a row (R137), where there is an index tensor; `row` is its place in row-major order. None: it has not come
yet. -/
def Reading.index (a : Reading) (id : Nat) (j : Job) (piece k row : Nat) : Reading × Option Nat :=
  match j.idx with
  | none => (a, some row)
  | some i =>
    let b := a.take (a.s.engineRead id j.gr i.sp piece (1024 + k) (i.elemAt (row / i.cols) (row % i.cols)) 4) fun bs => (BitVec.ofNat 64 (ofBytes bs), 0)
    ({ b with vals := a.vals }, if b.vals.length = a.vals.length then none else b.vals.getLast?.map fun v => v.1.toNat)

/-- Read one source element by its row and column. -/
def Reading.elem (a : Reading) (id : Nat) (j : Job) (piece k row col : Nat) : Reading :=
  if j.x.typed then
    let (e, sc, u, good) := j.gr.typedElem j.x row col
    if good then { a with vals := a.vals ++ [(BitVec.ofNat 64 e, sc)], uninit := a.uninit || u }
    else { a with stop := some (.refused (a.s.refusalOf id Cause.rUncorrectable)) }
  else a.take (a.s.engineRead id j.gr j.x.sp piece k (j.srcAt row col) j.x.esize) fun bs => (BitVec.ofNat 64 (ofBytes bs), 0)

/-- Read the k-th element of a piece: a gather's row comes from its index. -/
def Reading.next (a : Reading) (id : Nat) (j : Job) (piece k : Nat) (e : Nat × Nat) : Reading :=
  if a.stop.isSome then a
  else
    let (a, row) := if j.scatters then (a, some e.1) else a.index id j piece k e.1
    match row with
    | none => a
    | some row =>
      if !j.scatters && j.idx.isSome && j.x.rows ≤ row then { a with vals := a.vals ++ [(0, 0)], beyond := true }
      else a.elem id j piece k row e.2

/-- End a reading: other modules are asked for what is missing. -/
def Reading.close (a : Reading) (id : Nat) (j : Job) : Reading :=
  if a.asks.isEmpty || a.stop.isSome then a
  else { a with s := a.s.askFar id j.gr a.asks, asks := [], stop := some .wait }

/-- Read the elements of a piece. -/
def State.readElems (s : State) (id : Nat) (j : Job) (piece : Nat) (es : List (Nat × Nat)) : Reading :=
  Reading.close (es.zipIdx.foldl (fun (a : Reading) e => a.next id j piece e.2 e.1) { s := s }) id j

-- Conversion -------------------------------------------------------------------------------------------------------------------

/-- A plain conversion of one element (R72, R134). -/
def convertPlain (d x : Ty) (w : Word) : Word := if d.isB then w else (cvtVal false .rn d x w).1

/-- The exact value of a plain source element, for a conversion in (R76). -/
def srcValue (x : Ty) (w : Word) : Fp := if x.isFloat then fpVal x w else scaledInt (intVal x w) 0

/-- Convert a value into a plain destination (R134): a row that a gather has not found reads as zero. -/
def Job.plainBytes (j : Job) (v : Word × Nat) : List Byte :=
  let w := if j.x.typed then elemOut j.d.fmt (elemVal (j.x.fmt == .tern) j.x.planes v.1.toNat) v.2 else convertPlain j.d.fmt j.x.fmt v.1
  toBytes w.toNat j.d.esize

/-- Convert a block into a typed destination (R76): the scale, and 32 elements. -/
def Job.block (j : Job) (vs : List (Word × Nat)) : Block :=
  let xs := vs.map (fun v => srcValue j.x.fmt v.1) ++ List.replicate (32 - vs.length) (Fp.fin false 0 0)
  let int := j.x.fmt.isInt
  if j.d.fmt == .tern then ternFrom xs int else bsiFrom xs j.d.planes int

/-- The 4 bytes of one plane of a block (R119). -/
def blockPlane (es : List Nat) (p : Nat) : List Byte :=
  toBytes ((es.zipIdx.map fun e => e.1 / 2 ^ p % 2 * 2 ^ e.2).foldl (· + ·) 0) 4

/-- Write a block of a line into a typed buffer (R119, R138): the scale first, then its planes; behind the last block the
rest of the unit is zero. -/
def Tensor.writeBlock (t : Tensor) (b : Buf) (line blk : Nat) (x : Block) : Buf :=
  let tail := if blk + 1 = t.kblocks then List.replicate (4 * (7 - blk % 8)) (0 : Byte) else []
  (List.range t.planes).foldl (fun b p => b.write (t.unitAt line (blk / 8) p + 4 * (blk % 8)) (blockPlane x.2 p ++ tail))
    (b.write (t.scaleAt line blk) (toBytes x.1 2))

-- Landing -------------------------------------------------------------------------------------------------------------------------

/-- An earlier command of the launch has not completed. Collectives come from the host and hold no boundary (R265). -/
def State.commandBefore (s : State) (launch id : Nat) : Bool :=
  s.cmds.any fun c => c.1 < id && c.2.queue < 5 && c.2.queue ≠ 3 && ((s.group? c.2.g).map (·.launch)) == some launch

/-- A command may act: in deterministic mode the boundary runs the commands (R291), one after the other in the order in which they
issued, so that a launch repeats its results (R293; DESIGN CHOICE, log 115). -/
def State.mayAct (s : State) (id : Nat) (gr : Group) : Bool :=
  !s.det gr || (((s.launchOf gr).bind (·.boundary)) == some 1 && !s.commandBefore gr.launch id)

/-- The command begins. -/
def State.beginCmd (s : State) (id : Nat) (c : Cmd) : State :=
  if c.begun then s else { s with cmds := Table.insert s.cmds id { c with begun := true } }

/-- A piece is done. -/
def State.landed (s : State) (id piece : Nat) : State :=
  { s with cmds := Table.modify s.cmds id fun c => { c with landed := piece :: c.landed } }

/-- A command waits for a page that is not present (R139): system software learns of it by a record (R358, R361). -/
def State.suspend (s : State) (id : Nat) (gr : Group) (va : Word) : State :=
  match Table.find s.cmds id with
  | none => s
  | some c =>
    let slot := ((s.wave? c.g c.wave).map (·.slot)).getD 0
    { s with cmds := Table.insert s.cmds id { c with suspended := some va } }.record .commandError (s.refusalOf id Cause.rNotPresent)
      gr.ctx gr.core slot va

/-- The bound and BUFACL of a receiver, checked when a landing is made (R136). -/
def Group.landRefused (gr : Group) (d : Tensor) : Option Nat :=
  if !gr.copyAllowed d.sp true then some Cause.rPermission else if !gr.holds d then some Cause.rBound else none

/-- Change the bytes of a receiver's space as a piece lands (R119, R120, R184). -/
def Group.landLocal (gr : Group) (j : Job) (p row : Nat) (vs : List (Word × Nat)) : Group :=
  let (l, b) := j.place p
  if j.d.typed then gr.setBuf j.d.sp (j.d.writeBlock (gr.buf j.d.sp) l b (j.block vs))
  else gr.setBuf j.d.sp ((gr.buf j.d.sp).write (j.d.elemAt row (32 * b)) (vs.flatMap j.plainBytes))

/-- The writes of a piece to `.g`: none where a page refuses it. -/
def State.planStores (s : State) (id : Nat) (j : Job) (piece : Nat) (l : List (Word × List Byte)) : Except EngRead (List ReqItem) :=
  l.foldr (fun w acc =>
    match acc with
    | .error e => .error e
    | .ok is =>
      match s.translate j.gr.core j.gr.ctx { w := true } w.1 with
      | .error (.reason 0) => .error (.absent w.1)
      | .error e => .error (.refused (s.refusedCode id e))
      | .ok d =>
        if s.ours d || s.routeUp (dpaModule d) then .ok ({ thread := piece, byte := 0, addr := d, len := w.2.length, data := w.2 } :: is)
        else .error (.refused Cause.linkFail)) (.ok [])

/-- The values of a piece with the addresses in `.g` they go to. -/
def Job.storesOf (j : Job) (p row : Nat) (vs : List (Word × Nat)) : List (Word × List Byte) :=
  ((j.elemsAt p row).zip vs).map fun v => (BitVec.ofNat 64 (j.d.elemAt (if j.scatters then row else v.1.1) v.1.2), j.plainBytes v.2)

/-- Land a piece in `.g` (R138): its writes go to their home slices, where they are counted. -/
def State.landG (s : State) (id : Nat) (j : Job) (p row : Nat) (vs : List (Word × Nat)) : State :=
  match s.planStores id j p (j.storesOf p row vs) with
  | .error (.absent va) => s.suspend id j.gr va
  | .error (.refused c) => ((s.cmdError id c).countLanding id j.c.g (j.counted p row) true).landed id p
  | .error _ => s
  | .ok is =>
    let r : Req := {
      agent := .cmd id
      ctx := j.gr.ctx
      launch := some j.gr.launch
      kind := .store
      gran := 0
      items := []
      carried := (Table.find s.cmds id).map (·.cstamp) }
    (s.sendItems r is).landed id p

/-- Land the values of a piece in a receiver's local space (R136, R138). -/
def State.landIn (s : State) (id : Nat) (j : Job) (p row : Nat) (vs : List (Word × Nat)) (recv : Option Nat) : State :=
  match recv.bind fun g => (s.group? g).map fun gr => (g, gr) with
  | none => s.cmdError id Cause.mcNoReceiver
  | some (g, gr) =>
    match gr.landRefused j.d with
    | some r => (s.cmdError id (Cause.engine Cause.eCopy r)).countLanding id g (j.counted p row) true
    | none => (s.modGroup g fun gr => gr.landLocal j p row vs).countLanding id g (j.counted p row) false

/-- Land the values of a piece. -/
def State.land (s : State) (id : Nat) (j : Job) (p row : Nat) (vs : List (Word × Nat)) : State :=
  if j.d.sp == .g then s.landG id j p row vs
  else ((s.receivers j).foldl (fun s r => s.landIn id j p row vs r) s).landed id p

/-- A piece is skipped: counted where it would have landed, with the error bit (R138, R139). -/
def State.skipPiece (s : State) (id : Nat) (j : Job) (p row : Nat) (bad : Bool) : State :=
  (if j.counted p row = 0 then s
   else (s.receivers j).foldl (fun s r => match r with | some g => s.countLanding id g (j.counted p row) bad | none => s) s).landed id p

/-- The engine kind of a command's uninitialised reads (R139). -/
def Job.uninitCause (j : Job) : Cause := Cause.engine (if j.idx.isSome then Cause.eGather else Cause.eCopy) Cause.rUninit

/-- Read and land one piece of a job (R137 to R139). A row whose index lies beyond the tensor's rows has its error in the error word;
its bytes are counted without the barrier word's error bit (DESIGN CHOICE, log 109). -/
def State.landPiece (s : State) (id : Nat) (j : Job) (p : Nat) : State :=
  let line := (j.place p).1
  let (a, at_) := if j.scatters then Reading.index { s := s } id j p 0 line else ({ s := s }, some line)
  let a := a.close id j
  let row := at_.getD 0
  let es := j.elemsAt p row
  let skip := j.scatters && j.d.rows ≤ row && a.stop.isNone
  let trap := !s.warns j.gr
  let b := if skip || a.stop.isSome || (a.uninit && trap) then a
    else
      let b := a.s.readElems id j p es
      { b with uninit := a.uninit || b.uninit }
  match b.stop with
  | some (.absent va) => b.s.suspend id j.gr va
  | some (.refused c) => (b.s.cmdError id c).skipPiece id j p row true
  | some _ => b.s
  | none =>
    let t := if b.uninit then b.s.cmdError id j.uninitCause else b.s
    let t := if b.beyond || skip then t.cmdError id (Cause.engine Cause.eCopy Cause.rBound) else t
    if b.uninit && trap then t.skipPiece id j p row true
    else if skip then t.skipPiece id j p row false
    else t.land id j p row b.vals

/-- The row of a piece's destination (R137), by which its bytes are counted (R138): of a scatter what its index says, as far as it has
been read. -/
def State.pieceRow (s : State) (id : Nat) (j : Job) (p : Nat) : Nat :=
  let line := (j.place p).1
  if j.scatters then (Reading.index { s := s } id j p 0 line).2.getD 0 else line

/-- A piece of a job can land now: it has not, nothing suspends the command, and a scatter's rows go in ascending order (R137), as do
the pieces of a deterministic launch (log 115). -/
def State.canLand (s : State) (id : Nat) (j : Job) (piece : Nat) : Bool :=
  piece < j.pieces && !j.c.landed.contains piece && j.c.suspended.isNone && s.mayAct id j.gr &&
    (!(j.scatters || s.det j.gr) || piece == j.c.landed.length)

/-- LANDING (R138): of a pairing that the engine converts natively (R140). -/
def execLanding (cmd piece : Nat) (s : State) : Host.Outcome State Fault Refusal :=
  .next (match s.job cmd with
    | some j => if s.canLand cmd j piece && nativePair j.d.fmt j.x.fmt then (s.beginCmd cmd j.c).landPiece cmd j piece else s
    | none => s)

/-- FMT_ABSENT_EMULATION (R140): the firmware lands the pieces of a pairing that the engine lacks, with the same bits. -/
def execFmtAbsentEmulation (cmd piece : Nat) (s : State) : Host.Outcome State Fault Refusal :=
  .next (match s.job cmd with
    | some j =>
      if s.canLand cmd j piece && !nativePair j.d.fmt j.x.fmt then
        let s := s.beginCmd cmd j.c
        { s with cmds := Table.modify s.cmds cmd fun c => { c with absent := true } }.landPiece cmd j piece
      else s
    | none => s)

/-- COPY_PAGE_RESUME (R139, R359): a trigger has covered the page that suspended it. -/
def execCopyPageResume (cmd : Nat) (s : State) : Host.Outcome State Fault Refusal :=
  .next { s with cmds := Table.modify s.cmds cmd fun c => if c.resume then { c with suspended := none, resume := false } else c }

-- Matrix products ------------------------------------------------------------------------------------------------------------------

/-- A matrix product with its handles. -/
structure Product where
  c : Cmd
  gr : Group
  tern : Bool
  init : Bool
  m0 : Nat
  n0 : Nat
  mq : Nat
  nq : Nat
  out : Tensor
  a : Tensor
  w : Tensor
  deriving Repr

/-- The product of a command. -/
def State.product? (s : State) (id : Nat) : Option Product :=
  match Table.find s.cmds id with
  | none => none
  | some c =>
    match c.kind, s.group? c.g, decodeRec (c.recs.getD 0 0), decodeRec (c.recs.getD 1 0), decodeRec (c.recs.getD 2 0) with
    | .product tern init m0 n0 mq nq, some gr, some o, some a, some w => some ⟨c, gr, tern, init, m0, n0, mq, nq, o, a, w⟩
    | _, _, _, _, _ => none

/-- Tiles of 64 by 64 along the columns, and in all (R129). -/
def Product.across (p : Product) : Nat := (p.nq + 63) / 64
def Product.tiles (p : Product) : Nat := (p.mq + 63) / 64 * p.across

/-- K-steps of the whole command (R129). -/
def Product.total (p : Product) : Nat := p.tiles * p.a.kslices

/-- A block of a line of a typed tensor: its scale and its values (R73, R74, R119); the elements that complete the last block
are left out, since they add nothing to a sum. -/
def Tensor.blockAt (t : Tensor) (b : Buf) (line blk : Nat) : Nat × List Int :=
  let scale := ofBytes (b.read (t.scaleAt line blk) 2) % 2 ^ 12
  let planes := (List.range t.planes).map fun p => ofBytes (b.read (t.unitAt line (blk / 8) p + 4 * (blk % 8)) 4)
  (scale, (List.range (min 32 (t.kdim - 32 * blk))).map fun i =>
    elemVal (t.fmt == .tern) t.planes ((planes.zipIdx.map fun p => p.1 / 2 ^ i % 2 * 2 ^ p.2).foldl (· + ·) 0))

/-- Every plane word and scale entry of a line that the engine reads has been written (R131). -/
def Tensor.lineValid (t : Tensor) (b : Buf) (line : Nat) : Bool :=
  (List.range t.kblocks).all fun k =>
    b.allValid (t.scaleAt line k) 2 && (List.range t.planes).all fun p => b.isValid (t.unitAt line (k / 8) p + 4 * (k % 8))

/-- Everything the product reads has been written (R131). -/
def Product.valid (p : Product) : Bool :=
  (p.mq = 0 || p.nq = 0) ||
  ((List.range p.mq).all (fun m => p.a.lineValid p.gr.ab (p.m0 + m)) &&
   (List.range p.nq).all (fun n => p.w.lineValid p.gr.wb (p.n0 + n)) &&
   (p.init || p.gr.cb.allValid p.out.addr (p.mq * p.nq * p.out.esize)))

/-- Every word of some blocks of a line has a good code (R370). -/
def Tensor.lineSound (t : Tensor) (b : Buf) (line : Nat) (blocks : List Nat) : Bool :=
  blocks.all fun k =>
    b.sound (t.scaleAt line k) 2 && (List.range t.planes).all fun p => b.sound (t.unitAt line (k / 8) p + 4 * (k % 8)) 4

/-- The first row and column of the tile of a K-step, and its blocks (R129). -/
def Product.tileRow (p : Product) (u : Nat) : Nat := 64 * (u / p.a.kslices / p.across)
def Product.tileCol (p : Product) (u : Nat) : Nat := 64 * (u / p.a.kslices % p.across)
def Product.stepBlocks (p : Product) (u : Nat) : List Nat :=
  let step := u % p.a.kslices
  (List.range (min 8 (p.a.kblocks - 8 * step))).map (8 * step + ·)

/-- Everything that a K-step reads has a good code (R370). -/
def Product.sound (p : Product) (u : Nat) : Bool :=
  let r := p.tileRow u
  let c := p.tileCol u
  let rows := (List.range (min 64 (p.mq - r))).map (r + ·)
  let cols := (List.range (min 64 (p.nq - c))).map (c + ·)
  rows.all (fun m => p.a.lineSound p.gr.ab (p.m0 + m) (p.stepBlocks u)) && cols.all (fun n => p.w.lineSound p.gr.wb (p.n0 + n) (p.stepBlocks u)) &&
    ((u % p.a.kslices = 0 && p.init) || rows.all fun m => cols.all fun n => p.gr.cb.sound (p.out.elemAt m n) p.out.esize)

/-- One element of C through a K-step (R78, R129). -/
def Product.elem (p : Product) (step m n : Nat) : Nat :=
  let f := fmtOf p.out.fmt
  let acc := if step = 0 && p.init then 0 else ofBytes (p.gr.cb.read (p.out.elemAt m n) p.out.esize)
  ((List.range (min 8 (p.a.kblocks - 8 * step))).map (8 * step + ·)).foldl
    (fun acc b => accAdd f acc (p.a.blockAt p.gr.ab (p.m0 + m) b) (p.w.blockAt p.gr.wb (p.n0 + n) b)) acc

/-- One K-step of one tile (R129): the C buffer after it. Of bytes that a landing or a store changes meanwhile it reads all at one
instant (R125; DESIGN CHOICE, log 98). -/
def Product.kstep (p : Product) (u : Nat) : Buf :=
  let step := u % p.a.kslices
  let r := p.tileRow u
  let c := p.tileCol u
  (List.range (min 64 (p.mq - r))).foldl (fun b i =>
    (List.range (min 64 (p.nq - c))).foldl (fun b k =>
      b.write (p.out.elemAt (r + i) (c + k)) (toBytes (p.elem step (r + i) (c + k)) p.out.esize)) b) p.gr.cb

/-- Every K-step from u on (R129); none where one reads a word with an uncorrectable error (R370). -/
def Product.run (p : Product) (u : Nat) : Nat → Option Buf
  | 0 => some p.gr.cb
  | fuel + 1 =>
    if p.total ≤ u then some p.gr.cb
    else if p.sound u then Product.run { p with gr := { p.gr with cb := p.kstep u } } (u + 1) fuel
    else none

/-- The ranges a product reads and writes in its group's buffers (R125). -/
def Product.reads (p : Product) : List (Space × Nat × Nat) :=
  p.a.footprint.map (fun r => (.ab, r.1, r.2)) ++ p.w.footprint.map (fun r => (.wb, r.1, r.2))
    ++ (if p.init then [] else p.out.footprint.map fun r => (.cb, r.1, r.2))
def Product.writes (p : Product) : List (Space × Nat × Nat) := p.out.footprint.map fun r => (.cb, r.1, r.2)

/-- Two sets of ranges meet. -/
def rangesMeet (a b : List (Space × Nat × Nat)) : Bool :=
  a.any fun x => b.any fun y => x.1 == y.1 && meets x.2.1 x.2.2 y.2.1 y.2.2

/-- The scoreboard holds a product back behind another of its group (R125). -/
def Product.heldBy (x y : Product) : Bool :=
  rangesMeet y.writes (x.reads ++ x.writes) || rangesMeet y.reads x.writes

/-- An earlier matrix command of the group has not begun, or holds this one back (R125). -/
def State.scoreboard (s : State) (id : Nat) (p : Product) : Bool :=
  s.cmds.any fun c => c.1 < id && c.2.g = p.c.g && c.2.queue = qMatrix &&
    (match s.product? c.1 with
     | some y => !y.c.begun || p.heldBy y
     | none => false)

/-- The Running group on whose core a task's work is done (R144). -/
def State.workHost (s : State) (t : Task) : Option Group :=
  ((t.work.bind fun w => Table.find s.cmds w).bind fun c => s.group? c.g).filter fun gr => gr.state == .running

/-- A core's matrix engine holds a task, other than one of a number (R144): the area of a task exists while its group is Running. -/
def State.holdsTask (s : State) (core except : Nat) : Bool :=
  s.tasks.any fun p => p.1 ≠ except && !p.2.wave && p.2.state == .running && ((s.workHost p.2).map (·.core)) == some core

/-- A product may take its next K-step: its group runs or drains and is not being saved (R132, R365), and no matrix task, which
runs between the group's commands, holds the engine (R144). -/
def State.stepReady (s : State) (id : Nat) (p : Product) : Bool :=
  (p.gr.state == .running || p.gr.state == .draining) && (p.c.begun || !s.holdsTask p.gr.core 0) && !p.gr.saving && !p.c.finished && s.mayAct id p.gr && !s.scoreboard id p

/-- The debugger has halted a core's engine in a K-step of its current command (R399). -/
def State.halted (s : State) (core : Nat) : Bool := (Table.find s.mbd.halts core).any fun id => (Table.find s.cmds id).isSome

/-- The debugger holds the engine in the K-step that a product is about to take (R399): within its reach (R330). -/
def State.kheld (s : State) (p : Product) : Bool :=
  s.reaches p.gr.ctx && decide (p.c.progress < p.total) && s.mbd.kholds.contains (p.gr.core, p.c.progress)

/-- The engine of a core halts at a command. -/
def State.halt (s : State) (core id : Nat) : State := { s with mbd := { s.mbd with halts := Table.insert s.mbd.halts core id } }

/-- A product steps where it may and the debugger has not halted its engine. -/
def State.mayStep (s : State) (id : Nat) (p : Product) : Bool := s.stepReady id p && !s.halted p.gr.core

/-- A product begins (R131): in trap mode one that would read what was never written does no part of its work. -/
def State.beginProduct (s : State) (id : Nat) (p : Product) : State :=
  let s := s.beginCmd id p.c
  if p.valid then s
  else
    let s := s.cmdError id (Cause.engine Cause.eMatrix Cause.rUninit)
    if s.warns p.gr then s else { s with cmds := Table.modify s.cmds id fun c => { c with finished := true } }

/-- A K-step, or the end of the work (R129): over an uncorrectable error it is skipped and recorded (R370, log 92). -/
def State.stepProduct (s : State) (id : Nat) (p : Product) : State :=
  let u := p.c.progress
  if p.total ≤ u then { s with cmds := Table.modify s.cmds id fun c => { c with finished := true } }
  else
    let s := if p.sound u then s.modGroup p.c.g fun gr => { gr with cb := p.kstep u }
      else s.cmdError id (Cause.engine Cause.eMatrix Cause.rUncorrectable)
    { s with cmds := Table.modify s.cmds id fun c => { c with progress := u + 1, finished := decide (p.total ≤ u + 1) } }

/-- One K-step of a product, with the check before its first (R129, R131): a hold of the debugger halts the engine in it (R399). -/
def State.takeStep (s : State) (id : Nat) (p : Product) : State :=
  let s := if p.c.begun then s else s.beginProduct id p
  if ((Table.find s.cmds id).map (·.finished)).getD true then s
  else if s.kheld p then s.halt p.gr.core id
  else s.stepProduct id p

/-- The engine of a core goes on from a hold, and the step completes (R132, R399). -/
def State.unhalt (s : State) (core : Nat) : State :=
  match Table.find s.mbd.halts core with
  | none => s
  | some id =>
    let s := { s with mbd := { s.mbd with halts := Table.erase s.mbd.halts core } }
    match s.product? id with
    | some p => { s with mbd := { s.mbd with kholds := s.mbd.kholds.filter (· ≠ (core, p.c.progress)) } }.stepProduct id p
    | none => s

/-- MATRIX_KSTEP (R129, R132). -/
def execMatrixKstep (cmd : Nat) (s : State) : Host.Outcome State Fault Refusal :=
  .next (match s.product? cmd with
    | none => s
    | some p => if s.mayStep cmd p then s.takeStep cmd p else s)

end Sys2Proof.Machine
end

