-- ==== Sys2Proof/Machine/Tasks.lean ====
section
/-! DEFINITION. Tile tasks (R141 to R146, R369): records, pushes, matrix tasks, wave-tasks, signalling. -/

namespace Sys2Proof.Machine

open Sys2Proof

-- Memory as a die's scheduler reaches it --------------------------------------------------------------------------------

/-- Read n bytes for a task (R144). -/
def State.taskRead (s : State) (t : Task) (va : Word) (n : Nat) : Reach (List Byte) := s.readVa (16 * t.die) t.ctx (some t.cstamp) va n

/-- Write one word of a record for an agent: an atomic step at its home slice (R141), with the task's stamp. -/
def State.wordWrite (s : State) (a : Agent) (t : Task) (va w : Word) : Reach Unit :=
  if va.toNat % 8 ≠ 0 then .bad (.reason Cause.rMisaligned) s
  else
    let u := s.walked (16 * t.die) t.ctx va
    match s.translate (16 * t.die) t.ctx { r := true, w := true } va with
    | .error (.reason 0) => .absent va u
    | .error r => .bad r u
    | .ok d => u.sendWord a t.ctx (some t.cstamp) d w

/-- Write one word of a record for an accepted task. -/
def State.taskWrite (s : State) (id : Nat) (t : Task) (va w : Word) : Reach Unit := s.wordWrite (.task id) t va w

/-- Write words one after the other, all of them or none. -/
def State.taskWrites (s : State) (id : Nat) (t : Task) : List (Word × Word) → Reach Unit
  | [] => .ok () s
  | (va, w) :: rest =>
    (s.taskWrite id t va w).andThen fun _ u =>
      match u.taskWrites id t rest with
      | .ok () u => .ok () u
      | .bad r _ => .bad r s
      | .absent v _ => .absent v s
      | .wait _ => .wait s

/-- Writes of a task are still to be performed (R173, R263). -/
def State.taskAsks (s : State) (id : Nat) : Bool := s.reqs.any fun r => r.2.agent == .task id

/-- Why a write of a task has been refused, if one has. -/
def State.taskRefused (s : State) (id : Nat) : Option Cause := (Table.find s.tasks id).bind (·.refused)

/-- What a task has written has been performed. -/
def State.taskSettled (s : State) (id : Nat) : Bool := !s.taskAsks id && (s.taskRefused id).isNone

/-- The stamp of what stands at a record's word 0: what a predecessor's signal released (R144, R163). -/
def State.recordStamp (s : State) (d : Nat) : Option Stamp := if s.ours d then some (s.versionStamp (s.granOf (dpaLocal d))) else none

-- Records (R141) -----------------------------------------------------------------------------------------------------------

/-- The words of a record. -/
def wordsOf (bs : List Byte) : List Word := (List.range (bs.length / 8)).map fun k => BitVec.ofNat 64 (ofBytes ((bs.drop (8 * k)).take 8))

/-- Fields of word 0 (R141). -/
def tKind (w : Word) : Nat := (w.extractLsb' 60 4).toNat
def tState (w : Word) : Nat := (w.extractLsb' 56 4).toNat
def tPending (w : Word) : Nat := (w.extractLsb' 36 16).toNat
def tCount (w : Word) : Nat := (w.extractLsb' 20 16).toNat
def tIndex (w : Word) : Nat := (w.extractLsb' 4 16).toNat

/-- Word 0 with another state, pending count or signalled index. -/
def tSetState (w : Word) (k : Nat) : Word := w.extractLsb' 60 4 ++ BitVec.ofNat 4 k ++ w.extractLsb' 0 56
def tSetPending (w : Word) (k : Nat) : Word := w.extractLsb' 52 12 ++ BitVec.ofNat 16 k ++ w.extractLsb' 0 36
def tSetIndex (w : Word) (k : Nat) : Word := w.extractLsb' 20 44 ++ BitVec.ofNat 16 k ++ w.extractLsb' 0 4
def tSetDie (w : Word) (k : Nat) : Word := w.extractLsb' 56 8 ++ BitVec.ofNat 4 k ++ w.extractLsb' 0 52

/-- A record's field is invalid (R141). -/
def recordBad (ws : List Word) : Bool :=
  let w (k : Nat) : Word := ws.getD k 0
  let target := ((w 3).extractLsb' 0 16).toNat
  2 ≤ tKind (w 0) || 8 ≤ tState (w 0) || (w 0).extractLsb' 0 4 != 0 || (w 2).extractLsb' 0 16 == 0 ||
    (if tKind (w 0) = 0 then (w 9).extractLsb' 3 61 != 0
     else (w 3).extractLsb' 16 48 != 0 || (256 ≤ target && target ≠ 0xFFFF))

/-- The chain fields of a record, in an accepted task (R141, R144). -/
def Task.withRecord (t : Task) (ws : List Word) : Task :=
  { t with
    wave := tKind (ws.getD 0 0) = 1
    chain := ((ws.getD 2 0).extractLsb' 32 32).toNat
    pos := ((ws.getD 2 0).extractLsb' 16 16).toNat
    len := ((ws.getD 2 0).extractLsb' 0 16).toNat }

/-- The accepted task of a record. -/
def State.taskAt (s : State) (d : Nat) : Option (Nat × Task) := s.tasks.find? fun p => p.2.dpa = d

/-- Change an accepted task. -/
def State.modTask (s : State) (id : Nat) (f : Task → Task) : State := { s with tasks := Table.modify s.tasks id f }

/-- Accept a task under a new number, or anew under the one it has. -/
def State.putTask (s : State) (t : Task) : State :=
  match s.taskAt t.dpa with
  | some (id, old) => { s with tasks := Table.insert s.tasks id { t with cstamp := stampMax old.cstamp t.cstamp } }
  | none => { s with tasks := Table.insert s.tasks s.nextId t, nextId := s.nextId + 1 }

/-- The open chain of a task (R144). -/
def State.chainOf (s : State) (t : Task) : Option Chain := s.chains.find? fun c => c.die = t.die && c.ctx = t.ctx && c.ident = t.chain

/-- The task belongs to a chain: a length of 1 stands alone (R141). -/
def Task.chained (t : Task) : Bool := t.len ≠ 1

/-- A die's scheduler has room for one more record, and for its chain (R144). -/
def State.taskRoom (s : State) (t : Task) : Bool :=
  (s.taskAt t.dpa).isSome ||
  ((s.tasks.filter fun p => p.2.die = t.die).length < 4096 &&
   (t.wave || !t.chained || (s.chainOf t).isSome || (s.chains.filter fun c => c.die = t.die).length < 64))

/-- Open a task's chain, where it is not open (R144). -/
def State.openChain (s : State) (t : Task) : State :=
  if t.wave || !t.chained || (s.chainOf t).isSome then s
  else { s with chains := s.chains ++ [⟨t.die, t.ctx, t.chain, 0, 0⟩] }

-- Deques (R283) ----------------------------------------------------------------------------------------------------------------

/-- The deque of a core counts as full to a launch (R283). -/
def Core.fullTo (c : Core) (launch : Nat) : Bool := 1024 ≤ c.deque.length || (!c.deque.isEmpty && c.dqLaunch != some launch)

/-- Place an entry at the bottom (R283). -/
def Core.pushBottom (c : Core) (launch : Nat) (x : DqEntry) : Core :=
  { c with deque := c.deque ++ [x], bottom := c.bottom + 1, dqLaunch := some launch }

-- Pushes (R142) ------------------------------------------------------------------------------------------------------------------

/-- What the scheduler answers to a push: nothing yet, a refusal, or acceptance. -/
inductive Pushed where
  | later (s : State)
  | refused (c : Cause) (s : State)
  | accepted (s : State)

/-- The class-2 code of a task (R146). -/
def taskCause (r : Nat) : Cause := Cause.engine Cause.eTask r

/-- The code of a refusal met by a task (R146): a walk's own is of engine kind 6 (R355), and no route gives `LINK_FAIL` (R263). -/
def taskFail : Refused → Cause
  | .reason r => taskCause r
  | .walk r => Cause.engine Cause.eWalk r
  | .link => Cause.linkFail

/-- The code of a landing's error, of engine kind copy, as an error of the task (R146). -/
def asTask (c : Cause) : Cause := if c.toNat / 8 = 16 then taskCause (c.toNat % 8) else c

/-- What the word 0 of a pushed record becomes, and the task it makes (R142). -/
def pushedTask (t : Task) (w : Word) : Option (Word × Task) :=
  match tState w with
  | 0 => some (tSetState (tSetDie w t.die) (if tPending w = 0 then 2 else 1), { t with state := if tPending w = 0 then .ready else .waiting })
  | 3 => if t.wave then some (tSetState w 4, { t with state := .signalling }) else none
  | 6 => some (tSetState w 4, { t with state := .signalling })
  | _ => none

/-- The record of a push has been written: its task is accepted, where there is still room for it. -/
def State.acceptPush (s : State) (id : Nat) (c : Cmd) (t : Task) : Pushed :=
  if s.reqs.any fun r => r.2.agent == .cmd id then .later s
  else if c.err.isSome then .accepted s
  else if s.taskRoom t then .accepted (if t.state == .signalling then s.putTask t else (s.putTask t).openChain t)
  else .later s

/-- A push of a record (R142). A page that is not present refuses it like another reason (log 99). -/
def State.pushRecord (s : State) (id : Nat) (c : Cmd) (gr : Group) (va : Word) : Pushed :=
  if va.toNat % 128 ≠ 0 then .refused Cause.taskRecord s
  else
    match s.translate gr.core gr.ctx { r := true, w := true } va with
    | .error r => .refused (taskFail r) s
    | .ok d =>
      let t : Task := {
        die := gr.core / 16
        ctx := gr.ctx
        launch := gr.launch
        addr := va
        dpa := d
        cstamp := (stampJoin (some c.cstamp) (s.recordStamp d)).getD c.cstamp
        wave := false
        state := .waiting }
      match s.taskRead t va 128 with
      | .bad r s => .refused (taskFail r) s
      | .absent _ s => .refused (taskCause Cause.rNotPresent) s
      | .wait s => .later s
      | .ok bs s =>
        let ws := wordsOf bs
        let t := t.withRecord ws
        if recordBad ws then .refused Cause.taskRecord s
        else if !s.taskRoom t then .later s
        else
          match pushedTask t (ws.getD 0 0) with
          | none => .refused Cause.taskRecord s
          | some (w, t) =>
            match s.wordWrite (.cmd id) t va w with
            | .ok () s =>
              let s := { s with cmds := Table.modify s.cmds id fun c => { c with pushed := some t } }
              match Table.find s.cmds id with
              | some c => s.acceptPush id c t
              | none => .later s
            | .bad r s => .refused (taskFail r) s
            | .absent _ s => .refused (taskCause Cause.rNotPresent) s
            | .wait s => .later s

/-- A push into a core's deque (R142, R283). -/
def State.pushWave (s : State) (c : Cmd) (gr : Group) (core entry : Word) : Pushed :=
  let k := core.toNat
  if 256 ≤ k then .refused (taskCause Cause.rBound) s
  else if (s.coreOf k).fullTo gr.launch then .refused Cause.dqFull s
  else .accepted (s.modCore k fun q => q.pushBottom gr.launch ⟨entry, c.cstamp, true⟩)

-- Matrix tasks (R144, R146) ----------------------------------------------------------------------------------------------------------

/-- The group reserves its core for matrix tasks (R269 word 6 [35]). -/
def State.reserves (s : State) (gr : Group) : Bool := (s.blockWord gr 6).getLsbD 35

/-- A Running or Swapped group of a die reserves a task area (R144). -/
def State.hasArea (s : State) (die : Nat) : Bool :=
  s.groups.any fun p => p.2.core / 16 = die && (p.2.state == .running || p.2.state == .swapped) && s.reserves p.2

/-- A matrix command of a Running or draining group of a core has begun and has steps left: its engine is at work (R144). -/
def State.multiplying (s : State) (core : Nat) : Bool :=
  s.cmds.any fun c => c.2.queue = qMatrix && c.2.begun && !c.2.finished &&
    ((s.group? c.2.g).map fun gr => gr.core = core && (gr.state == .running || gr.state == .draining)).getD false

/-- A core's matrix engine can take up a task's work: it holds no other, and neither a group's command nor the debugger holds it. -/
def State.engineFree (s : State) (core task : Nat) : Bool := !s.holdsTask core task && !s.multiplying core && !s.halted core

/-- The group on whose core a ready matrix task runs (R144): that of the lowest-numbered core of the die that serves it; a
later position of a chain runs where position 0 ran, once the one before it is done. -/
def State.taskHost (s : State) (t : Task) : Option (Nat × Group) :=
  let chain := s.chainOf t
  let due := !t.chained || ((chain.map (·.next)).getD 0 = t.pos)
  let serves (gr : Group) : Bool :=
    gr.state == .running && !gr.saving && gr.core / 16 = t.die && s.reserves gr && !s.holdsTask gr.core 0 &&
      (!t.chained || t.pos = 0 || (chain.map (·.core)) == some gr.core)
  if !due then none
  else
    ((s.groups.filter fun p => serves p.2).foldl (fun (acc : Option (Nat × Group)) p =>
      match acc with
      | some b => if p.2.core < b.2.core then some p else acc
      | none => some p) none).bind fun p => if s.engineFree p.2.core 0 then some p else none

/-- The six descriptors of a matrix task: A source, A landed, W source, W landed, C, C destination (R141). -/
structure TaskPlan where
  g : Nat
  gr : Group
  c : Cmd
  asrc : Tensor
  aland : Tensor
  wsrc : Tensor
  wland : Tensor
  c0 : Tensor
  cdst : Tensor
  init : Bool
  loadC : Bool
  tern : Bool
  last : Bool

/-- How the work of a matrix task goes on. -/
inductive Work where
  | done (s : State) (uninit : Bool)
  | broken (c : Cause) (s : State)
  | suspend (va : Word)
  | wait (s : State)

/-- Read the descriptors of a task. -/
def State.taskDescs (s : State) (t : Task) : List Word → Reach (List (BitVec 256))
  | [] => .ok [] s
  | va :: rest =>
    (s.taskRead t va 32).andThen fun bs s => (s.taskDescs t rest).andThen fun l s => .ok (recOfBytes bs :: l) s

/-- One landing of a task, as a copy without qualifiers. -/
def TaskPlan.job (p : TaskPlan) (gr : Group) (d x : Tensor) : Job := ⟨{ p.c with kind := .copy false false false }, gr, d, x, none⟩

/-- Land the pieces of a task's landing (R144, R146); `first` numbers its first piece. -/
def State.taskLand (s : State) (id : Nat) (p : TaskPlan) (first : Nat) (d x : Tensor) (uninit : Bool) : List Nat → Work
  | [] => .done s uninit
  | k :: rest =>
    match s.group? p.g with
    | none => .broken (taskCause Cause.rBound) s
    | some gr =>
      let j := p.job gr d x
      let a := s.readElems id j (first + k) (j.elems k)
      let s := a.s
      match a.stop with
      | some (.absent va) => .suspend va
      | some (.refused c) => .broken (asTask c) s
      | some _ => .wait s
      | none =>
        if a.uninit && !s.warns gr then .broken (taskCause Cause.rUninit) s
        else if d.sp == .g then
          match s.planStores id j k (j.storesOf k (j.place k).1 a.vals) with
          | .error (.absent va) => .suspend va
          | .error (.refused c) => .broken (asTask c) s
          | .error _ => .wait s
          | .ok is =>
            let r : Req := {
              agent := .cmd id
              ctx := gr.ctx
              launch := some gr.launch
              kind := .store
              gran := 0
              items := []
              carried := some p.c.cstamp }
            (s.sendItems r is).taskLand id p first d x (uninit || a.uninit) rest
        else
          let row := (j.place k).1
          (s.modGroup p.g fun gr => gr.landLocal j k row a.vals).taskLand id p first d x (uninit || a.uninit) rest

/-- Go on with the work where it has not stopped. -/
def Work.andThen (w : Work) (f : State → Bool → Work) : Work :=
  match w with
  | .done s u => f s u
  | w => w

/-- A landing of a task, whole: its reads are told from those of the task's other landings by their piece numbers. -/
def State.taskCopy (s : State) (id : Nat) (p : TaskPlan) (first : Nat) (d x : Tensor) (u : Bool) : Work :=
  s.taskLand id p first d x u (List.range (p.job p.gr d x).pieces)

/-- The product of a task (R129, R144): an uncorrectable error of a word it reads breaks the task (R146, R370). -/
def State.taskMma (s : State) (p : TaskPlan) (u : Bool) : Work :=
  match s.group? p.g with
  | none => .broken (taskCause Cause.rBound) s
  | some gr =>
    let x : Product := ⟨p.c, gr, p.tern, p.init, 0, 0, p.aland.rows, p.wland.cols, p.c0, p.aland, p.wland⟩
    if !x.valid && !s.warns gr then .broken (taskCause Cause.rUninit) s
    else
      match x.run 0 x.total with
      | some b => .done (s.modGroup p.g fun gr => { gr with cb := b }) (u || !x.valid)
      | none => .broken (taskCause Cause.rUncorrectable) s

/-- The steps of a matrix task (R144), made in one turn (log 100). -/
def State.taskWork (s : State) (id : Nat) (p : TaskPlan) : Work :=
  (((s.taskCopy id p 0 p.aland p.asrc false).andThen fun s u => s.taskCopy id p (2 ^ 32) p.wland p.wsrc u).andThen fun s u =>
    if p.loadC then s.taskCopy id p (2 ^ 33) p.c0 p.cdst u else .done s u).andThen fun s u =>
      (s.taskMma p u).andThen fun s u => if p.last then s.taskCopy id p (2 ^ 34) p.cdst p.c0 u else .done s u

/-- The landing or the product does not accept the descriptors, or one lies beyond the task area (R144, R146). -/
def State.planBad (s : State) (p : TaskPlan) : Option Cause :=
  let copyBad (d x : Tensor) : Bool := !pairOk d x || !copyShapeOk false false false d x
  if copyBad p.aland p.asrc || copyBad p.wland p.wsrc || (p.last && copyBad p.cdst p.c0) || (p.loadC && copyBad p.c0 p.cdst)
  then some Cause.handleKind
  else
    match s.productCheck p.gr p.tern false p.c0 p.aland p.wland with
    | .error c => some (if c = Cause.handleKind then c else taskCause Cause.rBound)
    | .ok _ =>
      let writes := [p.aland, p.wland] ++ (if p.loadC then [p.c0] else []) ++ (if p.last then [p.cdst] else [])
      let reads := [p.asrc, p.wsrc] ++ (if p.loadC then [p.cdst] else []) ++ (if p.last then [p.c0] else [])
      if (p.c0 :: (writes ++ reads)).any fun t => !p.gr.holds t then some (taskCause Cause.rBound)
      else if writes.any (fun t => !p.gr.copyAllowed t.sp true) || reads.any (fun t => !p.gr.copyAllowed t.sp false) then
        some (taskCause Cause.rPermission)
      else none

/-- Make the plan of a task from its record and descriptors. -/
def planOf (g : Nat) (gr : Group) (c : Cmd) (t : Task) (flags : Word) (ds : List (BitVec 256)) : Option TaskPlan :=
  match ds.map decodeRec with
  | [some a, some b, some x, some y, some c0, some d] =>
    some ⟨g, gr, c, a, b, x, y, c0, d, flags.getLsbD 0 && t.pos = 0, flags.getLsbD 1 && t.pos = 0, flags.getLsbD 2,
      t.pos + 1 = t.len || t.len = 1⟩
  | _ => none

/-- A task is broken (R146): its record is still to be told. -/
def State.breakTask (s : State) (id : Nat) (c : Cause) : State :=
  match Table.find s.tasks id with
  | none => s
  | some t =>
    let s := match t.work with
      | some w => { s with cmds := Table.erase s.cmds w, reqs := Table.drop s.reqs fun _ r => r.agent == Agent.cmd w }
      | none => s
    s.modTask id fun t => { t with state := .broken, cause := c, work := none, refused := none }

/-- Do the work of a matrix task that has a host and a work command. -/
def State.runTask (s : State) (id : Nat) (t : Task) (wk : Nat) (g : Nat) (gr : Group) (c : Cmd) : State :=
  match s.taskRead t t.addr 128 with
  | .bad r s => s.breakTask id (taskFail r)
  | .absent va s => s.suspend wk gr va
  | .wait s => s
  | .ok bs s1 =>
    let ws := wordsOf bs
    match s1.taskDescs t ((List.range 6).map fun k => ws.getD (3 + k) 0) with
    | .bad r s => s.breakTask id (taskFail r)
    | .absent va s => s.suspend wk gr va
    | .wait s => s
    | .ok ds s2 =>
      match planOf g gr c t (ws.getD 9 0) ds with
      | none => s2.breakTask id Cause.handleBad
      | some p =>
        match s2.planBad p with
        | some e => s2.breakTask id e
        | none =>
          match s2.taskWork wk p with
          | .broken e s3 => s3.breakTask id e
          | .suspend va => s.suspend wk gr va
          | .wait s3 => { s3 with groups := s.groups }
          | .done s3 u =>
            let s3 := { s3 with cmds := Table.modify s3.cmds wk fun k => { k with finished := true } }
            s3.modTask id fun t => { t with cause := if u then taskCause Cause.rUninit else 0 }

/-- The work of a running task goes on (R144): its record's state has been written, nothing suspends it, and its group is Running on a
core whose engine is free. -/
def State.resumeTask (s : State) (id : Nat) (t : Task) (wk : Nat) (g : Nat) (gr : Group) (c : Cmd) : State :=
  if s.taskAsks id || c.finished || (c.suspended.isSome && !c.resume) || gr.state != .running || gr.saving || !s.engineFree gr.core id then s
  else
    match t.refused with
    | some e => s.breakTask id e
    | none =>
      let c := { c with suspended := none, resume := false }
      { s with cmds := Table.insert s.cmds wk c }.runTask id t wk g gr c

/-- A ready task gets its core: state 3 is written to its record, and its work is given a number (R144). -/
def State.beginTask (s : State) (id : Nat) (t : Task) (g : Nat) (gr : Group) : State :=
  match s.taskRead t t.addr 8 with
  | .ok bs s =>
    match s.taskWrite id t t.addr (tSetState (BitVec.ofNat 64 (ofBytes bs)) 3) with
    | .ok () s =>
      let wk := s.nextId
      let c : Cmd := { g := g, queue := 9, num := 0, epoch := 0, kind := .copy false false false, cstamp := t.cstamp }
      let s := { s with
        nextId := wk + 1
        cmds := Table.insert s.cmds wk c
        chains := s.chains.map fun (x : Chain) =>
          if t.chained && t.pos = 0 && x.die = t.die && x.ctx = t.ctx && x.ident = t.chain then { x with core := gr.core } else x }
      s.modTask id fun t => { t with state := .running, core := some gr.core, work := some wk }
    | .bad r s => s.breakTask id (taskFail r)
    | .absent _ s | .wait s => s
  | .bad r s => s.breakTask id (taskFail r)
  | .absent _ s | .wait s => s

/-- A turn of a running matrix task's work. -/
def State.workTurn (s : State) (id : Nat) : State :=
  match Table.find s.tasks id with
  | none => s
  | some t =>
    match t.state, t.work with
    | .running, some wk =>
      match Table.find s.cmds wk with
      | some c =>
        match s.group? c.g with
        | some gr => s.resumeTask id t wk c.g gr c
        | none => s
      | none => s
    | _, _ => s

/-- MATRIX_TASK_START (R144): a ready task gets its core, with state 3, and its work is done; where a page that is not present
or another module's answer holds it, the next such turn goes on. That a task pushed by a deterministic launch may work within a quantum
is the model's choice (log 116). -/
def execMatrixTaskStart (task : Nat) (s : State) : Host.Outcome State Fault Refusal :=
  .next (match Table.find s.tasks task with
    | none => s
    | some t =>
      if t.wave then s
      else if t.state == .ready then
        match s.taskHost t with
        | some (g, gr) => (s.beginTask task t g gr).workTurn task
        | none => s
      else s.workTurn task)

/-- TASK_NO_AREA (R144): the ready matrix tasks of a die without a reserving group enter state 7. -/
def execTaskNoArea (die : Nat) (s : State) : Host.Outcome State Fault Refusal :=
  .next (if s.hasArea die then s
    else
      { s with tasks := Table.mapValues s.tasks fun _ t =>
          if !t.wave && t.die = die && t.state == .ready then { t with state := .broken, cause := Cause.taskNoArea } else t })

-- Wave-tasks (R145) --------------------------------------------------------------------------------------------------------------------

/-- A task meets a fault while it signals (R146): its record is still to be told. -/
def State.faultTask (s : State) (id : Nat) (c : Cause) : State :=
  s.modTask id fun t => { t with state := .faulted, cause := c, sent := false, refused := none }

/-- The core with the fewest entries of a die, the lowest-numbered on a tie (R145). -/
def State.emptiestDeque (s : State) (die : Nat) : Nat :=
  ((List.range 16).map (16 * die + ·)).foldl (fun m k => if (s.coreOf k).deque.length < (s.coreOf m).deque.length then k else m) (16 * die)

/-- Empty the deques of a launch of which no group is resident or swapped (R283). -/
def State.emptyDeques (s : State) (launch : Nat) : State :=
  if s.groups.any fun p => p.2.launch = launch then s
  else
    { s with cores := s.cores.filterMap fun c =>
        let c' : Core := if c.2.dqLaunch == some launch then { c.2 with deque := [], top := c.2.bottom, dqLaunch := none } else c.2
        if c' = {} then none else some (c.1, c') }

/-- WAVE_TASK_PLACE (R145): the placement and the change to state 3 are one step. A record that cannot be read or written there
faults as it does while signalling (log 101). -/
def execWaveTaskPlace (task : Nat) (s : State) : Host.Outcome State Fault Refusal :=
  .next (match Table.find s.tasks task with
    | none => s
    | some t =>
      if !t.wave || t.state != .ready then s
      else
        match s.taskRead t t.addr 128 with
        | .ok bs s =>
          let ws := wordsOf bs
          let target := ((ws.getD 3 0).extractLsb' 0 16).toNat
          let k := if target = 0xFFFF then s.emptiestDeque t.die else target
          if (s.coreOf k).fullTo t.launch then s
          else
            match s.taskWrite task t t.addr (tSetState (ws.getD 0 0) 3) with
            | .ok () s =>
              let s := (s.modCore k fun q => q.pushBottom t.launch ⟨t.addr, t.cstamp, true⟩).modTask task fun t => { t with state := .running, core := some k }
              s.emptyDeques t.launch
            | .bad r s => s.faultTask task (taskFail r)
            | .absent _ s | .wait s => s
        | .bad r s => s.faultTask task (taskFail r)
        | .absent _ s | .wait s => s)

-- Done, signalling, ends (R143, R146, R369) -----------------------------------------------------------------------------------------------

/-- How a signal went. -/
inductive Signal where
  | sent (s : State)
  | fault (c : Cause) (s : State)
  | wait (s : State)

/-- A write of a signal or of a signalled index, and what follows it. -/
def Reach.signal (r : Reach Unit) (f : State → Signal) : Signal :=
  match r with
  | .ok () s => f s
  | .bad r s => .fault (taskFail r) s
  | .absent _ s => .fault (taskCause Cause.rNotPresent) s
  | .wait s => .wait s

/-- The scheduler takes up a successor that a signal has made ready, or notes what it releases to one that it holds (R143, R144). -/
def State.signalled (s : State) (t : Task) (a : Word) (d : Nat) (w : Word) (last : Bool) : State :=
  match s.taskAt d with
  | some (id, _) => s.modTask id fun y => { y with cstamp := stampMax y.cstamp t.cstamp, state := if last then .ready else y.state }
  | none =>
    if last then
      match s.taskRead t a 128 with
      | .ok bs s =>
        let y : Task := {
          die := (w.extractLsb' 52 4).toNat
          ctx := t.ctx
          launch := t.launch
          addr := a
          dpa := d
          cstamp := t.cstamp
          wave := false
          state := .ready }
        s.putTask (y.withRecord (wordsOf bs))
      | .bad _ s | .absent _ s | .wait s => s
    else s

/-- Signal one successor (R143): the subtraction and the state test are one step on word 0. -/
def State.signal (s : State) (id : Nat) (t : Task) (a : Word) : Signal :=
  match s.translate (16 * t.die) t.ctx { r := true, w := true } a with
  | .error r => .fault (taskFail r) s
  | .ok d =>
    match s.taskRead t a 8 with
    | .bad r s => .fault (taskFail r) s
    | .absent _ s => .fault (taskCause Cause.rNotPresent) s
    | .wait s => .wait s
    | .ok bs s =>
      let w := BitVec.ofNat 64 (ofBytes bs)
      let last := tPending w = 1 && tState w = 1
      if tPending w = 0 then (s.taskWrite id t (a + 120) (Cause.taskUnderflow.setWidth 64)).signal .sent
      else
        (s.taskWrite id t a (if last then tSetState (tSetPending w 0) 2 else tSetPending w (tPending w - 1))).signal fun s =>
          .sent (s.signalled t a d w last)

/-- The signalled index goes on past a successor (R146). -/
def State.nextIndex (s : State) (id : Nat) (t : Task) (w : Word) : Signal :=
  (s.taskWrite id t t.addr (tSetIndex w (tIndex w + 1))).signal fun s => .sent (s.modTask id fun t => { t with sent := false })

/-- Signal the successor at the signalled index and write the next index: in one turn where the signal is performed at once, else the
index follows when it has been (R146). A fault leaves the index as it is. -/
def State.signalOne (s : State) (id : Nat) (t : Task) (w list : Word) : Signal :=
  match s.taskRead t (list + BitVec.ofNat 64 (8 * tIndex w)) 8 with
  | .bad r s => .fault (taskFail r) s
  | .absent _ s => .fault (taskCause Cause.rNotPresent) s
  | .wait s => .wait s
  | .ok as s1 =>
    match s1.signal id t (BitVec.ofNat 64 (ofBytes as)) with
    | .sent s2 =>
      if s2.taskSettled id then
        match s2.nextIndex id t w with
        | .sent s3 => .sent s3
        | .fault c _ => .fault c s1
        | .wait _ => .wait s1
      else .sent (s2.modTask id fun t => { t with sent := true })
    | r => r

/-- A task's last write has been sent: it leaves once that has been performed. -/
def State.leaveTask (s : State) (id : Nat) : State :=
  if s.taskSettled id then { s with tasks := Table.erase s.tasks id } else s.modTask id fun t => { t with state := .ended }

/-- One turn of a task that signals (R146): the successor at its signalled index, or state 5 once all have been signalled. -/
def State.signalTurn (s : State) (id : Nat) (t : Task) : State :=
  if s.taskAsks id then s
  else
    match t.refused with
    | some c => s.faultTask id c
    | none =>
      match s.taskRead t t.addr 16 with
      | .bad r s => s.faultTask id (taskFail r)
      | .absent _ s => s.faultTask id (taskCause Cause.rNotPresent)
      | .wait s => s
      | .ok bs s =>
        let w := (wordsOf bs).getD 0 0
        let went := if t.sent then s.nextIndex id t w
          else if tCount w ≤ tIndex w then (s.taskWrite id t t.addr (tSetState w 5)).signal fun s => .sent (s.leaveTask id)
          else s.signalOne id t w ((wordsOf bs).getD 1 0)
        match went with
        | .sent s => s
        | .fault c s => s.faultTask id c
        | .wait s => s

/-- A task is done (R146): its core and its chain go on, and it is to signal. -/
def State.finishTask (s : State) (id : Nat) (t : Task) (wk : Nat) (x : Stamp) : State :=
  let t := { t with state := .signalling, work := none, cstamp := stampMax t.cstamp x }
  match s.taskRead t t.addr 8 with
  | .ok bs s1 =>
    let w4 := (t.addr, tSetState (BitVec.ofNat 64 (ofBytes bs)) 4)
    match s1.taskWrites id t (if t.cause = 0 then [w4] else [(t.addr + 120, t.cause.setWidth 64), w4]) with
    | .ok () s2 =>
      let advance (c : Chain) : Chain := if t.chained && c.die = t.die && c.ctx = t.ctx && c.ident = t.chain then { c with next := t.pos + 1 } else c
      let s2 := { s2 with
        cmds := Table.erase s2.cmds wk
        chains := (s2.chains.map advance).filter fun c =>
          !(t.chained && c.die = t.die && c.ctx = t.ctx && c.ident = t.chain && t.len ≤ c.next) }
      s2.modTask id fun y => { y with state := .signalling, work := none, cstamp := t.cstamp }
    | .wait s => s
    | .absent _ s => s.breakTask id (taskCause Cause.rNotPresent)
    | .bad r s => s.breakTask id (taskFail r)
  | .wait s => s
  | .absent _ s => s.breakTask id (taskCause Cause.rNotPresent)
  | .bad r s => s.breakTask id (taskFail r)

/-- A faulted or broken task's record receives its state and cause, and a record of kind 4 is posted (R146, R369). -/
def State.closeTask (s : State) (id : Nat) (t : Task) (code : Nat) : State :=
  let tell (s : State) : State :=
    { s with tasks := Table.erase s.tasks id }.record .task t.cause t.ctx (t.core.getD 0) 0 t.addr
  match s.taskRead t t.addr 8 with
  | .ok bs s1 =>
    match s1.taskWrites id t [(t.addr, tSetState (BitVec.ofNat 64 (ofBytes bs)) code), (t.addr + 120, t.cause.setWidth 64)] with
    | .ok () s2 => tell s2
    | .wait s => s
    | .bad _ s | .absent _ s => tell s
  | .wait s => s
  | .bad _ s | .absent _ s => tell s

/-- TASK_DONE (R146): one turn of a task whose work is complete, that signals, or whose end is to be told. -/
def execTaskDone (task : Nat) (s : State) : Host.Outcome State Fault Refusal :=
  .next (match Table.find s.tasks task with
    | none => s
    | some t =>
      match t.state, t.work with
      | .running, some wk =>
        match Table.find s.cmds wk with
        | some c =>
          if !c.finished || (s.reqs.any fun r => r.2.agent == Agent.cmd wk) then s
          else
            match c.err with
            | some e => s.breakTask task (asTask e)
            | none => s.finishTask task t wk c.stamp
        | none => s
      | .signalling, _ => s.signalTurn task t
      | .broken, _ => s.closeTask task t 7
      | .faulted, _ => s.closeTask task t 6
      | .ended, _ =>
        if s.taskAsks task then s
        else
          match t.refused with
          | some c => s.faultTask task c
          | none => { s with tasks := Table.erase s.tasks task }
      | _, _ => s)

end Sys2Proof.Machine
end

