-- ==== Sys2Proof/Machine/Commands.lean ====
section
/-! DEFINITION. The collective engine (R84, R265, R266), and the completion of engine commands with the counters of their queues
(R44, R124, R285 to R287). -/

namespace Sys2Proof.Machine

open Sys2Proof

-- Collectives (R265, R266) ----------------------------------------------------------------------------------------------

/-- A 64-bit word of a submission entry. -/
def subWord (e : SubEntry) (k : Nat) : Word := e.extractLsb' (64 * k) 64

/-- The eight words of a submission entry. -/
def subWords (e : SubEntry) : List Word := (List.range 8).map (subWord e)

/-- A COLLECTIVE command's operands (R265), from the words of its entry. -/
structure Collective where
  ws : List Word
  deriving Repr

/-- The fields of R265. -/
def Collective.word (c : Collective) (k : Nat) : Word := c.ws.getD k 0
def Collective.op (c : Collective) : Nat := ((c.word 1).extractLsb' 0 4).toNat
def Collective.tyCode (c : Collective) : BitVec 5 := (c.word 1).extractLsb' 4 5
def Collective.operCode (c : Collective) : BitVec 4 := ((c.word 1).extractLsb' 9 3).setWidth 4
def Collective.root (c : Collective) : Nat := ((c.word 1).extractLsb' 16 8).toNat
def Collective.parts (c : Collective) : Nat := ((c.word 1).extractLsb' 24 16).toNat
def Collective.rank (c : Collective) : Nat := ((c.word 1).extractLsb' 40 16).toNat
def Collective.elems (c : Collective) : Nat := (c.word 2).toNat
def Collective.src (c : Collective) : Word := c.word 3
def Collective.dst (c : Collective) : Word := c.word 4
def Collective.ident (c : Collective) : Word := c.word 5
def Collective.modIdx (c : Collective) : BitVec 8 := (c.word 6).extractLsb' 8 8
def Collective.ctx (c : Collective) : BitVec 12 := (c.word 6).extractLsb' 16 12
def Collective.group (c : Collective) : Nat := ((c.word 7).extractLsb' 0 32).toNat

/-- The element type. -/
def Collective.ty (c : Collective) : Ty := (Ty.ofCode c.tyCode).getD .s32

/-- The bytes of one participant's block. -/
def Collective.size (c : Collective) : Nat := c.elems * c.ty.bytes

/-- What the commands of one collective share (R266): everything but rank, group and the two addresses. -/
def Collective.common (c : Collective) : Word × Word × Word := (c.word 1 &&& 0xFF0000FFFFFFFFFF, c.word 2, c.word 5)

/-- The operands keep R265; a rank or a root at or above P breaks it too (DESIGN CHOICE, log 73). -/
def Collective.ok (c : Collective) : Bool :=
  let w := c.word 1
  c.op ≤ 3 && ((Ty.ofCode c.tyCode).map accRed32).getD false && c.operCode.toNat ≤ 5 && w.extractLsb' 12 4 == 0 && w.extractLsb' 56 8 == 0
    && 1 ≤ c.parts && c.parts ≤ 256 && c.rank < c.parts && c.root < c.parts && c.size ≤ 2 ^ 32
    && (c.word 6).extractLsb' 0 8 == 0 && (c.word 6).extractLsb' 28 36 == 0 && (c.word 7).extractLsb' 32 32 == 0

/-- A value of the type at a place of a block. -/
def Collective.valueAt (c : Collective) (bs : List Byte) (i : Nat) : Word :=
  BitVec.ofNat 64 (ofBytes ((bs.drop (i * c.ty.bytes)).take c.ty.bytes))

/-- The levels of the tree for so many partitions (R84). -/
def treeLevels (p : Nat) : Nat := ((List.range 9).find? fun k => p ≤ 2 ^ k).getD 9

/-- `rank_reduce` of the blocks by rank (R84, R265). -/
def Collective.reduce (c : Collective) (blocks : List (List Byte)) : List Byte :=
  let op := (RedOp.ofMinor c.operCode).getD .add
  let k := treeLevels c.parts
  (List.range c.elems).flatMap fun i =>
    let xs : Present := blocks.map (fun b => some (c.valueAt b i)) ++ List.replicate (2 ^ k - blocks.length) none
    toBytes ((laneReduce (redVal op c.ty) xs 0 k).1.getD 0).toNat c.ty.bytes

/-- What a participant receives (R265); none where nothing is written there. -/
def Collective.result (c : Collective) (blocks : List (List Byte)) : Option (List Byte) :=
  match c.op with
  | 0 => some (c.reduce blocks)
  | 1 => if c.rank = c.root then some (c.reduce blocks) else none
  | 2 => some (blocks.getD c.root [])
  | _ => some blocks.flatten

/-- What a participant sends is read: of a broadcast the root's buffer alone. -/
def Collective.sends (c : Collective) : Bool := c.op ≠ 2 || c.rank = c.root

/-- The pieces of a block: element, place in it, address, length. -/
def Collective.pieces (c : Collective) (base : Word) (n : Nat) : List (Nat × Nat × Word × Nat) :=
  (List.range n).flatMap fun i =>
    let va := base + BitVec.ofNat 64 (i * c.ty.bytes)
    (splitAccess va.toNat 0 c.ty.bytes c.ty.bytes).map fun p => (i, p.1, va + BitVec.ofNat 64 p.1, p.2)

/-- A send buffer as far as it has been read; `asks` is what other modules are still to be asked for. -/
structure Sending where
  s : State
  bytes : List Byte := []
  asks : List ReqItem := []
  waits : Bool := false

/-- Take one piece. What stands for a piece that is refused is a free value (log 21). -/
def Sending.take (a : Sending) (id k n : Nat) (x : State × EngRead) : Sending :=
  let refused (s : State) (e : Cause) : Sending := { a with s := s.cmdError id e, bytes := a.bytes ++ toBytes (Config.freeValue s.tick k).toNat n }
  match x with
  | (s, .bytes bs _) => { a with s := s, bytes := a.bytes ++ bs }
  | (s, .refused e) => refused s e
  | (s, .absent _) => refused s (s.refusalOf id Cause.rNotPresent)
  | (s, .ask i) => { a with s := s, asks := a.asks ++ [i] }
  | (s, .wait) => { a with s := s, waits := true }

/-- Read the send buffer: the bytes, none while another module has not answered. -/
def State.readSend (s : State) (id : Nat) (gr : Group) (c : Collective) : State × Option (List Byte) :=
  let a := (c.pieces c.src c.elems).foldl (fun (a : Sending) p =>
    a.take id (8 * p.1 + p.2.1) p.2.2.2 (a.s.engineReadG id gr p.1 p.2.1 p.2.2.1 p.2.2.2)) { s := s }
  (a.s.askFar id gr a.asks, if a.waits || !a.asks.isEmpty then none else some a.bytes)

/-- The writes of a received block: a piece that is refused is recorded as an error, and the rest lands. -/
def State.writeBlock (s : State) (id : Nat) (gr : Group) (c : Collective) (bs : List Byte) : State :=
  let plan := (c.pieces c.dst (bs.length / c.ty.bytes)).foldl (fun (a : State × List ReqItem) p =>
    let data := (bs.drop (p.1 * c.ty.bytes + p.2.1)).take p.2.2.2
    match a.1.translate gr.core gr.ctx { w := true } p.2.2.1 with
    | .error e => (a.1.cmdError id (a.1.refusedCode id e), a.2)
    | .ok d =>
      if a.1.ours d || a.1.routeUp (dpaModule d) then (a.1.walked gr.core gr.ctx p.2.2.1, a.2 ++ [{ thread := p.1, byte := p.2.1, addr := d, len := p.2.2.2, data := data }])
      else (a.1.cmdError id Cause.linkFail, a.2)) (s, [])
  let r : Req := {
    agent := .cmd id
    ctx := gr.ctx
    launch := some gr.launch
    kind := .store
    gran := 0
    items := []
    carried := (Table.find plan.1.cmds id).map (·.cstamp) }
  plan.1.sendItems r plan.2

/-- The commands of one collective heard so far, this module's and the others'. -/
def State.heardOf (s : State) (c : Collective) : List (Collective × List Byte) :=
  (s.fabric.heard.map fun h => (⟨h.1⟩, h.2)).filter fun h : Collective × List Byte => h.1.ident == c.ident

/-- Change a command. -/
def State.modCmd (s : State) (id : Nat) (f : Cmd → Cmd) : State := { s with cmds := Table.modify s.cmds id f }

/-- The command has nothing more to do, with an error or without. -/
def State.endCollective (s : State) (id : Nat) (e : Option Cause) : State :=
  (match e with
   | some x => s.cmdError id x
   | none => s).modCmd id fun k => { k with finished := true }

/-- A command's send buffer is read and made known to every module of the domain. -/
def State.joinCollective (s : State) (id : Nat) (gr : Group) (c : Collective) : State :=
  match (if c.sends then s.readSend id gr c else (s, some [])) with
  | (s, none) => s
  | (s, some bs) =>
    let s := { s with fabric := { s.fabric with heard := s.fabric.heard ++ [(c.ws, bs)] } }
    let s := s.fabric.routes.foldl (fun s r => if r.1 = s.fabric.index.toNat then s else s.send (BitVec.ofNat 8 r.1) (.collective c.ws bs)) s
    s.modCmd id fun k => { k with begun := true }

/-- Once all P commands are known, the result is formed and written (R265, R266). Commands that differ in what they must share end
without a result, as soon as they are known to. While some are missing and a route has failed,
the command ends with `LINK_FAIL`. -/
def State.meetCollective (s : State) (id : Nat) (gr : Group) (c : Collective) : State :=
  let all := s.heardOf c
  if all.any fun h => h.1.common != c.common then s.endCollective id (some Cause.rsvField)
  else if all.length < c.parts then
    if s.fabric.routes.any fun r => r.1 ≠ s.fabric.index.toNat && !s.routeUp r.1 then s.endCollective id (some Cause.linkFail) else s
  else
    let blocks := (List.range c.parts).map fun r => (all.find? fun h => h.1.rank = r).map (·.2)
    if blocks.any (·.isNone) then s.endCollective id (some Cause.rsvField)
    else
      match c.result (blocks.filterMap (fun b => b)) with
      | some bs => (s.writeBlock id gr c bs).endCollective id none
      | none => s.endCollective id none

/-- A turn of a collective before its completion. -/
def State.collectiveTurn (s : State) (id : Nat) (k : Cmd) (gr : Group) (c : Collective) : State :=
  if k.begun then s.meetCollective id gr c else s.joinCollective id gr c

/-- A command of a collective is in a queue of this module. -/
def State.hasCollective (s : State) (ident : Word) : Bool :=
  s.cmds.any fun k => match k.2.kind with | .collective e => subWord e 5 == ident | _ => false

/-- Leave out the first block of each of so many ranks of a collective. -/
def dropRanks (l : List (List Word × List Byte)) (ident : Word) (p : Nat) : List (List Word × List Byte) :=
  (List.range p).foldl (fun l r => l.eraseP fun h => h.1.getD 5 0 == ident && (⟨h.1⟩ : Collective).rank == r) l

/-- What has been heard of a collective is forgotten once it is over: no command of it is in a queue here, and every rank has been heard,
or, of commands that differ or name a rank twice, all P (R265, R266). `last`: a command of this module has just ended, and `failed`: with
a failure that keeps the others from being heard. -/
def State.forgetCollective (s : State) (c : Collective) (last failed : Bool) : State :=
  let all := s.heardOf c
  let p := (all.map fun h => h.1.parts).foldl max c.parts
  let keep : List (List Word × List Byte) :=
    if s.hasCollective c.ident then s.fabric.heard
    else if failed then s.fabric.heard.filter fun h => h.1.getD 5 0 != c.ident
    else if (List.range p).all fun r => all.any fun h => h.1.rank = r then dropRanks s.fabric.heard c.ident p
    else if p ≤ all.length && (last || all.any fun h => h.1.common != c.common) then s.fabric.heard.filter fun h => h.1.getD 5 0 != c.ident
    else s.fabric.heard
  { s with fabric := { s.fabric with heard := keep } }

/-- Another module's command of a collective, with its block (R265). -/
def State.hearCollective (s : State) (ws : List Word) (data : List Byte) : State :=
  ({ s with fabric := { s.fabric with heard := s.fabric.heard ++ [(ws, data)] } } : State).forgetCollective ⟨ws⟩ false false

-- Counters (R124, R285 to R287) -----------------------------------------------------------------------------------------------

/-- A counter and the completions above it after one more (R124); true: it would have passed 2^64 - 1 (R287). -/
def Queue.pass (q : Queue) (n : Nat) : Queue × Bool :=
  if n ≤ q.c then (q, true)
  else if n = q.c + 1 then ({ q with c := n }, false)
  else ({ q with ahead := insertSorted (fun a b => a ≤ b) n q.ahead }, false)

/-- Take up the completions above a counter that it has reached. -/
def Queue.absorb (q : Queue) : Nat → Queue × Bool
  | 0 => (q, false)
  | fuel + 1 =>
    match q.ahead with
    | [] => (q, false)
    | n :: t =>
      if q.c + 1 < n then (q, false)
      else
        let (q', b) := ({ q with ahead := t } : Queue).pass n
        let (q'', b') := Queue.absorb q' fuel
        (q'', b || b')

/-- A command of a number completes. -/
def Queue.complete (q : Queue) (n : Nat) : Queue × Bool :=
  let (q, b) := q.pass n
  let (q, b') := q.absorb (q.ahead.length + 1)
  (q, b || b')

/-- `TL_SATURATE` goes to the error words of a queue's timelines alone (R124, R287). -/
def Group.noteSaturate (gr : Group) (q : Nat) : Group :=
  { gr with tlfault := (gr.boundTimelines q).foldl (fun t k => firstError t k (errorWord Cause.tlSaturate (2 ^ 64 - 1))) gr.tlfault }

/-- Advance a queue's counter for a completed command, unless `tlset` has written the counter since (R285, R286). -/
def State.countDone (s : State) (k : Cmd) : State :=
  match s.group? k.g with
  | none => s
  | some gr =>
    let q := gr.queue k.queue
    if q.epoch ≠ k.epoch then s
    else
      let (q', sat) := q.complete k.num
      let x := stampJoin q.stamp (some k.stamp)
      let s := s.modGroup k.g fun gr => let gr := gr.setQueue k.queue { q' with stamp := x }; if sat then gr.noteSaturate k.queue else gr
      s.wakeTimelines k.g k.queue q'.c x

/-- The instruction that issued a command completes: its flag counts down (R44). What follows a wait for the flag is not served from
lines of the core's L1 that may be older than what the command has read (R196, R202). -/
def State.flagCmd (s : State) (id : Nat) (k : Cmd) : State :=
  match k.op with
  | none => s
  | some (w, o) =>
    (s.dropL1 (s.coreOfGroup k.g)).modWave k.g w fun wv =>
      match Table.find wv.ops o with
      | some x => if x.body == .cmd id then { wv.flagDown x.fl with ops := Table.erase wv.ops o } else wv
      | none => wv

/-- The mailbox command of a collective completes with its error, if it had one (R259, R266): another module's host is told over the
fabric. -/
def State.flightCmd (s : State) (id : Nat) (k : Cmd) : State :=
  match k.guest with
  | some (m, tag) => s.send m (.participated tag (k.err.getD 0))
  | none =>
  match s.mbx.flights.find? fun f => f.2 == .collective id with
  | some f => { s with mbx := { s.mbx with flights := s.mbx.flights.filter (· ≠ f) } }.complete f.1 (k.err.getD 0)
  | none => s

/-- A command completes. -/
def State.completeCmd (s : State) (id : Nat) : State :=
  match Table.find s.cmds id with
  | none => s
  | some k =>
    let s := { s with cmds := Table.erase s.cmds id }
    let s := ((s.flagCmd id k).countDone k).flightCmd id k
    match k.kind with
    | .collective e => s.forgetCollective ⟨subWords e⟩ true (k.err == some Cause.linkFail)
    | _ => s

-- The event --------------------------------------------------------------------------------------------------------------------

/-- Requests of a command are outstanding. -/
def State.cmdAsks (s : State) (id : Nat) : Bool := s.reqs.any fun r => r.2.agent == .cmd id

/-- A push's answer (R142). -/
def finishPush (id : Nat) : Pushed → State
  | .later s' => s'
  | .refused c s' => (s'.cmdError id c).completeCmd id
  | .accepted s' => s'.completeCmd id

/-- A turn of a command: it completes once all its work is done. -/
def State.cmdTurn (s : State) (id : Nat) (k : Cmd) (gr : Group) : State :=
  match k.kind with
  | .push va => if s.mayAct id gr then finishPush id (match k.pushed with
      | some t => s.acceptPush id k t
      | none => s.pushRecord id k gr va) else s
  | .pushWave core x => if s.mayAct id gr then finishPush id (s.pushWave k gr core x) else s
  | .product _ _ _ _ _ _ => if k.finished then s.completeCmd id else s
  | .collective e =>
    if k.finished then (if s.cmdAsks id then s else s.completeCmd id)
    else s.collectiveTurn id k gr ⟨subWords e⟩
  | _ =>
    match s.job id with
    | some j => if j.pieces ≤ k.landed.length && !s.cmdAsks id && s.mayAct id gr then s.completeCmd id else s
    | none => s

/-- ENGINE_COMMAND_COMPLETION (R124): the work of a task is of no queue, and completes with its task. -/
def execEngineCommandCompletion (cmd : Nat) (s : State) : Host.Outcome State Fault Refusal :=
  .next (match Table.find s.cmds cmd with
    | some k =>
      match s.group? k.g with
      | some gr => if k.queue < 5 then s.cmdTurn cmd k gr else s
      | none => s
    | none => s)

end Sys2Proof.Machine
end

