-- ==== Sys2Proof/Machine/Turner.lean ====
section
/-! DEFINITION. The Turner (R180 to R183, R337): tiers and frames, the placement of a launch's ranges, periods, migrations. -/

namespace Sys2Proof.Machine

open Sys2Proof

/-- The listed pages of a stack. -/
def State.stackListed (s : State) (k : Nat) : List (Nat × Page) := s.pages.filter fun p => p.1 / 2 ^ 24 = k

/-- The pages of a stack that a tier holds. -/
def State.tierPages (s : State) (k : Nat) (cap : Bool) : Nat :=
  let inTier (p : Page) : Bool := p.mapped && p.capacity == cap
  let l := s.stackListed k
  (if cap then capacityPages else stackPages) + (l.filter fun p => inTier p.2).length - (l.filter fun p => inTier (initialPage p.1)).length

/-- The frames of a tier. -/
def tierFrames (cap : Bool) : Nat := if cap then capacityFrames else stackFrames

/-- A free frame of a tier: one that a page has left, or one that none has used. -/
def State.freeFrame (s : State) (k : Nat) (cap : Bool) : Option (BitVec 32) :=
  let l := s.stackListed k
  let first := if cap then capacityPages else stackPages
  let left : List Nat := l.filterMap fun p =>
    let i := initialPage p.1
    if i.mapped && i.capacity == cap then some i.frame.toNat else none
  let used : List Nat := l.filterMap fun p => if p.2.mapped && p.2.capacity == cap then some p.2.frame.toNat else none
  let taken := match (s.stack k).migration with
    | some m => if m.capacity == cap then [m.frame.toNat] else []
    | none => []
  ((left ++ (List.range (l.length + 2)).map (first + ·)).find? fun f =>
    f < tierFrames cap && !used.contains f && !taken.contains f).map (BitVec.ofNat 32)

-- Choosing pages (R181) ---------------------------------------------------------------------------------------------------

/-- A page can be moved to the other tier: it lies in the one it is to leave. -/
def State.movable (s : State) (page : Nat) (promote : Bool) : Bool :=
  let p := s.page page
  p.mapped && !p.migrating && p.capacity == promote

/-- A move finds the Rind words it needs: a versioned page is not demoted without, its move is deferred (R168, R179). -/
def State.rindAllows (s : State) (page : Nat) (promote : Bool) : Bool :=
  let p := s.page page
  let k := page / 2 ^ 24
  promote || !p.v || s.rindUsed k - p.rindWords + Page.rindWords { p with capacity := true } ≤ rindRoom (s.stack k).rind

/-- The first page from a number up that satisfies a test, at most `fuel` numbers on. -/
def nextPage (f : Nat → Bool) (k : Nat) : Nat → Option Nat
  | 0 => none
  | fuel + 1 => if f k then some k else nextPage f (k + 1) fuel

/-- The first page of a stack at or above a cursor that satisfies a test, else the first below it (R181). -/
def pageFrom (f : Nat → Bool) (stack cursor : Nat) : Option Nat :=
  let base := stack * 2 ^ 24
  (nextPage f (base + cursor) (2 ^ 24 - cursor)).or (nextPage f base cursor)

/-- The class of a page for victims (R181): 4 for an unranged one. -/
def State.victimClass (s : State) (page : Nat) : Nat :=
  match s.rangeOf page with
  | some (_, _, c) => c.toNat
  | none => 4

/-- Take victims of one class from its cursor: the stack's state with the cursor moved, and the pages. -/
def State.victimsOf (s : State) (k cls : Nat) (out : List Nat) : Nat → State × List Nat
  | 0 => (s, out)
  | n + 1 =>
    match pageFrom (fun p => s.movable p false && s.victimClass p == cls && !out.contains p) k (Table.read (s.stack k).victims cls 0) with
    | some p => State.victimsOf (s.modStack k fun st => { st with victims := Table.write st.victims cls (p % 2 ^ 24 + 1) 0 }) k cls (out ++ [p]) n
    | none => (s, out)

/-- Take victims: unranged pages first, then classes 0, 1 and 2 (R181). -/
def State.takeVictims (s : State) (k n : Nat) : State × List Nat :=
  [4, 0, 1, 2].foldl (fun (acc : State × List Nat) cls =>
    State.victimsOf acc.1 k cls acc.2 (n - acc.2.length)) (s, [])

/-- Queue moves of a stack's pages. -/
def State.queueMoves (s : State) (k : Nat) (l : List (Nat × Bool)) : State :=
  s.modStack k fun st => { st with moves := st.moves ++ l.filter fun m => !st.moves.contains m }

/-- The placement of a launch's ranged pages (R181): class 3, then 2, then 1 into the stack tier, class 0 into the capacity
tier, each in ascending DPA order, as room allows. -/
def State.placeRanges (s : State) (ctx : BitVec 12) (rs : List Range) : State :=
  let pagesOf (c : Nat) : List Nat := ((rs.filter fun r => r.cls.toNat = c).flatMap fun r => s.rangePages ctx r).eraseDups
  let sorted (c : Nat) : List Nat := sortBy (fun a b => a ≤ b) (pagesOf c)
  let ups := ((sorted 3 ++ sorted 2 ++ sorted 1).filter fun p => s.movable p true).map fun p => (p, true)
  let downs := ((sorted 0).filter fun p => s.movable p false).map fun p => (p, false)
  (ups ++ downs).foldl (fun s m =>
    let k := m.1 / 2 ^ 24
    let waiting := ((s.stack k).moves.filter fun x => x.2 == m.2).length
    if s.tierPages k (!m.2) + waiting < tierFrames (!m.2) then s.queueMoves k [m] else s) s

-- Periods (R180, R181, R183) --------------------------------------------------------------------------------------------------

/-- A range of a resident launch. -/
structure Ranged where
  key : Nat
  idx : Nat
  ctx : BitVec 12
  range : Range
  count : RangeCount

/-- The ranges of the resident launches with a stack's counts of a period. -/
def State.rangedOn (s : State) (counts : Table RangeCount) : List Ranged :=
  s.launches.flatMap fun l => l.2.ranges.map fun r =>
    ⟨1024 * l.1 + r.idx, r.idx, l.2.ctx, r, Table.read counts (1024 * l.1 + r.idx) {}⟩

/-- The range contradicts its class (R181, R183). -/
def Ranged.contradicts (r : Ranged) : Bool :=
  match r.range.cls.toNat with
  | 0 => 2 ^ 20 < 8 * r.count.reqs
  | 1 => r.count.reqs < 2 * r.count.capReqs
  | 2 => r.count.reqs < 16 * r.count.capReqs
  | _ => 0 < r.count.capReqs

/-- The report of a range (R337). -/
def Ranged.report (r : Ranged) : Word :=
  (1 : BitVec 1) ++ r.range.cls ++ BitVec.ofNat 10 r.idx ++ BitVec.ofNat 25 r.count.reqs ++ BitVec.ofNat 25 r.count.capReqs ++ (0 : BitVec 1)

/-- Queue a report (R183, R337): vector 3 is raised; a full queue drops it. -/
def State.report (s : State) (k : Nat) (w : Word) : State :=
  if (s.stack k).reports.length < 256 then (s.modStack k fun st => { st with reports := st.reports ++ [w] }).raiseVector 3 else s

/-- The capacity-tier pages that a range promotes, from its cursor (R181). -/
def State.promotions (s : State) (k : Nat) (r : Ranged) : List Nat :=
  let ps := (s.rangePages r.ctx r.range).filter fun p => p / 2 ^ 24 = k && s.movable p true
  let cursor := (Table.read (s.stack k).counts r.key {}).cursor
  (ps.filter fun p => cursor ≤ p % 2 ^ 24) ++ ps.filter fun p => p % 2 ^ 24 < cursor

/-- Queue the promotions of one range, at most 64 pages in all (R180). -/
def State.promoteRange (s : State) (k : Nat) (acc : List Nat) (r : Ranged) : State × List Nat :=
  let ps := ((s.promotions k r).filter fun p => !acc.contains p).take (64 - acc.length)
  match ps.getLast? with
  | some p =>
    (s.modStack k fun st =>
      { st with counts := Table.insert st.counts r.key { Table.read st.counts r.key {} with cursor := p % 2 ^ 24 + 1 } }, acc ++ ps)
  | none => (s, acc)

/-- What the Turner does at the end of a period, by the counts of it. -/
def State.endPeriod (s : State) (k : Nat) (counts : Table RangeCount) : State :=
  let bad := (s.rangedOn counts).filter Ranged.contradicts
  let (s, ups) := bad.foldl (fun (acc : State × List Nat) r => acc.1.promoteRange k acc.2 r) (s, [])
  let free := stackFrames - s.tierPages k false
  let (s, downs) := s.takeVictims k (min 64 (ups.length - free))
  let s := bad.foldl (fun s r => s.report k r.report) s
  s.queueMoves k (downs.map (fun p => (p, false)) ++ ups.map fun p => (p, true))

/-- TURNER_PERIOD_END (R180, R181, R183): the Turner acts on the first period that has ended and that it has not yet acted on. -/
def execTurnerPeriodEnd (stack : Nat) (s : State) : Host.Outcome State Fault Refusal :=
  .next (if 16 ≤ stack then s
    else
      match (s.stack stack).ended with
      | [] => s
      | c :: t => (s.modStack stack fun st => { st with ended := t }).endPeriod stack c)

-- Migrations (R182) -----------------------------------------------------------------------------------------------------------

/-- A move may start: its direction has not used up the period's 64 pages (R180), and a frame is free. -/
def State.startable (s : State) (k : Nat) (m : Nat × Bool) : Option (BitVec 32) :=
  if (if m.2 then (s.stack k).promoted else (s.stack k).demoted) < 64 && s.movable m.1 m.2 && s.rindAllows m.1 m.2 then s.freeFrame k (!m.2)
  else none

/-- Start the first move that can start; moves that no longer apply are dropped. -/
def State.startMove (s : State) (k : Nat) : State :=
  let ms := (s.stack k).moves.filter fun m => s.movable m.1 m.2
  let s := s.modStack k fun st => { st with moves := ms }
  match ms.find? fun m => (s.startable k m).isSome with
  | none => s
  | some m =>
    match s.startable k m with
    | none => s
    | some f =>
      let s := s.modStack k fun st => { st with
        moves := ms.filter (· ≠ m)
        migration := some { page := m.1, capacity := !m.2, frame := f }
        promoted := if m.2 then st.promoted + 1 else st.promoted
        demoted := if m.2 then st.demoted else st.demoted + 1 }
      s.setPage m.1 { s.page m.1 with migrating := true }

/-- The codewords of a page that lie in a tier are given up, with what is in error in them. -/
def State.leaveTier (s : State) (page : Nat) (cap : Bool) : State :=
  { s with flips := Table.drop s.flips fun k _ => k / 1024 / 2 ^ 16 == page && (640 ≤ k % 1024) == cap }

/-- A migration ends: in the new frame, or abandoned in the old one (R182). -/
def State.endMove (s : State) (k : Nat) (m : Migration) (done : Bool) : State :=
  let p := s.page m.page
  let s := (s.modStack k fun st => { st with migration := none }).leaveTier m.page (m.capacity != done)
  s.setPage m.page (if done then { p with migrating := false, capacity := m.capacity, frame := m.frame } else { p with migrating := false })

/-- Copy the next granule (R182). A granule of an unversioned page has had only the page stamp in the capacity tier, which it takes
along (R179). -/
def State.copyGranule (s : State) (k : Nat) (m : Migration) : State :=
  let size := granSize (s.page m.page).gran
  let a := m.page * 2 ^ 16 + m.copied * size
  if 2 ^ 16 ≤ m.copied * size then s.endMove k m true
  else
    match s.readItem a size with
    | (some _, s) =>
      let s := s.repairRange a size
      let s := if (s.page m.page).v || m.capacity then s else { s with gstamps := Table.insert s.gstamps a (s.pageStamp a) }
      s.modStack k fun st => { st with migration := some { m with copied := m.copied + 1 } }
    | (none, s) => s.endMove k m false

/-- TURNER_MIGRATION (R182): one step of a stack's Turner. -/
def execTurnerMigration (stack : Nat) (s : State) : Host.Outcome State Fault Refusal :=
  .next (if 16 ≤ stack then s
    else
      match (s.stack stack).migration with
      | none => s.startMove stack
      | some m => s.copyGranule stack m)

end Sys2Proof.Machine
end

