-- ==== Sys2Proof/Machine/Attrs.lean ====
section
/-! DEFINITION. A device page's attributes and its owner (R167, R324, R344), and what a home slice commits (R152, R161). -/

namespace Sys2Proof.Machine

open Sys2Proof


/-- The first bytes of the granules of a device page. -/
def granulesOf (page : Nat) (gran : BitVec 2) : List Nat :=
  (List.range (2 ^ 16 / granSize gran)).map fun k => page * 2 ^ 16 + k * granSize gran

/-- The home slices of a page's granules (R167). -/
def State.pageSlices (s : State) (page : Nat) : List Nat := ((granulesOf page (s.page page).gran).map homeSlice).eraseDups

/-- The page stamp step (R167). -/
def State.pageStampStep (s : State) (page : Nat) (carried : Stamp) : Stamp × State :=
  let ks := s.pageSlices page
  let c := (ks.map s.sliceCount).foldl countMax (count carried) + 1
  let low := ks.foldl min 63
  let s := ks.foldl (fun s k => s.setCount k (countMax (s.sliceCount k) c)) s
  (mkStamp c (s.originOf low), s)

/-- Give every granule of a page one stamp and no link. -/
def State.stampPage (s : State) (page : Nat) (x : Stamp) : State :=
  { s.setPage page { s.page page with stamp := some x, base := some x } with
    gstamps := Table.drop s.gstamps fun a _ => dpaPage a == page
    glinks := Table.drop s.glinks fun a _ => dpaPage a == page }

/-- Drop a page's history (R167). -/
def State.clearV (s : State) (page : Nat) : State :=
  { s.setPage page { s.page page with v := false } with glinks := Table.drop s.glinks fun a _ => dpaPage a == page }

/-- Rewrite a page's media in another granule (R167): each new granule carries the largest stamp among those it overlaps; what
can be corrected is. -/
def State.regranule (s : State) (page : Nat) (gran : BitVec 2) : State :=
  let p := s.page page
  let old := granulesOf page p.gran
  let n := granSize p.gran
  let m := granSize gran
  let stamp (b : Nat) : Stamp := ((old.filter fun a => meets a n b m).map s.versionStamp).foldl stampMax (s.versionStamp (b - b % n))
  let new := (granulesOf page gran).map fun b => (b, stamp b)
  let s := old.foldl (fun s a => match s.readCoded a n with
    | some (_, true) => s.repairRange a n
    | _ => s) s
  { s.setPage page { p with gran := gran } with
    gstamps := new.foldl (fun t x => Table.insert t x.1 x.2) (Table.drop s.gstamps fun a _ => dpaPage a == page)
    contention := Table.drop s.contention fun a _ => dpaPage a == page
    dirty := Table.drop s.dirty fun a _ => dpaPage a == page
    l1 := Table.drop s.l1 fun k _ => k % 2 ^ 52 / 2 ^ 16 == s.dpaOf (2 ^ 16 * page) / 2 ^ 16 }

/-- The page goes from one nonempty set of contexts to another (R324). -/
def ownerPurges (old new : BitVec 16) : Bool :=
  let free (o : BitVec 16) : Bool := !o.getLsbD 15 && o.extractLsb' 0 12 == 0
  !free old && !free new && !(old.getLsbD 15 && new.getLsbD 15) && !(!old.getLsbD 15 && !new.getLsbD 15 && old == new)

/-- The purge of R324: history dropped, every byte zero, one commit, V = 0; what the old owner has in flight is refused. -/
def State.purge (s : State) (page : Nat) (carried : Stamp) : State :=
  let s := s.clearV page
  let (x, s) := s.pageStampStep page carried
  let s := s.stampPage page x
  { s with
    mem := Table.drop s.mem fun a _ => dpaPage a == page
    flips := Table.drop s.flips fun k _ => k / 1024 / 2 ^ 16 == page
    dirty := Table.drop s.dirty fun a _ => dpaPage a == page
    l1 := Table.drop s.l1 fun k _ => k % 2 ^ 52 / 2 ^ 16 == s.dpaOf (2 ^ 16 * page) / 2 ^ 16 }

/-- The context that a page's owner entry names alone (R323). -/
def soleOwner (o : BitVec 16) : Option (BitVec 12) := if o.getLsbD 15 || o.extractLsb' 0 12 == 0 then none else some (o.extractLsb' 0 12)

/-- Refuse the requests in flight to a page that its owner entry no longer lets in, and those of an owner whose page has been purged
(R324). -/
def State.refuseOld (s : State) (page : Nat) (old : Option (BitVec 12)) : State :=
  s.reqs.foldl (fun s p =>
    if p.2.away.isNone && dpaPage p.2.gran == page && (s.barred p.2 || (p.2.owned && old == some p.2.ctx)) then s.refuseReq p.1 p.2 else s) s

/-- Another owner for a page (R323, R324). -/
def State.setOwner (s : State) (page : Nat) (o : BitVec 16) (carried : Stamp) : State :=
  let old := (s.page page).owner
  let purges := ownerPurges old o
  let s := if purges then s.purge page carried else s
  (s.setPage page { s.page page with owner := o }).refuseOld page (if purges then soleOwner old else none)

/-- The fields of `sys.pgattr`'s operand (R344). -/
structure PageAttrs where
  gran : Option (BitVec 2)
  v : Option Bool
  owner : Option (BitVec 16)

/-- The changes an operand asks for. -/
def pageAttrs (x : Word) : PageAttrs where
  gran := if x.getLsbD 63 then some (x.extractLsb' 56 2) else none
  v := if x.getLsbD 62 then some (x.getLsbD 55) else none
  owner := if x.getLsbD 61 then some (BitVec.ofBool (x.getLsbD 31) ++ (0 : BitVec 3) ++ x.extractLsb' 0 12) else none

/-- The page after its granule and V have changed. -/
def PageAttrs.page (c : PageAttrs) (p : Page) : Page := { p with gran := c.gran.getD p.gran, v := c.v.getD p.v }

/-- The change is refused (R344). -/
def State.attrRefused (s : State) (page : Nat) (big : Bool) (c : PageAttrs) : Bool :=
  let p := s.page page
  let q := c.page p
  let k := page / 2 ^ 24
  (q.gran ≠ p.gran && p.v) ||
  (q.v && !p.v && ((s.stack k).whey = 0 || rindRoom (s.stack k).rind < s.rindUsed k - p.rindWords + q.rindWords)) ||
  (big && (q.gran ≠ p.gran || q.v ≠ p.v))

/-- Granule and V of a page, in that order (R344). -/
def State.setAttrs (s : State) (page : Nat) (c : PageAttrs) (carried : Stamp) : State :=
  let p := s.page page
  let q := c.page p
  let s := if q.gran ≠ p.gran then s.regranule page q.gran else s
  if q.v && !p.v then
    let (x, s) := s.pageStampStep page carried
    let s := s.stampPage page x
    s.setPage page { s.page page with v := true }
  else if !q.v && p.v then s.clearV page
  else s

/-- The walked leaf after a change (R320, R344): the granule it sets, and V where the operand sets it. -/
def PageAttrs.leaf (c : PageAttrs) (gran : Bool) (e : Word) : Word :=
  let g := if gran then c.gran.getD (e.extractLsb' 60 2) else e.extractLsb' 60 2
  e.extractLsb' 62 2 ++ g ++ BitVec.ofBool (c.v.getD (e.getLsbD 59)) ++ e.extractLsb' 0 59

/-- A region's directory has an entry on the page (R324). -/
def State.regionOn (s : State) (page : Nat) : Bool := s.slots.any fun p => p.2.dir.any fun d => dpaPage d.gran == page

/-- Something at the slices still goes by the old granule of a page: a request other than the one that asks for the change, a region's
entry, or a deterministic region's read. -/
def State.granuleBusy (s : State) (asker page : Nat) : Bool :=
  (s.page page).migrating || (s.reqs.any fun r => r.1 ≠ asker && r.2.away.isNone && dpaPage r.2.gran == page) || s.regionOn page ||
    s.groups.any fun p => p.2.waves.any fun w =>
      match w.region with
      | some x => x.reads.any fun g => dpaPage g.1 == page
      | none => false

/-- Change a page as an operand asks (R344), and tell whether that was refused; none while it must wait. `asker` is the request that
asks for it, 0 for none. -/
def State.changePage (s : State) (asker page : Nat) (big : Bool) (c : PageAttrs) (carried : Stamp) : Option (State × Bool) :=
  let regrains := (c.page (s.page page)).gran ≠ (s.page page).gran
  if s.attrRefused page big c then some (s, false)
  else if (c.owner.isSome && s.regionOn page) || (regrains && s.granuleBusy asker page) then none
  else
    let s := s.setAttrs page c carried
    some (match c.owner with
      | some x => s.setOwner page x carried
      | none => s, true)

/-- Another module's `sys.pgattr` of a page of this one (R344): it is answered with one byte. -/
def State.performAttrs (s : State) (id : Nat) (r : Req) (x : Word) (big : Bool) : State :=
  match s.changePage id (dpaPage r.gran) big (pageAttrs x) (r.carried.getD 0) with
  | none => s
  | some (t, ok) =>
    let t := t.dropReq id
    match r.agent with
    | .peer m _ tag => t.send m (.answer tag [(0, [if ok then 1 else 0])] 0)
    | _ => t

/-- SLICE_COMMIT: a store, or the page stamp step of another module's `sys.pgattr` (R167). -/
def execSliceCommit (req : Nat) (s : State) : Host.Outcome State Fault Refusal :=
  .next (match s.turnOf req with
    | some r =>
      match r.kind with
      | .store => if r.slot.isNone then (if s.barred r then s.refuseReq req r else s.performStore req r) else s
      | .attrs x big => s.performAttrs req r x big
      | _ => s
    | none => s)

end Sys2Proof.Machine
end

