-- ==== Sys2Proof/Machine/Launching.lean ====
section
/-! DEFINITION. The launch block (R269, R270) and the acceptance of a launch (R163, R181, R312, R316). -/

namespace Sys2Proof.Machine

open Sys2Proof

/-- A word of a launch block. -/
def blk (ws : List Word) (k : Nat) : Word := ws.getD k 0

/-- A bit field of a word as a number. -/
def fieldOf (w : Word) (lo n : Nat) : Nat := (w.extractLsb' lo n).toNat

/-- The role count (R269). -/
def roleCount (ws : List Word) : Nat := fieldOf (blk ws 0) 52 4

/-- Waves and register blocks per wave of a role (R270). -/
def roleWaves (w : Word) : Nat := fieldOf w 48 8
def roleBlocks (w : Word) : Nat := fieldOf w 40 8

/-- The role words of a block. -/
def roles (ws : List Word) : List Word := (List.range (roleCount ws)).map fun i => blk ws (16 + i)

/-- The waves of one group, and its register blocks (R270, R271). -/
def groupWaves (ws : List Word) : Nat := (roles ws).foldl (fun n r => n + roleWaves r) 0
def groupBlocks (ws : List Word) : Nat := (roles ws).foldl (fun n r => n + roleWaves r * roleBlocks r) 0

/-- X, Y, Z and the groups of a launch (R269). -/
def groupsOf (ws : List Word) : Nat := fieldOf (blk ws 5) 0 16 * fieldOf (blk ws 5) 16 16 * fieldOf (blk ws 5) 32 16

/-- Deterministic mode (R269). -/
def detOf (ws : List Word) : Bool := (blk ws 0).getLsbD 49

/-- A role word keeps R270. -/
def roleOk (w : Word) : Bool :=
  fieldOf w 56 6 = 0 && fieldOf w 32 8 = 0 && 1 ≤ roleWaves w && roleWaves w ≤ 32 && 1 ≤ roleBlocks w && roleBlocks w ≤ 16

/-- The block keeps R269 and R270, its lists apart. -/
def blockOk (ws : List Word) : Bool :=
  let w := blk ws
  let n := roleCount ws
  fieldOf (w 0) 56 8 = 1 && 1 ≤ n && n ≤ 4 && fieldOf (w 0) 50 2 ≠ 3 && fieldOf (w 0) 0 44 = 0
    && (!detOf ws || fieldOf (w 0) 44 4 ≤ 6)
    && fieldOf (w 1) 0 3 = 0
    && (w 4).toNat ≤ 1024
    && fieldOf (w 5) 48 16 = 0 && 1 ≤ groupsOf ws && groupsOf ws ≤ 2 ^ 32 - 1
    && fieldOf (w 6) 36 28 = 0 && fieldOf (w 6) 0 8 ≤ 128 && fieldOf (w 6) 8 10 ≤ 512 && fieldOf (w 6) 18 9 ≤ 256 && fieldOf (w 6) 27 8 ≤ 128
    && fieldOf (w 7) 36 28 = 0 && ((List.range 8).all fun k => fieldOf (w 7) (12 + 3 * k) 3 ≤ 4)
    && fieldOf (w 8) 16 48 = 0 && (!detOf ws || (1 ≤ (w 8).toNat && (w 8).toNat ≤ 4096))
    && (([9, 13, 14, 15] ++ (List.range 12).map (20 + ·)).all fun k => w k == 0)
    && (w 11).toNat ≤ 64
    && (detOf ws || w 12 == 0)
    && (roles ws).all roleOk && ((List.range (4 - n)).all fun i => w (16 + n + i) == 0)
    && groupWaves ws ≤ 32 && groupBlocks ws ≤ 256
    && wheelSize (w 0) ≤ groupsOf ws

-- The lists (R269) ------------------------------------------------------------------------------------------------------------

/-- The range records that keep their layout (R181). -/
def rangesOf (bs : List Byte) : List Range :=
  (List.range (bs.length / 32)).filterMap fun i =>
    let w (k : Nat) : Word := BitVec.ofNat 64 (ofBytes ((bs.drop (32 * i + 8 * k)).take 8))
    if (w 0).extractLsb' 0 16 == 0 && (w 1).extractLsb' 0 16 == 0 && w 1 != 0 && (w 2).extractLsb' 2 62 == 0 && w 3 == 0 then
      some ⟨(w 0).toNat, (w 1).toNat, (w 2).extractLsb' 0 2, i⟩
    else none

/-- One entry of a handle list: its number and its record, where it keeps R269. -/
def handleEntry (bs : List Byte) : Option (Nat × BitVec 256) :=
  let n := ((bs.headD 0).toNat)
  let r := recOfBytes (bs.drop 32)
  if 64 ≤ n || ((bs.drop 1).take 31).any (· ≠ 0) || (recValid r && (decodeRec r).isNone) then none
  else some (n, if recValid r then r else 0)

/-- The entries of a handle list; none where one is refused, or two name one handle (R269). -/
def handlesOf (bs : List Byte) : Option (List (Nat × BitVec 256)) :=
  let l := (List.range (bs.length / 64)).map fun i => handleEntry ((bs.drop (64 * i)).take 64)
  let hs := l.filterMap id
  if l.all (·.isSome) && (hs.map (·.1)).eraseDups.length = hs.length then some hs else none

/-- The core map: 16-bit physical core indices, or logical core k on core k mod 256 (R269). -/
def coremapOf (lc : Nat) (bs : Option (List Byte)) : List Nat :=
  match bs with
  | some b => (List.range lc).map fun k => ofBytes ((b.drop (2 * k)).take 2)
  | none => (List.range lc).map (· % 256)

/-- The core map names cores, and it keeps the wheels of the launch on clusters (R276). -/
def coremapOk (w : Nat) (m : List Nat) : Bool :=
  m.all (· < 256) &&
  (w = 1 || (m.length % 4 = 0 && (List.range (m.length / 4)).all fun i =>
    (List.range 4).all fun k => m.getD (4 * i + k) 0 / 4 = m.getD (4 * i) 0 / 4))

/-- Read one list of a launch in its context: none where it is not given. -/
def State.readList (s : State) (core : Nat) (ctx : BitVec 12) (carried : Option Stamp) (at_ : Word) (n : Nat) : Reach (Option (List Byte)) :=
  if at_ = 0 || n = 0 then .ok none s
  else
    (s.readVa core ctx carried at_ n).andThen fun bs s => .ok (some bs) s

/-- What becomes of a launch. -/
inductive Launched where
  | accepted (launch : Nat) (s : State)
  | refused (s : State)
  | wait
  deriving Repr

/-- A context may launch: it exists and has not been ended (R318). -/
def State.mayLaunch (s : State) (ctx : BitVec 12) : Bool := ((Table.find s.ctxs ctx.toNat).map fun c => !c.ended).getD false

/-- Validate a block and accept its launch (R269, R270, R163, R181): no group is placed yet. A deterministic launch without
a core map uses logical core k on core k mod 256. -/
def State.launch (s : State) (core : Nat) (ctx : BitVec 12) (tag : Option (BitVec 16)) (seed : Option (BitVec 50)) (carried : Option Stamp)
    (ws : List Word) : Launched :=
  if !blockOk ws || !s.mayLaunch ctx then .refused s
  else
    match s.readList core ctx carried (blk ws 3) (32 * (blk ws 4).toNat) with
    | .wait _ => .wait
    | .bad _ s => .refused s
    | .absent _ s => .refused s
    | .ok rb s =>
      match s.readList core ctx carried (blk ws 10) (64 * (blk ws 11).toNat) with
      | .wait _ => .wait
      | .bad _ s => .refused s
      | .absent _ s => .refused s
      | .ok hb s =>
        match s.readList core ctx carried (blk ws 12) (2 * (blk ws 8).toNat) with
        | .wait _ => .wait
        | .bad _ s => .refused s
        | .absent _ s => .refused s
        | .ok cb s =>
          let m := if detOf ws then coremapOf (blk ws 8).toNat cb else []
          match handlesOf (hb.getD []) with
          | none => .refused s
          | some hs =>
            if !coremapOk (wheelSize (blk ws 0)) m then .refused s
            else
              let l : Launch := {
                ctx := ctx
                block := ws
                handles := hs
                ranges := rangesOf (rb.getD [])
                coremap := m
                tag := tag
                seedCount := seed
                round := s.round + 1 }
              let s := { s with launches := Table.insert s.launches s.nextId l, nextId := s.nextId + 1 }
              .accepted (s.nextId - 1) (s.placeRanges ctx l.ranges)

end Sys2Proof.Machine
end

