-- ==== Sys2Proof/Machine/Regions.lean ====
section
/-! DEFINITION. Forwarding regions: `xbeg`, `xend`, `xabt`, `xstat` (R246 to R253), the accesses of a region at its home
slices (R248, R249), delivery of an abort (R251), and the commit of a region (R164, R252); held requests (R152, R173). -/

namespace Sys2Proof.Machine

open Sys2Proof

-- Beginning -----------------------------------------------------------------------------------------------------------------

/-- The lowest free slot of the Unit (R246). -/
def State.freeSlot (s : State) : Option Nat := (List.range unitSlots).find? fun k => (Table.find s.slots k).isNone

/-- The region shadows of a core in use (R246). -/
def State.shadows (s : State) (core : Nat) : Nat :=
  s.groups.foldl (fun n p => if p.2.core = core then n + (p.2.waves.filter fun w => w.region.isSome).length else n) 0

/-- A shadow of the core and a slot of the Unit are free. -/
def State.canBegin (s : State) (core : Nat) : Bool := s.shadows core < 4 && s.freeSlot.isSome

/-- Open a region for an entity that stands after its `xbeg` (R246, R247): the shadow, the start stamp, and an idempotent
region with the same live-ins. -/
def State.openRegion (s : State) (a : Actor) (hdr : Word) (idx : Nat) (vmask : BitVec 32) (smask : BitVec 16) (fallback : Word)
    (sc : BitVec 6) : State :=
  match s.freeSlot, s.wave? a.g a.w, s.entity? a with
  | some k, some wv, some e =>
    let c := countMax s.startCount (count wv.cstamp) + 1
    let slot : Slot := { start := c, core := s.coreOfGroup a.g, g := a.g, w := a.w }
    let r : Region := {
      slot := k
      v := wv.v
      s := wv.s
      p := wv.p
      b := wv.b
      vmask := vmask
      smask := smask
      mask := e.mask
      ent := a.e
      fallback := fallback
      recs := e.recs
      sc := sc }
    let s := { s with slots := Table.insert s.slots k slot, startCount := c }
    (s.modWave a.g a.w fun wv => { wv with region := some r }).modEnt a fun e =>
      { e with entry := { taken := true, byRgn := false, hdr := hdr, idx := idx, vmask := vmask, smask := smask }, park := none }
  | _, _, _ => s

/-- XBEG (R246): it closes the idempotent region, acquires at `.dm`, and parks where no shadow or slot is free. -/
def execXbeg (smask : BitVec 16) (vmask : BitVec 32) (sc : BitVec 6) (fallback : BitVec 32) (s : State) :
    Host.Outcome State Fault Refusal :=
  instr { guard := ⟨7, false⟩, lane := false, vregs := maskHigh vmask, place := .notLast, ends := true, slots := 2 } s fun v _ =>
    if 1 < v.wv.ents.length then s.faultHere v false Cause.xrForbidden
    else s.afterReads v fun s =>
      let target := v.addr + ((fallback.signExtend 64) <<< 3)
      let s := (s.closeRegion v.a.g v.a.w).acquireAt v .dm none
      let s := s.retire v 2
      if s.canBegin v.gr.core && s.xbegQueue.isEmpty then s.openRegion v.a v.en.hdr v.en.idx vmask smask target sc
      else
        let s := { s with xbegQueue := s.xbegQueue ++ [v.a] }
        s.modEnt v.a fun e => { e with park := some .xbeg, pipe := none, waiting := some (v.en.hdr, v.en.idx, vmask, smask, target, sc) }

/-- A group is Running and not being saved. -/
def State.runs (s : State) (g : Nat) : Bool := ((s.group? g).map fun gr => gr.state == .running && !gr.saving).getD false

/-- XBEG_SERVE (R246): of the parked `xbeg`s that can be served, the one that parked first; one whose entity stands at a fault of an
instruction in flight cannot (R49). -/
def execXbegServe (s : State) : Host.Outcome State Fault Refusal :=
  .next (match s.xbegQueue.find? fun a => s.runs a.g && s.canBegin (s.coreOfGroup a.g) && ((s.entity? a).bind (·.fault)).isNone with
    | none => s
    | some a =>
      let s := { s with xbegQueue := s.xbegQueue.erase a }
      match s.entity? a with
      | some e =>
        match e.waiting with
        | some (hdr, idx, vmask, smask, target, sc) =>
          (s.openRegion a hdr idx vmask smask target sc).modEnt a fun e => { e with waiting := none }
        | none => s
      | none => s)

-- Accesses ------------------------------------------------------------------------------------------------------------------

/-- The regions of a list in ascending start-stamp order (R249). -/
def State.byStart (s : State) (l : List Nat) : List Nat := sortBy (fun a b => !older (s.startOf b) (s.startOf a)) l

/-- A region has written a granule. -/
def State.wrote (s : State) (k base : Nat) : Bool :=
  ((Table.find s.slots k).map fun x => x.dir.any fun d => d.gran == base && d.writes).getD false

/-- The depth of a region (R249). -/
def State.depthOf (s : State) (k : Nat) : Nat := ((Table.find s.slots k).map (·.depth)).getD 0

/-- The regions that consume from one. -/
def State.consumers (s : State) (k : Nat) : List Nat :=
  ((Table.find s.slots k).map fun x => (x.edges.filter fun e => e.2 == .forward).map (·.1)).getD []

/-- The longest chain of forward edges from a region; no chain has more than four. -/
def State.height (s : State) (k : Nat) : Nat → Nat
  | 0 => 0
  | fuel + 1 => (s.consumers k).foldl (fun n j => max n (State.height s j fuel + 1)) 0

/-- A region's depth rises, and that of every region that has consumed from it (R249). -/
def State.deepen (s : State) (k d : Nat) : Nat → State
  | 0 => s
  | fuel + 1 =>
    let s := { s with slots := Table.modify s.slots k fun x => { x with depth := max x.depth d } }
    (s.consumers k).foldl (fun s j => State.deepen s j (d + 1) fuel) s

/-- A read of region G takes a forward edge from F (R249): F is older and its depth at most 3, and no chain of forward edges gets
longer than 4 through those that G has itself (DEDUCED, log 96). -/
def State.forwards (s : State) (f k : Nat) : Bool :=
  older (s.startOf f) (s.startOf k) && s.depthOf f ≤ 3 && s.depthOf f + 1 + s.height k 5 ≤ 4

/-- What an access of a region meets at its slice (R249): its forward sources, or the region it waits for; nothing where
the cycle rule aborted it. -/
inductive Met where
  | go (s : State) (sources : List Nat)
  | wait (s : State) (f : Nat)
  | aborted (s : State)

/-- The read edges (R249), in ascending start-stamp order. -/
def State.readEdges (s : State) (k base : Nat) (sources : List Nat) : List Nat → Met
  | [] => .go s sources
  | f :: t =>
    if !s.wrote f base then s.readEdges k base sources t
    else if s.forwards f k then
      match s.addEdge f k .forward (unitSlots + 1) with
      | (s, true) => State.readEdges (s.deepen k (s.depthOf f + 1) 6) k base (sources ++ [f]) t
      | (s, false) => .aborted s
    else
      match s.addEdge f k .wait (unitSlots + 1) with
      | (s, true) => if (Table.find s.slots f).isSome then .wait s f else State.readEdges s k base sources t
      | (s, false) => .aborted s

/-- The write edges (R249). -/
def State.writeEdges (s : State) (k : Nat) (sources : List Nat) : List Nat → Met
  | [] => .go s sources
  | f :: t =>
    match s.addEdge f k .order (unitSlots + 1) with
    | (s, true) => State.writeEdges s k sources t
    | (s, false) => .aborted s

/-- Add an uncommitted write of a region (R206). -/
def State.addWrite (s : State) (k a : Nat) (data : List Byte) (atom : Bool) : State :=
  { s with
    slots := Table.modify s.slots k fun x => { x with writes := x.writes ++ [⟨s.unitOrder, a, data, atom⟩] }
    unitOrder := s.unitOrder + 1 }

/-- The bytes of an item as a region reads them; none where the committed ones are uncorrectable. -/
def State.regionRead (s : State) (k : Nat) (sources : List Nat) (i : ReqItem) : Option (List Byte) × State :=
  match s.readItem i.addr i.len with
  | (some bs, s) => (some (bs.zipIdx.map fun b => s.regionByte k sources (i.addr + b.2) b.1), s)
  | (none, s) => (none, s)

/-- Perform the items of a region's access. -/
def State.regionItems (s : State) (id k : Nat) (r : Req) (sources : List Nat) : List ReqItem → State
  | [] => s.dropReq id
  | i :: t =>
    match r.kind with
    | .store => State.regionItems (s.addWrite k i.addr i.data false) id k r sources t
    | .load =>
      match s.regionRead k sources i with
      | (some bs, s) =>
        let s := match r.agent with
          | .op g w o => s.modOp g w o fun x => x.take i bs
          | _ => s
        State.regionItems s id k r sources t
      | (none, s) => State.regionItems (s.refuseItem r i (Cause.access Cause.kLoad Cause.rUncorrectable)) id k r sources t
    | .atom op ty =>
      match s.regionRead k sources i with
      | (some bs, s) =>
        let (new, fl) := atomVal op ty (BitVec.ofNat 64 (ofBytes bs)) i.x i.cmp
        let s := match new with
          | some y => s.addWrite k i.addr (toBytes y.toNat i.len) true
          | none => s
        State.regionItems (s.oldValue r i bs (s.versionStamp r.gran) fl) id k r sources t
      | (none, s) => State.regionItems (s.refuseItem r i (Cause.access Cause.kAtomic Cause.rUncorrectable)) id k r sources t
    | .asof _ | .attrs _ _ => s.dropReq id

/-- A directory has no room for a region's entry on a granule (R248). -/
def State.dirFull (s : State) (k base : Nat) : Bool :=
  !(((Table.find s.slots k).map fun x => x.dir.any fun d => d.gran == base).getD false) && 4096 ≤ s.entriesAt (homeSlice base)

/-- A region's access reaches its home slice (R248, R249). Its core's line of the granule is dropped, so that no later load takes
an older version from it (R199). -/
def State.regionAccess (s : State) (id k : Nat) (r : Req) : State :=
  let slice := homeSlice r.gran
  if s.dirFull k r.gran then s.abortRegion k 0 Cause.xrCapacity
  else
    let others := s.byStart ((s.onGranule r.gran).filter (· ≠ k))
    let reads := match r.kind with
      | .store => false
      | _ => true
    let met := if reads then s.readEdges k r.gran [] others else .go s []
    match met with
    | .aborted s => s
    | .wait s f => s.holdReq id (.edge f (s.startOf f))
    | .go s sources =>
      let met := if r.kind.writes then s.writeEdges k sources (others.filter fun f => (Table.find s.slots f).isSome) else .go s sources
      match met with
      | .aborted s => s
      | .wait s _ => s
      | .go s sources =>
        let s := ((s.merge slice r.carried).countRequest r.gran).recall r.gran (s.requester r.agent)
        let s := if reads then s.enter k r.gran false else s
        let s := if r.kind.writes then s.enter k r.gran true else s
        let s := match r.agent with
          | .op g w _ => s.noteSeen g w (s.versionStamp r.gran)
          | _ => s
        (s.dropLine r.agent r.gran).regionItems id k r sources r.items

/-- REGION_ACCESS. -/
def execRegionAccess (req : Nat) (s : State) : Host.Outcome State Fault Refusal :=
  .next (match s.turnOf req with
    | some r =>
      match r.slot with
      | some k =>
        if s.barred r then s.refuseReq req r else if (Table.find s.slots k).isSome then s.regionAccess req k r else s
      | none => s
    | none => s)

-- Held requests ---------------------------------------------------------------------------------------------------------------

/-- Perform a request by its kind. -/
def State.performReq (s : State) (id : Nat) (r : Req) : State :=
  if s.barred r then s.refuseReq id r
  else
  match r.slot with
  | some k => if (Table.find s.slots k).isSome then s.regionAccess id k r else s
  | none =>
    match r.kind with
    | .load => s.performLoad id r
    | .store => s.performStore id r
    | .atom op ty => s.performAtomic id r op ty
    | .asof _ | .attrs _ _ => s

/-- The region that held a request has committed or aborted: its slot is free, or another region's. -/
def State.regionOver (s : State) (k : Nat) (start : BitVec 50) : Bool :=
  match Table.find s.slots k with
  | none => true
  | some x => x.start != start

/-- HELD_REQUEST_RELEASE (R152, R206, R249): the region that held it has committed or aborted; a request to another module leaves
its core. -/
def execHeldRequestRelease (req : Nat) (s : State) : Host.Outcome State Fault Refusal :=
  .next (match Table.find s.reqs req with
    | none => s
    | some r =>
      match r.held with
      | some .unsent => s.trySend req
      | some (.behind k c) | some (.edge k c) =>
        if s.regionOver k c then
          let r := { r with held := none }
          let s := { s with reqs := Table.insert s.reqs req r }
          if s.heldBack req r then s else s.performReq req r
        else s
      | _ => s)

-- Commit ------------------------------------------------------------------------------------------------------------------------

/-- Every source of an edge into a region has committed or aborted (R249). -/
def State.sourcesDone (s : State) (k : Nat) : Bool := !s.slots.any fun p => p.2.edges.any fun e => e.1 = k

/-- Requests of a region are still to be performed. -/
def State.accessing (s : State) (k : Nat) : Bool := s.reqs.any fun r => r.2.slot == some k

/-- The granules a region has written. -/
def Slot.written (x : Slot) : List Nat := (x.dir.filter (·.writes)).map (·.gran)

/-- Another region's `xend` has reached the Unit before, and no path leads to it from this one: it commits first (R252). -/
def State.endsBefore (s : State) (k n : Nat) : Bool :=
  s.slots.any fun p => p.1 ≠ k && (match p.2.ending with | some m => decide (m < n) | none => false) && !s.reach k p.1

/-- A region may commit: its `xend` has reached the Unit, nothing it depends on is outstanding, and it is its turn (R252). -/
def State.mayCommit (s : State) (k : Nat) : Bool :=
  match Table.find s.slots k with
  | some x =>
    match x.ending with
    | some n => s.sourcesDone k && !s.accessing k && !s.endsBefore k n
    | none => false
  | none => false

/-- The Whey bytes a region's commit needs in each stack (R252): one record for each versioned granule it overwrites. -/
def State.needs (s : State) (x : Slot) : Table Nat :=
  (x.written.filter fun g => (s.page (dpaPage g)).v).foldl (fun t g =>
    Table.insert t (dpaStack g) (Table.read t (dpaStack g) 0 + recordBytes (s.page (dpaPage g)).gran)) []

/-- Try to reserve what is not reserved yet, stack by stack, up to the first refusal (R252). -/
def State.reserve (s : State) (k : Nat) : List (Nat × Nat) → State × Bool
  | [] => (s, true)
  | (st, n) :: t =>
    let have_ := ((Table.find s.slots k).map fun x => Table.read x.reserved st 0).getD 0
    if n ≤ have_ then State.reserve s k t
    else
      let s := s.makeRoom st n (some k) ((s.stack st).log.length + 1)
      if s.wheyRoom st n (some k) then
        State.reserve { s with slots := Table.modify s.slots k fun x => { x with reserved := Table.insert x.reserved st n } } k t
      else
        let s := { s with slots := Table.modify s.slots k fun x => { x with state := .committing, tried := some (s.round, st, s.freedAt st) } }
        (s.modStack st fun y => { y with refused := y.refused + 1 }, false)

/-- The designated slice of a region's commit (R164). -/
def Slot.chief (x : Slot) : Nat :=
  let ws := x.written.map homeSlice
  ws.foldl (fun m k => if k < m then k else m) (ws.headD 0)

/-- The home slices of a region's read and write sets. -/
def Slot.slices (x : Slot) : List Nat := (x.dir.map fun d => homeSlice d.gran).eraseDups

/-- The largest of the counts above which a region's stamp is formed (R164). -/
def State.regionBase (s : State) (x : Slot) (carried : Stamp) : BitVec 50 :=
  let base := countMax (s.sliceCount x.chief) (count carried)
  let base := x.slices.foldl (fun c k => countMax c (s.sliceCount k)) base
  match x.sources with
  | some y => countMax base (count y)
  | none => base

/-- The region's stamp and the slices that take its count (R164). -/
def State.regionStamp (s : State) (x : Slot) (carried : Stamp) : Stamp × State :=
  let c := s.regionBase x carried + 1
  let s := x.slices.foldl (fun s k => s.setCount k (countMax (s.sliceCount k) c)) (s.setCount x.chief c)
  (mkStamp c (s.originOf x.chief), { s with cmCount := c })

/-- The stamp that a region would get lies above that of every region committed before it (R207): until it does, the commit waits
for the counts that the rounds of the notification network bring (DEDUCED, log 97). -/
def State.inOrder (s : State) (x : Slot) (carried : Stamp) : Bool := (countAbove s.cmCount (s.regionBase x carried)).isNone

/-- A granule that a region has written lies in a line that the host holds: its commit waits for the snoop (R257). -/
def State.regionSnoops (s : State) (x : Slot) : Bool := x.written.any s.snooping

/-- The last write of each byte of a granule, in order (R252). -/
def granuleWrites (s : State) (x : Slot) (base : Nat) : List (Nat × List Byte) :=
  let n := granSize (s.page (dpaPage base)).gran
  (x.writes.filter fun w => base ≤ w.addr && w.addr < base + n).map fun w => (w.addr, w.data)

/-- The kind by which a region's dropped commit of a granule is reported (R372): one whose writes are all of atomics is an atomic's, any
other a store's (DESIGN CHOICE, log 117). -/
def Slot.droppedKind (x : Slot) (base n : Nat) : Nat :=
  if (x.writes.filter fun w => base ≤ w.addr && w.addr < base + n).all (·.atom) then Cause.kAtomic else Cause.kStore

/-- Perform a region's writes under its stamp (R252). -/
def State.commitGranules (s : State) (k : Nat) (x : Slot) (stamp : Stamp) (launch : Option Nat) (ctx : BitVec 12) : List Nat → State
  | [] => s
  | g :: t =>
    let s := match s.commit g (granuleWrites s x g) none (some stamp) launch (some k) with
      | .done _ s => s.dropLine (.wave x.g x.w) g
      | .refused s => s
      | .dropped s =>
        let kind := x.droppedKind g (granSize (s.page (dpaPage g)).gran)
        s.record .writeDropped (Cause.access kind Cause.rUncorrectable) ctx 0 0 (BitVec.ofNat 64 (s.dpaOf g))
    State.commitGranules s k x stamp launch ctx t

/-- A granule that a deterministic region read has been written since (R292). -/
def State.overtaken (s : State) (r : Region) : Bool := r.reads.any fun g => (countAbove (count (s.ownStamp g.1)) g.2).isSome

/-- Commit a region (R252). Its `xend` then releases and performs the queued stores of other spaces. -/
def State.commitRegion (s : State) (k : Nat) : State :=
  match Table.find s.slots k with
  | none => s
  | some x =>
    match s.group? x.g, s.wave? x.g x.w with
    | some gr, some wv =>
      let carried := (stampJoin (some wv.cstamp) (s.lastOf x.g)).getD wv.cstamp
      if ((wv.region.map s.overtaken).getD false) then s.abortRegion k 0 Cause.xrCycle
      else if !s.inOrder x carried || s.regionSnoops x then s
      else
      match s.reserve k (s.needs x) with
      | (s, false) => s
      | (s, true) =>
        let (stamp, s) := s.regionStamp x carried
        let s := s.noteLast x.g stamp
        let s := s.commitGranules k x stamp (some gr.launch) gr.ctx x.written
        let consumers := (x.edges.filter fun e => e.2 == .forward).map (·.1)
        let s := { s with slots := Table.mapValues (Table.erase s.slots k) fun j y =>
          if consumers.contains j then { y with sources := stampJoin y.sources (some stamp) } else y }
        s.modWave x.g x.w fun wv => { wv with
          region := none
          stored := stampJoin wv.stored (some stamp)
          ops := Table.mapValues wv.ops fun _ o => match o.body with | .xend => { o with ready := true } | _ => o }
    | _, _ => s

/-- REGION_COMMIT. -/
def execRegionCommit (slot : Nat) (s : State) : Host.Outcome State Fault Refusal :=
  .next (if ((Table.find s.slots slot).map fun x => x.state == .live).getD false && s.mayCommit slot then s.commitRegion slot else s)

/-- WHEY_RETRY (R173): a held append or reservation is tried again. -/
def execWheyRetry (h : HeldRef) (s : State) : Host.Outcome State Fault Refusal :=
  .next (match h with
    | .req id =>
      match Table.find s.reqs id with
      | some r =>
        match r.held with
        | some (.whey n f) =>
          if s.mayRetry n f (dpaStack r.gran) && !s.heldBack id r then
            let r := { r with held := none }
            { s with reqs := Table.insert s.reqs id r }.performReq id r
          else s
        | _ => s
      | none => s
    | .region k =>
      match Table.find s.slots k with
      | some x =>
        match x.state, x.tried with
        | .committing, some (n, st, f) =>
          if s.mayRetry n f st then { s with slots := Table.insert s.slots k { x with state := .live } }.commitRegion k else s
        | _, _ => s
      | none => s)

-- Ending ---------------------------------------------------------------------------------------------------------------------------

/-- Enter a deterministic region's accesses in the directories, its writes behind the regions that have entries there (R248, R249,
R292); false where that has aborted it. -/
def State.enterAll (s : State) (k : Nat) : List (Nat × Option (Nat × List Byte × Bool)) → State × Bool
  | [] => (s, true)
  | (base, w) :: t =>
    if s.dirFull k base then (s.abortRegion k 0 Cause.xrCapacity, false)
    else
      match w with
      | none => State.enterAll (s.enter k base false) k t
      | some (a, data, atom) =>
        match s.writeEdges k [] ((s.onGranule base).filter (· ≠ k)) with
        | .go s _ => State.enterAll ((s.enter k base true).addWrite k a data atom) k t
        | .wait s _ => (s, false)
        | .aborted s => (s, false)

/-- A write that a wave of a context holds to `.g` comes to a page whose owner entry lets the context in (R323). -/
def State.heldAllowed (s : State) (ctx : BitVec 12) (i : SqItem) : Bool := ownerAllows (s.page (dpaPage (dpaLocal i.addr))).owner ctx

/-- The writes that a wave holds to `.g`, by granule, as far as their pages let them in. -/
def State.heldWrites (s : State) (ctx : BitVec 12) (wv : Wave) : List (Nat × Option (Nat × List Byte × Bool)) :=
  (wv.sq.filter fun e => e.sp == .g).flatMap fun e => (e.items.filter fun i => s.heldAllowed ctx i).map fun i =>
    (s.granOf (dpaLocal i.addr), some (dpaLocal i.addr, i.data, e.atom))

/-- The granules whose owner entries refuse writes that a wave holds (R323): each is reported as a retired store's (log 29). -/
def State.reportHeld (s : State) (ctx : BitVec 12) (wv : Wave) : State :=
  let bad := (wv.sq.filter fun e => e.sp == .g).flatMap fun e => (e.items.filter fun i => !s.heldAllowed ctx i).map fun i =>
    (s.granOf (dpaLocal i.addr), e.atom)
  bad.eraseDups.foldl (fun s b =>
    s.record .writeDropped (Cause.access (if b.2 then Cause.kAtomic else Cause.kStore) Cause.rPermission) ctx 0 0 (BitVec.ofNat 64 (s.dpaOf b.1))) s

/-- In deterministic mode a region's held writes become the Unit's at its `xend` (R292), where their home slices check them (R323). -/
def State.handOver (s : State) (k : Nat) (r : Region) (ctx : BitVec 12) (wv : Wave) : State × Bool :=
  (s.reportHeld ctx wv).enterAll k (r.reads.map (fun g => (g.1, none)) ++ s.heldWrites ctx wv)

/-- XEND (R252): outside a region it closes the idempotent region and completes once that release is made; inside, it waits
for the Unit. -/
def execXend (g : Guard) (fl : BitVec 4) (s : State) : Host.Outcome State Fault Refusal :=
  instr { guard := g, lane := false, inRegion := true, ends := true, long := some ⟨0, fl⟩ } s fun v act =>
    match v.wv.region with
    | none => (s.closeRegion v.a.g v.a.w).issueLong v ⟨0, fl⟩ act true .xend false []
    | some r =>
      if 1 < v.wv.ents.length then s.faultHere v false Cause.xrForbidden
      else if s.det v.gr && s.overtaken r then s.abortRegion r.slot 0 Cause.xrCycle
      else
        let (s, ok) := if s.det v.gr then
            let (s, ok) := s.handOver r.slot r v.gr.ctx v.wv
            (s.modWave v.a.g v.a.w fun wv => { wv with sq := wv.sq.filter fun e => e.sp != .g }, ok)
          else (s, true)
        if !ok then s
        else
          let s := { s with
            slots := Table.modify s.slots r.slot fun x => { x with ending := some s.unitOrder }
            unitOrder := s.unitOrder + 1 }
          s.issueLong v ⟨0, fl⟩ act true .xend false []

/-- XABT (R253): it has been issued and completed, and counts as retired (R51). -/
def execXabt (g : Guard) (sa : BitVec 6) (s : State) : Host.Outcome State Fault Refusal :=
  instr { guard := g, lane := false, place := .last, inRegion := true, drains := true } s fun v _ =>
    match v.wv.region with
    | none => s.retireClose v id
    | some r => (s.abortRegion r.slot ((v.sval s.tick sa).setWidth 8) Cause.xrExplicit).modWave v.a.g v.a.w fun wv =>
        wv.countRetired (s.det v.gr) (s.quantumOf v.gr) v.a.e

/-- XSTAT (R253). -/
def execXstat (g : Guard) (sd : BitVec 6) (s : State) : Host.Outcome State Fault Refusal :=
  instr { guard := g, lane := false, inRegion := true } s fun v _ =>
    let x : Word := match v.wv.region with
      | none => 0
      | some r => (1 : BitVec 1) ++ (0 : BitVec 4) ++ BitVec.ofNat 3 (s.depthOf r.slot) ++ BitVec.ofNat 8 r.slot ++ (0 : BitVec 48)
    s.retireWith v (v.putS s.tick sd x)

-- Delivery -------------------------------------------------------------------------------------------------------------------------

/-- The live-in v-registers as the shadow holds them, the others as they are (R30, R251). -/
def restoreV (mask : BitVec 32) (shadow cur : Table (List Lane)) : Table (List Lane) :=
  (List.range 256).foldl (fun t n =>
    if mask.getLsbD (n / 8) then Table.write t n (Table.read shadow n zeroLanes) zeroLanes else t) cur

/-- The live-in s-registers likewise. -/
def restoreS (mask : BitVec 16) (shadow cur : Table Word) : Table Word :=
  (List.range 64).foldl (fun t n => if mask.getLsbD (n / 4) then Table.write t n (Table.read shadow n 0) 0 else t) cur

/-- The wave after an abort has been delivered (R251): what it did since `xbeg` is discarded, every flag reads set, the
shadow is restored, `sc` is written, and its entity resumes at the fallback. -/
def Wave.deliver (wv : Wave) (r : Region) (word : Word) : Wave :=
  let old := (Table.find wv.ents r.ent).getD { mask := r.mask, hdr := r.fallback }
  let e : Entity := {
    frag := old.frag
    mask := r.mask
    hdr := r.fallback
    recs := r.recs
    passed := old.passed
    marked := old.marked
    skip := old.skip }
  { wv with
    v := restoreV r.vmask r.v wv.v
    s := Table.write (restoreS r.smask r.s wv.s) r.sc.toNat word 0
    p := r.p
    b := r.b
    f := []
    sq := []
    ops := []
    region := none
    ents := [(r.ent, e)]
    sRace := []
    quantum := match wv.quantum with | .running => .running | _ => .done }

/-- A command no longer sets a flag of a wave. -/
def Cmd.forget (k : Cmd) (g w : Nat) : Cmd :=
  match k.op with
  | some o => if k.g = g && o.1 = w then { k with op := none } else k
  | none => k

/-- ABORT_DELIVERY (R251). -/
def execAbortDelivery (g w : Nat) (s : State) : Host.Outcome State Fault Refusal :=
  .next (match (s.wave? g w).bind (·.region) with
    | some r =>
      match r.aborted with
      | some word =>
        let s := { s with
          reqs := Table.drop s.reqs fun _ q => match q.agent with | .op g' w' _ => g' == g && w' == w | _ => false
          cmds := Table.mapValues s.cmds fun _ (k : Cmd) => k.forget g w }
        (s.modWave g w fun wv => wv.deliver r word).modGroup g fun gr => { gr with triggered := gr.triggered.filter fun x => x.1 ≠ w }
      | none => s
    | none => s)

end Sys2Proof.Machine
end

