-- ==== Sys2Proof/Machine/Saving.lean ====
section
/-! DEFINITION. Pre-emption of a group (R50, R362 to R366): what defers it, how it begins, what each wave's image holds; and
eligibility for placement (R274). -/

namespace Sys2Proof.Machine

open Sys2Proof

/-- A group's pre-emption is deferred (R362): a wave is in a forwarding region, or has made no progress since it resumed. -/
def Group.saveDeferred (gr : Group) : Bool := gr.waves.any fun wv => wv.region.isSome || (wv.resumed && !wv.ents.isEmpty)

/-- An entity stops: no pipe, and its clause header is fetched again when it goes on (R35, R365). -/
def Entity.stop (e : Entity) : Entity := { e with pipe := none, clause := none }

/-- Pre-emption releases the debugger's hold of the group's matrix engine, and the step it is held in completes (R132, R399). -/
def State.releaseHold (s : State) (g : Nat) : State :=
  match s.group? g with
  | none => s
  | some gr => if (Table.find s.mbd.halts gr.core).any fun id => s.groupOfCmd id = g then s.unhalt gr.core else s

/-- A save begins (R365): selection of the group's entities stops. -/
def State.beginSave (s : State) (g : Nat) : State :=
  (s.releaseHold g).modGroup g fun gr => { gr with
    saving := true
    waves := gr.waves.map fun wv => { wv with ents := Table.mapValues wv.ents fun _ e => e.stop } }

/-- An engine command or a message still outstanding: its flag reads clear until it completes (R50). -/
def OpBody.outstanding : OpBody → Bool
  | .cmd _ | .msg _ _ _ _ _ => true
  | _ => false

/-- An instruction in flight that a save leaves alone: an engine command, a message, one that has faulted (R49, R50). -/
def LongOp.kept (o : LongOp) : Bool :=
  o.faulted || o.blocked || o.body.outstanding

/-- An entity parked in a parking instruction (R364). -/
def Entity.parkedIn (e : Entity) : Bool := e.park.isSome && e.fault.isNone

/-- The wave is restarted from its entries (R365, R366): each entity is in a region that an `rgn` opened, or parked in a parking
instruction; none is parked at a fault, whose position is kept (DEDUCED, log 23). -/
def Wave.restarts (wv : Wave) : Bool := wv.ents.all fun e => e.2.parkedIn || (e.2.park.isNone && e.2.entry.taken && e.2.entry.byRgn)

/-- What the save of a wave still waits for (R366): instructions in flight, of a restarted wave those of earlier regions. -/
def Wave.saveWaits (wv : Wave) (det : Bool) : Bool :=
  !wv.late.isEmpty || wv.ops.any fun o => !o.2.kept && (det || !wv.restarts || o.2.early)

/-- An instruction's flag reads set after a save; its replay raises it again. -/
def LongOp.unflag (o : LongOp) : LongOp := if o.body.outstanding then o else { o with fl := none, again := o.fl.or o.again }

/-- The flag counts after a pre-emption (R50): of what stays in flight only engine commands and messages count. -/
def Wave.recount (wv : Wave) : Wave :=
  let wv := { wv with ops := Table.mapValues wv.ops fun _ (o : LongOp) => o.unflag }
  wv.ops.foldl (fun w o => w.flagUp o.2.fl) { wv with f := [] }

/-- An entity restarts at its region's entry, which opens it again (R367). -/
def Entity.restart (e : Entity) : Entity :=
  if e.park.isSome then e
  else
    { e with
      hdr := e.entry.hdr
      idx := e.entry.idx
      entry := { byRgn := true, hdr := e.entry.hdr, idx := e.entry.idx }
      stage := 0
      replay := none
      fault := none }

/-- The live-in groups of a restarted wave (R365): every group where an entity is parked. -/
def Wave.liveV (wv : Wave) : BitVec 32 := wv.ents.foldl (fun m e => m ||| if e.2.park.isSome then BitVec.allOnes 32 else e.2.entry.vmask) 0
def Wave.liveS (wv : Wave) : BitVec 16 := wv.ents.foldl (fun m e => m ||| if e.2.park.isSome then BitVec.allOnes 16 else e.2.entry.smask) 0

/-- A thread's part of a v-register is lost (R301, R367): it lies outside the live-ins of the thread's own entity, where that
restarts; a parked entity keeps its threads' parts. A thread that is active in no entity has the union (DEDUCED, log 107). -/
def Wave.lost (wv : Wave) (n t : Nat) : Bool :=
  match wv.ents.find? fun e => e.2.mask.getLsbD t with
  | some e => e.2.park.isNone && !e.2.entry.vmask.getLsbD (n / 8)
  | none => !wv.liveV.getLsbD (n / 8)

/-- The v-registers that a restarted wave keeps: lost parts read zero. -/
def Wave.keptV (wv : Wave) : Table (List Lane) :=
  (Table.mapValues wv.v fun n ls => ls.zipIdx.map fun x => if wv.lost n x.2 then 0 else x.1).filter fun r => r.2 ≠ zeroLanes

/-- The image of a wave that restarts from its entries: what its region did is discarded, registers outside the live-ins are
lost (R365, R367); the s-registers, which the entities share, by the union of their live-ins (DEDUCED, log 107). -/
def Wave.imageRestarted (wv : Wave) : Wave :=
  { wv with
    v := wv.keptV
    s := Table.drop wv.s fun n _ => !wv.liveS.getLsbD (n / 4)
    sq := []
    ops := Table.drop wv.ops fun _ o => !o.kept
    ents := Table.mapValues wv.ents fun _ e => e.restart }.recount

/-- Write the image of one wave (R365, R366). -/
def State.saveWave (s : State) (g w : Nat) (det : Bool) : State :=
  match s.wave? g w with
  | none => s
  | some wv =>
    if det then s.modWave g w Wave.recount
    else if wv.restarts then
      let dropped := wv.ops.filter fun o => !o.2.kept
      let gone : List Nat := dropped.map (·.1)
      let s := dropped.foldl (fun s o => s.leaveSave o.2) s
      { s with reqs := Table.drop s.reqs fun _ r => gone.any fun id => r.agent == Agent.op g w id }.modWave g w Wave.imageRestarted
    else (s.closeRegion g w).modWave g w Wave.recount

/-- How a save goes on. -/
inductive Saved where
  | later (s : State)
  | noRoom (s : State)
  | saved (s : State)

/-- A turn of a save that has begun: once nothing is waited for, the image is written and the core is free (R365). -/
def State.trySave (s : State) (g : Nat) : Saved :=
  match s.group? g with
  | none => .later s
  | some gr =>
    let det := s.det gr
    if gr.waves.any fun wv => wv.saveWaits det then .later s
    else if s.reserveLacks (gr.core / 16) then .noRoom (s.modGroup g fun gr => { gr with saving := false, powerSave := false })
    else
      let s := (List.range gr.waves.length).foldl (fun s w => s.saveWave g w det) s
      .saved (s.modGroup g fun gr => { gr with state := .swapped, saving := false, powerSave := false, eligible := none })

/-- A Swapped group becomes eligible for placement, after those that are (R274). -/
def State.makeEligible (s : State) (g : Nat) : State :=
  match (s.group? g).bind (·.eligible) with
  | some _ => s
  | none => { s.modGroup g fun gr => { gr with eligible := some s.eligibleOrder } with eligibleOrder := s.eligibleOrder + 1 }

end Sys2Proof.Machine
end

