-- ==== Sys2Proof/Machine/Completion.lean ====
section
/-! DEFINITION. Completion of long-latency instructions (R44, R48, R49): loads and results, atomics (R237, R238), deques (R308),
messages (R309), launches (R312), page attributes (R167, R324, R344), invalidations (R322, R345), caches (R346); a replayed
fault (R359). -/

namespace Sys2Proof.Machine

open Sys2Proof

-- Writing results -------------------------------------------------------------------------------------------------------

/-- A result is written to a register in a thread: something issued later may have written it since (R48, log 3). -/
def LongOp.writes (o : LongOp) (tick id key t : Nat) : Bool :=
  !(Table.read o.clob key 0).getLsbD t || Config.pick tick (2 ^ 66 + 2 ^ 20 * id + 1024 * key + t)

/-- Write one v-register at completion. -/
def Wave.landV (wv : Wave) (tick id : Nat) (o : LongOp) (r : Nat) (act : Mask) (f : Nat → Lane) : Wave :=
  let m := maskOf ((threads act).filter fun t => o.writes tick id r t)
  (wv.noteWrite [r] m).setLanes r m f

/-- Write an s-register at completion. -/
def Wave.landS (wv : Wave) (tick id : Nat) (o : LongOp) (n : BitVec 6) (x : Word) : Wave :=
  if o.writes tick id (256 + n.toNat) 0 then wv.writeS tick o.ent n.toNat x else wv

/-- Write p6 at completion. -/
def Wave.landP6 (wv : Wave) (tick id : Nat) (o : LongOp) (b : Bool) : Wave :=
  wv.setP6 (maskOf ((threads o.mask).filter fun t => o.writes tick id 512 t)) b

/-- Write a destination of a type at completion, in the threads of a mask. -/
def Wave.landReg (wv : Wave) (tick id : Nat) (o : LongOp) (d : Reg) (wide : Bool) (act : Mask) (f : Nat → Word) : Wave :=
  match d with
  | .s n => if act = 0 then wv else wv.landS tick id o n (f (lowest act))
  | .v n =>
    let wv := wv.landV tick id o n.toNat act fun t => (f t).setWidth 32
    if wide then wv.landV tick id o (n.toNat + 1) act fun t => (f t >>> 32).setWidth 32 else wv

/-- The threads that are finished (R229): of a uniform instruction all or none. -/
def LongOp.finished (o : LongOp) : Mask :=
  if o.refused.isEmpty then o.mask
  else if o.uni then 0
  else o.mask &&& ~~~(maskOf (o.refused.map (·.thread)))

/-- The results of the finished threads, with the flags merged (R95). -/
def Wave.putResults (wv : Wave) (tick id : Nat) (o : LongOp) : Wave :=
  let act := o.finished
  match o.body with
  | .alu d ty _ fl => (wv.landReg tick id o d ty.wide act fun t => (o.newWord t).getD 0).raise fl
  | .load _ d ty _ => wv.landReg tick id o d ty.wide act fun t => (o.newWord t).getD 0
  | .asof d ty _ _ => wv.landReg tick id o d ty.wide act fun t => (o.newWord t).getD 0
  | .atom _ _ ty _ (some d) _ => (wv.landReg tick id o d ty.wide act fun t => (o.newWord t).getD 0).raise o.flags
  | .atom _ _ _ _ none _ => wv.raise o.flags
  | _ => wv

/-- An instruction has completed: its flag counts down, and it is in flight no more (R44). -/
def Wave.finishOp (wv : Wave) (id : Nat) (o : LongOp) : Wave := { wv.flagDown o.fl with ops := Table.erase wv.ops id }

/-- A replayed instruction has completed in deterministic mode: it counts as retired in this quantum (R51, R290, log 47). -/
def State.countReplayed (s : State) (g w : Nat) (o : LongOp) : State :=
  match s.group? g with
  | some gr => s.modWave g w fun wv =>
      if wv.quantum == .running then wv.countRetired (s.det gr) (s.quantumOf gr) o.ent else { wv with retired := wv.retired + 1 }
  | none => s

/-- Complete an instruction, with what it writes. -/
def State.finishOp (s : State) (g w id : Nat) (o : LongOp) (f : Wave → Wave) : State :=
  let s := s.modWave g w fun wv => f (wv.finishOp id o)
  let s := if o.uncounted then s.countReplayed g w o else s
  match s.wave? g w with
  | some wv => s.flushLate g w (wv.late.length + 1)
  | none => s

-- Faults at completion (R49, R229) -----------------------------------------------------------------------------------------

/-- Of two refusals the one that is reported (R229): of the lower thread, and of its lower piece. -/
def Denied.first (a b : Denied) : Denied :=
  if b.thread < a.thread || (b.thread = a.thread && b.addr.toNat < a.addr.toNat) then b else a

/-- The refusal that is reported. -/
def LongOp.denied (o : LongOp) : Denied := o.refused.foldl Denied.first (o.refused.headD ⟨0, 0, 0⟩)

/-- A parked instruction keeps only its unfinished threads. -/
def LongOp.unfinished (o : LongOp) (lanes : Mask) : LongOp := { o with mask := lanes, refused := [], got := [], faulted := true, blocked := false }

/-- What remains of a `load`'s local pieces is no more to be read; an atomic's items are done. -/
def OpBody.drained : OpBody → OpBody
  | .load sp d ty _ => .load sp d ty []
  | .atom sp op ty sc d _ => .atom sp op ty sc d []
  | b => b

/-- In deterministic mode an instruction that faults has not completed, and does not count as retired until its replay has (R51,
R290, log 47). -/
def Wave.uncount (wv : Wave) (det : Bool) (id : Nat) (o : LongOp) : Wave :=
  if det && !o.uncounted then { wv.modOp id (fun o => { o with uncounted := true }) with retired := wv.retired - 1 } else wv

/-- The instruction faults in some threads (R49): the finished ones keep their results, and the entity parks at it, once it is
parked at no other fault. Where the entity is Gone nothing is left to park, and the instruction completes. -/
def State.faultOp (s : State) (g w id : Nat) (o : LongOp) : State :=
  let a : Actor := ⟨g, w, o.ent⟩
  let d := o.denied
  match s.entity? a with
  | none => s.finishOp g w id o fun wv => wv.putResults s.tick id o
  | some e =>
    if e.fault.isSome then s.modOp g w id fun o => { o with blocked := true }
    else
      let lanes := deniedMask o.uni o.mask o.refused
      let s := s.modWave g w fun wv => ((wv.putResults s.tick id o).modOp id fun _ => { o.unfinished lanes with body := o.body.drained }).uncount
        (s.detAt g) id o
      s.takeFault a d.cause d.addr lanes (some id)

/-- A refusal of a uniform instruction as a whole: LANEMASK names its lowest active thread. -/
def State.faultWhole (s : State) (g w id : Nat) (o : LongOp) (c : Cause) (addr : Word) : State :=
  let a : Actor := ⟨g, w, o.ent⟩
  match s.entity? a with
  | none => s.finishOp g w id o (fun wv => wv)
  | some e =>
    if e.fault.isSome then s.modOp g w id fun o => { o with blocked := true }
    else
      (s.modWave g w fun wv => (wv.modOp id fun o => { o with faulted := true, blocked := false }).uncount (s.detAt g) id o).takeFault a c addr
        (oneMask (lowest o.mask)) (some id)

-- What an instruction waits for ----------------------------------------------------------------------------------------------

/-- An acquiring instruction of the same entity, issued before, has not completed (R202). -/
def Wave.behindAcquire (wv : Wave) (id : Nat) (o : LongOp) : Bool := wv.acquiring o.ent id

/-- Released local stores numbered before the instruction have not been performed (R202). -/
def Wave.behindLate (wv : Wave) (id : Nat) : Bool := wv.late.any fun e => e.1 < id

/-- Requests of the instruction are outstanding. -/
def State.asksFor (s : State) (g w id : Nat) : Bool := s.reqs.any fun r => r.2.agent == .op g w id

/-- A deque instruction. -/
def OpBody.isDq : OpBody → Bool
  | .dqPush _ | .dqPop _ | .dqSteal _ _ => true
  | _ => false

/-- An earlier deque instruction of the entity has not completed. -/
def Wave.behindDq (wv : Wave) (id : Nat) (o : LongOp) : Bool := wv.ops.any fun p => p.1 < id && p.2.isOf o.ent && p.2.body.isDq

-- Atomics (R237, R238) -----------------------------------------------------------------------------------------------------------

/-- One item of an atomic on the scratchpad (R185, R237): in its turn it is read, combined and written. -/
def State.atomLocal (s : State) (g w id : Nat) (warn : Bool) (op : AtomOp) (ty : Ty) (i : AtomItem) : State :=
  match s.group? g with
  | none => s
  | some gr =>
    match gr.sp.refuses warn .sp i.addr ty.bytes with
    | some c => s.modOp g w id fun o => { o with refused := o.refused ++ [⟨i.thread, c, BitVec.ofNat 64 i.addr⟩] }
    | none =>
      let bs := gr.sp.read i.addr ty.bytes
      let (new, fl) := atomVal op ty (BitVec.ofNat 64 (ofBytes bs)) i.x i.cmp
      let c := ((s.wave? g w).map (·.cstamp)).getD 0
      let s := s.modWave g w fun wv => { wv with seen := stampJoin wv.seen (gr.sp.stampOf i.addr ty.bytes) }
      let s := match new with
        | some y => s.modGroup g fun gr => (gr.storeLocal .sp i.addr (toBytes y.toNat ty.bytes)).noteStamps .sp i.addr ty.bytes c
        | none => s
      s.modOp g w id fun o => { o with got := gotBytes o.got i.thread (bs.zipIdx.map fun b => (b.2, b.1)), flags := o.flags ||| fl }

/-- An atomic on the scratchpad is performed by the core, item by item; its uninitialised reads are noted once, where it does not
fault (R185). -/
def State.atomLocals (s : State) (g w id : Nat) (gr : Group) (op : AtomOp) (ty : Ty) (items : List AtomItem) : State :=
  let s := items.foldl (fun s i => s.atomLocal g w id (s.warns gr) op ty i) (s.readLocals g w id)
  let faults := (((s.wave? g w).bind fun wv => Table.find wv.ops id).map fun o => !o.refused.isEmpty).getD true
  match gr.sp.firstInvalid (items.map fun i => ⟨i.thread, 0, i.addr, ty.bytes⟩) with
  | some a => if s.warns gr && !faults then s.modGroup g fun gr => gr.noteUninit .sp a else s
  | none => s

/-- The release half of an atomic has been made: it is performed (R238). -/
def State.startAtom (s : State) (g w id : Nat) (gr : Group) (sp : Space) (op : AtomOp) (ty : Ty) (items : List AtomItem) : State :=
  let s := (s.modWave g w Wave.releaseStamps).modOp g w id fun o => { o with ready := true, body := o.body.drained }
  if sp == .g then
    let r : Req := {
      agent := .op g w id
      ctx := gr.ctx
      launch := some gr.launch
      kind := .atom op ty
      gran := 0
      items := []
      carried := (s.wave? g w).map (·.cstamp) }
    s.sendItems r (items.map (AtomItem.item ty.bytes))
  else s.atomLocals g w id gr op ty items

/-- An atomic has been performed: the acquire half of `atom` (R153, R238). -/
def State.finishAtom (s : State) (g w id : Nat) (gr : Group) (o : LongOp) (sc : Scope) (acq : Bool) : State :=
  let s := s.finishOp g w id o fun wv =>
    let wv := wv.putResults s.tick id o
    if acq && !o.inRegion then wv.acquire else wv
  let s := if acq && !o.inRegion then s.recarry g w id o else s
  if acq && Scope.wide sc && !o.inRegion then s.dropL1 gr.core else s

-- Deques (R283, R308) -----------------------------------------------------------------------------------------------------------------

/-- A push into the own core's deque. -/
def State.dqPushOp (s : State) (g w id : Nat) (gr : Group) (o : LongOp) (x : Word) : State :=
  let s := s.modWave g w Wave.releaseStamps
  let t := ((s.wave? g w).map (·.cstamp)).getD 0
  let full := (s.coreOf gr.core).fullTo gr.launch
  let s := if full then s else s.modCore gr.core fun c => c.pushBottom gr.launch ⟨x, t, false⟩
  s.finishOp g w id o fun wv => wv.landP6 s.tick id o (!full)

/-- The deque holds entries for a launch. -/
def Core.offers (c : Core) (launch : Nat) : Bool := !c.deque.isEmpty && c.dqLaunch == some launch

/-- Take an entry that a deque gives up, with its acquire (R195, R308); the start of a wave-task acquires at `.pk` (R193). A failed
operation clears p6. -/
def State.dqTake (s : State) (g w id : Nat) (gr : Group) (o : LongOp) (sd : BitVec 6) (sc : Scope) (x : Option DqEntry) : State :=
  match x with
  | none => s.finishOp g w id o fun wv => wv.landP6 s.tick id o false
  | some e =>
    let s := s.finishOp g w id o fun wv => (((wv.landS s.tick id o sd e.word).landP6 s.tick id o true).acquire).mergeStamp (some e.stamp)
    let s := s.recarry g w id o
    let sc := if e.task then .pk else sc
    if Scope.wide sc then s.dropL1 gr.core else s

/-- A pop takes the bottom entry of the own core's deque. -/
def State.dqPopOp (s : State) (g w id : Nat) (gr : Group) (o : LongOp) (sd : BitVec 6) : State :=
  let c := s.coreOf gr.core
  if c.offers gr.launch then
    (s.modCore gr.core fun c => { c with deque := c.deque.dropLast, bottom := c.bottom - 1 }).dqTake g w id gr o sd .gp c.deque.getLast?
  else s.dqTake g w id gr o sd .gp none

/-- A steal takes the top entry of a core's deque. -/
def State.dqStealOp (s : State) (g w id : Nat) (gr : Group) (o : LongOp) (sd : BitVec 6) (core : Nat) : State :=
  let c := s.coreOf core
  if c.offers gr.launch then
    (s.modCore core fun c => { c with deque := c.deque.drop 1, top := c.top + 1 }).dqTake g w id gr o sd .pk c.deque.head?
  else s.dqTake g w id gr o sd .pk none

-- Messages (R284, R309) ----------------------------------------------------------------------------------------------------------------

/-- A group of a launch has not been placed yet (R273): its linear index is above those placed, given back, or in a batch. -/
def State.isQueued (s : State) (launch lin : Nat) : Bool :=
  match Table.find s.launches launch with
  | some l => lin < groupsOf l.block && (l.next ≤ lin || l.back.contains lin || s.batches.any fun b => b.1 = launch && b.2.2 = lin)
  | none => false

/-- The group of a linear index of a launch, where it has been placed and not freed. -/
def State.groupAt (s : State) (launch lin : Nat) : Option (Nat × Group) :=
  s.groups.find? fun p => p.2.launch = launch && p.2.lin = lin && p.2.state != .freed

/-- Append a message to a ring (R284), as one update that waiters see; the entities parked on the ring go on (R310). A ring that a smaller
allocation has left without its words stays enabled, and its slots are written there all the same (DESIGN CHOICE, log 125). -/
def State.appendMessage (s : State) (g k : Nat) (r : Ring) (m : List Byte) (c : Stamp) : State :=
  match s.group? g with
  | none => s
  | some gr =>
    let t := gr.ringTail r
    let sp := ((gr.sp.write (r.slotAt t.toNat) m).setWord (r.stampAt t.toNat) c).setWord (r.base + 8) (t + 1)
    let gr := { gr with sp := sp }
    let waits (e : Entity) : Option (BitVec 6) := match e.park with
      | some (.ring k' sd) => if k' = k then some sd else none
      | _ => none
    let wake (wv : Wave) : Wave := wv.ents.foldl (fun wv p =>
      match waits p.2 with
      | some sd => (wv.takeMessage s.tick p.1 gr r t.toNat sd p.2.mask).modEnt p.1 Entity.wake
      | none => wv) wv
    let woken := gr.waves.any fun wv => wv.ents.any fun p => (waits p.2).isSome
    let s := s.modGroup g fun _ => { gr with waves := gr.waves.map wake }
    if woken then s.dropL1 gr.core else s

/-- The fate of a message at its receiver (R309): none while it is held. -/
def State.messageFate (s : State) (launch : Nat) (dest : Word) (m : List Byte) (c : Stamp) : Option (Cause × State) :=
  let lin := (dest.extractLsb' 0 32).toNat
  let k := (dest.extractLsb' 32 3).toNat
  if s.isQueued launch lin then none
  else
    match s.groupAt launch lin with
    | none => some (Cause.msgNoReceiver, s)
    | some (g, gr) =>
      if gr.state == .draining then some (Cause.msgNoReceiver, s)
      else
        match gr.ring k with
        | none => some (Cause.ringOff, s)
        | some r => if (gr.ringTail r - gr.ringHead r).toNat < r.slots then some (0, s.appendMessage g k r m c) else none

/-- An earlier message of the wave to the same ring is still under way. -/
def Wave.behindMessage (wv : Wave) (id : Nat) (dest : Word) : Bool :=
  wv.ops.any fun p => p.1 < id && (match p.2.body with | .msg _ d _ _ _ => d.extractLsb' 0 35 == dest.extractLsb' 0 35 | _ => false)

/-- Try to deliver a message that has been read (R309). -/
def State.tryMessage (s : State) (g w id : Nat) (gr : Group) (wv : Wave) (o : LongOp) : State :=
  match o.body with
  | .msg sd dest _ (some (m, c)) off =>
    if off then s.finishOp g w id o fun wv => wv.landS s.tick id o sd (Cause.ringOff.setWidth 64)
    else if wv.behindMessage id dest then s
    else
      match s.messageFate gr.launch dest m c with
      | some (st, s) => s.finishOp g w id o fun wv => wv.landS s.tick id o sd (st.setWidth 64)
      | none => s
  | _ => s

/-- The release of a `msg.send` has been made: the message is read once, or the instruction ends with its status. Of a text with an
uncorrectable error nothing is sent, and the status is the message engine's (R355, R370; DEDUCED, log 118). -/
def State.startMessage (s : State) (g w id : Nat) (o : LongOp) (sd : BitVec 6) (dest : Word) (src : Nat) : State :=
  let s := s.modWave g w Wave.releaseStamps
  match s.group? g, s.wave? g w with
  | some gr, some wv =>
    if dest.extractLsb' 35 29 != 0 then s.finishOp g w id o fun wv => wv.landS s.tick id o sd (Cause.rsvField.setWidth 64)
    else if gr.sp.size < src + 64 then s.finishOp g w id o fun wv => wv.landS s.tick id o sd (Cause.spBound.setWidth 64)
    else if !gr.sp.sound src 64 then
      s.finishOp g w id o fun wv => wv.landS s.tick id o sd ((Cause.engine Cause.eMessage Cause.rUncorrectable).setWidth 64)
    else
      let o' := { o with ready := true, body := .msg sd dest src (some (gr.sp.read src 64, wv.cstamp)) false }
      (s.modOp g w id fun _ => o').tryMessage g w id gr wv o'
  | _, _ => s

/-- MSG_DELIVER (R309): a message that a deterministic launch holds is tried at its boundaries alone (R291). -/
def execMsgDeliver (g w op : Nat) (s : State) : Host.Outcome State Fault Refusal :=
  .next (match s.group? g, s.wave? g w with
    | some gr, some wv =>
      match Table.find wv.ops op with
      | some o => if o.ready && !s.det gr then s.tryMessage g w op gr wv o else s
      | none => s
    | _, _ => s)

-- Launches (R312) ----------------------------------------------------------------------------------------------------------------------

/-- Words read from memory as far as they have come, with the refusal or the wait that ended the reading. -/
structure WordsRead where
  s : State
  ws : List Word := []
  stop : Option (Option (Cause × Word)) := none

/-- Read 64-bit words as a load of a context. -/
def State.readWords (s : State) (core : Nat) (ctx : BitVec 12) (carried : Option Stamp) (va : Word) (n : Nat) : WordsRead :=
  (List.range n).foldl (fun a i =>
    let at_ := va + BitVec.ofNat 64 (8 * i)
    if a.stop.isSome then a
    else
      match a.s.translate core ctx { r := true } at_ with
      | .error e => { a with stop := some (some (e.cause Cause.kLoad, at_)) }
      | .ok _ =>
        match a.s.readVa core ctx carried at_ 8 with
        | .ok bs s => { a with s := s, ws := a.ws ++ [BitVec.ofNat 64 (ofBytes bs)] }
        | .bad r s => { a with s := s, stop := some (some (r.cause Cause.kLoad, at_)) }
        | .absent va s => { a with s := s, stop := some (some (Cause.access Cause.kLoad Cause.rNotPresent, va)) }
        | .wait s => { a with s := s, stop := some none }) { s := s }

/-- The launches a module holds (R312). -/
def launchSlots : Nat := 64

/-- `launch` after its release (R312): while the module holds 64 launches it stays in flight. -/
def State.launchOp (s : State) (g w id : Nat) (gr : Group) (wv : Wave) (o : LongOp) (sd : BitVec 6) (addr : Word) : State :=
  let a := s.readWords gr.core gr.ctx (some wv.cstamp) addr 32
  match a.stop with
  | some (some (c, va)) => a.s.faultWhole g w id o c va
  | some none => a.s
  | none =>
    let bad := Cause.launchBad.setWidth 64
    if addr.toNat % 256 ≠ 0 then a.s.finishOp g w id o fun wv => wv.landS s.tick id o sd bad
    else if launchSlots ≤ s.launches.length then a.s
    else
      match a.s.launch gr.core gr.ctx none (some (count wv.cstamp)) (some wv.cstamp) a.ws with
      | .wait => a.s
      | .accepted _ s => s.finishOp g w id o fun wv => wv.landS s.tick id o sd 0
      | .refused s => s.finishOp g w id o fun wv => wv.landS s.tick id o sd bad

-- Saves and loads of groups (R342) -----------------------------------------------------------------------------------------------------

/-- The group an identifier names. -/
def State.groupNamed (s : State) (pnum : Nat) : Option (Nat × Group) := s.groups.find? fun p => p.2.pnum % 2 ^ 32 = pnum && p.2.state != .freed

/-- Complete with a status. -/
def State.finishStatus (s : State) (g w id : Nat) (o : LongOp) (sd : BitVec 6) (c : Cause) : State :=
  s.finishOp g w id o fun wv => wv.landS s.tick id o sd (c.setWidth 64)

/-- A turn of `sys.ctxsave` (R342, R362): it begins once nothing defers it, and ends when the group is Swapped. -/
def State.ctxsaveOp (s : State) (g w id : Nat) (o : LongOp) (sd : BitVec 6) (target : Nat) : State :=
  if 2 ^ 32 ≤ target then s.finishStatus g w id o sd Cause.rsvField
  else
    match s.groupNamed target with
    | none => s.finishStatus g w id o sd Cause.ctxBad
    | some (t, tg) =>
      if t = g then s.finishStatus g w id o sd Cause.ctxBad
      else if o.ready then
        if tg.state == .swapped then s.finishStatus g w id o sd 0
        else if !tg.saving then s.finishStatus g w id o sd (if tg.state == .running then Cause.allocRefused else Cause.ctxBad)
        else
          match s.trySave t with
          | .later s => s
          | .noRoom s => s.finishStatus g w id o sd Cause.allocRefused
          | .saved s => s.finishStatus g w id o sd 0
      else if tg.saving then s
      else if tg.state != .running then s.finishStatus g w id o sd Cause.ctxBad
      else if tg.saveDeferred then s
      else (s.beginSave t).modOp g w id fun o => { o with ready := true }

/-- A turn of `sys.ctxload` (R342): the group is eligible until it is Running. -/
def State.ctxloadOp (s : State) (g w id : Nat) (o : LongOp) (sd : BitVec 6) (target : Nat) : State :=
  if 2 ^ 32 ≤ target then s.finishStatus g w id o sd Cause.rsvField
  else
    match s.groupNamed target with
    | none => s.finishStatus g w id o sd Cause.ctxBad
    | some (t, tg) =>
      if o.ready then
        match tg.state with
        | .running => s.finishStatus g w id o sd 0
        | .swapped => s
        | _ => s.finishStatus g w id o sd Cause.ctxBad
      else if tg.saving then s
      else if tg.state != .swapped then s.finishStatus g w id o sd Cause.ctxBad
      else (s.makeEligible t).modOp g w id fun o => { o with ready := true }

-- Triggers (R359) ----------------------------------------------------------------------------------------------------------------------

/-- A set of virtual pages: the first, and how many; 0 for every page of the context (R345). -/
structure PageRange where
  first : Nat
  count : Nat

/-- The number of an address's virtual page, as translation caches use it. -/
def vpn (va : Word) : Nat := (va.extractLsb' 16 40).toNat

/-- A page lies in the range. -/
def PageRange.has (r : PageRange) (page : Nat) : Bool := r.count = 0 || (page + 2 ^ 40 - r.first) % 2 ^ 40 < r.count

/-- The faulted entities of a group that a trigger covers. -/
def Group.covered (gr : Group) (r : PageRange) : List (Nat × Nat) :=
  gr.waves.zipIdx.flatMap fun w => (w.1.ents.filter fun e =>
    (match e.2.fault with | some f => Cause.replayable f.cause && r.has (vpn f.addr) | none => false)).map fun e => (w.2, e.1)

/-- A replay trigger of a context over a range (R359), for Running and Swapped groups alike. -/
def State.trigger (s : State) (ctx : BitVec 12) (r : PageRange) : State :=
  let mark (gr : Group) : Group := if gr.ctx = ctx then { gr with triggered := (gr.triggered ++ gr.covered r).eraseDups } else gr
  let resumes (k : Cmd) : Bool := ((s.group? k.g).map (·.ctx)) == some ctx && (match k.suspended with | some va => r.has (vpn va) | none => false)
  { s with
    groups := Table.mapValues s.groups fun _ gr => mark gr
    cmds := Table.mapValues s.cmds fun _ k => if resumes k then { k with resume := true } else k }

-- Invalidations (R322, R345) -----------------------------------------------------------------------------------------------------------------

/-- Close early the regions of a context's waves that hold stores, so that what they have translated is performed. -/
def State.closeContext (s : State) (ctx : BitVec 12) : State :=
  s.groups.foldl (fun s p =>
    if p.2.ctx = ctx && !s.det p.2 then
      (p.2.waves.zipIdx.filter fun w => !w.1.sq.isEmpty && w.1.region.isNone).foldl (fun s w => s.closeRegion p.1 w.2) s
    else s) s

/-- An atomic issued before a mark holds the DPAs that it will ask for. -/
def LongOp.unsent (o : LongOp) : Bool := !o.ready && !o.faulted && !o.blocked && !o.body.atomTargets.isEmpty

/-- Accesses of a context translated before a mark are still to be performed (R322): requests, atomics that have not been sent, and the
held stores of deterministic waves. A deterministic launch does not wait for its own, which its boundaries perform. -/
def State.translating (s : State) (ctx : BitVec 12) (mark launch : Nat) : Bool :=
  (s.reqs.any fun r => r.1 < mark && r.2.ctx = ctx && (match r.2.agent with | .host | .peer _ _ _ => false | _ => true)) ||
  (s.groups.any fun p => p.2.ctx = ctx && !(s.det p.2 && p.2.launch = launch) && p.2.waves.any fun w =>
    (w.ops.any fun o => o.1 < mark && o.2.unsent) || (s.det p.2 && w.sq.any fun e => e.sp == .g))

/-- Drop the cached translations of a range. -/
def State.dropTlb (s : State) (ctx : BitVec 12) (r : PageRange) : State :=
  { s with tlb := Table.drop s.tlb fun k _ => k / 2 ^ 40 % 2 ^ 12 = ctx.toNat && r.has (k % 2 ^ 40) }

/-- The window's frame lies in the range: one of the pages it covers does. -/
def Window.inRange (w : Window) (r : PageRange) : Bool :=
  w.set && (r.count = 0 || (List.range (w.limit / 2 ^ 16 + 1)).any fun k => r.has ((w.page + k) % 2 ^ 40))

/-- Empty the windows of a range: a limit of 0 (R322). -/
def emptyWindows (t : Table Window) (r : PageRange) : Table Window :=
  Table.mapValues t fun _ w => if w.inRange r then { w with limit := 0 } else w

/-- Empty the windows of a context's waves, resident or swapped, with those of region shadows. -/
def State.dropWindows (s : State) (ctx : BitVec 12) (r : PageRange) : State :=
  let wave (w : Wave) : Wave := { w with b := emptyWindows w.b r, region := w.region.map fun x => { x with b := emptyWindows x.b r } }
  { s with groups := Table.mapValues s.groups fun _ gr => if gr.ctx = ctx then { gr with waves := gr.waves.map wave } else gr }

/-- An entry or a window of the range is still there (R322). -/
def State.covered (s : State) (ctx : BitVec 12) (r : PageRange) (win : Bool) : Bool :=
  if win then
    s.groups.any fun p => p.2.ctx = ctx && p.2.waves.any fun w =>
      (w.b.any fun b => b.2.inRange r && b.2.limit ≠ 0) ||
        (match w.region with | some x => x.b.any fun b => b.2.inRange r && b.2.limit ≠ 0 | none => false)
  else s.tlb.any fun e => e.1 / 2 ^ 40 % 2 ^ 12 = ctx.toNat && r.has (e.1 % 2 ^ 40)

/-- A turn of `sys.tlbinv` or `sys.wininv` (R322): what the range names is dropped, then what was translated before is waited for; what
has come again meanwhile is dropped and waited for like the first. -/
def State.invalidateOp (s : State) (g w id : Nat) (gr : Group) (o : LongOp) (win : Bool) (va : Word) (n : Nat) (ctx : BitVec 12)
    (mark : Option Nat) : State :=
  let r : PageRange := ⟨vpn va, n⟩
  let again (s : State) : State :=
    let s := s.closeContext ctx
    let s := if win then s.dropWindows ctx r else s.dropTlb ctx r
    s.modOp g w id fun o => { o with body := .tlbinv win va n ctx (some s.nextId) }
  match mark with
  | none => again s
  | some m =>
    if s.translating ctx m gr.launch then s
    else if s.covered ctx r win then again s
    else (if win then s else s.trigger ctx r).finishOp g w id o fun wv => wv

/-- A refused change (R344). -/
def State.finishAttrs (s : State) (g w id : Nat) (o : LongOp) (ok : Bool) : State :=
  s.finishOp g w id o fun wv =>
    let wv := wv.landP6 s.tick id o ok
    if ok then wv else { wv with sysstatus := Cause.attrRefused.setWidth 64 }

/-- Change the leaf where the change is one, and go on once its write has been performed (R344): until then the instruction stands at
the leaf, with the page it changes. -/
def State.withLeaf (s : State) (g w id : Nat) (gr : Group) (va attrs : Word) (d at_ : Nat) (old new : Word) (carried : Stamp)
    (k : State → State) : State :=
  if old = new then k s
  else
    match s.sendWord (.op g w id) gr.ctx (some carried) at_ new with
    | .ok () s =>
      let s := s.modOp g w id fun o => { o with body := .pgattr va attrs (.leaf d) }
      if s.asksFor g w id then s else k s
    | .bad _ s | .absent _ s | .wait s => s

/-- Ask another module to change a page of its own (R344). -/
def State.askAttrs (s : State) (g w id : Nat) (gr : Group) (va attrs : Word) (d : Nat) (big : Bool) (carried : Stamp) : State :=
  let r : Req := {
    agent := .op g w id
    ctx := gr.ctx
    launch := some gr.launch
    kind := .attrs attrs big
    gran := 0
    items := []
    carried := some carried }
  (s.modOp g w id fun o => { o with body := .pgattr va attrs .asked }).sendItems r [{ thread := 0, byte := 0, addr := d, len := 8 }]

/-- A request of `sys.pgattr` has been refused (R263, R323): it faults, and its replay begins anew. -/
def State.attrsDenied (s : State) (g w id : Nat) (o : LongOp) (va attrs : Word) : State :=
  (s.modOp g w id fun o => { o with refused := [], body := .pgattr va attrs .begun }).faultWhole g w id o o.denied.cause va

/-- A turn of `sys.pgattr` (R344). -/
def State.pgattrOp (s : State) (g w id : Nat) (gr : Group) (wv : Wave) (o : LongOp) (va attrs : Word) (step : AttrStep) : State :=
  let walked : Except Refused (Word × Bool × Nat) :=
    if !canonical va then .error (.reason Cause.rBound)
    else
      match Table.find s.ctxs gr.ctx.toNat with
      | none => .error (.reason Cause.rNotPresent)
      | some c => s.walk c.root va
  let c := pageAttrs attrs
  let done (s : State) (ok : Bool) : State := (s.trigger gr.ctx ⟨vpn va, 1⟩).finishAttrs g w id o ok
  if s.asksFor g w id then s
  else if !o.refused.isEmpty then s.attrsDenied g w id o va attrs
  else
    match step with
    | .leaf d =>
      if !s.ours d then done s true
      else
        match s.changePage 0 (dpaPage d) false c wv.cstamp with
        | some (s, _) => done s true
        | none => s
    | .asked => s
    | .answered false => done s false
    | .answered true =>
      match walked with
      | .error e => s.faultWhole g w id o (e.cause Cause.kLoad) va
      | .ok (e, big, at_) =>
        s.withLeaf g w id gr va attrs (leafDpa (leafFor va e big) va) at_ e (if big then e else c.leaf true e) wv.cstamp fun s => done s true
    | .begun =>
      match walked with
      | .error e => s.faultWhole g w id o (e.cause Cause.kLoad) va
      | .ok (e, big, at_) =>
        let d := leafDpa (leafFor va e big) va
        if s.ours d then
          match s.changePage 0 (dpaPage d) big c wv.cstamp with
          | none => s
          | some (t, false) => done t false
          | some (_, true) =>
            let regrains := (c.page (s.page (dpaPage d))).gran ≠ (s.page (dpaPage d)).gran
            s.withLeaf g w id gr va attrs d at_ e (if big then e else c.leaf regrains e) wv.cstamp fun s =>
              match s.changePage 0 (dpaPage d) big c wv.cstamp with
              | some (s, _) => done s true
              | none => s
        else if s.routeUp (dpaModule d) then s.askAttrs g w id gr va attrs d big wv.cstamp
        else s.faultWhole g w id o Cause.linkFail va

-- One turn of an instruction in flight --------------------------------------------------------------------------------------------------------------

/-- The granules of a range of DPAs whose slice lines are modified are written to media (R346). -/
def State.flushRange (s : State) (dpa n : Nat) : State :=
  if s.ours dpa then { s with dirty := Table.drop s.dirty fun a l => meets a l.length (dpaLocal dpa) n } else s

/-- What the instruction releases before its own effect has been performed, and nothing it follows is outstanding. -/
def State.mayStart (s : State) (g w id : Nat) (wv : Wave) (o : LongOp) : Bool :=
  s.released ⟨g, w, o.ent⟩ id && !wv.behindAcquire id o && !wv.behindLate id

/-- A pop or steal follows the deque instructions, the acquires and the reads of its entity before it (R202, R204). -/
def State.mayAcquire (s : State) (g w id : Nat) (wv : Wave) (o : LongOp) : Bool :=
  !wv.behindDq id o && !wv.behindAcquire id o && s.readsDone ⟨g, w, o.ent⟩ id

/-- Read, or finish, a load or a result. -/
def State.endRead (s : State) (g w id : Nat) (wv : Wave) (o : LongOp) : State :=
  if s.asksFor g w id || wv.behindAcquire id o || wv.behindLate id then s
  else
    let s := s.readLocal g w id
    match (s.wave? g w).bind fun wv => Table.find wv.ops id with
    | some o => if o.refused.isEmpty then s.finishOp g w id o fun wv => wv.putResults s.tick id o else s.faultOp g w id o
    | none => s

/-- One turn of a long-latency instruction by what it still has to do. -/
def State.turnOp (s : State) (g w id : Nat) (gr : Group) (wv : Wave) (o : LongOp) : State :=
  match o.body with
  | .alu _ _ _ _ => s.finishOp g w id o fun wv => wv.putResults s.tick id o
  | .load _ _ _ _ => s.endRead g w id wv o
  | .asof _ _ _ _ => s.endRead g w id wv o
  | .atom sp op ty sc d items =>
    if !o.ready then (if !o.held && s.mayStart g w id wv o then s.startAtom g w id gr sp op ty items else s)
    else if s.asksFor g w id then s
    else if o.refused.isEmpty then s.finishAtom g w id gr o sc d.isSome
    else s.faultOp g w id o
  | .xend =>
    if (o.ready || wv.region.isNone) && s.released ⟨g, w, o.ent⟩ id then
      let s := s.finishOp g w id o fun wv => wv.releaseStamps
      if o.ready then s.closeRegion g w else s
    else s
  | .cmd _ => s
  | .dqPush x => if s.mayStart g w id wv o && !wv.behindDq id o then s.dqPushOp g w id gr o x else s
  | .dqPop sd => if s.mayAcquire g w id wv o then s.dqPopOp g w id gr o sd else s
  | .dqSteal sd core => if s.mayAcquire g w id wv o then s.dqStealOp g w id gr o sd core else s
  | .msg sd dest src _ _ =>
    if o.ready then (if s.det gr then s else s.tryMessage g w id gr wv o)
    else if s.mayStart g w id wv o then s.startMessage g w id o sd dest src
    else s
  | .launch sd addr =>
    if o.held then s
    else if o.ready then s.launchOp g w id gr wv o sd addr
    else if s.mayStart g w id wv o then (s.modWave g w Wave.releaseStamps).modOp g w id fun o => { o with ready := true }
    else s
  | .ctxsave sd t => s.ctxsaveOp g w id o sd t
  | .ctxload sd t => s.ctxloadOp g w id o sd t
  | .pgattr va x step => s.pgattrOp g w id gr wv o va x step
  | .tlbinv win va n ctx mark => s.invalidateOp g w id gr o win va n ctx mark
  | .l1 drop => s.finishOp g w id o (fun wv => wv) |> fun s => if drop then s.dropL1 gr.core else s
  | .slice _ dpa n => (s.flushRange dpa n).finishOp g w id o (fun wv => wv)
  | .off => s.finishOp g w id o (fun wv => wv)

/-- LONG_LATENCY_COMPLETION (R44): one turn of an instruction in flight. -/
def execLongLatencyCompletion (g w op : Nat) (s : State) : Host.Outcome State Fault Refusal :=
  .next (match s.group? g, s.wave? g w with
    | some gr, some wv =>
      match Table.find wv.ops op with
      | some o => if o.faulted || (o.blocked && gr.state != .running) then s else s.turnOp g w op gr wv o
      | none => s
    | _, _ => s)

end Sys2Proof.Machine
end

