-- ==== Sys2Proof/Machine/Codes.lean ====
section
/-! DEFINITION. What the stacks' media holds beside the data: check codes and side bytes by pseudo-channel (R156 to R158), and the
Rind's words (R168). -/

namespace Sys2Proof.Machine

open Sys2Proof

-- The fields of the Reed-Solomon codes (R158) ---------------------------------------------------------------------------------

/-- A Reed-Solomon code of R158: the bits of a symbol, the primitive polynomial, and how many check symbols it has. -/
structure Rs where
  width : Nat
  poly : Nat
  checks : Nat
  deriving DecidableEq, Repr

/-- G128: GF(2^8) and 8 check symbols; G512: GF(2^16) and 24. -/
def rs128 : Rs := ⟨8, 0x11D, 8⟩
def rs512 : Rs := ⟨16, 0x1100B, 24⟩

/-- A symbol times alpha. -/
def Rs.double (c : Rs) (a : Nat) : Nat := if 2 ^ c.width ≤ 2 * a then Nat.xor (2 * a) c.poly else 2 * a

/-- The product of two symbols. -/
def Rs.mul (c : Rs) (a b : Nat) : Nat :=
  (List.range c.width).foldl (fun x i => if b / 2 ^ (c.width - 1 - i) % 2 = 1 then Nat.xor (c.double x) a else c.double x) 0

/-- A power of alpha. -/
def Rs.alpha (c : Rs) : Nat → Nat
  | 0 => 1
  | k + 1 => c.double (c.alpha k)

/-- The generator, the product of x - alpha^i, from the highest power down. -/
def Rs.generator (c : Rs) : List Nat :=
  (List.range c.checks).foldl (fun g i => (g ++ [0]).zipWith Nat.xor (0 :: g.map (c.mul (c.alpha i)))) [1]

/-- The check symbols of a message: the remainder that makes the codeword divisible by the generator. -/
def Rs.check (c : Rs) (msg : List Nat) : List Nat :=
  let g := c.generator.drop 1
  msg.foldl (fun r x =>
    let y := Nat.xor x (r.headD 0)
    (r.drop 1 ++ [0]).zipWith Nat.xor (g.map (c.mul y))) (List.replicate c.checks 0)

/-- The value of a codeword's polynomial at a power of alpha. -/
def Rs.eval (c : Rs) (word : List Nat) (k : Nat) : Nat := word.foldl (fun y x => Nat.xor (c.mul y (c.alpha k)) x) 0

/-- The 16-bit symbols of bytes. -/
def symbols16 (bs : List Byte) : List Nat := (List.range (bs.length / 2)).map fun k => ofBytes ((bs.drop (2 * k)).take 2)

-- The bytes of a granule (R156) ---------------------------------------------------------------------------------------------------

/-- The history link as it is stored: all ones for none (R169). -/
def linkBytes (l : Option Nat) : List Byte := toBytes (l.getD (2 ^ 64 - 1)) 8

/-- The SEC-DED check bytes of words of data (R157). -/
def checkBytes (bs : List Byte) : List Byte :=
  (List.range (bs.length / 8)).map fun k => BitVec.ofNat 8 (syndrome (ofBytes ((bs.drop (8 * k)).take 8)) 0)

/-- The codeword of a granule in its order (R156, R158), with what is in error in it. -/
def State.codeword (s : State) (base : Nat) : List Byte :=
  let g := (s.page (dpaPage base)).gran
  let data := s.bytes base (granSize g)
  let stamp := toBytes (s.ownStamp base).toNat 8
  let all : List Byte :=
    if g = 0 || g = 1 then data ++ checkBytes data
    else if g = 2 then
      let m := data ++ stamp
      m ++ (rs128.check (m.map (·.toNat))).map (BitVec.ofNat 8)
    else
      let m := data ++ stamp ++ linkBytes (Table.find s.glinks base)
      m ++ (rs512.check (symbols16 m)).flatMap fun x => toBytes x 2
  all.zipIdx.map fun b => b.1 ^^^ s.flip base b.2

/-- What each pseudo-channel of a granule in the stack tier holds (R156): its data bytes and its side bytes. -/
def State.channels (s : State) (base : Nat) : List (List Byte × List Byte) :=
  let w := s.codeword base
  let part (a n : Nat) : List Byte := (w.drop a).take n
  match (s.page (dpaPage base)).gran.toNat with
  | 0 => [(part 0 32, part 32 4)]
  | 1 => [(part 0 64, part 64 8)]
  | 2 => [(part 0 64, part 136 8), (part 64 64, part 128 8)]
  | _ => (List.range 8).map fun n =>
      (part (64 * n) 64, if n < 6 then part (528 + 8 * n) 8 else part (512 + 8 * (n - 6)) 8)

-- The Rind (R168) -------------------------------------------------------------------------------------------------------------------

/-- The words that a page has in its stack's Rind: the header, then the records of its granules. -/
def State.rindOf (s : State) (page : Nat) : List Word :=
  let p := s.page page
  let base (k : Nat) : Nat := page * 2 ^ 16 + k * granSize p.gran
  let link (k : Nat) : Word := BitVec.ofNat 64 (ofBytes (linkBytes (Table.find s.glinks (base k))))
  let n := 2 ^ 16 / granSize p.gran
  let header : List Word := [s.pageStamp (base 0), p.gran ++ BitVec.ofBool p.v ++ (0 : BitVec 61)]
  let both : List Word := (List.range n).flatMap fun k => [s.ownStamp (base k), link k]
  header ++
    (if !p.v then []
     else if p.capacity || p.gran = 0 || p.gran = 1 then both
     else if p.gran = 2 then (List.range n).map link
     else [])

end Sys2Proof.Machine
end

