-- ==== Sys2Proof/WellFormed.lean ====
section
/-! DEFINITION. Which instructions the encoding can express: the operand rules of R37 to R43 and R52 to R58, per form.
The checks that depend on the role and the place in the clause (R62, checks 6 and 7) are the machine's. -/

namespace Sys2Proof

/-- p7 negated is no guard (R39). -/
def Guard.ok (g : Guard) : Bool := !(g.p == 7 && g.neg)

/-- The guard of an unguarded instruction (R39). -/
def Guard.none : Guard := ⟨7, false⟩

/-- A completion part a long-latency word may carry (R37, R38): flags 12 to 14 do not exist, and detached needs a flag. -/
def Flag.ok (f : Flag) : Bool := (f.fl < 12 || f.fl == 15) && !(f.la == 15 && f.fl == 15)

/-- The destination decides the uniform bit of a class-0 register form (R37, R41). -/
def wfRegs3 (ty : Ty) (d : Reg) (srcs : List Reg) : Bool :=
  regOk d.isS ty.wide d && srcs.all (regOk d.isS ty.wide)

/-- The VI forms (R52): an integer or bit type accepted by the instruction. -/
def wfImm (g : Guard) (acc : Bool) (ty : Ty) (d a : Reg) : Bool := g.ok && acc && wfRegs3 ty d [a]

/-- The offset of a memory form in a uniform word is an s-register or absent (R231, R236). -/
def offOk (uni : Bool) : Option Reg → Bool
  | some (.v _) => !uni
  | _ => true

/-- The window field is zero outside `.g` (R53). -/
def winOk (sp : Space) (win : BitVec 4) : Bool := sp == .g || win == 0

/-- `ld`: an s destination makes the word uniform (R231). -/
def wfLoad (ty : Ty) (d : Reg) (off : Option Reg) : Bool :=
  accMove ty && regOk d.isS ty.wide d && offOk d.isS off

/-- An offset that is a v-register. -/
def offIsV : Option Reg → Bool
  | some (.v _) => true
  | _ => false

/-- The operand registers of an atomic (R236): d and a of one kind. -/
def wfAtom (op : AtomOp) (ty : Ty) (d a : Reg) (off : Option Reg) : Bool :=
  accAtom op ty && (d.isS == a.isS) && regOk d.isS ty.wide d && regOk d.isS ty.wide a && offOk d.isS off

/-- The operand of `atomn` (R236). -/
def wfAtomn (op : AtomOp) (ty : Ty) (a : Reg) : Bool :=
  op != .cas && accAtom op ty && regOk false ty.wide a

/-- The b operand of a shuffle (R108, R111, R112): a width-relative immediate is 1 to 7, or for `shfl.rel` its negative. -/
def wfShfl (neg rel : Bool) (ty : Ty) (d a : BitVec 8) (b : ShflArg) : Bool :=
  accBit32 ty && !(ty.wide && oddNum d) && !(ty.wide && oddNum a) &&
  match b with
  | .reg _ => true
  | .imm i => !rel || (1 ≤ i.toNat && i.toNat ≤ 7) || (neg && 249 ≤ i.toNat)

/-- A predicate field that is 8 bits wide holds 0 to 7, so any 3-bit value is well formed; what is left is the guard. -/
def wfLong (g : Guard) (f : Flag) : Bool := g.ok && f.ok

/-- The bytes of a submission entry that hold its command code (R259). -/
def entryCode (e : SubEntry) : BitVec 8 := e.extractLsb' 0 8

/-- Every operand of the instruction is one that its encoding admits. Events of the module have no encoding and are
well formed; the mailbox commands are entries with their own code (R259). -/
def Instr.wellFormed : Instr → Bool
  | .vadd g sat ty d a b | .vsub g sat ty d a b =>
      g.ok && (if sat then ty.isInt else accArith ty) && wfRegs3 ty d [a, b]
  | .vaddImm g ty d a _ | .vsubImm g ty d a _ | .vmulImm g ty d a _ | .vminImm g ty d a _ | .vmaxImm g ty d a _ =>
      wfImm g ty.isInt ty d a
  | .vmul g m ty d a b =>
      g.ok && accMul m ty && wfRegs3 ty d [a, b] && !(m == .wide && ty.width == 32 && !d.isS && oddNum d.num)
  | .vmin g ty d a b | .vmax g ty d a b => g.ok && accArith ty && wfRegs3 ty d [a, b]
  | .vfma g ty d a b c => g.ok && accArith ty && wfRegs3 ty d [a, b, c]
  | .vdiv g f ty d a b => wfLong g f && accArith ty && wfRegs3 ty d [a, b]
  | .vsqrt g f ty d a => wfLong g f && ty.isF && wfRegs3 ty d [a]
  | .vsfRcp g f d a | .vsfRsqrt g f d a | .vsfExp2 g f d a | .vsfLog2 g f d a | .vsfSinpi g f d a
  | .vsfCospi g f d a | .vsfTanh g f d a => wfLong g f && wfRegs3 .f32 d [a]
  | .vcvt g _ rm dty sty d a =>
      g.ok && accCvt dty && accCvt sty && regOk d.isS dty.wide d && regOk d.isS sty.wide a &&
      !(dty.isInt && sty.isInt && rm != .rn)
  | .vand g ty d a b | .vor g ty d a b | .vxor g ty d a b => g.ok && ty.isB && wfRegs3 ty d [a, b]
  | .vandImm g ty d a _ | .vorImm g ty d a _ | .vxorImm g ty d a _ => wfImm g ty.isB ty d a
  | .vshl g ty d a b | .vshr g ty d a b => g.ok && accIntBit ty && wfRegs3 ty d [a, b]
  | .vshlImm g ty d a _ | .vshrImm g ty d a _ => wfImm g (accIntBit ty) ty d a
  | .vbitPopc g ty d a | .vbitClz g ty d a | .vbitCtz g ty d a | .vbitRev g ty d a =>
      g.ok && ty.isB && wfRegs3 ty d [a]
  | .vsel g ty d a b _ => g.ok && accMove ty && wfRegs3 ty d [a, b]
  | .vcmp g uni cond ty _ a b =>
      g.ok && regOk uni ty.wide a &&
      match b with
      | .reg r => accCmp cond false ty && regOk uni ty.wide r
      | .imm _ => accCmp cond true ty
  | .vpredAnd g _ _ _ | .vpredOr g _ _ _ | .vpredXor g _ _ _ | .vpredNot g _ _ | .vpredMov g _ _ => g.ok
  | .vmov g ty d a => g.ok && accMove ty && wfRegs3 ty d [a]
  | .vmovImm g ty d _ => g.ok && accIntBit ty && wfRegs3 ty d []
  | .shflIdx g _ rel ty d a b => g.ok && wfShfl false rel ty d a b
  | .shflRel g _ rel ty d a b => g.ok && wfShfl true rel ty d a b
  | .scan g op _ ty d a | .lred g op ty d a =>
      g.ok && accRed op ty && !(ty.wide && oddNum d) && !(ty.wide && oddNum a)
  | .voteAll g _ _ | .voteAny g _ _ => g.ok
  | .voteBallot g d _ _ => g.ok && !oddNum d
  | .ld g f sp ty d wn off => wfLong g f && wfLoad ty d off && winOk sp wn
  | .st g sp ty wn off a => g.ok && accMove ty && regOk false ty.wide a && winOk sp wn && offOk false off
  | .ldAsof g f ty d _ off _ => wfLong g f && wfLoad ty d off
  | .atomG g f op _ _ ty d a _ off | .atomSp g f op _ _ ty d a off => wfLong g f && wfAtom op ty d a off
  | .atomnG g f op _ ty a _ _ | .atomnSp g f op _ ty a _ => wfLong g f && wfAtomn op ty a
  | .fenceAcq g _ _ | .fenceRel g _ | .fenceAr g _ _ => g.ok
  | .win g _ _ _ | .winReg g _ _ _ => g.ok
  | .stmpGet g _ | .stmpHold g _ _ | .stmpHoldDm g _ _ _ | .stmpDrop g _ => g.ok
  | .xbeg _ _ _ _ => true
  | .xend g fl => g.ok && (fl < 12 || fl == 15)
  | .xabt g _ | .xstat g _ => g.ok
  | .hset g _ idx | .hget g _ idx => g.ok && idx.extractLsb' 0 2 == 0
  | .mma g f _ _ _ | .mmaInit g f _ _ _ | .mmaTern g f _ _ _ | .mmaTernInit g f _ _ _ | .mmaWh g f _ _ _
  | .mmaWhInit g f _ _ _ => wfLong g f
  | .tcopy g f tr rb _ _ _ _ => wfLong g f && !(tr && rb)
  | .tgather g f _ _ _ _ | .tscatter g f _ _ _ _ => wfLong g f
  | .taskPush g f _ | .taskPushWave g f _ _ => wfLong g f
  | .br g _ => g.ok
  | .brc _ _ _ _ => true
  | .join => true
  | .exit g => g.ok
  | .launch g f _ _ => wfLong g f
  | .rgn _ _ => true
  | .barInit g _ _ | .barInitBytes g _ _ | .barExpect g _ _ | .barArrive g _ _ | .barArw g _ _ => g.ok
  | .barWait g _ p => g.ok && match p with | .imm i => i.toNat ≤ 1 | .reg _ => true
  | .tlwait g _ _ _ | .tlread g _ _ => g.ok
  | .dqPush g f _ | .dqPop g f _ | .dqSteal g f _ _ | .msgSend g f _ _ _ => wfLong g f
  | .ringWait g _ _ | .ringTake g _ _ | .yield g | .qend g => g.ok
  | .sysRd g _ reg => g.ok && !(0x050 ≤ reg.toNat && reg.toNat ≤ 0x05F)
  | .sysWr g reg _ => g.ok && reg != 0x002 && reg != 0x021 && !(0x030 ≤ reg.toNat && reg.toNat ≤ 0x037)
  | .cstampWrite g _ | .bufreqWrite g _ | .ringdescWrite g _ _ | .turnrptRead g _ _ => g.ok
  | .trap g _ | .tret g | .tlset g _ _ => g.ok
  | .sysCtxsave g f _ _ | .sysCtxload g f _ _ => wfLong g f
  | .sysHadv g _ _ | .sysWsize g _ _ | .sysHrevoke g _ _ => g.ok
  | .sysPgattr g f _ _ | .sysTlbinv g f _ _ | .sysWininv g f _ _ | .sysSlwb g f _ _ | .sysSlinv g f _ _ => wfLong g f
  | .sysL1inv g f | .sysL1wb g f => wfLong g f
  | .sysBrk g _ | .sysDbgrd g _ | .sysDgrd g _ _ => g.ok
  | .launchCmd e => entryCode e == 0x01
  | .collective e => entryCode e == 0x02
  | .power e => entryCode e == 0x03
  | .resync e => entryCode e == 0x04
  | .contextEnd e => entryCode e == 0x05
  | .unknownMailboxCommand e =>
      !(entryCode e == 0x01 || entryCode e == 0x02 || entryCode e == 0x03 || entryCode e == 0x04 || entryCode e == 0x05)
  | .selection _ | .longLatencyCompletion _ _ _ | .sliceLoadRequest _ | .sliceCommit _ | .sliceAtomic _
  | .contentionDecay _ | .asofRead _ | .heldRequestRelease _ | .wheyRetry _ | .holdRevocation _ | .horizonLagReclaim _
  | .ageSweep _ | .regionAccess _ | .abortDelivery _ _ | .xbegServe | .regionCommit _ | .roundClose
  | .landing _ _ | .matrixKstep _ | .engineCommandCompletion _ | .copyPageResume _ | .fmtAbsentEmulation _ _
  | .matrixTaskStart _ | .waveTaskPlace _ | .taskDone _ | .taskNoArea _ | .msgDeliver _ _ _ | .bufreqGrant _ _
  | .dispatchBatch | .groupPlacement _ | .groupFreed _ | .quantumBoundary _ | .faultReplay _ | .causeRecordDrain
  | .turnerPeriodEnd _ | .turnerMigration _ | .sqtail _ | .cqhead _ | .mbxctlEnable | .mbxctlDrain
  | .mailboxRegisterWrite _ _ _ | .fwgo _ | .dbgreq _ _ | .hostRead _ _ | .hostWrite _ _ | .getVersion
  | .getCapabilities | .negotiateAlgorithms _ _ _ _ | .getDigests | .getCertificate _ _ _ | .challenge _ _
  | .getMeasurements _ _ | .keyExchange _ | .finish _ | .keyUpdate | .endSession | .spdmUnsupported _
  | .flitReceive _ | .flitRetransmit _ | .portFail _ | .thermalTrip | .machineFault | .warmReset | .coldReset
  | .resetComplete _ | .debugAccess _ | .domainConfiguration _ _ | .provisioning | .fabricLinkTrained _
  | .backInvalidationResponse _ => true

end Sys2Proof
end

