-- ==== Sys2Proof/Decode.lean ====
section
/-! DEFINITION. Decoding of headers, instruction words and submission entries, total and rejecting by name (R31, R37 to
R62, R259), and the encoder written from the same tables. -/

namespace Sys2Proof

/-- The bits [lo + len - 1 : lo] of a word. -/
def bits (w : Word) (lo len : Nat) : BitVec len := w.extractLsb' lo len

/-- A check of R62: the cause is raised where the condition does not hold. -/
def need (b : Bool) (e : EncFault) : Except EncFault Unit := if b then .ok () else .error e

/-- A value that a code may name. -/
def named {α : Type} (o : Option α) (e : EncFault) : Except EncFault α :=
  match o with
  | some a => .ok a
  | none => .error e

/-- A decoded clause header (R31). -/
structure Header where
  cls : BitVec 4
  count : Nat
  wait : BitVec 12
  /-- mode any: one flag of the mask is enough (R33) -/
  any : Bool
  deriving DecidableEq, Repr, Inhabited

/-- The header at a header position (R31, R60): its mark and class, then its reserved field. -/
def decodeHeader (w : Word) : Except EncFault Header :=
  if bits w 60 4 != 15 then .error .badHeader
  else if 5 ≤ (bits w 56 4).toNat then .error .badHeader
  else if bits w 0 39 != 0 then .error .rsvField
  else .ok { cls := bits w 56 4, count := (bits w 52 4).toNat + 1, wait := bits w 40 12, any := w.getLsbD 39 }

/-- The header word of a clause (R31). -/
def encodeHeader (h : Header) : Word :=
  (15 : BitVec 4) ++ h.cls ++ BitVec.ofNat 4 (h.count - 1) ++ h.wait ++ BitVec.ofBool h.any ++ (0 : BitVec 39)

/-- Fixed-latency, long-latency, or the marker layouts that have neither part (R38, R55). -/
inductive Latency where
  | fixed | long | marker
  deriving DecidableEq, Repr

/-- The class and latency of each assigned major opcode (R56). -/
def majorInfo (m : Nat) : Option (BitVec 4 × Latency) :=
  if m ≤ 0x0A then some (0, .fixed)
  else if m ≤ 0x0D then some (0, .long)
  else if m = 0x0E then some (0, .fixed)
  else if 0x10 ≤ m ∧ m ≤ 0x24 then some (0, .fixed)
  else if m = 0x40 ∨ m = 0x42 then some (1, .long)
  else if m = 0x41 then some (1, .fixed)
  else if 0x43 ≤ m ∧ m ≤ 0x46 then some (1, .long)
  else if 0x47 ≤ m ∧ m ≤ 0x49 then some (1, .fixed)
  else if m = 0x4A then some (1, .marker)
  else if m = 0x4B then some (1, .long)
  else if m = 0x4C then some (1, .fixed)
  else if m = 0x70 then some (2, .fixed)
  else if 0x71 ≤ m ∧ m ≤ 0x75 then some (2, .long)
  else if 0x90 ≤ m ∧ m ≤ 0x93 then some (3, .fixed)
  else if m = 0x94 then some (3, .long)
  else if m = 0x95 then some (3, .marker)
  else if 0x96 ≤ m ∧ m ≤ 0x98 then some (3, .fixed)
  else if m = 0x99 ∨ m = 0x9A then some (3, .long)
  else if m = 0x9B ∨ m = 0x9C then some (3, .fixed)
  else if 0xC0 ≤ m ∧ m ≤ 0xC3 then some (4, .fixed)
  else if m = 0xC4 then some (4, .long)
  else if m = 0xC5 then some (4, .fixed)
  else if m = 0xC6 ∨ m = 0xC7 then some (4, .long)
  else if m = 0xC8 ∨ m = 0xC9 then some (4, .fixed)
  else none

/-- The guard of a word (R37). -/
def guardOf (w : Word) : Guard := ⟨bits w 44 3, w.getLsbD 43⟩

/-- The completion part of a word (R37). -/
def flagOf (w : Word) : Flag := ⟨bits w 52 4, bits w 48 4⟩

/-- The uniform bit. -/
def uniOf (w : Word) : Bool := w.getLsbD 47

/-- The latency field, the flag and the guard (R37, R38, R39): the part of check 3 that every format shares. -/
def latencyOk (lat : Latency) (w : Word) : Bool :=
  match lat with
  | .fixed => bits w 48 8 == 0xFF
  | .long => bits w 48 8 != 0xFF && (flagOf w).ok
  | .marker => true

/-- An 8-bit register field with its kind (R40): s-registers 64 to 255 are refused here. -/
def fieldOk (uni wide isS : Bool) (n : BitVec 8) : Bool :=
  if isS then n.toNat < 64 else !uni && !(wide && oddNum n)

/-- The register a field names, its number checked before. -/
def regOf (isS : Bool) (n : BitVec 8) : Reg := if isS then .s (n.setWidth 6) else .v n

/-- The offset field of a memory form: 255 of s-kind is no offset (R40, R52). -/
def offFieldOk (uni isS : Bool) (n : BitVec 8) : Bool :=
  if isS then n.toNat < 64 || n == 255 else !uni

/-- The offset a field names. -/
def offOf (isS : Bool) (n : BitVec 8) : Option Reg :=
  if isS then (if n == 255 then none else some (.s (n.setWidth 6))) else some (.v n)

/-- The common shape of format V3 (R52): which of a, b and c name registers, which minors exist, which types are accepted,
and what the fields make. b and c that are not used are zero, and so are their kind bits. -/
def decodeV3 (w : Word) (useB useC : Bool) (minors : Nat) (acc : BitVec 3 → Ty → Bool)
    (mk : BitVec 3 → Ty → Reg → Reg → Reg → Reg → Instr) : Except EncFault Instr :=
  let uni := uniOf w
  let wide := wideCode (bits w 6 5)
  let m := bits w 0 3
  let d := bits w 35 8; let a := bits w 27 8; let b := bits w 19 8; let c := bits w 11 8
  let ak := w.getLsbD 5; let bk := w.getLsbD 4; let ck := w.getLsbD 3
  do
    need (fieldOk uni wide uni d && fieldOk uni wide ak a && (!useB || fieldOk uni wide bk b)
      && (!useC || fieldOk uni wide ck c)) .rsvField
    need (m.toNat < minors) .undefOp
    let ty ← named (Ty.ofCode (bits w 6 5)) .rsvField
    need (acc m ty) .undefOp
    need ((useB || (b == 0 && !bk)) && (useC || (c == 0 && !ck))) .rsvField
    .ok (mk m ty (regOf uni d) (regOf ak a) (regOf bk b) (regOf ck c))

/-- The two-source forms without minors. -/
def decodeV3ab (w : Word) (acc : Ty → Bool) (mk : Ty → Reg → Reg → Reg → Instr) : Except EncFault Instr :=
  decodeV3 w true false 1 (fun _ => acc) (fun _ ty d a b _ => mk ty d a b)

/-- The one-source forms. -/
def decodeV3a (w : Word) (minors : Nat) (acc : Ty → Bool) (mk : BitVec 3 → Ty → Reg → Reg → Instr) :
    Except EncFault Instr :=
  decodeV3 w false false minors (fun _ => acc) (fun m ty d a _ _ => mk m ty d a)

/-- `vmul` (R96, R97): with `.wide` of 32 bits a lane destination is a pair. -/
def decodeVmul (w : Word) : Except EncFault Instr := do
  let i ← decodeV3 w true false 4
    (fun m ty => match MulMode.ofMinor m with | some mm => accMul mm ty | none => false)
    (fun m ty d a b _ => .vmul (guardOf w) ((MulMode.ofMinor m).getD .low) ty d a b)
  match i with
  | .vmul _ .wide ty d _ _ => do need (!(ty.width == 32 && !d.isS && oddNum d.num)) .rsvField; .ok i
  | _ => .ok i

/-- `vcvt` (R57, R104): source type in [18:14], rounding in [13:11], and rounding 0 between integers (R72). -/
def decodeVcvt (w : Word) : Except EncFault Instr :=
  let uni := uniOf w
  let ak := w.getLsbD 5
  do
    need (fieldOk uni (wideCode (bits w 6 5)) uni (bits w 35 8)
      && fieldOk uni (wideCode (bits w 14 5)) ak (bits w 27 8)) .rsvField
    need ((bits w 0 3).toNat < 2) .undefOp
    let dty ← named (Ty.ofCode (bits w 6 5)) .rsvField
    let sty ← named (Ty.ofCode (bits w 14 5)) .rsvField
    need (accCvt dty && accCvt sty) .undefOp
    need (bits w 19 8 == 0 && !w.getLsbD 4 && !w.getLsbD 3) .rsvField
    let rm ← named (RoundMode.ofCode (bits w 11 3)) .rsvField
    need (!(dty.isInt && sty.isInt && rm != .rn)) .rsvField
    .ok (.vcvt (guardOf w) (bits w 0 3 == 1) rm dty sty (regOf uni (bits w 35 8)) (regOf ak (bits w 27 8)))

/-- `vsel` (R103): the predicate in [18:16], [15:11] and [3] zero. -/
def decodeVsel (w : Word) : Except EncFault Instr :=
  let uni := uniOf w
  let wide := wideCode (bits w 6 5)
  let ak := w.getLsbD 5; let bk := w.getLsbD 4
  do
    need (fieldOk uni wide uni (bits w 35 8) && fieldOk uni wide ak (bits w 27 8)
      && fieldOk uni wide bk (bits w 19 8)) .rsvField
    need (bits w 0 3 == 0) .undefOp
    let ty ← named (Ty.ofCode (bits w 6 5)) .rsvField
    need (accMove ty) .undefOp
    need (bits w 11 5 == 0 && !w.getLsbD 3) .rsvField
    .ok (.vsel (guardOf w) ty (regOf uni (bits w 35 8)) (regOf ak (bits w 27 8)) (regOf bk (bits w 19 8)) (bits w 16 3))

/-- `vpred` (R107). -/
def decodeVpred (w : Word) : Except EncFault Instr :=
  let g := guardOf w
  let m := bits w 0 3
  let d := bits w 35 8; let a := bits w 27 8; let b := bits w 19 8
  do
    need (!uniOf w) .rsvField
    need (m.toNat < 5) .undefOp
    need (bits w 3 8 == 0 && bits w 11 8 == 0 && d.toNat < 8 && a.toNat < 8 && b.toNat < 8
      && (m.toNat < 3 || b == 0)) .rsvField
    let pd := d.setWidth 3; let pa := a.setWidth 3; let pb := b.setWidth 3
    match m.toNat with
    | 0 => .ok (.vpredAnd g pd pa pb)
    | 1 => .ok (.vpredOr g pd pa pb)
    | 2 => .ok (.vpredXor g pd pa pb)
    | 3 => .ok (.vpredNot g pd pa)
    | _ => .ok (.vpredMov g pd pa)

/-- Format VI (R52): integer and bit types only, as the instruction accepts. -/
def decodeVI (w : Word) (acc : Ty → Bool) (mk : Ty → Reg → Reg → BitVec 21 → Instr) : Except EncFault Instr :=
  let uni := uniOf w
  let wide := wideCode (bits w 21 5)
  let ak := w.getLsbD 26
  do
    need (fieldOk uni wide uni (bits w 35 8) && fieldOk uni wide ak (bits w 27 8)) .rsvField
    let ty ← named (Ty.ofCode (bits w 21 5)) .rsvField
    need (acc ty) .undefOp
    .ok (mk ty (regOf uni (bits w 35 8)) (regOf ak (bits w 27 8)) (bits w 0 21))

/-- `vmov` with an immediate (R103): a and its kind bit are zero whatever [47] is. -/
def decodeVmovImm (w : Word) : Except EncFault Instr :=
  let uni := uniOf w
  do
    need (fieldOk uni (wideCode (bits w 21 5)) uni (bits w 35 8)) .rsvField
    let ty ← named (Ty.ofCode (bits w 21 5)) .rsvField
    need (accIntBit ty) .undefOp
    need (bits w 26 9 == 0) .rsvField
    .ok (.vmovImm (guardOf w) ty (regOf uni (bits w 35 8)) (bits w 0 21))

/-- `vcmp` (R52 VC, R58, R106). -/
def decodeVcmp (w : Word) : Except EncFault Instr :=
  let uni := uniOf w
  let wide := wideCode (bits w 26 5)
  let ak := w.getLsbD 31; let imm := w.getLsbD 21; let bk := w.getLsbD 12
  do
    need (fieldOk uni wide ak (bits w 32 8) && (imm || fieldOk uni wide bk (bits w 13 8))) .rsvField
    let c ← named (Cond.ofCode (bits w 22 4)) .rsvField
    let ty ← named (Ty.ofCode (bits w 26 5)) .rsvField
    need (accCmp c imm ty) .undefOp
    need (imm || bits w 0 12 == 0) .rsvField
    .ok (.vcmp (guardOf w) uni c ty (bits w 40 3) (regOf ak (bits w 32 8))
      (if imm then .imm (bits w 0 21) else .reg (regOf bk (bits w 13 8))))

/-- The shuffles (R108, R111, R112): a width-relative immediate outside its range is refused. -/
def decodeShfl (w : Word) (neg : Bool) (mk : Bool → Bool → Ty → BitVec 8 → BitVec 8 → ShflArg → Instr) :
    Except EncFault Instr :=
  let wide := wideCode (bits w 12 5)
  let d := bits w 35 8; let a := bits w 27 8; let b := bits w 19 8
  let bk := w.getLsbD 18; let imm := w.getLsbD 17
  let z := w.getLsbD 11; let rel := w.getLsbD 10
  do
    need (!uniOf w && fieldOk false wide false d && fieldOk false wide false a
      && (imm || fieldOk false false bk b)) .rsvField
    need (bits w 0 4 == 0) .undefOp
    let ty ← named (Ty.ofCode (bits w 12 5)) .rsvField
    need (accBit32 ty) .undefOp
    need (bits w 4 6 == 0 && !(imm && bk)) .rsvField
    need (!imm || !rel || (1 ≤ b.toNat && b.toNat ≤ 7) || (neg && 249 ≤ b.toNat)) .rsvField
    .ok (mk z rel ty d a (if imm then .imm b else .reg (regOf bk b)))

/-- `scan` and `lred` (R108, R113): `scan` alone has the exclusive bit. -/
def decodeRed (w : Word) (excl : Bool) (mk : RedOp → Bool → Ty → BitVec 8 → BitVec 8 → Instr) : Except EncFault Instr :=
  let wide := wideCode (bits w 12 5)
  let d := bits w 35 8; let a := bits w 27 8
  do
    need (!uniOf w && fieldOk false wide false d && fieldOk false wide false a) .rsvField
    let op ← named (RedOp.ofMinor (bits w 0 4)) .undefOp
    let ty ← named (Ty.ofCode (bits w 12 5)) .rsvField
    need (accRed op ty) .undefOp
    need (bits w 17 10 == 0 && bits w 10 2 == 0 && bits w 4 5 == 0 && (excl || !w.getLsbD 9)) .rsvField
    .ok (mk op (w.getLsbD 9) ty d a)

/-- `vote` (R108, R114): for `.all` and `.any` the type field is 0. -/
def decodeVote (w : Word) : Except EncFault Instr :=
  let m := bits w 0 4
  let d := bits w 35 8; let a := bits w 27 8
  let tc := bits w 12 5
  do
    need (!uniOf w && !(m == 2 && wideCode tc && oddNum d)) .rsvField
    need (m.toNat < 3) .undefOp
    let ty ← named (Ty.ofCode tc) .rsvField
    need (if m == 2 then ty == .b64 else tc == 0) .undefOp
    need (bits w 4 8 == 0 && !w.getLsbD 18 && a.toNat < 8) .rsvField
    if m == 2 then do
      need (w.getLsbD 17 && !oddNum d) .rsvField
      .ok (.voteBallot (guardOf w) d (a.setWidth 3) (bits w 19 8))
    else do
      need (bits w 17 10 == 0 && d.toNat < 8) .rsvField
      .ok (if m == 0 then .voteAll (guardOf w) (d.setWidth 3) (a.setWidth 3)
        else .voteAny (guardOf w) (d.setWidth 3) (a.setWidth 3))

/-- The kind rules of M (R41, R231): uniform exactly when no v-register is named. -/
def kindsOk (uni dk ok : Bool) : Bool := uni == (dk && ok)

/-- Format M (R52, R53, R231, R235). -/
def decodeM (w : Word) (load asof : Bool) (mk : Space → Ty → Reg → BitVec 4 → Option Reg → BitVec 6 → Instr) :
    Except EncFault Instr :=
  let uni := uniOf w
  let dk := w.getLsbD 7; let ok := w.getLsbD 22
  let wide := wideCode (bits w 17 5)
  do
    need (kindsOk uni dk ok && fieldOk uni wide dk (bits w 35 8) && offFieldOk uni ok (bits w 23 8)) .rsvField
    let ty ← named (Ty.ofCode (bits w 17 5)) .rsvField
    need (accMove ty) .undefOp
    let sp ← named (Space.ofCode (bits w 14 3)) .rsvField
    need (bits w 0 7 == 0 && (asof || bits w 8 6 == 0) && (!asof || sp == .g) && winOk sp (bits w 31 4)) .rsvField
    need (!load || uni || !dk) .rsvField
    .ok (mk sp ty (regOf dk (bits w 35 8)) (bits w 31 4) (offOf ok (bits w 23 8)) (bits w 8 6))

/-- `atom` (R41, R52 MA, R236). -/
def decodeAtom (w : Word) (glob : Bool) : Except EncFault Instr :=
  let uni := uniOf w
  let k := w.getLsbD 14; let ok := w.getLsbD 13
  let wide := wideCode (bits w 8 5)
  let g := guardOf w; let f := flagOf w
  do
    need (uni == k && fieldOk uni wide k (bits w 35 8) && fieldOk uni wide k (bits w 27 8)
      && offFieldOk uni ok (bits w 19 8)) .rsvField
    let op ← named (AtomOp.ofMinor (bits w 0 4)) .undefOp
    let ty ← named (Ty.ofCode (bits w 8 5)) .rsvField
    need (accAtom op ty) .undefOp
    let sc ← named (Scope.ofCode (bits w 5 3)) .rsvField
    need (glob || bits w 15 4 == 0) .rsvField
    let d := regOf k (bits w 35 8); let a := regOf k (bits w 27 8); let off := offOf ok (bits w 19 8)
    .ok (if glob then .atomG g f op sc (w.getLsbD 4) ty d a (bits w 15 4) off
      else .atomSp g f op sc (w.getLsbD 4) ty d a off)

/-- `atomn` (R236): no destination, no `.prm`, no `.cas`. -/
def decodeAtomn (w : Word) (glob : Bool) : Except EncFault Instr :=
  let uni := uniOf w
  let k := w.getLsbD 14; let ok := w.getLsbD 13
  let wide := wideCode (bits w 8 5)
  let g := guardOf w; let f := flagOf w
  do
    need (kindsOk uni k ok && fieldOk uni wide k (bits w 27 8) && offFieldOk uni ok (bits w 19 8)) .rsvField
    let op ← named (AtomOp.ofMinor (bits w 0 4)) .undefOp
    need (op != .cas) .undefOp
    let ty ← named (Ty.ofCode (bits w 8 5)) .rsvField
    need (accAtom op ty) .undefOp
    let sc ← named (Scope.ofCode (bits w 5 3)) .rsvField
    need ((glob || bits w 15 4 == 0) && bits w 35 8 == 0 && !w.getLsbD 4) .rsvField
    let a := regOf k (bits w 27 8); let off := offOf ok (bits w 19 8)
    .ok (if glob then .atomnG g f op sc ty a (bits w 15 4) off else .atomnSp g f op sc ty a off)

/-- `win` (R230): the limit is [31:0], or the register in [31:26] with [25:0] zero. -/
def decodeWin (w : Word) : Except EncFault Instr := do
  need (uniOf w) .rsvField
  if w.getLsbD 32 then do
    need (bits w 0 26 == 0) .rsvField
    .ok (.winReg (guardOf w) (bits w 39 4) (bits w 33 6) (bits w 26 6))
  else .ok (.win (guardOf w) (bits w 39 4) (bits w 33 6) (bits w 0 32))

/-- Format ST (R52) when the scope and `.prm` are zero (R252, R253, R308 and the like): the number of registers used and
the number of minors. -/
def decodeST (w : Word) (minors : Nat) (regs : BitVec 4 → Nat)
    (mk : BitVec 4 → BitVec 6 → BitVec 6 → BitVec 6 → Instr) : Except EncFault Instr :=
  let m := bits w 0 4
  let a := bits w 37 6; let b := bits w 31 6; let c := bits w 25 6
  do
    need (uniOf w) .rsvField
    need (m.toNat < minors) .undefOp
    need (bits w 4 21 == 0 && (1 ≤ regs m || a == 0) && (2 ≤ regs m || b == 0) && (3 ≤ regs m || c == 0)) .rsvField
    .ok (mk m a b c)

/-- `fence` (R241). -/
def decodeFence (w : Word) : Except EncFault Instr :=
  let g := guardOf w
  let m := bits w 0 4
  do
    need (uniOf w) .rsvField
    need (m.toNat < 3) .undefOp
    let sc ← named (Scope.ofCode (bits w 17 3)) .rsvField
    need (bits w 4 12 == 0 && bits w 20 23 == 0 && !(m == 1 && w.getLsbD 16)) .rsvField
    .ok (if m == 0 then .fenceAcq g sc (w.getLsbD 16) else if m == 1 then .fenceRel g sc
      else .fenceAr g sc (w.getLsbD 16))

/-- `stmp` (R242): `.hold` is scoped `.pk` or `.dm`. -/
def decodeStmp (w : Word) : Except EncFault Instr :=
  let g := guardOf w
  let m := bits w 0 4
  let a := bits w 37 6; let b := bits w 31 6; let c := bits w 25 6
  let sc := bits w 17 3
  do
    need (uniOf w) .rsvField
    need (m.toNat < 3) .undefOp
    need (bits w 20 5 == 0 && bits w 4 13 == 0) .rsvField
    if m == 1 then
      if sc == 4 then do need (c == 0) .rsvField; .ok (.stmpHold g a b)
      else do need (sc == 5) .rsvField; .ok (.stmpHoldDm g a b c)
    else do
      need (sc == 0 && b == 0 && c == 0) .rsvField
      .ok (if m == 0 then .stmpGet g a else .stmpDrop g a)

/-- `xbeg` with its extension (R55): in the last slot of a clause (`ext` absent) the extension is not inspected, and the
position rule refuses the word later. -/
def decodeXbeg (w : Word) (ext : Option Word) : Except EncFault Instr := do
  need (bits w 0 8 == 0) .rsvField
  match ext with
  | none => .ok (.xbeg (bits w 40 16) (bits w 8 32) 0 0)
  | some x => do
    need (bits x 56 8 == 0xEF && bits x 32 18 == 0) .rsvField
    .ok (.xbeg (bits w 40 16) (bits w 8 32) (bits x 50 6) (bits x 0 32))

/-- Format TC (R54, R122, R127, R133). -/
def decodeTC (w : Word) (mj : Nat) : Except EncFault Instr :=
  let g := guardOf w; let f := flagOf w
  let m := bits w 0 4
  let hd := bits w 37 6; let ha := bits w 31 6; let hb := bits w 25 6
  let idx := bits w 9 16; let used := w.getLsbD 8; let q := bits w 4 4
  let bar := if used then some idx else none
  do
    need (uniOf w) .rsvField
    match mj with
    | 0x70 => do
      need (m.toNat < 2) .undefOp
      need (ha == 0 && hb == 0 && !used && q == 0 && bits w 9 2 == 0) .rsvField
      .ok (if m == 0 then .hset g hd idx else .hget g hd idx)
    | 0x71 => do
      need (m.toNat < 6) .undefOp
      need (idx == 0 && !used && q == 0) .rsvField
      match m.toNat with
      | 0 => .ok (.mma g f hd ha hb)
      | 1 => .ok (.mmaInit g f hd ha hb)
      | 2 => .ok (.mmaTern g f hd ha hb)
      | 3 => .ok (.mmaTernInit g f hd ha hb)
      | 4 => .ok (.mmaWh g f hd ha hb)
      | _ => .ok (.mmaWhInit g f hd ha hb)
    | 0x72 => do
      need (m == 0) .undefOp
      need (hb == 0 && !w.getLsbD 4 && !(w.getLsbD 7 && w.getLsbD 6) && (used || idx == 0)) .rsvField
      .ok (.tcopy g f (w.getLsbD 7) (w.getLsbD 6) (w.getLsbD 5) hd ha bar)
    | _ => do
      need (m == 0) .undefOp
      need (q == 0 && (used || idx == 0)) .rsvField
      .ok (if mj == 0x73 then .tgather g f hd ha hb bar else .tscatter g f hd ha hb bar)

/-- `br`, `brc`, `join` and `exit` (R52 CB, R295 to R300). -/
def decodeCB (w : Word) (mj : Nat) : Except EncFault Instr :=
  let g := guardOf w
  match mj with
  | 0x90 => do
    need (uniOf w) .rsvField
    need (bits w 0 19 == 0) .rsvField
    .ok (.br g (bits w 19 24))
  | 0x91 => do
    need (!uniOf w && g == Guard.none) .rsvField
    need (!w.getLsbD 0) .rsvField
    .ok (.brc (bits w 40 3) (w.getLsbD 39) (bits w 20 19) (bits w 1 19))
  | 0x92 => do
    need (uniOf w && g == Guard.none) .rsvField
    need (bits w 0 43 == 0) .rsvField
    .ok .join
  | _ => do
    need (uniOf w) .rsvField
    need (bits w 0 43 == 0) .rsvField
    .ok (.exit g)

/-- Format SB: `bar` (R304). -/
def decodeBar (w : Word) : Except EncFault Instr :=
  let g := guardOf w
  let m := bits w 24 3
  let reg := w.getLsbD 23
  let idx := bits w 27 16
  let n : BarArg := if reg then .reg (bits w 17 6) else .imm (bits w 0 23)
  do
    need (uniOf w) .rsvField
    need (m.toNat < 6) .undefOp
    need (!reg || bits w 0 17 == 0) .rsvField
    match m.toNat with
    | 0 => .ok (.barInit g idx n)
    | 1 => .ok (.barInitBytes g idx n)
    | 2 => .ok (.barExpect g idx n)
    | 3 => .ok (.barArrive g idx n)
    | 4 => do need (reg || (bits w 0 23).toNat ≤ 1) .rsvField; .ok (.barWait g idx n)
    | _ => .ok (.barArw g idx n)

/-- Format TL: `tlwait`, `tlread`, `tlset` (R307, R341). -/
def decodeTL (w : Word) (mj : Nat) : Except EncFault Instr :=
  let g := guardOf w
  let imm := w.getLsbD 36
  let v : TlArg := if imm then .imm (bits w 0 36) else .reg (bits w 30 6)
  do
    need (uniOf w) .rsvField
    match mj with
    | 0x97 => do
      let sc ← named (Scope.ofCode (bits w 37 3)) .rsvField
      need (imm || bits w 0 30 == 0) .rsvField
      .ok (.tlwait g (bits w 40 3) sc v)
    | 0x98 => do
      need (bits w 36 4 == 0 && bits w 0 30 == 0) .rsvField
      .ok (.tlread g (bits w 30 6) (bits w 40 3))
    | _ => do
      need (bits w 37 3 == 0 && (imm || bits w 0 30 == 0)) .rsvField
      .ok (.tlset g (bits w 40 3) v)

/-- `sys.rd`: the Turner reports have a row of their own (R337). -/
def mkSysRd (g : Guard) (sd : BitVec 6) (n : BitVec 12) : Instr :=
  if 0x050 ≤ n.toNat && n.toNat ≤ 0x05F then .turnrptRead g sd (n.setWidth 4) else .sysRd g sd n

/-- `sys.wr`: CSTAMP, BUFREQ and the ring descriptors have rows of their own (R163, R288, R284). -/
def mkSysWr (g : Guard) (n : BitVec 12) (sa : BitVec 6) : Instr :=
  if n == 0x002 then .cstampWrite g sa
  else if n == 0x021 then .bufreqWrite g sa
  else if 0x030 ≤ n.toNat && n.toNat ≤ 0x037 then .ringdescWrite g (n.setWidth 3) sa
  else .sysWr g n sa

/-- Format SY with A and B used as told and [26:15] zero unless used (R335). -/
def decodeSY (w : Word) (minors : Nat) (useA useB useN : BitVec 4 → Bool)
    (mk : BitVec 4 → BitVec 6 → BitVec 6 → BitVec 12 → Except EncFault Instr) : Except EncFault Instr :=
  let m := bits w 0 4
  let a := bits w 35 8; let b := bits w 27 8; let n := bits w 15 12
  do
    need (uniOf w && fieldOk true false true a && fieldOk true false true b) .rsvField
    need (m.toNat < minors) .undefOp
    need (bits w 4 11 == 0 && (useA m || a == 0) && (useB m || b == 0) && (useN m || n == 0)) .rsvField
    mk m (a.setWidth 6) (b.setWidth 6) n

/-- The class-4 forms of format SY (R335). -/
def decodeSys (w : Word) (mj : Nat) : Except EncFault Instr :=
  let g := guardOf w; let f := flagOf w
  let yes : BitVec 4 → Bool := fun _ => true
  let no : BitVec 4 → Bool := fun _ => false
  match mj with
  | 0xC0 => decodeSY w 2 yes no yes fun m a _ n => .ok (if m == 0 then mkSysRd g a n else mkSysWr g n a)
  | 0xC1 => decodeSY w 1 no no yes fun _ _ _ n => do
      need (n.toNat < 64) .rsvField
      .ok (.trap g (n.setWidth 6))
  | 0xC2 => decodeSY w 1 no no no fun _ _ _ _ => .ok (.tret g)
  | 0xC4 => decodeSY w 2 yes yes no fun m a b _ => .ok (if m == 0 then .sysCtxsave g f a b else .sysCtxload g f a b)
  | 0xC5 => decodeSY w 3 yes yes no fun m a b _ =>
      .ok (if m == 0 then .sysHadv g a b else if m == 1 then .sysWsize g a b else .sysHrevoke g a b)
  | 0xC6 => decodeSY w 3 yes yes no fun m a b _ =>
      .ok (if m == 0 then .sysPgattr g f a b else if m == 1 then .sysTlbinv g f a b else .sysWininv g f a b)
  | 0xC7 => decodeSY w 4 (fun m => 2 ≤ m.toNat) (fun m => 2 ≤ m.toNat) no fun m a b _ =>
      .ok (if m == 0 then .sysL1inv g f else if m == 1 then .sysL1wb g f
        else if m == 2 then .sysSlwb g f a b else .sysSlinv g f a b)
  | 0xC8 => decodeSY w 2 (fun m => m == 1) no (fun m => m == 0) fun m a _ n =>
      .ok (if m == 0 then .sysBrk g n else .sysDbgrd g a)
  | _ => decodeSY w 1 yes yes no fun _ a b _ => .ok (.sysDgrd g a b)

/-- Class 0 after the shared part of check 3 (R96 to R114). -/
def decodeAlu (w : Word) (mj : Nat) : Except EncFault Instr :=
  let g := guardOf w; let f := flagOf w
  let satAcc : BitVec 3 → Ty → Bool := fun m ty => if m == 1 then ty.isInt else accArith ty
  match mj with
  | 0x00 => decodeV3 w true false 2 satAcc fun m ty d a b _ => .vadd g (m == 1) ty d a b
  | 0x01 => decodeVI w Ty.isInt (.vaddImm g)
  | 0x02 => decodeV3 w true false 2 satAcc fun m ty d a b _ => .vsub g (m == 1) ty d a b
  | 0x03 => decodeVI w Ty.isInt (.vsubImm g)
  | 0x04 => decodeVmul w
  | 0x05 => decodeVI w Ty.isInt (.vmulImm g)
  | 0x06 => decodeV3ab w accArith (.vmin g)
  | 0x07 => decodeVI w Ty.isInt (.vminImm g)
  | 0x08 => decodeV3ab w accArith (.vmax g)
  | 0x09 => decodeVI w Ty.isInt (.vmaxImm g)
  | 0x0A => decodeV3 w true true 1 (fun _ => accArith) fun _ ty d a b c => .vfma g ty d a b c
  | 0x0B => decodeV3ab w accArith (.vdiv g f)
  | 0x0C => decodeV3a w 1 Ty.isF fun _ ty d a => .vsqrt g f ty d a
  | 0x0D => decodeV3a w 7 (fun ty => ty == .f32) fun m _ d a =>
      match m.toNat with
      | 0 => .vsfRcp g f d a
      | 1 => .vsfRsqrt g f d a
      | 2 => .vsfExp2 g f d a
      | 3 => .vsfLog2 g f d a
      | 4 => .vsfSinpi g f d a
      | 5 => .vsfCospi g f d a
      | _ => .vsfTanh g f d a
  | 0x0E => decodeVcvt w
  | 0x10 => decodeV3ab w Ty.isB (.vand g)
  | 0x11 => decodeVI w Ty.isB (.vandImm g)
  | 0x12 => decodeV3ab w Ty.isB (.vor g)
  | 0x13 => decodeVI w Ty.isB (.vorImm g)
  | 0x14 => decodeV3ab w Ty.isB (.vxor g)
  | 0x15 => decodeVI w Ty.isB (.vxorImm g)
  | 0x16 => decodeV3ab w accIntBit (.vshl g)
  | 0x17 => decodeVI w accIntBit (.vshlImm g)
  | 0x18 => decodeV3ab w accIntBit (.vshr g)
  | 0x19 => decodeVI w accIntBit (.vshrImm g)
  | 0x1A => decodeV3a w 4 Ty.isB fun m ty d a =>
      match m.toNat with
      | 0 => .vbitPopc g ty d a
      | 1 => .vbitClz g ty d a
      | 2 => .vbitCtz g ty d a
      | _ => .vbitRev g ty d a
  | 0x1B => decodeVsel w
  | 0x1C => decodeVcmp w
  | 0x1D => decodeVpred w
  | 0x1E => decodeV3a w 1 accMove fun _ ty d a => .vmov g ty d a
  | 0x1F => decodeVmovImm w
  | 0x20 => decodeShfl w false (.shflIdx g)
  | 0x21 => decodeShfl w true (.shflRel g)
  | 0x22 => decodeRed w true (.scan g)
  | 0x23 => decodeRed w false fun op _ ty d a => .lred g op ty d a
  | _ => decodeVote w

/-- Class 1 after the shared part of check 3 (R230 to R253). -/
def decodeMem (w : Word) (mj : Nat) : Except EncFault Instr :=
  let g := guardOf w; let f := flagOf w
  match mj with
  | 0x40 => decodeM w true false fun sp ty d win off _ => .ld g f sp ty d win off
  | 0x41 => decodeM w false false fun sp ty d win off _ => .st g sp ty win off d
  | 0x42 => decodeM w true true fun _ ty d win off t => .ldAsof g f ty d win off t
  | 0x43 => decodeAtom w true
  | 0x44 => decodeAtom w false
  | 0x45 => decodeAtomn w true
  | 0x46 => decodeAtomn w false
  | 0x47 => decodeFence w
  | 0x48 => decodeWin w
  | 0x49 => decodeStmp w
  | 0x4B => do
      let i ← decodeST w 1 (fun _ => 0) fun _ _ _ _ => .xend g f.fl
      need (f.la == 0) .rsvField
      .ok i
  | _ => decodeST w 2 (fun _ => 1) fun m a _ _ => if m == 0 then .xabt g a else .xstat g a

/-- Classes 2 and 3 after the shared part of check 3 (R122 to R142, R295 to R313). -/
def decodeCtl (w : Word) (mj : Nat) : Except EncFault Instr :=
  let g := guardOf w; let f := flagOf w
  match mj with
  | 0x75 => decodeST w 2 (fun m => if m == 0 then 1 else 2)
      fun m a b _ => if m == 0 then .taskPush g f a else .taskPushWave g f a b
  | 0x94 => decodeST w 1 (fun _ => 2) fun _ a b _ => .launch g f a b
  | 0x96 => decodeBar w
  | 0x99 => decodeST w 3 (fun m => if m == 2 then 2 else 1)
      fun m a b _ => if m == 0 then .dqPush g f a else if m == 1 then .dqPop g f a else .dqSteal g f a b
  | 0x9A => decodeST w 1 (fun _ => 3) fun _ a b c => .msgSend g f a b c
  | 0x9B => decodeST w 2 (fun _ => 2) fun m a b _ => if m == 0 then .ringWait g a b else .ringTake g a b
  | _ => decodeST w 2 (fun _ => 0) fun m _ _ _ => if m == 0 then .yield g else .qend g

/-- An instruction word in a clause of a class, with the word that stands in the next slot of the clause, if one does:
the checks 1 to 5 of R62 in their order. -/
def decodeWord (cls : BitVec 4) (w : Word) (next : Option Word) : Except EncFault Instr :=
  let mj := (bits w 56 8).toNat
  match majorInfo mj with
  | none => .error .undefOp
  | some (c, lat) =>
    if c != cls then .error .classMismatch
    else if mj = 0x4A then decodeXbeg w next
    else if mj = 0x95 then do
      need (bits w 0 8 == 0) .rsvField
      .ok (.rgn (bits w 40 16) (bits w 8 32))
    else do
      need (latencyOk lat w && (guardOf w).ok) .rsvField
      if mj ≤ 0x24 then decodeAlu w mj
      else if mj ≤ 0x4C then decodeMem w mj
      else if mj ≤ 0x74 then decodeTC w mj
      else if 0x90 ≤ mj ∧ mj ≤ 0x93 then decodeCB w mj
      else if mj = 0x97 ∨ mj = 0x98 ∨ mj = 0xC3 then decodeTL w mj
      else if mj ≤ 0x9C then decodeCtl w mj
      else decodeSys w mj

/-- A submission entry by its command byte (R259). -/
def decodeEntry (e : SubEntry) : Instr :=
  match (entryCode e).toNat with
  | 1 => .launchCmd e
  | 2 => .collective e
  | 3 => .power e
  | 4 => .resync e
  | 5 => .contextEnd e
  | _ => .unknownMailboxCommand e

-- The encoder ---------------------------------------------------------------------------------------------------------

/-- [63:43] of a word (R37). -/
def common (mj : BitVec 8) (lat : BitVec 8) (uni : Bool) (g : Guard) : BitVec 21 :=
  mj ++ lat ++ BitVec.ofBool uni ++ g.p ++ BitVec.ofBool g.neg

/-- The latency field of a fixed-latency word (R38). -/
def fixedLat : BitVec 8 := 0xFF

/-- The latency field of a long-latency word. -/
def Flag.field (f : Flag) : BitVec 8 := f.la ++ f.fl

/-- Format V3 (R52). -/
def encV3 (mj lat : BitVec 8) (g : Guard) (d a b c : Reg) (ty : BitVec 5) (minor : BitVec 3) : Word :=
  common mj lat d.isS g ++ d.num ++ a.num ++ b.num ++ c.num ++ ty ++ BitVec.ofBool a.isS ++ BitVec.ofBool b.isS
    ++ BitVec.ofBool c.isS ++ minor

/-- An unused V3 field. -/
def noReg : Reg := .v 0

/-- Format VI (R52). -/
def encVI (mj : BitVec 8) (g : Guard) (ty : Ty) (d a : Reg) (imm : BitVec 21) : Word :=
  common mj fixedLat d.isS g ++ d.num ++ a.num ++ BitVec.ofBool a.isS ++ ty.code ++ imm

/-- Format XL (R52). -/
def encXL (mj : BitVec 8) (g : Guard) (d a b : BitVec 8) (bk imm : Bool) (ty : BitVec 5) (z rel excl : Bool)
    (minor : BitVec 4) : Word :=
  common mj fixedLat false g ++ d ++ a ++ b ++ BitVec.ofBool bk ++ BitVec.ofBool imm ++ ty ++ BitVec.ofBool z
    ++ BitVec.ofBool rel ++ BitVec.ofBool excl ++ (0 : BitVec 5) ++ minor

/-- A shuffle. -/
def encShfl (mj : BitVec 8) (g : Guard) (z rel : Bool) (ty : Ty) (d a : BitVec 8) (b : ShflArg) : Word :=
  match b with
  | .reg r => encXL mj g d a r.num r.isS false ty.code z rel false 0
  | .imm i => encXL mj g d a i false true ty.code z rel false 0

/-- The offset field and its kind bit (R40, R52). -/
def offNum : Option Reg → BitVec 8
  | some r => r.num
  | none => 255

/-- The kind bit of an offset. -/
def offIsS : Option Reg → Bool
  | some r => r.isS
  | none => true

/-- Format M (R52). -/
def encM (mj lat : BitVec 8) (g : Guard) (sp : Space) (ty : Ty) (d : Reg) (win : BitVec 4) (off : Option Reg)
    (t : BitVec 6) : Word :=
  common mj lat (d.isS && offIsS off) g ++ d.num ++ win ++ offNum off ++ BitVec.ofBool (offIsS off) ++ ty.code
    ++ sp.code ++ t ++ BitVec.ofBool d.isS ++ (0 : BitVec 7)

/-- Format MA (R52). -/
def encMA (mj lat : BitVec 8) (g : Guard) (uni : Bool) (d : BitVec 8) (a : Reg) (off : Option Reg) (win : BitVec 4)
    (ty : Ty) (sc : Scope) (prm : Bool) (op : AtomOp) : Word :=
  common mj lat uni g ++ d ++ a.num ++ offNum off ++ win ++ BitVec.ofBool a.isS ++ BitVec.ofBool (offIsS off)
    ++ ty.code ++ sc.code ++ BitVec.ofBool prm ++ op.minor

/-- Format ST (R52). -/
def encST (mj lat : BitVec 8) (g : Guard) (a b c : BitVec 6) (sc : BitVec 3) (prm : Bool) (minor : BitVec 4) : Word :=
  common mj lat true g ++ a ++ b ++ c ++ (0 : BitVec 5) ++ sc ++ BitVec.ofBool prm ++ (0 : BitVec 12) ++ minor

/-- Format TC (R52). -/
def encTC (mj lat : BitVec 8) (g : Guard) (d a b : BitVec 6) (idx : BitVec 16) (used : Bool) (q : BitVec 4)
    (minor : BitVec 4) : Word :=
  common mj lat true g ++ d ++ a ++ b ++ idx ++ BitVec.ofBool used ++ q ++ minor

/-- A TC form with its optional barrier word. -/
def encTCbar (mj lat : BitVec 8) (g : Guard) (d a b : BitVec 6) (bar : Option (BitVec 16)) (q : BitVec 4) : Word :=
  match bar with
  | some i => encTC mj lat g d a b i true q 0
  | none => encTC mj lat g d a b 0 false q 0

/-- Format SB (R52). -/
def encSB (g : Guard) (idx : BitVec 16) (minor : BitVec 3) (n : BarArg) : Word :=
  match n with
  | .imm i => common 0x96 fixedLat true g ++ idx ++ minor ++ (0 : BitVec 1) ++ i
  | .reg s => common 0x96 fixedLat true g ++ idx ++ minor ++ (1 : BitVec 1) ++ s ++ (0 : BitVec 17)

/-- Format TL (R52). -/
def encTL (mj : BitVec 8) (g : Guard) (tl sc : BitVec 3) (v : TlArg) : Word :=
  match v with
  | .imm i => common mj fixedLat true g ++ tl ++ sc ++ (1 : BitVec 1) ++ i
  | .reg s => common mj fixedLat true g ++ tl ++ sc ++ (0 : BitVec 1) ++ s ++ (0 : BitVec 30)

/-- Format SY (R52). -/
def encSY (mj lat : BitVec 8) (g : Guard) (a b : BitVec 6) (n : BitVec 12) (minor : BitVec 4) : Word :=
  common mj lat true g ++ a.setWidth 8 ++ b.setWidth 8 ++ n ++ (0 : BitVec 11) ++ minor

/-- The word of a class-0 instruction. -/
def encodeAlu : Instr → Option Word
  | .vadd g sat ty d a b => some (encV3 0x00 fixedLat g d a b noReg ty.code (if sat then 1 else 0))
  | .vaddImm g ty d a i => some (encVI 0x01 g ty d a i)
  | .vsub g sat ty d a b => some (encV3 0x02 fixedLat g d a b noReg ty.code (if sat then 1 else 0))
  | .vsubImm g ty d a i => some (encVI 0x03 g ty d a i)
  | .vmul g m ty d a b => some (encV3 0x04 fixedLat g d a b noReg ty.code m.minor)
  | .vmulImm g ty d a i => some (encVI 0x05 g ty d a i)
  | .vmin g ty d a b => some (encV3 0x06 fixedLat g d a b noReg ty.code 0)
  | .vminImm g ty d a i => some (encVI 0x07 g ty d a i)
  | .vmax g ty d a b => some (encV3 0x08 fixedLat g d a b noReg ty.code 0)
  | .vmaxImm g ty d a i => some (encVI 0x09 g ty d a i)
  | .vfma g ty d a b c => some (encV3 0x0A fixedLat g d a b c ty.code 0)
  | .vdiv g f ty d a b => some (encV3 0x0B f.field g d a b noReg ty.code 0)
  | .vsqrt g f ty d a => some (encV3 0x0C f.field g d a noReg noReg ty.code 0)
  | .vsfRcp g f d a => some (encV3 0x0D f.field g d a noReg noReg Ty.f32.code 0)
  | .vsfRsqrt g f d a => some (encV3 0x0D f.field g d a noReg noReg Ty.f32.code 1)
  | .vsfExp2 g f d a => some (encV3 0x0D f.field g d a noReg noReg Ty.f32.code 2)
  | .vsfLog2 g f d a => some (encV3 0x0D f.field g d a noReg noReg Ty.f32.code 3)
  | .vsfSinpi g f d a => some (encV3 0x0D f.field g d a noReg noReg Ty.f32.code 4)
  | .vsfCospi g f d a => some (encV3 0x0D f.field g d a noReg noReg Ty.f32.code 5)
  | .vsfTanh g f d a => some (encV3 0x0D f.field g d a noReg noReg Ty.f32.code 6)
  | .vcvt g sat rm dty sty d a =>
      some (common 0x0E fixedLat d.isS g ++ d.num ++ a.num ++ (0 : BitVec 8) ++ sty.code ++ rm.code ++ dty.code
        ++ BitVec.ofBool a.isS ++ (0 : BitVec 2) ++ (if sat then (1 : BitVec 3) else 0))
  | .vand g ty d a b => some (encV3 0x10 fixedLat g d a b noReg ty.code 0)
  | .vandImm g ty d a i => some (encVI 0x11 g ty d a i)
  | .vor g ty d a b => some (encV3 0x12 fixedLat g d a b noReg ty.code 0)
  | .vorImm g ty d a i => some (encVI 0x13 g ty d a i)
  | .vxor g ty d a b => some (encV3 0x14 fixedLat g d a b noReg ty.code 0)
  | .vxorImm g ty d a i => some (encVI 0x15 g ty d a i)
  | .vshl g ty d a b => some (encV3 0x16 fixedLat g d a b noReg ty.code 0)
  | .vshlImm g ty d a i => some (encVI 0x17 g ty d a i)
  | .vshr g ty d a b => some (encV3 0x18 fixedLat g d a b noReg ty.code 0)
  | .vshrImm g ty d a i => some (encVI 0x19 g ty d a i)
  | .vbitPopc g ty d a => some (encV3 0x1A fixedLat g d a noReg noReg ty.code 0)
  | .vbitClz g ty d a => some (encV3 0x1A fixedLat g d a noReg noReg ty.code 1)
  | .vbitCtz g ty d a => some (encV3 0x1A fixedLat g d a noReg noReg ty.code 2)
  | .vbitRev g ty d a => some (encV3 0x1A fixedLat g d a noReg noReg ty.code 3)
  | .vsel g ty d a b pk =>
      some (common 0x1B fixedLat d.isS g ++ d.num ++ a.num ++ b.num ++ pk ++ (0 : BitVec 5) ++ ty.code
        ++ BitVec.ofBool a.isS ++ BitVec.ofBool b.isS ++ (0 : BitVec 4))
  | .vcmp g uni c ty pd a (.imm i) =>
      some (common 0x1C fixedLat uni g ++ pd ++ a.num ++ BitVec.ofBool a.isS ++ ty.code ++ c.code ++ (1 : BitVec 1) ++ i)
  | .vcmp g uni c ty pd a (.reg b) =>
      some (common 0x1C fixedLat uni g ++ pd ++ a.num ++ BitVec.ofBool a.isS ++ ty.code ++ c.code ++ (0 : BitVec 1)
        ++ b.num ++ BitVec.ofBool b.isS ++ (0 : BitVec 12))
  | .vpredAnd g pd pa pb => some (common 0x1D fixedLat false g ++ (pd.setWidth 8) ++ (pa.setWidth 8) ++ (pb.setWidth 8) ++ (0 : BitVec 19))
  | .vpredOr g pd pa pb => some (common 0x1D fixedLat false g ++ (pd.setWidth 8) ++ (pa.setWidth 8) ++ (pb.setWidth 8) ++ (1 : BitVec 19))
  | .vpredXor g pd pa pb => some (common 0x1D fixedLat false g ++ (pd.setWidth 8) ++ (pa.setWidth 8) ++ (pb.setWidth 8) ++ (2 : BitVec 19))
  | .vpredNot g pd pa => some (common 0x1D fixedLat false g ++ (pd.setWidth 8) ++ (pa.setWidth 8) ++ (3 : BitVec 27))
  | .vpredMov g pd pa => some (common 0x1D fixedLat false g ++ (pd.setWidth 8) ++ (pa.setWidth 8) ++ (4 : BitVec 27))
  | .vmov g ty d a => some (encV3 0x1E fixedLat g d a noReg noReg ty.code 0)
  | .vmovImm g ty d i => some (encVI 0x1F g ty d noReg i)
  | .shflIdx g z rel ty d a b => some (encShfl 0x20 g z rel ty d a b)
  | .shflRel g z rel ty d a b => some (encShfl 0x21 g z rel ty d a b)
  | .scan g op excl ty d a => some (encXL 0x22 g d a 0 false false ty.code false false excl op.minor)
  | .lred g op ty d a => some (encXL 0x23 g d a 0 false false ty.code false false false op.minor)
  | .voteAll g pd pa => some (encXL 0x24 g (pd.setWidth 8) (pa.setWidth 8) 0 false false 0 false false false 0)
  | .voteAny g pd pa => some (encXL 0x24 g (pd.setWidth 8) (pa.setWidth 8) 0 false false 0 false false false 1)
  | .voteBallot g d pa k => some (encXL 0x24 g d (pa.setWidth 8) k false true Ty.b64.code false false false 2)
  | _ => none

/-- The word of a class-1 instruction; for `xbeg`, word 0. -/
def encodeMem : Instr → Option Word
  | .ld g f sp ty d win off => some (encM 0x40 f.field g sp ty d win off 0)
  | .st g sp ty win off a => some (encM 0x41 fixedLat g sp ty a win off 0)
  | .ldAsof g f ty d win off t => some (encM 0x42 f.field g .g ty d win off t)
  | .atomG g f op sc prm ty d a win off => some (encMA 0x43 f.field g a.isS d.num a off win ty sc prm op)
  | .atomSp g f op sc prm ty d a off => some (encMA 0x44 f.field g a.isS d.num a off 0 ty sc prm op)
  | .atomnG g f op sc ty a win off => some (encMA 0x45 f.field g (a.isS && offIsS off) 0 a off win ty sc false op)
  | .atomnSp g f op sc ty a off => some (encMA 0x46 f.field g (a.isS && offIsS off) 0 a off 0 ty sc false op)
  | .fenceAcq g sc prm => some (encST 0x47 fixedLat g 0 0 0 sc.code prm 0)
  | .fenceRel g sc => some (encST 0x47 fixedLat g 0 0 0 sc.code false 1)
  | .fenceAr g sc prm => some (encST 0x47 fixedLat g 0 0 0 sc.code prm 2)
  | .win g bd sa lim => some (common 0x48 fixedLat true g ++ bd ++ sa ++ (0 : BitVec 1) ++ lim)
  | .winReg g bd sa sb => some (common 0x48 fixedLat true g ++ bd ++ sa ++ (1 : BitVec 1) ++ sb ++ (0 : BitVec 26))
  | .stmpGet g sd => some (encST 0x49 fixedLat g sd 0 0 0 false 0)
  | .stmpHold g sd sa => some (encST 0x49 fixedLat g sd sa 0 4 false 1)
  | .stmpHoldDm g sd sa sc => some (encST 0x49 fixedLat g sd sa sc 5 false 1)
  | .stmpDrop g sa => some (encST 0x49 fixedLat g sa 0 0 0 false 2)
  | .xbeg sm vm _ _ => some ((0x4A : BitVec 8) ++ sm ++ vm ++ (0 : BitVec 8))
  | .xend g fl => some (encST 0x4B ((0 : BitVec 4) ++ fl) g 0 0 0 0 false 0)
  | .xabt g sa => some (encST 0x4C fixedLat g sa 0 0 0 false 0)
  | .xstat g sd => some (encST 0x4C fixedLat g sd 0 0 0 false 1)
  | _ => none

/-- The words of classes 2 and 3. -/
def encodeCtl : Instr → Option Word
  | .hset g hd idx => some (encTC 0x70 fixedLat g hd 0 0 idx false 0 0)
  | .hget g hd idx => some (encTC 0x70 fixedLat g hd 0 0 idx false 0 1)
  | .mma g f hc ha hw => some (encTC 0x71 f.field g hc ha hw 0 false 0 0)
  | .mmaInit g f hc ha hw => some (encTC 0x71 f.field g hc ha hw 0 false 0 1)
  | .mmaTern g f hc ha hw => some (encTC 0x71 f.field g hc ha hw 0 false 0 2)
  | .mmaTernInit g f hc ha hw => some (encTC 0x71 f.field g hc ha hw 0 false 0 3)
  | .mmaWh g f hc ha hw => some (encTC 0x71 f.field g hc ha hw 0 false 0 4)
  | .mmaWhInit g f hc ha hw => some (encTC 0x71 f.field g hc ha hw 0 false 0 5)
  | .tcopy g f tr rb mc hd ha bar =>
      some (encTCbar 0x72 f.field g hd ha 0 bar
        (BitVec.ofBool tr ++ BitVec.ofBool rb ++ BitVec.ofBool mc ++ (0 : BitVec 1)))
  | .tgather g f hd ha hx bar => some (encTCbar 0x73 f.field g hd ha hx bar 0)
  | .tscatter g f hd ha hx bar => some (encTCbar 0x74 f.field g hd ha hx bar 0)
  | .taskPush g f sa => some (encST 0x75 f.field g sa 0 0 0 false 0)
  | .taskPushWave g f sa sb => some (encST 0x75 f.field g sa sb 0 0 false 1)
  | .br g off => some (common 0x90 fixedLat true g ++ off ++ (0 : BitVec 19))
  | .brc pn neg off tok =>
      some (common 0x91 fixedLat false Guard.none ++ pn ++ BitVec.ofBool neg ++ off ++ tok ++ (0 : BitVec 1))
  | .join => some (common 0x92 fixedLat true Guard.none ++ (0 : BitVec 43))
  | .exit g => some (common 0x93 fixedLat true g ++ (0 : BitVec 43))
  | .launch g f sd sa => some (encST 0x94 f.field g sd sa 0 0 false 0)
  | .rgn sm vm => some ((0x95 : BitVec 8) ++ sm ++ vm ++ (0 : BitVec 8))
  | .barInit g idx n => some (encSB g idx 0 n)
  | .barInitBytes g idx n => some (encSB g idx 1 n)
  | .barExpect g idx n => some (encSB g idx 2 n)
  | .barArrive g idx n => some (encSB g idx 3 n)
  | .barWait g idx n => some (encSB g idx 4 n)
  | .barArw g idx n => some (encSB g idx 5 n)
  | .tlwait g tl sc n => some (encTL 0x97 g tl sc.code n)
  | .tlread g sd tl => some (encTL 0x98 g tl 0 (.reg sd))
  | .dqPush g f sa => some (encST 0x99 f.field g sa 0 0 0 false 0)
  | .dqPop g f sd => some (encST 0x99 f.field g sd 0 0 0 false 1)
  | .dqSteal g f sd sa => some (encST 0x99 f.field g sd sa 0 0 false 2)
  | .msgSend g f sd sa sb => some (encST 0x9A f.field g sd sa sb 0 false 0)
  | .ringWait g sd sa => some (encST 0x9B fixedLat g sd sa 0 0 false 0)
  | .ringTake g sd sa => some (encST 0x9B fixedLat g sd sa 0 0 false 1)
  | .yield g => some (encST 0x9C fixedLat g 0 0 0 0 false 0)
  | .qend g => some (encST 0x9C fixedLat g 0 0 0 0 false 1)
  | _ => none

/-- The words of class 4. -/
def encodeSys : Instr → Option Word
  | .sysRd g sd n => some (encSY 0xC0 fixedLat g sd 0 n 0)
  | .turnrptRead g sd n => some (encSY 0xC0 fixedLat g sd 0 ((0x05 : BitVec 8) ++ n) 0)
  | .sysWr g n sa => some (encSY 0xC0 fixedLat g sa 0 n 1)
  | .cstampWrite g sa => some (encSY 0xC0 fixedLat g sa 0 0x002 1)
  | .bufreqWrite g sa => some (encSY 0xC0 fixedLat g sa 0 0x021 1)
  | .ringdescWrite g k sa => some (encSY 0xC0 fixedLat g sa 0 ((0x006 : BitVec 9) ++ k) 1)
  | .trap g n => some (encSY 0xC1 fixedLat g 0 0 (n.setWidth 12) 0)
  | .tret g => some (encSY 0xC2 fixedLat g 0 0 0 0)
  | .tlset g tl v => some (encTL 0xC3 g tl 0 v)
  | .sysCtxsave g f sd sa => some (encSY 0xC4 f.field g sd sa 0 0)
  | .sysCtxload g f sd sa => some (encSY 0xC4 f.field g sd sa 0 1)
  | .sysHadv g sa sb => some (encSY 0xC5 fixedLat g sa sb 0 0)
  | .sysWsize g sa sb => some (encSY 0xC5 fixedLat g sa sb 0 1)
  | .sysHrevoke g sa sb => some (encSY 0xC5 fixedLat g sa sb 0 2)
  | .sysPgattr g f sa sb => some (encSY 0xC6 f.field g sa sb 0 0)
  | .sysTlbinv g f sa sb => some (encSY 0xC6 f.field g sa sb 0 1)
  | .sysWininv g f sa sb => some (encSY 0xC6 f.field g sa sb 0 2)
  | .sysL1inv g f => some (encSY 0xC7 f.field g 0 0 0 0)
  | .sysL1wb g f => some (encSY 0xC7 f.field g 0 0 0 1)
  | .sysSlwb g f sa sb => some (encSY 0xC7 f.field g sa sb 0 2)
  | .sysSlinv g f sa sb => some (encSY 0xC7 f.field g sa sb 0 3)
  | .sysBrk g n => some (encSY 0xC8 fixedLat g 0 0 n 0)
  | .sysDbgrd g sd => some (encSY 0xC8 fixedLat g sd 0 0 1)
  | .sysDgrd g sd sa => some (encSY 0xC9 fixedLat g sd sa 0 0)
  | _ => none

/-- The first word of an instruction; none for an event of the module. -/
def encodeFirst (i : Instr) : Option Word :=
  (encodeAlu i).or ((encodeMem i).or ((encodeCtl i).or (encodeSys i)))

/-- The extension word of `xbeg` (R55). -/
def encodeExt : Instr → Option Word
  | .xbeg _ _ sc fb => some ((0xEF : BitVec 8) ++ sc ++ (0 : BitVec 18) ++ fb)
  | _ => none

/-- The words of an instruction, in the order they stand in the code; an event of the module has none. -/
def encode (i : Instr) : List Word := (encodeFirst i).toList ++ (encodeExt i).toList

/-- The submission entry of a mailbox command (R259). -/
def encodeEntry : Instr → Option SubEntry
  | .launchCmd e | .collective e | .power e | .resync e | .contextEnd e | .unknownMailboxCommand e => some e
  | _ => none

/-- The class an instruction's major opcode has (R56). -/
def classOfWord (w : Word) : Option (BitVec 4) := (majorInfo (bits w 56 8).toNat).map (·.1)

/-- The word at a position of the instruction's bits, as opcode_table.json numbers them. -/
def tableWord (w k : Nat) : Word := BitVec.ofNat 64 (w >>> (64 * k))

/-- The instruction the decoder reads from `nbits` bits: a submission entry where they are 512, else an instruction word
in a clause of its own class, with the next word as its extension where it is an `xbeg`. -/
def decodeTableWord (nbits w : Nat) : Option Instr :=
  if nbits = 512 then some (decodeEntry (BitVec.ofNat 512 w))
  else
    let v := w % 2 ^ nbits
    let w0 := tableWord v 0
    match classOfWord w0 with
    | none => none
    | some c =>
      match decodeWord c w0 (some (tableWord v 1)) with
      | .ok i => some i
      | .error _ => none

end Sys2Proof
end

