-- ==== Sys2Proof/Machine/Fetch.lean ====
section
/-! DEFINITION. Fetching and decoding what moves next: the instruction word of an entity (R32, R34 to R36, R45, R62), and
the next submission entry of the mailbox (R259). -/

namespace Sys2Proof.Machine

open Sys2Proof

/-- What a fetch gives: a word or a cause, with the state after its walk and its read; or no answer yet. -/
inductive Fetched where
  | word (w : Word) (s : State)
  | fault (c : Cause) (s : State)
  | wait

/-- The bytes a launch's fetch sees: those its own stores have replaced as they were (R36). -/
def hiddenBytes (h : Table Byte) (a : Nat) (bs : List Byte) : List Byte :=
  bs.zipIdx.map fun p => (Table.find h (a + p.2)).getD p.1

/-- Fetch a 64-bit word of code for a group (R36, R60, R320): translation and execute permission, then the stored code. -/
def State.fetchWord (s : State) (gr : Group) (va : Word) : Fetched :=
  let s' := s.walked gr.core gr.ctx va
  match s.translate gr.core gr.ctx { x := true } va with
  | .error r => .fault (r.cause Cause.kFetch) s'
  | .ok d =>
    if s.ours d then
      match s'.readItem (dpaLocal d) 8 with
      | (none, t) => .fault (Cause.access Cause.kFetch Cause.rUncorrectable) t
      | (some bs, t) =>
        let h := ((s.launchOf gr).map (·.hidden)).getD []
        .word (BitVec.ofNat 64 (ofBytes (hiddenBytes h (dpaLocal d) bs))) (t.countRequest (s.granOf (dpaLocal d)))
    else if !s.routeUp (dpaModule d) then .fault Cause.linkFail s'
    else
      match Config.farWord s.tick d with
      | none => .wait
      | some (.ok w) => .word w s'
      | some (.error r) => .fault (Cause.access Cause.kFetch r.code) s'

/-- The cause of an encoding fault (R60). -/
def encCause : EncFault → Cause
  | .badHeader => Cause.badHeader
  | .rsvField => Cause.rsvField
  | .undefOp => Cause.undefOp
  | .classMismatch => Cause.classMismatch
  | .regRange => Cause.regRange
  | .slotPos => Cause.slotPos

/-- The module works: no machine fault is latched, no reset is in progress, the power state runs waves (R331, R374). -/
def State.working (s : State) : Bool := s.machine.isNone && !s.resetting && s.power < 3

/-- A wave may issue for an entity: in deterministic mode its quantum runs, or the boundary has let this entity perform
the instruction that ended it (R290, R291). -/
def Wave.mayIssue (wv : Wave) (e : Nat) : Bool :=
  match wv.quantum with
  | .running => true
  | .granted e' => e == e'
  | _ => false

/-- The wave's region has been aborted and delivery is still to come (R251): it issues nothing more. -/
def Wave.aborting (wv : Wave) : Bool :=
  match wv.region with
  | some r => r.aborted.isSome
  | none => false

/-- An entity that may issue its next word now: it holds a pipe, is within a clause, neither parked nor stopped, its group
runs and is not being saved, and no window of the lookahead rule is used up (R34, R45, R362). -/
def State.issuing (s : State) (a : Actor) : Option View :=
  match ({ s with actor := a } : State).view? with
  | none => none
  | some v =>
    if s.working && v.gr.state == .running && !v.gr.saving && v.wv.mayIssue a.e && v.en.pipe.isSome && v.en.park.isNone
        && !v.en.stopped && !v.wv.blocked a.e && !v.wv.aborting then some v else none

/-- The outcome of a turn before its instruction runs. -/
inductive Ready where
  /-- nothing can happen now -/
  | idle
  /-- a fault is taken in place of the instruction -/
  | faulted (s : State)
  /-- the mailbox ends its drain -/
  | settled (s : State)
  /-- the instruction, and the state in which it runs -/
  | run (i : Instr) (s : State)

/-- Whether the fault of a word that is not an instruction names every active thread (R416): it does unless the word has
the uniform bit or is a marker (DEDUCED, log 17). -/
def wordIsLane (w : Word) : Bool := !uniOf w && bits w 56 8 != 0x4A && bits w 56 8 != 0x95

/-- The fault of a word that is not an instruction (R60, R416). -/
def State.badWord (s : State) (v : View) (w : Word) (e : EncFault) : Ready := .faulted (s.faultHere v (wordIsLane w) (encCause e))

/-- Fetch and decode the next word of an entity (R62). The word in the next slot is fetched where an `xbeg` needs it. -/
def State.readyIssue (s : State) (a : Actor) : Ready :=
  match s.issuing a with
  | none => .idle
  | some v =>
    let s := { s with actor := a }
    match s.fetchWord v.gr v.addr with
    | .wait => .idle
    | .fault c s => .faulted (s.takeFault a c v.addr v.en.mask none)
    | .word w s =>
      match decodeWord v.cl.cls w none with
      | .error e => s.badWord v w e
      | .ok i =>
        if bits w 56 8 != 0x4A || v.cl.count ≤ v.en.idx + 1 then .run i s
        else
          match s.fetchWord v.gr (wordAddr v.en.hdr (v.en.idx + 1)) with
          | .wait => .idle
          | .fault c s => .faulted (s.takeFault a c (wordAddr v.en.hdr (v.en.idx + 1)) v.en.mask none)
          | .word x s =>
            match decodeWord v.cl.cls w (some x) with
            | .ok i => .run i s
            | .error e => s.badWord v w e

/-- The address of the next submission entry (R259). -/
def Mailbox.entryAddr (m : Mailbox) : Nat := m.sqbase.toNat + 64 * (m.consumed % (queueSize m.qsize).getD 1)

/-- The mailbox has an entry that it has not consumed (R259): SQTAIL is an index of the queue. -/
def Mailbox.pending (m : Mailbox) : Bool :=
  match queueSize m.qsize with
  | some q => m.consumed % q != m.sqtail.toNat % q
  | none => false

/-- A POWER command is in progress (R363). -/
def State.powering (s : State) : Bool := s.mbx.flights.any fun f => match f.2 with | .power _ _ _ => true | _ => false

/-- The mailbox takes entries: it is enabled and no reset is in progress; not in state Failed (R332, R377). -/
def State.mailboxOpen (s : State) : Bool := s.mailboxOn && !s.resetting && s.boot.security != .failed

/-- MBXCTL[1] is set and the queue is complete (R259): [0] is cleared, and [1] with it. -/
def State.settleDrain (s : State) : Ready :=
  if s.mbx.ctl.getLsbD 1 && !s.mbx.pending && s.mbx.flights.isEmpty && s.mbx.waiting.isEmpty then
    .settled { s with mbx := { s.mbx with ctl := 0 } }
  else .idle

/-- The mailbox's turn: the next submission entry, consumed in order (R259). A second POWER waits for the first (log 24). -/
def State.readyMailbox (s : State) : Ready :=
  if !s.mailboxOpen then .idle
  else if !s.mbx.pending then s.settleDrain
  else
    let a := s.mbx.entryAddr
    let e : SubEntry := BitVec.ofNat 512 (ofBytes ((List.range 64).map fun k => Table.read s.hostMem (a + k) 0))
    match decodeEntry e with
    | .power e => if s.powering then .idle else .run (.power e) { s with mbx := { s.mbx with consumed := s.mbx.consumed + 1 } }
    | i => .run i { s with mbx := { s.mbx with consumed := s.mbx.consumed + 1 } }

/-- What happens outside the cores and slices, whatever the module's state; each such event has its own conditions. -/
def outside : Instr → Bool
  | .sqtail _ | .cqhead _ | .mbxctlEnable | .mbxctlDrain | .mailboxRegisterWrite _ _ _ | .fwgo _ | .dbgreq _ _ | .hostRead _ _
  | .hostWrite _ _ | .getVersion | .getCapabilities | .negotiateAlgorithms _ _ _ _ | .getDigests | .getCertificate _ _ _
  | .challenge _ _ | .getMeasurements _ _ | .keyExchange _ | .finish _ | .keyUpdate | .endSession | .spdmUnsupported _
  | .flitRetransmit _ | .portFail _ | .thermalTrip | .machineFault | .warmReset | .coldReset | .resetComplete _ | .debugAccess _
  | .domainConfiguration _ _ | .provisioning | .fabricLinkTrained _ | .backInvalidationResponse _ | .causeRecordDrain => true
  | _ => false

/-- An event can happen: the cores and slices work (R331, R374, R377), or it is none of theirs. A POWER command in progress goes
on as an event. -/
def State.mayHappen (s : State) (i : Instr) : Bool :=
  match i with
  | .power _ => s.powering && s.working
  | _ => if (encodeFirst i).isSome || (encodeEntry i).isSome then false else outside i || s.working

/-- What a turn runs: an event of the schedule is an event of the module, no instruction word and no new submission entry. -/
def State.ready (s : State) : Turn → Ready
  | .issue a => s.readyIssue a
  | .mailbox => s.readyMailbox
  | .event i => if s.mayHappen i then .run i s else .idle

/-- What does not wait for a turn: a sweep of a slice 2^46 counts after its last, a stack whose horizon has come to lag by 2^47 counts
(R175), the hold that 2^16 refused appends cost, and the next try of a held append or reservation (R173). -/
def State.overdue (s : State) : Option Instr :=
  if !s.working then none
  else
    match s.counts.find? fun c => 2 ^ 46 ≤ (c.2 - Table.read s.sweptAt c.1 0).toNat with
    | some c => some (.ageSweep c.1)
    | none =>
      match s.counts.find? fun c => 2 ^ 47 ≤ ((countAbove c.2 (count (s.stack (c.1 / 4)).h)).getD 0) with
      | some c => some (.horizonLagReclaim (c.1 / 4))
      | none =>
        match s.stackTable.find? fun k => 2 ^ 16 ≤ k.2.refused with
        | some k => some (.holdRevocation k.1)
        | none => s.dueRetry.map .wheyRetry

/-- The turn that is taken now, and the state without it: overdue upkeep, the agenda's next, else the schedule's (log 1). -/
def State.popTurn (s : State) : Turn × State :=
  match s.overdue, s.agenda with
  | some i, _ => (.event i, { s with tick := s.tick + 1 })
  | none, t :: r => (t, { s with agenda := r, tick := s.tick + 1 })
  | none, [] => (Config.schedule s.tick, { s with tick := s.tick + 1 })

end Sys2Proof.Machine
end

