-- ==== Sys2Proof/Machine/Dispatcher.lean ====
section
/-! DEFINITION. Dispatch (R274), placement (R271, R272, R275, R276), restoring a saved group (R273, R367), the end of a group and
of its launch (R273, R283). -/

namespace Sys2Proof.Machine

open Sys2Proof

-- What a core has free (R17, R271) --------------------------------------------------------------------------------------

/-- The groups resident on a core. -/
def State.residents (s : State) (core : Nat) : List (Nat × Group) := s.groups.filter fun p => p.2.core = core && p.2.resident

/-- The wave slots in use on a core. -/
def State.slotsUsed (s : State) (core : Nat) : List Nat := (s.residents core).flatMap fun p => p.2.waves.map (·.slot)

/-- The register blocks in use on a core. -/
def State.blocksUsed (s : State) (core : Nat) : Nat :=
  (s.residents core).foldl (fun n p => n + (p.2.waves.map (·.blocks)).foldl (· + ·) 0) 0

/-- What one group needs of a core (R271, R367). -/
structure Needs where
  waves : Nat
  blocks : Nat
  sp : Nat
  wb : Nat
  ab : Nat
  cb : Nat
  area : Bool
  frags : Nat := 0

/-- The budgets of a launch block, in bytes (R269 word 6). -/
def budget (ws : List Word) : Space → Nat
  | .wb => 4096 * fieldOf (blk ws 6) 8 10
  | .ab => 4096 * fieldOf (blk ws 6) 18 9
  | .cb => 4096 * fieldOf (blk ws 6) 27 8
  | _ => 4096 * fieldOf (blk ws 6) 0 8

/-- What a group of a launch needs when it is first placed. -/
def needsOf (ws : List Word) : Needs where
  waves := groupWaves ws
  blocks := groupBlocks ws
  sp := budget ws .sp
  wb := budget ws .wb
  ab := budget ws .ab
  cb := budget ws .cb
  area := (blk ws 6).getLsbD 35

/-- What a Swapped group needs (R367): its buffers as they are, and a fragment slot for each fragment. -/
def State.needsOfImage (s : State) (gr : Group) : Needs where
  waves := gr.waves.length
  blocks := (gr.waves.map (·.blocks)).foldl (· + ·) 0
  sp := gr.sp.size
  wb := gr.wb.size
  ab := gr.ab.size
  cb := gr.cb.size
  area := s.reserves gr
  frags := (gr.waves.map fun w => (w.ents.filter fun e => e.2.frag).length).foldl (· + ·) 0

/-- A core has what so many groups need (R271). -/
def State.fits (s : State) (core : Nat) (x : Needs) (n : Nat) : Bool :=
  let room (sp : Space) (b : Nat) : Bool := n * b + ((s.residents core).map fun p => (p.2.buf sp).size).foldl (· + ·) 0 ≤ physical sp
  (s.slotsUsed core).length + n * x.waves ≤ 32 && s.blocksUsed core + n * x.blocks ≤ 256 &&
    room .sp x.sp && room .wb x.wb && room .ab x.ab && room .cb x.cb &&
    (!x.area || (n ≤ 1 && !(s.residents core).any fun p => s.reserves p.2)) && s.fragments core + n * x.frags ≤ 64

/-- How many such groups a core could take now. -/
def State.capacity (s : State) (core : Nat) (x : Needs) : Nat := ((List.range 33).filter fun n => s.fits core x n).length - 1

/-- A die's free count (R274): in whole wheels (R275). -/
def State.freeCount (s : State) (die : Nat) (w : Nat) (x : Needs) : Nat :=
  let cap (k : Nat) : Nat := s.capacity (16 * die + k) x
  match w with
  | 1 => ((List.range 16).map cap).foldl (· + ·) 0
  | 2 => ((List.range 8).map fun k => 2 * min (cap (2 * k)) (cap (2 * k + 1))).foldl (· + ·) 0
  | _ => ((List.range 4).map fun k => 4 * min (min (cap (4 * k)) (cap (4 * k + 1))) (min (cap (4 * k + 2)) (cap (4 * k + 3)))).foldl (· + ·) 0

-- Batches (R274) ----------------------------------------------------------------------------------------------------------

/-- The queued groups of a launch that no batch holds: those given back first, ascending; at most so many. -/
def Launch.queue (l : Launch) (n : Nat) : List Nat :=
  (l.back ++ (List.range (min n (groupsOf l.block - l.next))).map (l.next + ·)).take n

/-- Groups of a launch are queued. -/
def Launch.hasQueued (l : Launch) : Bool := !l.back.isEmpty || l.next < groupsOf l.block

/-- The cores run groups (R331), and the module works. -/
def State.placing (s : State) : Bool := s.working && s.power < 2

/-- Groups are placed: not while a POWER command saves every group (R363, log 24). -/
def State.dispatching (s : State) : Bool := s.placing && !s.powering

/-- A die could place a group of the launch now (R271, R274). -/
def State.dieCould (s : State) (l : Launch) (d : Nat) : Bool := 0 < s.freeCount d (wheelSize (blk l.block 0)) (needsOf l.block)

/-- The die that receives a launch's next batch (R274): in rotation after the die served last, among those whose last batch has
been placed. -/
def State.servedDie (s : State) (l : Launch) : Option Nat :=
  let from_ := match s.lastDie with
    | some d => d + 1
    | none => 0
  ((List.range 16).map fun k => (from_ + k) % 16).find? fun d => !(s.batches.any fun b => b.2.1 = d) && s.dieCould l d

/-- A group of a deterministic launch has been placed: its index is below `next` and not among those given back. -/
def Launch.wasPlaced (l : Launch) (lin : Nat) : Bool := lin < l.next && !l.back.contains lin

/-- The physical core of a linear index (R276). -/
def Launch.coreFor (l : Launch) (lin : Nat) : Nat := l.coremap.getD (lin % l.coremap.length) 0

/-- A group is due (R276): every group before it on its physical core has been placed, and the core fits it. -/
def State.due (s : State) (l : Launch) (lin : Nat) : Bool :=
  !(l.back.any fun k => k < lin && l.coreFor k = l.coreFor lin) &&
  !((List.range (lin - l.next)).any fun k => l.coreFor (l.next + k) = l.coreFor lin) &&
  s.fits (l.coreFor lin) (needsOf l.block) 1

/-- The groups of a wheel of a deterministic launch. -/
def Launch.wheelAt (l : Launch) (lin : Nat) : List Nat :=
  (List.range (wheelSize (blk l.block 0))).filterMap fun i => if lin + i < groupsOf l.block then some (lin + i) else none

/-- The queued wheels of a deterministic launch that can be due. -/
def Launch.wheelsQueued (l : Launch) : List Nat :=
  (l.queue (l.back.length + l.coremap.length)).filter fun k => k % wheelSize (blk l.block 0) = 0

/-- A deterministic launch has a queued group that could be placed (R274, R276). -/
def State.detCould (s : State) (l : Launch) : Bool := l.wheelsQueued.any fun k => (l.wheelAt k).all fun i => s.due l i

/-- Some die could place a queued group of a launch (R274). -/
def State.anyCould (s : State) (l : Launch) : Bool :=
  if detOf l.block then s.detCould l else (List.range 16).any (s.dieCould l)

/-- The first accepted launch with queued groups that some die could place (R274): later ones wait behind it. -/
def State.firstLaunch (s : State) : Option (Nat × Launch) := s.launches.find? fun l => l.2.hasQueued && l.2.stamp.isSome && s.anyCould l.2

/-- The launch that is served next (R274), and the die: later launches wait behind it, even while each such die still places a batch. A
deterministic launch is placed by R276, and no batch is given past it. -/
def State.servedLaunch (s : State) : Option (Nat × Launch × Nat) :=
  match s.firstLaunch with
  | some l => if detOf l.2.block then none else (s.servedDie l.2).map fun d => (l.1, l.2, d)
  | none => none

/-- The cores of a swapped group's resume (R273): any core in order, the core it left, or its mapped core. -/
def State.resumeCores (s : State) (gr : Group) : List Nat :=
  match s.launchOf gr with
  | none => []
  | some l =>
    if detOf l.block then [l.coremap.getD (gr.lin % l.coremap.length) 0]
    else if wheelSize (blk l.block 0) = 1 then List.range 256
    else [gr.core]

/-- The eligible groups in the order they became so, with the core each can resume on (R274, R367). -/
def State.resumable (s : State) : List (Nat × Nat) :=
  let el := s.groups.filterMap fun p => if p.2.state == .swapped then p.2.eligible.map fun n => (n, p.1) else none
  (sortBy (fun (a b : Nat × Nat) => a.1 ≤ b.1) el).filterMap fun x =>
    match s.group? x.2 with
    | some gr => ((s.resumeCores gr).find? fun k => s.fits k (s.needsOfImage gr) 1).map fun k => (x.2, k)
    | none => none

/-- DISPATCH_BATCH (R274). -/
def execDispatchBatch (s : State) : Host.Outcome State Fault Refusal :=
  .next (if !s.dispatching || !s.resumable.isEmpty then s
    else
      match s.servedLaunch with
      | none => s
      | some (id, l, d) =>
        let n := min 64 (s.freeCount d (wheelSize (blk l.block 0)) (needsOf l.block))
        let lins := l.queue n
        let l' := { l with back := l.back.drop lins.length, next := l.next + (lins.length - l.back.length) }
        { s with
          launches := Table.insert s.launches id l'
          batches := s.batches ++ lins.map fun k => (id, d, k)
          lastDie := some d })

-- Placement (R28, R271, R272) ------------------------------------------------------------------------------------------------

/-- The placement number of the next group placed first (R272): one whose low 32 bits name a group still there is skipped. -/
def State.placementNumber (s : State) : Nat :=
  let taken (n : Nat) : Bool := s.groups.any fun p => p.2.state != .freed && p.2.pnum % 2 ^ 32 = n % 2 ^ 32
  (((List.range (s.groups.length + 1)).map (s.nextPnum + ·)).find? fun n => !taken n).getD s.nextPnum

/-- Each thread's own number (R28). -/
def laneNumbers : List Lane := (List.range 64).map (BitVec.ofNat 32)

/-- A wave as it starts (R28). -/
def startWave (slot role index lin blocks : Nat) (arg : Word) (hdr : Word) (x : Stamp) : Wave where
  slot := slot
  role := role
  blocks := blocks
  v := Table.write [] 0 laneNumbers zeroLanes
  s := Table.write (Table.write (Table.write [] 0 (BitVec.ofNat 64 index) 0) 1 (BitVec.ofNat 64 lin) 0) 2 arg 0
  cstamp := x
  ents := [(0, { mask := BitVec.allOnes 64, hdr := hdr })]

/-- The waves of a group's gang: role by role, each by its index in the role (R28, R270, R278). -/
def gang (ws : List Word) : List (Nat × Nat × Word) :=
  (roles ws).zipIdx.flatMap fun r => (List.range (roleWaves r.1)).map fun i => (r.2, i, r.1)

/-- The lowest free wave slots of a core (R271). -/
def State.freeSlots (s : State) (core : Nat) : List Nat := (List.range 32).filter fun k => !(s.slotsUsed core).contains k

/-- The group as it is placed (R28, R269, R271). -/
def State.newGroup (s : State) (id : Nat) (l : Launch) (lin core : Nat) : Group :=
  let ws := l.block
  let slots := s.freeSlots core
  let waves := (gang ws).zipIdx.map fun x =>
    let (role, i, w) := x.1
    startWave (slots.getD x.2 0) role i lin (roleBlocks w) (blk ws 2) (blk ws 1 + BitVec.ofNat 64 (8 * fieldOf w 0 32)) (l.stamp.getD 0)
  { pnum := s.placementNumber
    lin := lin
    launch := id
    ctx := l.ctx
    core := core
    sp := { size := budget ws .sp }
    wb := { size := budget ws .wb }
    ab := { size := budget ws .ab }
    cb := { size := budget ws .cb }
    handles := l.handles.foldl (fun t h => Table.write t h.1 h.2 0) []
    bufacl := BitVec.ofNat 64 (fieldOf (blk ws 7) 0 12)
    bind := (List.range 8).foldl (fun t k => Table.write t k (fieldOf (blk ws 7) (12 + 3 * k) 3) 0) []
    waves := waves }

/-- Place a group on a core (R271): the core changes context, and its L1 lines are dropped (R153). -/
def State.placeGroup (s : State) (id lin core : Nat) : State :=
  match Table.find s.launches id with
  | none => s
  | some l =>
    let gr := s.newGroup id l lin core
    ({ s with
      groups := Table.insert s.groups s.nextId gr
      nextId := s.nextId + 1
      nextPnum := gr.pnum + 1 } : State).dropL1 core

/-- The places of a wheel on a die (R275), in the order they are tried. -/
def wheelPlaces (die w : Nat) : List (List Nat) :=
  match w with
  | 1 => (List.range 16).map fun k => [16 * die + k]
  | 2 => (List.range 8).map fun k => [16 * die + 2 * k, 16 * die + 2 * k + 1]
  | _ => (List.range 4).map fun k => (List.range 4).map (16 * die + 4 * k + ·)

/-- Place the first wheel of a die's batch, or give the rest of the batch back to the head of the queue (R275). A last wheel that has fewer
groups than the wheel size needs the cores of a whole one (DESIGN CHOICE, log 123). -/
def State.placeBatch (s : State) (die : Nat) : State :=
  match s.batches.find? fun b => b.2.1 = die with
  | none => s
  | some (id, _, lin) =>
    match Table.find s.launches id with
    | none => { s with batches := s.batches.filter fun b => b.1 ≠ id }
    | some l =>
      let w := wheelSize (blk l.block 0)
      let mine := s.batches.filter fun b => b.1 = id && b.2.1 = die
      let lins := (mine.filter fun b => b.2.2 / w = lin / w).map (·.2.2)
      match (wheelPlaces die w).find? fun ks => ks.all fun k => s.fits k (needsOf l.block) 1 with
      | some ks =>
        let s := { s with batches := s.batches.filter fun b => !(b.1 = id && b.2.1 = die && lins.contains b.2.2) }
        (lins.zip ks).foldl (fun s x => s.placeGroup id x.1 x.2) s
      | none =>
        { s with
          batches := s.batches.filter fun b => !(b.1 = id && b.2.1 = die)
          launches := Table.insert s.launches id { l with back := sortBy (fun a b => a ≤ b) (mine.map (·.2.2) ++ l.back) } }

-- Deterministic launches (R276) ------------------------------------------------------------------------------------------------

/-- Place the wheel of a linear index whole, where every group of it is due. Where the core map names one core twice within the wheel, each
of the two groups there waits for the other, and the wheel is never due (DESIGN CHOICE, log 124). -/
def State.placeDue (s : State) (id : Nat) (l : Launch) (lin : Nat) : State :=
  let lins := l.wheelAt lin
  if lins.all fun k => s.due l k then
    let top := lin + lins.length
    let l' := { l with
      back := (l.back ++ (List.range (lin - l.next)).map (l.next + ·)).filter fun k => !lins.contains k
      next := max l.next top }
    lins.foldl (fun s k => s.placeGroup id k (l.coreFor k)) { s with launches := Table.insert s.launches id l' }
  else s

/-- One pass over the groups that can be due. -/
def State.placeDetOnce (s : State) (id : Nat) : State :=
  match Table.find s.launches id with
  | none => s
  | some l =>
    l.wheelsQueued.foldl (fun s k =>
      match Table.find s.launches id with
      | some l => s.placeDue id l k
      | none => s) s

/-- Place every group of a deterministic launch that is due, on its mapped core (R276). A core holds at most 32 groups. -/
def State.placeDet (s : State) (id : Nat) : State := (List.range 33).foldl (fun s _ => s.placeDetOnce id) s

/-- The deterministic launches of which no group is there: each starts, or starts again, outside a boundary, whatever holds the
others back (R276). It too waits behind an earlier launch (R274). -/
def State.detStarts (s : State) : List Nat :=
  let mine := s.launches.filter fun l => detOf l.2.block && l.2.hasQueued && l.2.stamp.isSome && !s.groups.any fun g => g.2.launch = l.1
  (mine.filter fun l => match s.firstLaunch with | some x => l.1 ≤ x.1 | none => true).map (·.1)

-- Restoring (R367) -----------------------------------------------------------------------------------------------------------------

/-- A wave as it resumes: in a slot of its core, with its progress still to be made (R362, R367). -/
def Wave.resume (wv : Wave) (slot : Nat) : Wave :=
  { wv with
    slot := slot
    ents := Table.mapValues wv.ents fun _ e => e.stop
    resumed := true }

/-- A helper has waited for a group to be Swapped, or to be Running again (R342). -/
def LongOp.helps (o : LongOp) (pnum : Nat) : Option (BitVec 6) :=
  match o.body with
  | .ctxload sd t | .ctxsave sd t => if o.ready && t = pnum % 2 ^ 32 then some sd else none
  | _ => none

/-- The helpers that wait for a group complete with status 0 when it is Running again (R342). -/
def State.endHelpers (s : State) (pnum : Nat) : State :=
  s.groups.foldl (fun s p => p.2.waves.zipIdx.foldl (fun s w => w.1.ops.foldl (fun s o =>
    match o.2.helps pnum with
    | some sd => s.finishStatus p.1 w.2 o.1 o.2 sd 0
    | none => s) s) s) s

/-- Restore a Swapped group on a core (R273, R342, R367). -/
def State.restore (s : State) (g core : Nat) : State :=
  let slots := s.freeSlots core
  let t := (s.modGroup g fun gr => { gr with
    core := core
    state := .running
    eligible := none
    waves := gr.waves.zipIdx.map fun w => w.1.resume (slots.getD w.2 0) }).dropL1 core
  t.endHelpers (((s.group? g).map (·.pnum)).getD 0)

/-- Restore the eligible Swapped groups that can be placed, in the order in which they became eligible (R274). -/
def State.resumeAll (s : State) : Nat → State
  | 0 => s
  | fuel + 1 =>
    match s.resumable with
    | (g, core) :: _ => State.resumeAll (s.restore g core) fuel
    | [] => s

/-- GROUP_PLACEMENT (R271, R274): eligible Swapped groups come before every group of a batch. -/
def execGroupPlacement (die : Nat) (s : State) : Host.Outcome State Fault Refusal :=
  .next (if !s.dispatching || 16 ≤ die then s
    else
      match s.resumable with
      | (g, core) :: _ => if core / 16 = die then s.restore g core else s
      | [] => (s.detStarts.foldl State.placeDet s).placeBatch die)

-- The end of a group and of its launch (R273) ----------------------------------------------------------------------------------

/-- What a draining group still waits for: its commands, its stores, its instructions in flight, the work of a task. -/
def State.draining (s : State) (g : Nat) (gr : Group) : Bool :=
  (s.cmds.any fun c => c.2.g = g) ||
  (s.reqs.any fun r => match r.2.agent with | .op g' _ _ => g' == g | .wave g' _ => g' == g | _ => false) ||
  gr.waves.any fun w => !w.ops.isEmpty || !w.late.isEmpty || !w.sq.isEmpty

/-- A launch completes when its last group is Freed (R273): a LAUNCH command posts its completion. -/
def State.endLaunch (s : State) (launch : Nat) : State :=
  match Table.find s.launches launch with
  | none => s
  | some l =>
    if l.freed < groupsOf l.block then s
    else
      let s := { s with launches := Table.erase s.launches launch }
      match l.tag with
      | some t => { s with mbx := { s.mbx with flights := s.mbx.flights.filter fun f => f.2 != Flight.launch launch } }.complete t l.cause
      | none => s

/-- A CONTEXT END completes when no group of its context is left (R318): the context is gone. -/
def State.endContexts (s : State) : State :=
  s.mbx.flights.foldl (fun s f =>
    match f.2 with
    | .contextEnd c =>
      if s.groups.any fun p => p.2.ctx = c then s
      else
        ({ s with
          ctxs := Table.erase s.ctxs c.toNat
          mbx := { s.mbx with flights := s.mbx.flights.erase f } } : State).complete f.1 0
    | _ => s) s

/-- A group is Freed (R273): its resources are free. -/
def State.freeGroup (s : State) (g : Nat) : State :=
  match s.group? g with
  | none => s
  | some gr =>
    let s := { s with
      groups := Table.erase s.groups g
      launches := Table.modify s.launches gr.launch fun l => { l with freed := l.freed + 1 } }
    ((s.emptyDeques gr.launch).endLaunch gr.launch).endContexts

/-- GROUP_FREED (R273). -/
def execGroupFreed (g : Nat) (s : State) : Host.Outcome State Fault Refusal :=
  .next (match s.group? g with
    | some gr => if gr.state == .draining && !s.draining g gr then s.freeGroup g else s
    | none => s)

end Sys2Proof.Machine
end

