-- ==== Sys2Proof/Machine/Scheduler.lean ====
section
/-! DEFINITION. Selection of entities by a core's pipes (R31 to R35, R277 to R280), grants and refusals of buffer requests (R288,
R289), the boundaries of a deterministic launch (R290 to R292), replays of faults (R359). -/

namespace Sys2Proof.Machine

open Sys2Proof

-- Headers (R31 to R35, R60) ----------------------------------------------------------------------------------------------

/-- The live entities of a core whose groups run and are not being saved. -/
def State.actorsOn (s : State) (core : Nat) : List Actor :=
  (s.groups.filter fun p => p.2.core = core && p.2.state == .running && !p.2.saving).flatMap fun p =>
    p.2.waves.zipIdx.flatMap fun w => w.1.ents.map fun e => ⟨p.1, w.2, e.1⟩

/-- The entity's next header could be read now: it holds no pipe, is within no clause, neither parked nor stopped. -/
def Entity.atHeader (e : Entity) : Bool := e.pipe.isNone && e.clause.isNone && e.park.isNone && !e.stopped

/-- The debugger has a breakpoint where the entity stands (R399, R402, R409). -/
def State.breaksAt (s : State) (gr : Group) (w : Nat) (e : Entity) : Bool :=
  e.idx = 0 && !e.continued && s.reaches gr.ctx && s.mbd.breaks.any fun b =>
    b.1 = gr.ctx && b.2.1 = e.hdr && (match b.2.2.1 with | some k => k = w | none => true) &&
      (match b.2.2.2 with | some k => k.toNat = gr.lin | none => true)

/-- What the header of an entity's next clause is. -/
inductive AtHeader where
  | header (h : Header)
  | fault (c : Cause)
  | wait
  deriving DecidableEq, Repr

/-- Read and check the header of an entity's next clause (R31, R60): its address must be a multiple of 8 (R354). -/
def State.readHeader (s : State) (gr : Group) (hdr : Word) : AtHeader :=
  if hdr.toNat % 8 ≠ 0 then .fault (Cause.access Cause.kFetch Cause.rMisaligned)
  else
    match s.fetchWord gr hdr with
    | .wait => .wait
    | .fault c _ => .fault c
    | .word w _ =>
      match decodeHeader w with
      | .ok h => .header h
      | .error e => .fault (encCause e)

/-- In deterministic mode the entities of a wave issue one at a time (R290): of those that are not parked, the one with the
lowest active thread. -/
def Wave.itsTurn (wv : Wave) (e : Nat) : Bool :=
  match Table.find wv.ents e with
  | some x => wv.ents.all fun p => p.1 = e || p.2.park.isSome || lowest x.mask < lowest p.2.mask
  | none => false

/-- Look at one entity before its core selects: it stops at a breakpoint, faults at its header, or goes on past the end of a
clause that its position lies beyond (R300). -/
def State.look (s : State) (a : Actor) : State :=
  match s.group? a.g, s.wave? a.g a.w, s.entity? a with
  | some gr, some wv, some e =>
    if !e.atHeader || !wv.mayIssue a.e || wv.aborting || (s.det gr && !wv.itsTurn a.e) then s
    else if s.breaksAt gr a.w e then s.modEnt a fun e => { e with stopped := true }
    else
      match s.readHeader gr e.hdr with
      | .wait => s
      | .fault c => s.takeFault a c e.hdr e.mask none
      | .header h => if h.count ≤ e.idx then s.modEnt a fun e => { e with hdr := e.hdr + BitVec.ofNat 64 (8 * (h.count + 1)), idx := 0 } else s
  | _, _, _ => s

/-- A clause's wait condition (R33). -/
def Wave.waitHolds (wv : Wave) (h : Header) : Bool :=
  let flags := (List.range 12).filter fun i => h.wait.getLsbD i
  flags.isEmpty || (if h.any then flags.any wv.flagSet else flags.all wv.flagSet)

/-- The clause with which an entity is a candidate (R277), if it is one. -/
def State.candidate (s : State) (a : Actor) : Option Clause :=
  match s.group? a.g, s.wave? a.g a.w, s.entity? a with
  | some gr, some wv, some e =>
    if gr.state != .running || gr.saving || e.pipe.isSome || e.park.isSome || e.stopped || !wv.mayIssue a.e || wv.aborting
        || (s.det gr && !wv.itsTurn a.e) then none
    else
      match e.clause with
      | some c => some c
      | none =>
        match s.readHeader gr e.hdr with
        | .header h => if e.idx < h.count && wv.waitHolds h then some ⟨h.cls, h.count⟩ else none
        | _ => none
  | _, _, _ => none

-- Selection (R278, R279, R311) -----------------------------------------------------------------------------------------------

/-- The age key (R278). -/
def State.ageKey (s : State) (a : Actor) : Nat × Nat × Nat :=
  (((s.group? a.g).map (·.pnum)).getD 0, a.w, ((s.entity? a).map fun e => lowest e.mask).getD 0)

/-- The lower key is the older. -/
def olderKey (a b : Nat × Nat × Nat) : Bool :=
  a.1 < b.1 || (a.1 = b.1 && (a.2.1 < b.2.1 || (a.2.1 = b.2.1 && a.2.2 < b.2.2)))

/-- The oldest entity of a list. -/
def State.oldestOf (s : State) (l : List Actor) : Option Actor :=
  l.foldl (fun acc a =>
    match acc with
    | some b => if olderKey (s.ageKey a) (s.ageKey b) then some a else acc
    | none => some a) none

/-- The entity takes no part in the next selection of a pipe (R311). -/
def Entity.skips (e : Entity) (pipe : Nat) : Bool := e.skip.getLsbD pipe

/-- An entity has been passed over (R279). -/
def Entity.passOver (e : Entity) : Entity := { e with passed := e.passed + 1, marked := e.marked || 64 ≤ e.passed + 1 }

/-- A pipe holds an entity. -/
def State.pipeTaken (s : State) (core pipe : Nat) : Bool :=
  (s.residents core).any fun p => p.2.waves.any fun w => w.ents.any fun e => e.2.pipe == some pipe

/-- One selection of a pipe (R279). -/
def State.select (s : State) (core : Nat) (actors : List Actor) (pipe : Nat) : State :=
  if s.pipeTaken core pipe then s
  else
    let skips (a : Actor) : Bool := ((s.entity? a).map fun e => e.skips pipe).getD false
    let marked (a : Actor) : Bool := ((s.entity? a).map (·.marked)).getD false
    let cands := actors.filter fun a => (s.candidate a).isSome && !skips a
    let chosen := if cands.any marked then s.oldestOf (cands.filter marked) else s.oldestOf cands
    let s' := (actors.filter skips).foldl (fun s a => s.modEnt a fun e => { e with skip := e.skip &&& ~~~(BitVec.twoPow 4 pipe) }) s
    match chosen with
    | none => s'
    | some a =>
      let s' := (cands.filter fun b => b ≠ a).foldl (fun s b => s.modEnt b Entity.passOver) s'
      s'.modEnt a fun e => { e with pipe := some pipe, clause := s.candidate a, passed := 0, marked := false }

/-- A group whose registers, store queue or entity state hold a damaged word ends, and a record says so (R370). -/
def State.endDamaged (s : State) (core : Nat) : State :=
  (s.residents core).foldl (fun s p =>
    match (if p.2.state == .running then p.2.waves.find? (·.bad) else none) with
    | some wv => (s.record .groupEnded Cause.machine p.2.ctx core wv.slot 0).endGroup p.1 Cause.machine
    | none => s) s

/-- Hardware may close a wave's region early at any moment (R233, R300): which, the spec leaves open (DESIGN CHOICE, log 106). That of a
wave with an entity stopped for the debugger stays open (R399, R401). -/
def State.closeEarly (s : State) (core : Nat) : State :=
  (s.residents core).foldl (fun s p =>
    if p.2.state != .running || p.2.saving || s.det p.2 then s
    else
      p.2.waves.zipIdx.foldl (fun s w =>
        if !w.1.sq.isEmpty && w.1.region.isNone && !(w.1.ents.any fun e => e.2.stopped) && Config.pick s.tick (2 ^ 75 + 32 * p.1 + w.2) then s.closeRegion p.1 w.2 else s) s) s

/-- SELECTION (R279): one cycle of a core's pipes. -/
def execSelection (core : Nat) (s : State) : Host.Outcome State Fault Refusal :=
  .next (if !s.placing || 256 ≤ core then s
    else
      let s := (s.endDamaged core).closeEarly core
      let s := (s.actorsOn core).foldl (fun s a => s.look a) s
      (List.range 4).foldl (fun s p => s.select core (s.actorsOn core) p) s)

-- Buffer requests (R288, R289, R326) --------------------------------------------------------------------------------------------

/-- The buffer and size an entity waits for. -/
def Entity.wants (e : Entity) : Option (Space × Nat) :=
  match e.park with
  | some (.bufreq sp n) => some (sp, n)
  | _ => none

/-- The entities of a core that wait on a buffer, by age (R288). -/
def State.requesters (s : State) (core : Nat) (sp : Space) : List (Actor × Nat) :=
  let l := (s.residents core).flatMap fun p => p.2.waves.zipIdx.flatMap fun w => w.1.ents.filterMap fun e =>
    match e.2.wants with
    | some (sp', n) => if sp' == sp then some ((⟨p.1, w.2, e.1⟩ : Actor), n) else none
    | none => none
  sortBy (fun (a b : Actor × Nat) => !olderKey (s.ageKey b.1) (s.ageKey a.1)) l

/-- A request can be granted: a smaller one once no issued command names what it frees, a larger one when there is room. -/
def State.grantable (s : State) (core : Nat) (sp : Space) (r : Actor × Nat) : Bool :=
  match s.group? r.1.g with
  | some gr =>
    if 4096 * r.2 ≤ (gr.buf sp).size then !s.namedBeyond r.1.g sp (4096 * r.2) || 4096 * r.2 = (gr.buf sp).size
    else s.held core sp r.1.g + 4096 * r.2 ≤ physical sp
  | none => false

/-- The request only makes the allocation smaller. -/
def State.shrinks (s : State) (sp : Space) (r : Actor × Nat) : Bool := ((s.group? r.1.g).map fun gr => decide (4096 * r.2 ≤ (gr.buf sp).size)).getD false

/-- Answer a request: p6 in the entity's threads, and the entity goes on. -/
def State.answerRequest (s : State) (a : Actor) (ok : Bool) : State :=
  match s.entity? a with
  | some e => (s.modWave a.g a.w fun wv => wv.setP6 e.mask ok).modEnt a Entity.wake
  | none => s

/-- Grant a request (R288). -/
def State.grant (s : State) (sp : Space) (r : Actor × Nat) : State := (s.modGroup r.1.g fun gr => gr.resize sp r.2).answerRequest r.1 true

/-- BUFREQ records a refusal, where the request refused is the one last written (R288). -/
def Group.noteRefusal (gr : Group) (a : Actor) : Group :=
  if gr.bufBy = some (a.w, a.e) then { gr with bufreq := (1 : BitVec 1) ++ Cause.allocRefused ++ (0 : BitVec 42) ++ gr.bufreq.extractLsb' 0 12 }
  else gr

/-- Refuse a request (R288). -/
def State.refuseRequest (s : State) (a : Actor) : State := (s.modGroup a.g fun gr => gr.noteRefusal a).answerRequest a false

/-- Every group of the core that holds some of the buffer has an entity parked on a request (R289). -/
def State.allWait (s : State) (core : Nat) (sp : Space) : Bool :=
  (s.residents core).all fun p => (p.2.buf sp).size = 0 || p.2.waves.any fun w => w.ents.any fun e => e.2.wants.isSome

/-- Every request of a core for a larger allocation, by age. -/
def State.growRequests (s : State) (core : Nat) : List Actor :=
  let l := [Space.sp, .wb, .ab, .cb].flatMap fun sp => ((s.requesters core sp).filter fun r => !s.shrinks sp r).map (·.1)
  sortBy (fun (a b : Actor) => !olderKey (s.ageKey b) (s.ageKey a)) l

/-- The request that the allocator refuses (R289): the youngest requesting group's, where an older group requests too. The
deadlock may run through requests for different buffers. -/
def youngestRequest (l : List Actor) : Option Actor :=
  match l.head?, l.getLast? with
  | some a, some b => if a.g = b.g then none else some b
  | _, _ => none

/-- The request of a buffer that is granted next, if one is: a smaller one, else the oldest larger one where there is room (R288). -/
def State.nextGrant (s : State) (core : Nat) (sp : Space) : Option (Actor × Nat) :=
  let l := s.requesters core sp
  (l.find? fun r => s.shrinks sp r && s.grantable core sp r).or ((l.find? fun r => !s.shrinks sp r).filter fun r => s.grantable core sp r)

/-- The requests of a core are deadlocked over a buffer (R289): none of any buffer can be granted, and every group that holds some of
this one waits. -/
def State.deadlocked (s : State) (core : Nat) (sp : Space) : Bool :=
  s.allWait core sp && [Space.sp, .wb, .ab, .cb].all fun x => (s.nextGrant core x).isNone

/-- BUFREQ_GRANT (R288, R289). -/
def execBufreqGrant (core : Nat) (sp : Space) (s : State) : Host.Outcome State Fault Refusal :=
  .next (match s.nextGrant core sp with
    | some r => s.grant sp r
    | none =>
      if (s.requesters core sp).any (fun r => !s.shrinks sp r) && s.deadlocked core sp then
        match youngestRequest (s.growRequests core) with
        | some a => s.refuseRequest a
        | none => s
      else s)

-- Replays (R359) -------------------------------------------------------------------------------------------------------------------

/-- The access a long-latency memory instruction asks for again. -/
def OpBody.asks : OpBody → Option Access
  | .load sp _ ty _ => some { sp := sp, need := { r := true }, kind := Cause.kLoad, n := ty.bytes }
  | .asof _ ty _ _ => some { sp := .g, need := { r := true }, kind := Cause.kAsof, n := ty.bytes }
  | .atom sp _ ty _ _ _ => some { sp := sp, need := { r := true, w := true }, kind := Cause.kAtomic, n := ty.bytes, aligned := true }
  | _ => none

/-- An instruction that ends a quantum when it is reached (R290), and may fault when it is performed. -/
def OpBody.ends : OpBody → Bool
  | .atom _ _ _ _ _ _ | .launch _ _ => true
  | _ => false

/-- Ask again for the pieces of an instruction's unfinished threads (R229, R359). A load is served from its wave's store queue as at
first (R234): what is covered in part closes the region before. -/
def State.replayOp (s : State) (g w id : Nat) (gr : Group) (wv : Wave) (o : LongOp) : State :=
  let s := s.modWave g w fun wv => (wv.flagUp o.again).modOp id fun o => { o with
    fl := o.fl.or o.again
    again := none
    faulted := false
    held := s.det gr && !wv.region.isSome && o.body.ends }
  match o.body.asks with
  | none => s
  | some c =>
    let region := wv.region.isSome
    let lanes := o.lanes.filter fun l => o.uni || o.mask.getLsbD l.thread
    let (oks, ds) := s.planAll gr region o.win c lanes
    let load := match o.body with | .load _ _ _ _ => true | _ => false
    let partly := load && !region && oks.any fun l => coverOf wv.sq c.sp l.2 == .some
    let sq := if partly then [] else wv.sq
    let (got, pieces) := if load then served sq (region && (c.sp != .g || s.det gr)) (!region) c.sp oks else ([], oks.flatMap (·.2))
    let s := if partly then s.closeRegion g w else s
    let r : Req := {
      agent := .op g w id
      ctx := gr.ctx
      launch := some gr.launch
      kind := .load
      gran := 0
      items := []
      carried := some wv.cstamp
      slot := if s.det gr then none else wv.region.map (·.slot) }
    let s := s.keepLeaves gr o.win c oks
    match o.body with
    | .load sp d ty _ =>
      let s := s.modOp g w id fun o => { o with refused := ds, got := got, body := .load sp d ty (if sp == .g then [] else pieces) }
      if sp == .g then s.sendItems r (pieces.map Piece.item) else s
    | .asof _ _ t _ =>
      (s.modOp g w id fun o => { o with refused := ds }).sendItems { r with kind := .asof t, slot := none } (pieces.map Piece.item)
    | .atom sp op ty sc d _ =>
      let items : List AtomItem := oks.flatMap fun l => l.2.map fun p => ⟨p.thread, p.addr, l.1.x, l.1.cmp⟩
      let s := s.modOp g w id fun o => { o with refused := ds, ready := region, body := .atom sp op ty sc d items }
      if region then s.sendItems { r with kind := .atom op ty } (items.map (AtomItem.item ty.bytes)) else s
    | _ => s

/-- The entity no longer stands at a fault; in a wait that it was parked in it stays. -/
def Entity.unfault (e : Entity) : Entity := { e with park := if e.park == some .fault then none else e.park, fault := none }

/-- The flag that a replay would raise again is pending fifteen times: the replay waits like an issue (R44). -/
def Wave.flagFull (wv : Wave) (id : Nat) : Bool := ((Table.find wv.ops id).bind (·.again)).any fun f => 15 ≤ wv.pending f

/-- The entity goes on from its fault (R359): at an instruction in flight for its unfinished threads, else it issues the
faulting instruction again, confined to the threads of LANEMASK. Its clause's header is fetched and its wait evaluated again (R35). -/
def State.replay (s : State) (a : Actor) : State :=
  match s.group? a.g, s.wave? a.g a.w, s.entity? a with
  | some gr, some wv, some e =>
    match e.fault with
    | some f =>
      match f.op with
      | some id =>
        if wv.flagFull id then s
        else
          let s := (s.untrigger a).modEnt a Entity.unfault
          match Table.find wv.ops id with
          | some o => s.replayOp a.g a.w id gr wv o
          | none => s
      | none => (s.untrigger a).modEnt a fun e => { e.unfault with replay := some f.lanes }
    | none => s
  | _, _, _ => s

-- Boundaries (R290 to R292) -------------------------------------------------------------------------------------------------------

/-- The groups of a launch, and their waves by wave identifier (R290). -/
def State.launchWaves (s : State) (launch : Nat) : List (Nat × Nat) :=
  let gs := sortBy (fun (a b : Nat × Group) => a.2.lin ≤ b.2.lin) (s.groups.filter fun p => p.2.launch = launch)
  gs.flatMap fun p => (List.range p.2.waves.length).map fun w => (p.1, w)

/-- A wave keeps its launch from a boundary: its quantum runs, and it is not parked in a wait (R291). -/
def Wave.inQuantum (wv : Wave) : Bool := wv.quantum == .running && wv.ents.any fun e => e.2.park.isNone

/-- The boundary finds the wave parked in a wait within its quantum, which ends with it (R291). -/
def Wave.meetBoundary (wv : Wave) : Wave :=
  match wv.quantum with
  | .running | .done => { wv with quantum := .ended }
  | _ => wv

/-- What the boundary still waits for in a wave whose part is done: the ending instruction itself (R291, R292). -/
def LongOp.holdsBoundary (o : LongOp) : Bool :=
  !o.faulted && !o.blocked && !o.held && (match o.body with
    | .atom _ _ _ _ _ _ | .dqPush _ | .dqPop _ | .dqSteal _ _ | .launch _ _ | .xend => true
    | .msg _ _ _ _ _ => !o.ready
    | _ => false)

/-- Stores or atomics of a wave are still to be performed. -/
def State.performing (s : State) (g w : Nat) (wv : Wave) : Bool :=
  !wv.late.isEmpty || (s.reqs.any fun r => r.2.agent.isWave g w && r.2.kind.writes) || wv.ops.any fun o => o.2.holdsBoundary

/-- A load of the wave's quantum has not been performed: memory must not change before it has (R291, R293). -/
def State.reading (s : State) (g w : Nat) (wv : Wave) : Bool :=
  (s.reqs.any fun r => r.2.agent.isWave g w && !r.2.kind.writes) ||
    wv.ops.any fun o => !o.2.faulted && (match o.2.body with | .load _ _ _ ps => !ps.isEmpty | _ => false)

/-- A wave keeps its launch from a boundary (R291). -/
def State.beforeBoundary (s : State) (x : Nat × Nat) : Bool :=
  match s.wave? x.1 x.2 with
  | some wv => wv.inQuantum || s.reading x.1 x.2 wv
  | none => false

/-- What a wave performs at its place in step 1 of a boundary once its stores are committed (R291): the messages that it holds are tried
(R309), and a replayed instruction that ends quanta goes on (R290). Its region is over (R290, R362). -/
def State.boundaryTurn (s : State) (g w : Nat) (q : Quantum) : State :=
  match s.wave? g w with
  | none => s
  | some wv =>
    let s := wv.ops.foldl (fun s o =>
      match s.group? g, s.wave? g w with
      | some gr, some wv => if o.2.ready && (match o.2.body with | .msg _ _ _ _ _ => true | _ => false) then s.tryMessage g w o.1 gr wv o.2 else s
      | _, _ => s) s
    s.modWave g w fun wv => { wv with
      quantum := q
      resumed := false
      ops := Table.mapValues wv.ops fun _ o => { o with held := false } }

/-- Step 1 of a boundary for one wave (R291): its held stores are committed, then its ending instruction is let through. The
writes of a region stay held until its `xend` (R292). None: its part is done. -/
def State.boundaryWave (s : State) (g w : Nat) : Option State :=
  match s.wave? g w with
  | none => none
  | some wv =>
    let holds := !wv.sq.isEmpty && wv.region.isNone
    match wv.quantum with
    | .ended =>
      if holds then some (s.closeRegion g w)
      else if s.performing g w wv then some s
      else some (s.boundaryTurn g w .done)
    | .endedAt e =>
      if holds then some (s.closeRegion g w)
      else if s.performing g w wv then some s
      else some (s.boundaryTurn g w (.granted e))
    | .granted e => if (Table.find wv.ents e).isNone then some (s.modWave g w fun wv => { wv with quantum := .done }) else some s
    | .running => if wv.ents.isEmpty then none else some s
    | .done => if s.performing g w wv then some s else none

/-- Step 1 of a boundary: the waves in ascending identifier. -/
def State.boundaryWaves (s : State) : List (Nat × Nat) → Option State
  | [] => none
  | (g, w) :: t =>
    match s.boundaryWave g w with
    | some s => some s
    | none => s.boundaryWaves t

/-- Commands of the launch's groups run; collectives come from the host and hold no boundary (R265). -/
def State.commandsRun (s : State) (launch : Nat) : Bool :=
  s.cmds.any fun c => c.2.queue < 5 && c.2.queue ≠ 3 && ((s.group? c.2.g).map (·.launch)) == some launch

/-- A wave's next quantum begins, where it can run (R291): it ends at once where a replayed instruction ends quanta (R290). -/
def Wave.nextQuantum (wv : Wave) : Wave :=
  if wv.quantum == .done && wv.ents.any (fun e => e.2.park.isNone) then
    { wv with quantum := if wv.ops.any (fun o => o.2.held) then .ended else .running, retired := 0 }
  else wv

/-- The entities of a launch's Running groups that a trigger covers. -/
def State.triggeredOf (s : State) (launch : Nat) : List Actor :=
  (s.groups.filter fun p => p.2.launch = launch && p.2.state == .running && !p.2.saving).flatMap fun p =>
    p.2.triggered.map fun t => ⟨p.1, t.1, t.2⟩

/-- Steps 3 and 4 of a boundary (R276, R291): due groups are placed, behind the eligible Swapped ones (R274), and the next quantum begins, with the replays that triggers
have asked for (R290). -/
def State.endBoundary (s : State) (launch : Nat) : State :=
  let s := if s.dispatching then (s.resumeAll s.groups.length).placeDet launch else s
  let s := (s.triggeredOf launch).foldl State.replay s
  { s with
    groups := Table.mapValues s.groups fun _ gr => if gr.launch = launch then { gr with waves := gr.waves.map Wave.nextQuantum } else gr
    launches := Table.modify s.launches launch fun l => { l with boundary := none } }

/-- Go to another stage of a boundary. -/
def State.boundaryStage (s : State) (launch n : Nat) : State :=
  { s with launches := Table.modify s.launches launch fun l => { l with boundary := some n } }

/-- QUANTUM_BOUNDARY (R291): one turn of a launch's boundary. -/
def execQuantumBoundary (launch : Nat) (s : State) : Host.Outcome State Fault Refusal :=
  .next (match Table.find s.launches launch with
    | none => s
    | some l =>
      if !detOf l.block then s
      else
        match l.boundary with
        | none =>
          let ws := s.launchWaves launch
          if ws.isEmpty || ws.any s.beforeBoundary then s
          else (ws.foldl (fun s x => s.modWave x.1 x.2 Wave.meetBoundary) s).boundaryStage launch 0
        | some 0 =>
          match s.boundaryWaves (s.launchWaves launch) with
          | some s => s
          | none => s.boundaryStage launch 1
        | some _ => if s.commandsRun launch then s else s.endBoundary launch)

/-- FAULT_REPLAY (R359): a trigger has covered the fault, and the group is Running. A deterministic wave is replayed at a boundary
(R290). -/
def execFaultReplay (a : Actor) (s : State) : Host.Outcome State Fault Refusal :=
  .next (match s.group? a.g with
    | some gr => if gr.state == .running && !gr.saving && !s.det gr && gr.triggered.contains (a.w, a.e) then s.replay a else s
    | none => s)

-- Cause records (R361) ----------------------------------------------------------------------------------------------------------------

/-- CAUSE_RECORD_DRAIN (R361). -/
def execCauseRecordDrain (s : State) : Host.Outcome State Fault Refusal := .next (s.drain (s.mbx.waiting.length + s.mbx.records.length))

end Sys2Proof.Machine
end

