-- ==== Sys2Proof/Machine/Host.lean ====
section
/-! DEFINITION. The host (R257 to R260): the mailbox's commands LAUNCH (R316), COLLECTIVE (R265), POWER (R331, R363), RESYNC (R378,
R379) and CONTEXT END (R318), its registers (R259, R328, R330), and the host's own accesses to device memory (R257, R258). -/

namespace Sys2Proof.Machine

open Sys2Proof

-- Submission entries (R259) ------------------------------------------------------------------------------------------------

/-- The host tag of an entry. -/
def entryTag (e : SubEntry) : BitVec 16 := e.extractLsb' 16 16

/-- Bytes `lo` to `hi` of an entry are zero. -/
def zeroBytes (e : SubEntry) (lo hi : Nat) : Bool := e.extractLsb' (8 * lo) (8 * (hi + 1 - lo)) == 0

/-- A command that can do nothing yet stays in the queue: its entry counts as not consumed (log 25). -/
def State.unconsume (s : State) : State := { s with mbx := { s.mbx with consumed := s.mbx.consumed - 1 } }

/-- Start a command (R259, R374): after a machine fault it completes with `MACHINE`; a nonzero byte that the entry does not assign
completes it with `RSV_FIELD`, and neither has another effect. -/
def State.command (s : State) (e : SubEntry) (zeros : List (Nat × Nat)) (f : State → State) : Host.Outcome State Fault Refusal :=
  .next (if s.machine.isSome then s.complete (entryTag e) Cause.machine
    else if ((1, 1) :: (4, 7) :: zeros).any fun r => !zeroBytes e r.1 r.2 then s.complete (entryTag e) Cause.rsvField
    else f s)

/-- UNKNOWN_MAILBOX_COMMAND (R259). -/
def execUnknownMailboxCommand (e : SubEntry) (s : State) : Host.Outcome State Fault Refusal :=
  s.command e [] fun s => s.complete (entryTag e) Cause.rsvField

-- LAUNCH (R316) -------------------------------------------------------------------------------------------------------------

/-- Words of the host's memory. -/
def State.hostWords (s : State) (a n : Nat) : List Word :=
  (List.range n).map fun k => BitVec.ofNat 64 (ofBytes ((List.range 8).map fun i => Table.read s.hostMem (a + 8 * k + i) 0))

/-- The context a descriptor describes (R316); none where a field breaks its rule. -/
def contextOf (ws : List Word) : Option Context :=
  let w (k : Nat) : Word := ws.getD k 0
  if (w 0).extractLsb' 52 12 == 0 && (w 0).extractLsb' 0 17 == 0 && (w 1).extractLsb' 2 62 == 0 && w 2 == 0 && w 3 == 0 then
    some { root := (w 0).extractLsb' 17 35, sys := (w 1).getLsbD 0, dbg := (w 1).getLsbD 1 }
  else none

/-- The context that a LAUNCH names, created by its descriptor where it does not exist (R316); none: `CTX_BAD`. -/
def State.nameContext (s : State) (ctx : BitVec 12) (desc : Word) : Option State :=
  match Table.find s.ctxs ctx.toNat with
  | some c => if c.ended || desc != 0 then none else some s
  | none =>
    if desc = 0 then none
    else (contextOf (s.hostWords desc.toNat 4)).map fun c => { s with ctxs := Table.insert s.ctxs ctx.toNat c }

/-- A LAUNCH command (R269, R316). -/
def State.launchEntry (s : State) (e : SubEntry) : State :=
  let tag := entryTag e
  let id : BitVec 16 := e.extractLsb' 128 16
  if id = 0 || 4096 ≤ id.toNat then s.complete tag Cause.ctxBad
  else
    match s.nameContext (id.setWidth 12) (subWord e 3) with
    | none => s.complete tag Cause.ctxBad
    | some t =>
      if (subWord e 1).toNat % 256 ≠ 0 then t.complete tag Cause.launchBad
      else if launchSlots ≤ s.launches.length then s.unconsume
      else
        match t.launch 0 (id.setWidth 12) (some tag) none none (t.hostWords (subWord e 1).toNat 32) with
        | .accepted l t => { t with mbx := { t.mbx with flights := t.mbx.flights ++ [(tag, Flight.launch l)] } }
        | .refused t => t.complete tag Cause.launchBad
        | .wait => s.unconsume

/-- LAUNCH_CMD (R316). -/
def execLaunchCmd (e : SubEntry) (s : State) : Host.Outcome State Fault Refusal :=
  s.command e [(18, 23), (32, 63)] fun s => s.launchEntry e

-- COLLECTIVE (R265) ------------------------------------------------------------------------------------------------------------

/-- The group of this module that a COLLECTIVE names (R265): Running or Swapped in the context named. -/
def State.participant (s : State) (c : Collective) : Option (Nat × Group) :=
  s.groups.find? fun p => p.2.pnum % 2 ^ 32 = c.group && p.2.ctx = c.ctx && (p.2.state == .running || p.2.state == .swapped)

/-- The collective queue of the group that a COLLECTIVE names has no room. -/
def State.collectiveFull (s : State) (c : Collective) : Bool :=
  match s.participant c with
  | some (g, _) => queueDepth qCollective ≤ s.queueLen g qCollective
  | none => false

/-- Put a collective in its group's queue, where it takes the queue's next number (R124, R265). -/
def State.queueCollective (s : State) (e : SubEntry) (g : Nat) (gr : Group) (guest : Option (BitVec 8 × BitVec 16)) : State :=
  let id := s.nextId
  let (n, qu) := (gr.queue qCollective).take
  let c : Cmd := {
    g := g
    queue := qCollective
    num := n
    epoch := qu.epoch
    kind := .collective e
    cstamp := ((s.launchOf gr).bind (·.stamp)).getD 0
    guest := guest }
  ({ s with nextId := id + 1, cmds := Table.insert s.cmds id c } : State).modGroup g fun gr => gr.setQueue qCollective qu

/-- Note a command in flight. -/
def State.fly (s : State) (e : SubEntry) (f : Flight) : State :=
  { s with mbx := { s.mbx with flights := s.mbx.flights ++ [(entryTag e, f)] } }

/-- A COLLECTIVE of a group of another module goes to that module (R265). -/
def State.sendParticipant (s : State) (e : SubEntry) (m : BitVec 8) : State :=
  if !s.inDomain m.toNat then s.complete (entryTag e) Cause.ctxBad
  else if !s.routeUp m.toNat then s.complete (entryTag e) Cause.linkFail
  else (s.send m (.participate e)).fly e (.abroad m)

/-- A COLLECTIVE that another module's host has posted for a group of this one (R265). -/
def State.takeParticipant (s : State) (m : BitVec 8) (e : SubEntry) : State :=
  match s.participant ⟨subWords e⟩ with
  | none => s.send m (.participated (entryTag e) Cause.ctxBad)
  | some (g, gr) => s.queueCollective e g gr (some (m, entryTag e))

/-- Another module has completed a COLLECTIVE of this module's host. -/
def State.endAbroad (s : State) (m : BitVec 8) (tag : BitVec 16) (status : Cause) : State :=
  if s.mbx.flights.contains (tag, Flight.abroad m) then
    { s with mbx := { s.mbx with flights := s.mbx.flights.erase (tag, Flight.abroad m) } }.complete tag status
  else s

/-- COLLECTIVE (R265): with its group's queue full the command waits. -/
def execCollective (e : SubEntry) (s : State) : Host.Outcome State Fault Refusal :=
  s.command e [] fun s =>
    let c : Collective := ⟨subWords e⟩
    if !c.ok then s.complete (entryTag e) Cause.rsvField
    else if c.modIdx ≠ s.fabric.index then s.sendParticipant e c.modIdx
    else
      match s.participant c with
      | none => s.complete (entryTag e) Cause.ctxBad
      | some (g, gr) =>
        if s.collectiveFull c then s.unconsume
        else ((s.queueCollective e g gr none).fly e (.collective s.nextId))

-- POWER (R331, R363) ---------------------------------------------------------------------------------------------------------------

/-- The POWER command in progress: its tag, its target, the state it started from, the groups it has saved. -/
def Mailbox.power (m : Mailbox) : Option (BitVec 16 × Nat × Nat × List Nat) :=
  m.flights.findSome? fun f => match f.2 with | .power t o l => some (f.1, t, o, l) | _ => none

/-- The mailbox without its POWER command. -/
def Mailbox.endPower (m : Mailbox) : Mailbox := { m with flights := m.flights.filter fun f => match f.2 with | .power _ _ _ => false | _ => true }

/-- Note that the POWER command has saved a group. -/
def Mailbox.noteSaved (m : Mailbox) (g : Nat) : Mailbox :=
  { m with flights := m.flights.map fun f => match f.2 with | .power t o l => (f.1, .power t o (l ++ [g])) | _ => f }

/-- The module enters a power state (R331): in P3 and P4 the cores are off and the slices are flushed; P4 loses the session and
IDE keys (R329). -/
def State.enterPower (s : State) (p : Nat) : State :=
  let s := { s with power := p }
  if p < 3 then s
  else
    let s := { s with dirty := [], l1 := [], tlb := [] }
    if p = 4 then { s with boot := { s.boot with spdm := { s.boot.spdm with session := none, secured := false, ide := none } } } else s

/-- A wave of a deferred group is parked at a fault inside a live forwarding region (R363). -/
def Group.powerBlocks (gr : Group) : Bool :=
  gr.saveDeferred && gr.waves.any fun wv => (wv.region.any fun r => r.aborted.isNone) && wv.ents.any fun e => e.2.fault.isSome

/-- The POWER command ends without reaching its target (R363): the groups it has saved are eligible, and the saves it
has begun stop. -/
def State.failPower (s : State) (tag : BitVec 16) (saved : List Nat) (c : Cause) : State :=
  let s := { s with
    mbx := s.mbx.endPower
    groups := Table.mapValues s.groups fun _ gr => if gr.powerSave then { gr with saving := false, powerSave := false } else gr }
  (saved.foldl (fun s g => s.makeEligible g) s).complete tag c

/-- Hardware closes early the regions of a group's resumed waves (R363); a deterministic wave keeps its quantum, and is merely no
longer held to make progress first (log 24). -/
def State.closeResumed (s : State) (g : Nat) (gr : Group) : State :=
  gr.waves.zipIdx.foldl (fun s w =>
    if !w.1.resumed || w.1.region.isSome then s
    else if s.det gr then s.modWave g w.2 fun wv => { wv with resumed := false }
    else s.closeRegion g w.2) s

/-- One group's turn of a POWER command: true where the media reserve lacks room. -/
def State.powerGroup (s : State) (g : Nat) (gr : Group) : State × Bool :=
  if gr.saving then
    match s.trySave g with
    | .later s => (s, false)
    | .noRoom s => (s, true)
    | .saved s => (if gr.powerSave then { s with mbx := s.mbx.noteSaved g } else s, false)
  else if gr.saveDeferred then (s.closeResumed g gr, false)
  else ((s.beginSave g).modGroup g fun gr => { gr with powerSave := true }, false)

/-- The Running groups' turns, up to one that lacks room. -/
def State.powerGroups (s : State) : List (Nat × Group) → State × Bool
  | [] => (s, false)
  | (g, gr) :: t =>
    match s.powerGroup g gr with
    | (s, true) => (s, true)
    | (s, false) => s.powerGroups t

/-- One turn of a POWER command to P3 or P4 (R363). -/
def State.powerTurn (s : State) : State :=
  match s.mbx.power with
  | none => s
  | some (tag, target, _, saved) =>
    let running := s.groups.filter fun p => p.2.state == .running
    if running.any fun p => p.2.powerBlocks then s.failPower tag saved Cause.powerBlocked
    else
      match s.powerGroups running with
      | (s, true) => s.failPower tag ((s.mbx.power.map (·.2.2.2)).getD saved) Cause.allocRefused
      | (s, false) =>
        if s.groups.any fun p => p.2.state == .running || p.2.state == .draining then s
        else ({ s with mbx := s.mbx.endPower }.enterPower target).complete tag 0

/-- Start a POWER command: P0 to P2 are entered at once. -/
def State.powerEntry (s : State) (e : SubEntry) : State :=
  let p := (e.extractLsb' 64 3).toNat
  if 5 ≤ p || (e.extractLsb' 67 5) != 0 then s.complete (entryTag e) Cause.rsvField
  else if p < 3 then (s.enterPower p).complete (entryTag e) 0
  else ({ s with mbx := { s.mbx with flights := s.mbx.flights ++ [(entryTag e, Flight.power p s.power [])] } }).powerTurn

/-- POWER (R331, R363): the command starts, or the one in progress goes on (log 24). -/
def execPower (e : SubEntry) (s : State) : Host.Outcome State Fault Refusal :=
  if s.powering then .next s.powerTurn else s.command e [(9, 63)] fun s => s.powerEntry e

-- RESYNC (R378, R379) --------------------------------------------------------------------------------------------------------------------

/-- The command code of a command in flight (R259). -/
def Flight.code : Flight → BitVec 8
  | .launch _ => 1
  | .collective _ => 2
  | .power _ _ _ => 3
  | .contextEnd _ => 5
  | .abroad _ => 2

/-- The number of a security state in the summary (R379). -/
def Security.code : Security → BitVec 2
  | .secure => 1
  | _ => 0

/-- Four 16-bit numbers in a word, the first in [15:0]. -/
def fourWord (a b c d : Nat) : Word := BitVec.ofNat 16 d ++ BitVec.ofNat 16 c ++ BitVec.ofNat 16 b ++ BitVec.ofNat 16 a

/-- The groups of a context that are still queued. -/
def State.queuedGroups (s : State) (ctx : BitVec 12) : Nat :=
  (s.launches.filter fun l => l.2.ctx = ctx).foldl (fun n l =>
    n + l.2.back.length + (groupsOf l.2.block - l.2.next) + (s.batches.filter fun b => b.1 = l.1).length) 0

/-- A context's entry of the summary. -/
def State.contextWords (s : State) (k : Nat) : List Word :=
  let n (st : GState) : Nat := (s.groups.filter fun p => p.2.ctx.toNat = k && p.2.state == st).length
  [BitVec.ofNat 64 k, fourWord (s.queuedGroups (BitVec.ofNat 12 k)) (n .running) (n .swapped) (n .draining)]

/-- The entities parked at a fault, as the summary lists them. -/
def State.faultWords (s : State) : List (List Word) :=
  s.groups.flatMap fun p => p.2.waves.flatMap fun w => w.ents.filterMap fun e =>
    match e.2.fault with
    | some f => some [recordWord .waveFault f.cause p.2.ctx p.2.core w.slot, BitVec.ofNat 32 p.2.lin ++ BitVec.ofNat 32 p.2.pnum, f.addr, f.lanes]
    | none => none

/-- A hold's entry of the summary. -/
def State.holdWords (s : State) (k : Nat) (h : Hold) : List Word :=
  [holdIdent s.fabric.index (k % 16) ||| (BitVec.ofNat 64 (k / 16) <<< 52), h.stamp]

/-- The summary (R379). -/
def State.summary (s : State) : List Word :=
  let faults := s.faultWords
  [(1 : BitVec 8) ++ BitVec.ofNat 3 s.power ++ s.boot.security.code ++ BitVec.ofNat 2 s.boot.mode ++ BitVec.ofBool s.machine.isSome
      ++ s.machine.getD 0 ++ (0 : BitVec 39),
    s.coldResets ++ s.warmResets,
    fourWord s.mbx.consumed s.mbx.posted s.mbx.flights.length s.mbx.lost.toNat,
    fourWord s.ctxs.length faults.length s.holds.length s.mbx.records.length] ++
  (List.range 16).map (fun k => (s.stack k).h) ++
  s.mbx.flights.map (fun f => (0 : BitVec 40) ++ f.2.code ++ f.1) ++
  s.ctxs.flatMap (fun c => s.contextWords c.1) ++
  faults.flatten ++
  s.holds.flatMap (fun h => s.holdWords h.1 h.2) ++
  s.mbx.records.flatMap fun r => [r.1, r.2]

/-- Write the summary up to the buffer's end, clear the cause buffer and its lost count, and complete (R378). -/
def State.resyncEntry (s : State) (e : SubEntry) : State :=
  let a := (subWord e 1).toNat
  let n := (e.extractLsb' 128 32).toNat
  if a % 4096 ≠ 0 || n = 0 || n % 4096 ≠ 0 then s.complete (entryTag e) Cause.rsvField
  else
    let bs := (s.summary.flatMap fun w => toBytes w.toNat 8).take n
    ({ s with
      hostMem := writeBytes s.hostMem a bs
      mbx := { s.mbx with records := [], lost := 0 } }).complete (entryTag e) 0

/-- RESYNC (R378): accepted after a machine fault too. -/
def execResync (e : SubEntry) (s : State) : Host.Outcome State Fault Refusal :=
  .next (if [(1, 1), (4, 7), (20, 63)].any fun r => !zeroBytes e r.1 r.2 then s.complete (entryTag e) Cause.rsvField else s.resyncEntry e)

-- CONTEXT END (R318) ---------------------------------------------------------------------------------------------------------------------------

/-- A request belongs to a context's work, and may still write: what has been sent is performed (R318). -/
def stopRequest (id : Nat) (k : Cmd) (r : Req) : Option Req :=
  if r.agent != .cmd id then some r else if r.kind.writes && r.away.isNone then some { r with agent := .wave k.g k.wave } else none

/-- An engine command is stopped between pieces (R318): what it has sent stands, its other requests are dropped. A mailbox command
it belongs to completes with `CTX_BAD` (log 26). -/
def State.stopCmd (s : State) (id : Nat) (k : Cmd) : State :=
  let s := { s with
    reqs := s.reqs.filterMap fun (r : Nat × Req) => (stopRequest id k r.2).map fun x => (r.1, x)
    cmds := Table.erase s.cmds id }
  let s := s.flightCmd id { k with err := k.err.or (some Cause.ctxBad) }
  match k.kind with
  | .collective e => s.forgetCollective ⟨subWords e⟩ true true
  | _ => s

/-- Drop a launch's queued groups (R318): what is left of it completes it once it is Freed. -/
def State.dropQueued (s : State) (id : Nat) (l : Launch) : State :=
  let left := (s.groups.filter fun p => p.2.launch = id).length
  ({ s with
    batches := s.batches.filter fun b => b.1 ≠ id
    launches := Table.insert s.launches id { l with back := [], next := groupsOf l.block, freed := groupsOf l.block - left } }).endLaunch id

/-- The steps of CONTEXT END, in their order (R318). -/
def State.stopContext (s : State) (ctx : BitVec 12) : State :=
  let of (g : Nat) (s : State) : Bool := ((s.group? g).map (·.ctx)) == some ctx
  let own := (s.launches.filter fun l => l.2.ctx = ctx).map (·.1)
  -- 1: no more launches; queued groups and launches are dropped
  let s := { s with ctxs := Table.modify s.ctxs ctx.toNat fun c => { c with ended := true } }
  let s := s.launches.foldl (fun s l => if l.2.ctx = ctx then s.dropQueued l.1 l.2 else s) s
  -- 2: its forwarding regions are removed
  let s := s.slots.foldl (fun s x => if of x.2.g s && (Table.find s.slots x.1).isSome then s.abortRegion x.1 0 Cause.xrExplicit else s) s
  -- 3: its groups stop, and their commands; its tasks are queued work
  let s := s.groups.foldl (fun s p => if p.2.ctx = ctx then s.endGroup p.1 0 else s) s
  let s := s.cmds.foldl (fun s k => if of k.2.g s then s.stopCmd k.1 k.2 else s) s
  let s := { s with tasks := Table.drop s.tasks fun _ t => t.ctx = ctx, chains := s.chains.filter fun c => c.ctx ≠ ctx }
  -- 4: its deques are emptied
  let s := (s.cores.filter fun c => own.any fun l => c.2.dqLaunch == some l).foldl (fun s c =>
    s.modCore c.1 fun c => { c with deque := [], top := c.bottom, dqLaunch := none }) s
  -- 5: holds, translations and windows
  ({ s with holds := Table.drop s.holds fun k _ => k / 16 = ctx.toNat, holdsEnded := s.holdsEnded + 1 }.dropTlb ctx ⟨0, 0⟩).dropWindows ctx ⟨0, 0⟩

/-- A CONTEXT END command: it completes when no group of the context is left. -/
def State.contextEndEntry (s : State) (e : SubEntry) : State :=
  let id := (e.extractLsb' 128 16).toNat
  if id = 0 || 4096 ≤ id || (Table.find s.ctxs id).isNone then s.complete (entryTag e) Cause.ctxBad
  else
    let ctx := BitVec.ofNat 12 id
    let s := s.stopContext ctx
    ({ s with mbx := { s.mbx with flights := s.mbx.flights ++ [(entryTag e, Flight.contextEnd ctx)] } }).endContexts

/-- CONTEXT_END (R318). -/
def execContextEnd (e : SubEntry) (s : State) : Host.Outcome State Fault Refusal :=
  s.command e [(8, 15), (18, 63)] fun s => s.contextEndEntry e

-- Registers (R259, R328, R330) ---------------------------------------------------------------------------------------------------------------

/-- Write a mailbox register; no access is accepted during a reset (R377). -/
def State.writeMbx (s : State) (f : Mailbox → Mailbox) : State := if s.resetting then s else { s with mbx := f s.mbx }

/-- Post the entries up to a tail: the mailbox's turns start them in order (R259). -/
def State.postTail (s : State) (v : Word) : State := s.writeMbx fun m => { m with sqtail := v }

/-- SQTAIL (R259). -/
def execSqtail (v : Word) (s : State) : Host.Outcome State Fault Refusal := .next (s.postTail v)

/-- Completions up to a head are consumed: what waited for room is written (R259, R361). -/
def State.consumeHead (s : State) (v : Word) : State :=
  if s.resetting then s
  else
    let s := s.writeMbx fun m => { m with cqhead := v }
    s.drain (s.mbx.waiting.length + s.mbx.records.length)

/-- CQHEAD (R259, R361). -/
def execCqhead (v : Word) (s : State) : Host.Outcome State Fault Refusal := .next (s.consumeHead v)

/-- The mailbox starts at the first entry of both queues, with phase 1 (R259): what it has consumed and posted counts from 0 again, while
SQTAIL and CQHEAD keep their values (DESIGN CHOICE, log 33). In state Failed it stays disabled (R332). -/
def State.enableMbx (s : State) : State :=
  if s.boot.security == .failed || s.mbx.ctl.getLsbD 0 then s
  else s.writeMbx fun m => { m with ctl := 1, consumed := 0, posted := 0 }

/-- MBXCTL_ENABLE (R259). -/
def execMbxctlEnable (s : State) : Host.Outcome State Fault Refusal := .next s.enableMbx

/-- The queue is to be completed, and [0] is cleared then (R259). -/
def State.drainMbx (s : State) : State := if s.mbx.ctl.getLsbD 0 then s.writeMbx fun m => { m with ctl := m.ctl ||| 2 } else s

/-- MBXCTL_DRAIN (R259). -/
def execMbxctlDrain (s : State) : Host.Outcome State Fault Refusal := .next s.drainMbx

/-- A write of MBXCTL (R259): its bit [0] enables or disables the mailbox, and [1] with it drains the queue. -/
def State.writeMbxctl (s : State) (v : Word) : State :=
  if !v.getLsbD 0 then s.writeMbx fun m => { m with ctl := 0 }
  else if v.getLsbD 1 then s.enableMbx.drainMbx
  else s.enableMbx

/-- What a host read of a BAR 0 register returns (R259): every register not listed reads as zero. -/
def Mailbox.read (m : Mailbox) (off : Nat) : Word :=
  match off with
  | 0x0000 => m.ctl
  | 0x0008 => m.sqbase
  | 0x0010 => m.cqbase
  | 0x0018 => m.qsize
  | 0x0020 => m.sqtail
  | 0x0028 => m.cqhead
  | _ => 0

/-- MAILBOX_REGISTER_WRITE (R259, R328): the registers of BAR 0, FWADDR and FWLEN of BAR 4. Bits that a register does not have are
ignored, and so is every other register. -/
def execMailboxRegisterWrite (bar4 : Bool) (off : Nat) (v : Word) (s : State) : Host.Outcome State Fault Refusal :=
  .next (if bar4 then
      if s.resetting then s
      else if off = 0x00 then { s with boot := { s.boot with fwaddr := v } }
      else if off = 0x08 then { s with boot := { s.boot with fwlen := v } }
      else s
    else if off = 0x0000 then s.writeMbxctl v
    else if off = 0x0020 then s.postTail v
    else if off = 0x0028 then s.consumeHead v
    else s.writeMbx fun m =>
      if off = 0x0008 then { m with sqbase := v &&& ~~~0xFFF }
      else if off = 0x0010 then { m with cqbase := v &&& ~~~0xFFF }
      else if off = 0x0018 then { m with qsize := v &&& 0xFFFF }
      else m)

/-- The debug mode that a request names; any other asks for D0. -/
def debugMode (v : Word) : Nat := if v = 1 then 1 else if v = 2 then 2 else 0

/-- DBGREQ (R330): the mode takes effect at the next warm reset, whose boot judges whether it is allowed. -/
def execDbgreq (v : Word) (token : List Byte) (s : State) : Host.Outcome State Fault Refusal :=
  .next (if s.resetting then s
    else { s with boot := { s.boot with token := token, wanted := debugMode v, unlocked := Config.tokenVerifies token s.boot.nonce } })

-- The host's accesses to device memory (R257, R258) ---------------------------------------------------------------------------------------------

/-- Send the host's items to their home slices, and perform at once those that nothing holds back (R152, R206). -/
def State.hostSend (s : State) (ctx : BitVec 12) (kind : ReqKind) (its : List ReqItem) : State :=
  let first := s.nextId
  let r : Req := {
    agent := .host
    ctx := ctx
    launch := none
    kind := kind
    gran := 0
    items := []
    carried := none }
  let s := s.sendItems r its
  (List.range (s.nextId - first)).foldl (fun s k =>
    match s.turnOf (first + k) with
    | some r => s.performReq (first + k) r
    | none => s) s

/-- The host's access is answered (R258, R331): with an error where the cores are off, with Unsupported Request where a page is not
mapped or the address is beyond the module. -/
def State.hostAccess (s : State) (addr n : Nat) (f : State → State) : State :=
  if s.resetting then s
  else if 3 ≤ s.power then { s with hostSeen := .error :: s.hostSeen }
  else if 2 ^ 44 < addr + n || (List.range n).any fun k => !(s.page (dpaPage (addr + k))).mapped then { s with hostSeen := .unsupported :: s.hostSeen }
  else f s

/-- The part of an access in one 32-byte block, as an item: no granule is smaller. -/
def hostItems (s : State) (addr n : Nat) (data : Option (List Byte)) : List ReqItem :=
  (List.range ((addr + n + 31) / 32 - addr / 32)).map fun k =>
    let lo := max addr (32 * (addr / 32 + k))
    let hi := min (addr + n) (32 * (addr / 32 + k) + 32)
    { thread := 0, byte := lo - addr, addr := s.dpaOf lo, len := hi - lo, data := ((data.getD []).drop (lo - addr)).take (hi - lo) }

/-- Under CXL 3.1 the host keeps the lines it reads (R256, R257). -/
def State.keepLines (s : State) (addr n : Nat) : State :=
  if s.link = .cxl31 then
    { s with hostLines := ((List.range ((addr + n + 63) / 64 - addr / 64)).map (addr / 64 + ·)).foldl (fun l x => if l.contains x then l else l ++ [x]) s.hostLines }
  else s

/-- HOST_READ (R257): the present, at the home slice. -/
def execHostRead (addr n : Nat) (s : State) : Host.Outcome State Fault Refusal :=
  .next (s.hostAccess addr n fun s => (s.hostSend 0 .load (hostItems s addr n none)).keepLines addr n)

/-- HOST_WRITE (R257): a commit with its own stamp, without a causal stamp. -/
def execHostWrite (addr : Nat) (data : List Byte) (s : State) : Host.Outcome State Fault Refusal :=
  .next (s.hostAccess addr data.length fun s =>
    { s.hostSend 0 .store (hostItems s addr data.length (some data)) with hostSeen := .taken :: s.hostSeen })

/-- BACK_INVALIDATION_RESPONSE (R257): the host no longer holds the line, and a program's write to it can be stamped. -/
def execBackInvalidationResponse (line : Nat) (s : State) : Host.Outcome State Fault Refusal :=
  .next { s with hostLines := s.hostLines.filter (· ≠ line) }

end Sys2Proof.Machine
end

