-- ==== Sys2Proof/Machine/Debug.lean ====
section
/-! DEFINITION. The debugger `mbd` through the control core (R330, R360, R399, R402, R409, R413). -/

namespace Sys2Proof.Machine

open Sys2Proof

-- Reach (R330, R332) --------------------------------------------------------------------------------------------------------

/-- Answer the debugger. -/
def State.tell (s : State) (x : Seen) : State := { s with mbd := { s.mbd with answers := x :: s.mbd.answers } }

/-- What a request needs of the module (R332): `act` changes something, `image` reads a save image, `media` what memory holds. -/
inductive DebugUse where
  | link | act | read | image | media | control
  deriving DecidableEq, Repr

/-- The use that a request makes of the module. -/
def debugUse : DebugReq → DebugUse
  | .attach | .detach => .link
  | .readReg _ _ _ | .storeQueue _ _ _ | .matrixQueue _ | .timelines _ | .unit | .deque _ | .dgWord _ => .read
  | .readSpace _ sp _ _ => if sp == .g then .media else .read
  | .image _ => .image
  | .readMem _ _ _ | .history _ _ | .whey _ | .rind _ => .media
  | .control => .control
  | .load _ _ _ _ _ | .launch _ _ _ _ | .breakAt _ _ _ _ | .delete _ _ | .khold _ _ | .continueAll | .continueWave _
  | .writeMem _ _ _ | .preempt _ | .resume _ | .replay _ | .resumeAt _ _ | .endFault _ | .unmap _ _ | .map _ _ => .act

/-- The power state and the debug mode let a request in (R332): in P2 reads, in P3 of D1 the images, of D2 the images and the media, in P4
of D2 the control core's port. -/
def State.debugOpen (s : State) (u : DebugUse) : Bool :=
  match s.power, u with
  | 0, _ | 1, _ => true
  | 2, u => u != .act
  | 3, .link | 3, .image => true
  | 3, .media | 3, .control => s.boot.mode == 2
  | 3, _ => false
  | _, .link | _, .control => s.boot.mode == 2
  | _, _ => false

/-- An access to a context, within reach; another completes with `DEBUG_LOCKED`. -/
def State.ifReach (s : State) (ctx : BitVec 12) (f : State → State) : State :=
  if s.reaches ctx then f s else s.tell (.refused Cause.debugLocked)

/-- An access that D2 alone reaches: the Whey, the Rind, the dg registers (R330). -/
def State.ifFull (s : State) (f : State → State) : State :=
  if s.mbd.attached && s.boot.mode = 2 then f s else s.tell (.refused Cause.debugLocked)

/-- A form of R402 that names a wave needs D2; the others D1 or D2. -/
def State.ifWave (s : State) (wave : Bool) (ctx : BitVec 12) (f : State → State) : State :=
  if wave then s.ifFull f else s.ifReach ctx f

/-- An access to a group by its identifier (R272). -/
def State.ifGroup (s : State) (id : BitVec 32) (f : State → Nat → Group → State) : State :=
  match s.groupNamed id.toNat with
  | none => s.tell (.refused Cause.ctxBad)
  | some (g, gr) => s.ifReach gr.ctx fun s => f s g gr

/-- An access to an entity. -/
def State.ifEntity (s : State) (a : Actor) (f : State → Group → Wave → Entity → State) : State :=
  match s.group? a.g, s.wave? a.g a.w, s.entity? a with
  | some gr, some wv, some e => s.ifReach gr.ctx fun s => f s gr wv e
  | _, _, _ => s.tell (.refused Cause.ctxBad)

-- Accesses that take several steps (R409, R413) ----------------------------------------------------------------------------------

/-- The invalidation of `map` and `unmap` (R322, R409): what is cached of the page is dropped, then what was translated before is waited
for. -/
def State.remap (s : State) (u : DebugWork) (ctx : BitVec 12) (va : Word) (on : Bool) : State :=
  let r : PageRange := ⟨vpn va, 1⟩
  let drop (s : State) : State :=
    let s := (s.closeContext ctx).dropTlb ctx r
    if on then s else s.dropWindows ctx r
  let (m, s) := match u.mark with
    | some m => if s.covered ctx r false || (!on && s.covered ctx r true) then (s.nextId, drop s) else (m, s)
    | none => let s := drop s; (s.nextId, s)
  if s.translating ctx m 0 then { s with mbd := { s.mbd with work := some { u with mark := some m } } }
  else ({ s.trigger ctx r with mbd := { s.mbd with work := none } } : State).tell .done

/-- Go on with what the debugger has under way: once its writes have been performed it is complete (R413), or its invalidation
follows. -/
def State.settle (s : State) : State :=
  match s.mbd.work with
  | none => s
  | some u =>
    if u.writes.any fun n => (Table.find s.reqs n).isSome then s
    else
      match u.remap with
      | some (ctx, va, on) => s.remap u ctx va on
      | none => ({ s with mbd := { s.mbd with work := none } } : State).tell .done

/-- The debugger's requests numbered from `n` on are its writes under way. -/
def State.await (s : State) (n : Nat) (remap : Option (BitVec 12 × Word × Bool)) : State :=
  ({ s with mbd := { s.mbd with work := some { writes := (List.range (s.nextId - n)).map (n + ·), remap := remap } } } : State).settle

-- Loading and launching (R399, R402, R413) --------------------------------------------------------------------------------------

/-- Write one byte of device memory as the loader does: a commit of the host (R257). -/
def State.loadByte (s : State) (a : Nat) (b : Byte) : State := s.hostSend 0 .store [{ thread := 0, byte := 0, addr := a, len := 1, data := [b] }]

/-- A page that the loader may give to its new context (R330): in D1 it is free, or the page of a context within reach. -/
def State.mayOwn (s : State) (page : Nat) : Bool :=
  let o := (s.page page).owner
  s.boot.mode = 2 || (!o.getLsbD 15 && (o.extractLsb' 0 12 == 0 || s.reaches (o.extractLsb' 0 12)))

/-- The pages and bytes of a load are within reach: its bytes lie on the pages it owns. -/
def State.mayLoad (s : State) (owned : List (BitVec 52)) (bytes : List (BitVec 52 × Byte)) : Bool :=
  owned.all (fun d => s.ours d.toNat && s.mayOwn (dpaPage d.toNat)) &&
  (s.boot.mode = 2 || bytes.all fun b => owned.any fun d => dpaModule d.toNat == dpaModule b.1.toNat && dpaPage d.toNat == dpaPage b.1.toNat)

/-- `load` (R399, R402): a new context with debug enable set, its pages and their contents. A system context needs D2. -/
def State.loadContext (s : State) (ctx : BitVec 12) (sys : Bool) (root : BitVec 52) (owned : List (BitVec 52))
    (bytes : List (BitVec 52 × Byte)) : State :=
  if !s.mbd.attached || s.boot.mode = 0 || (sys && s.boot.mode ≠ 2) then s.tell (.refused Cause.debugLocked)
  else if ctx = 0 || (Table.find s.ctxs ctx.toNat).isSome then s.tell (.refused Cause.ctxBad)
  else if !s.mayLoad owned bytes then s.tell (.refused Cause.debugLocked)
  else
    let s := { s with ctxs := Table.insert s.ctxs ctx.toNat { root := root.extractLsb' 17 35, sys := sys, dbg := true } }
    let s := owned.foldl (fun s d =>
      s.setPage (dpaPage d.toNat) { s.page (dpaPage d.toNat) with owner := ctx.setWidth 16 }) s
    (bytes.foldl (fun s b => s.loadByte b.1.toNat b.2) s).await s.nextId none

/-- `launch` (R399, R413): LAUNCH is posted for the block at a host address, with other group counts where they are given, and
completes under a host tag. While the module holds 64 launches the request is made again (log 30). -/
def State.debugLaunch (s : State) (ctx : BitVec 12) (tag : BitVec 16) (block : Word)
    (counts : Option (BitVec 16 × BitVec 16 × BitVec 16)) : State :=
  let ws := s.hostWords block.toNat 32
  let ws := match counts with
    | some (x, y, z) => ws.set 5 ((0 : BitVec 16) ++ z ++ y ++ x)
    | none => ws
  if launchSlots ≤ s.launches.length then s
  else
    match s.launch 0 ctx (some tag) none none ws with
    | .accepted l s => { s with mbx := { s.mbx with flights := s.mbx.flights ++ [(tag, Flight.launch l)] } }.tell .done
    | .refused s => (s.complete tag Cause.launchBad).tell (.refused Cause.launchBad)
    | .wait => s

-- Stopping and going on (R360, R399, R402) ------------------------------------------------------------------------------------------

/-- Resume the stopped entities of the waves that a test picks, in contexts within reach. -/
def State.release (s : State) (pick : Nat → Bool) : State :=
  { s with groups := Table.mapValues s.groups fun _ gr =>
      if !s.reaches gr.ctx then gr
      else
        { gr with waves := gr.waves.zipIdx.map fun w =>
            if pick w.2 then
              { w.1 with ents := Table.mapValues w.1.ents fun _ e => if e.stopped then { e with stopped := false, continued := true } else e }
            else w.1 } }

/-- The terminal fault that an entity is parked at: when it was taken, and its cause. -/
def Entity.terminal (e : Entity) : Option (Nat × Cause) :=
  match e.fault with
  | some f => if Cause.replayable f.cause then none else some (f.at_, f.cause)
  | none => none

/-- The cause of the first of some faults. -/
def firstFault (l : List (Nat × Cause)) : Option Cause :=
  (l.foldl (fun (acc : Option (Nat × Cause)) f =>
    match acc with
    | some b => if f.1 < b.1 then some f else acc
    | none => some f) none).map (·.2)

/-- The groups with an entity parked at a terminal fault, with the cause of the first. -/
def State.terminals (s : State) : List (Nat × Cause) :=
  s.groups.filterMap fun p => (firstFault (p.2.waves.flatMap fun w => w.ents.filterMap fun e => e.2.terminal)).map fun c => (p.1, c)

/-- The groups at a terminal fault end (R360). -/
def State.endTerminals (s : State) : State := s.terminals.foldl (fun s x => s.endGroup x.1 x.2) s

/-- The halted engines within the debugger's reach. -/
def State.haltsReached (s : State) : List Nat :=
  (s.mbd.halts.filter fun h => ((s.group? (s.groupOfCmd h.2)).map fun gr => s.reaches gr.ctx).getD true).map (·.1)

/-- `continue` (R399, R402): stopped entities and halted engines go on (a hold that no engine has met stays
armed); in D2 a group with an entity parked at a terminal fault ends. -/
def State.continueAll (s : State) : State :=
  let s := if s.boot.mode = 2 then s.endTerminals else s
  (s.haltsReached.foldl State.unhalt (s.release fun _ => true)).tell .done

/-- Nothing of the debugger is left but what it has been told. -/
def State.leaveMbd (s : State) : State := { s with mbd := { answers := s.mbd.answers } }

/-- `mbd` goes (R360): what it has stopped or halted goes on, and faults that waited for it end their groups. -/
def State.detach (s : State) : State :=
  let t := s.release fun _ => true
  let t := s.mbd.halts.foldl (fun (t : State) h => t.unhalt h.1) t
  t.leaveMbd.endTerminals.tell .done

/-- The debugger resumes an entity parked at a fault at another position (R360): a long-latency instruction that faulted is given
up, and its flag counts down. -/
def State.resumeAt (s : State) (a : Actor) (e : Entity) (hdr : Word) : State :=
  let s := { s.untrigger a with xbegQueue := s.xbegQueue.filter fun b => b ≠ a }
  let s := match e.fault.bind (·.op) with
    | some id => s.modWave a.g a.w fun wv =>
        match Table.find wv.ops id with
        | some o => { wv.flagDown o.fl with ops := Table.erase wv.ops id }
        | none => wv
    | none => s
  s.modEnt a fun e => { e with
    park := none
    fault := none
    stage := 0
    replay := none
    clause := none
    waiting := none
    hdr := hdr
    idx := 0 }

-- Pre-emption (R399) -------------------------------------------------------------------------------------------------------------------

/-- `preempt group` (R342, R399): where it is deferred, or still waits, the request is made again (log 30). -/
def State.debugSave (s : State) (g : Nat) (gr : Group) : State :=
  if gr.state != .running then s.tell (.refused Cause.ctxBad)
  else if !gr.saving && gr.saveDeferred then s
  else
    match (if gr.saving then s else s.beginSave g).trySave g with
    | .later s => s
    | .noRoom s => s.tell (.refused Cause.allocRefused)
    | .saved s => s.tell .done

-- Memory (R402, R409, R413) -----------------------------------------------------------------------------------------------------------------

/-- Read memory of a context. -/
def State.debugRead (s : State) (ctx : BitVec 12) (addr : Word) (n : Nat) : State :=
  match s.readVa 0 ctx none addr n with
  | .ok bs s => s.tell (.bytes bs)
  | .bad r s => s.tell (.refused (r.cause Cause.kLoad))
  | .absent _ s => s.tell (.refused (Cause.access Cause.kLoad Cause.rNotPresent))
  | .wait s => s

/-- `w` (R413): a store released at `.dm`. -/
def State.debugWrite (s : State) (ctx : BitVec 12) (addr : Word) (x : BitVec 32) : State :=
  let plan : Except Cause (List ReqItem) := (splitAccess addr.toNat 0 4 4).foldr (fun p acc =>
    match acc, s.translate 0 ctx { w := true } (addr + BitVec.ofNat 64 p.1) with
    | .error c, _ => .error c
    | .ok _, .error r => .error (r.cause Cause.kStore)
    | .ok l, .ok d => .ok ({ thread := 0, byte := p.1, addr := d, len := p.2, data := ((toBytes x.toNat 4).drop p.1).take p.2 } :: l)) (.ok [])
  match plan with
  | .error c => s.tell (.refused c)
  | .ok l => (s.hostSend ctx .store l).await s.nextId none

/-- Where the level-1 leaf entry of an address lies, whatever it holds (R319). -/
def State.leafPlace (s : State) (ctx : BitVec 12) (va : Word) : Option Nat :=
  match Table.find s.ctxs ctx.toNat with
  | none => none
  | some c =>
    match s.readPte (c.root.toNat * 2 ^ 17 + 8 * (va.extractLsb' 42 14).toNat) with
    | .error _ => none
    | .ok e3 =>
      if !pteOk 3 e3 then none
      else
        match s.readPte (pteFrame e3 + 8 * (va.extractLsb' 29 13).toNat) with
        | .error _ => none
        | .ok e2 => if !pteOk 2 e2 || e2.getLsbD 62 then none else some (pteFrame e2 + 8 * (va.extractLsb' 16 13).toNat)

/-- `map` and `unmap` (R409): the leaf's present bit, then `sys.tlbinv`, and for `unmap` `sys.wininv`, over the page. While the leaf's
granule is held the request is made again (log 30). -/
def State.setPresent (s : State) (ctx : BitVec 12) (va : Word) (on : Bool) : State :=
  match s.leafPlace ctx va with
  | none => s.tell (.refused (Cause.access Cause.kLoad Cause.rNotPresent))
  | some a =>
    match s.readPte a with
    | .error _ => s.tell (.refused (Cause.access Cause.kLoad Cause.rNotPresent))
    | .ok e =>
      match s.sendWord .host 0 none a (BitVec.ofBool on ++ e.extractLsb' 0 63) with
      | .ok () t => t.await s.nextId (some (ctx, va, on))
      | .bad r s => s.tell (.refused (r.cause Cause.kStore))
      | .absent _ s | .wait s => s

/-- The kept versions of a granule, newest first (R169, R402). -/
def keptVersions (log : List WheyRec) (rbase : Nat) (link : Option Nat) : Nat → List WheyRec
  | 0 => []
  | fuel + 1 =>
    match link with
    | none => []
    | some p =>
      if p < rbase then []
      else
        match log.find? fun r => r.pos = p with
        | none => []
        | some r => r :: keptVersions log rbase r.link fuel

/-- `hist` (R402): of the granule that an address is mapped to, whoever owns it. -/
def State.debugHistory (s : State) (ctx : BitVec 12) (va : Word) : State :=
  match s.leaf 0 ctx va with
  | .error r => s.tell (.refused (r.cause Cause.kLoad))
  | .ok e =>
    let d := leafDpa e va
    if !s.ours d then s.tell (.refused (Cause.access Cause.kLoad Cause.rBound))
    else
      let a := dpaLocal d - dpaLocal d % 4
      let base := s.granOf a
      let p := s.page (dpaPage a)
      let st := s.stack (dpaStack a)
      let writes := s.slots.flatMap fun x => (x.2.writes.filter fun w => meets w.addr w.data.length a 4).map fun w => (x.1, w.addr, w.data)
      let kept := (keptVersions st.log st.base (Table.find s.glinks base) (st.log.length + 1)).map fun r =>
        ((r.data.drop (a - base)).take 4, r.old)
      s.tell (.history p.gran p.v (homeSlice a) (s.bytes a 4) (s.versionStamp base) writes kept)

-- Registers and queues (R399, R402, R409) ---------------------------------------------------------------------------------------------------------

/-- A register of an entity's wave. -/
def State.debugReg (s : State) (v : View) : DebugReg → List Word
  | .v n ts => ts.map fun t => (v.wv.vLane n.toNat t.toNat).setWidth 64
  | .s n => [v.wv.sReg n.toNat]
  | .p n => [v.wv.pReg n.toNat]
  | .b n => [(v.wv.win n).base, BitVec.ofNat 64 (v.wv.win n).limit]
  | .f n => if n.toNat < 12 then [BitVec.ofNat 64 (v.wv.pending n.toNat)] else []
  | .h n => (List.range 4).map fun k => (v.gr.handle n).extractLsb' (64 * k) 64
  | .sys n => if (sysregPriv n.toNat).isSome then [s.sysreg v n.toNat] else []

/-- The `.g` stores of a region that its slices have not accepted: each is one entry (R233). -/
def State.sentStores (s : State) (g w : Nat) : List SqEntry :=
  let l := s.reqs.filter fun r => r.2.agent == .wave g w && r.2.slot.isSome
  (l.map (·.2.store)).eraseDups.map fun n =>
    { sp := .g
      items := sortBy (fun a b => a.thread ≤ b.thread) ((l.filter fun r => r.2.store = n).flatMap fun r =>
        r.2.items.map fun i => ⟨i.thread, if r.2.away.isSome then i.addr else s.dpaOf i.addr, i.data⟩)
      num := n }

/-- The stores of a wave that wait in its queue, in its order (R233, R402). -/
def State.debugStores (s : State) (g w : Nat) (wv : Wave) : List SqEntry :=
  sortBy (fun a b => a.num ≤ b.num) (wv.sq ++ s.sentStores g w)

/-- Bytes of a local space, as far as they have been written. -/
def Buf.shown (b : Buf) (off n : Nat) : List (Option Byte) :=
  (List.range n).map fun k => if b.allValid (off + k) 1 then some ((b.read (off + k) 1).headD 0) else none

-- The requests ---------------------------------------------------------------------------------------------------------------------------------

/-- What one request does. -/
def State.debug (s : State) : DebugReq → State
  | .attach =>
    if s.boot.mode = 0 then s.tell (.refused Cause.debugLocked)
    else ({ s with mbd := { s.mbd with attached := true } } : State).tell .done
  | .detach => s.detach
  | .load ctx sys root owned bytes => s.loadContext ctx sys root owned bytes
  | .launch ctx tag block counts => s.ifReach ctx fun s => s.debugLaunch ctx tag block counts
  | .breakAt ctx addr wave group =>
    s.ifWave wave.isSome ctx fun s =>
      ({ s with mbd := { s.mbd with breaks := s.mbd.breaks ++ [(ctx, addr, wave, group)] } } : State).tell .done
  | .delete ctx addr =>
    s.ifReach ctx fun s =>
      ({ s with mbd := { s.mbd with breaks := s.mbd.breaks.filter fun b => !(b.1 = ctx && b.2.1 = addr) } } : State).tell .done
  | .khold core u =>
    if s.mbd.attached && s.boot.mode ≠ 0 then ({ s with mbd := { s.mbd with kholds := (core.toNat, u) :: s.mbd.kholds } } : State).tell .done
    else s.tell (.refused Cause.debugLocked)
  | .continueAll => if s.mbd.attached then s.continueAll else s.tell (.refused Cause.debugLocked)
  | .continueWave w => s.ifFull fun s => (s.release fun k => k = w).tell .done
  | .readReg a wave reg =>
    s.ifEntity a fun s gr wv e => s.ifWave wave gr.ctx fun s => s.tell (.words (s.debugReg ⟨a, gr, wv, e, e.clause.getD ⟨0, 0⟩⟩ reg))
  | .readSpace group sp off n =>
    s.ifGroup group fun s _ gr =>
      if sp == .g then s.debugRead gr.ctx off n
      else if off.toNat + n ≤ (gr.buf sp).size then s.tell (.places ((gr.buf sp).shown off.toNat n))
      else s.tell (.refused (Cause.access (localKind sp) Cause.rBound))
  | .writeMem ctx addr x => s.ifReach ctx fun s => s.debugWrite ctx addr x
  | .preempt group => s.ifGroup group fun s g gr => s.debugSave g gr
  | .resume group => s.ifGroup group fun s g gr => if gr.state == .swapped then (s.makeEligible g).tell .done else s.tell (.refused Cause.ctxBad)
  | .replay a =>
    s.ifEntity a fun s gr _ e =>
      if gr.state == .running && !gr.saving && e.fault.isSome then (s.replay a).tell .done else s.tell (.refused Cause.ctxBad)
  | .resumeAt a hdr => s.ifEntity a fun s _ _ e => if e.fault.isSome then (s.resumeAt a e hdr).tell .done else s.tell (.refused Cause.ctxBad)
  | .endFault a =>
    s.ifEntity a fun s _ _ e =>
      match e.terminal with
      | some f => (s.endGroup a.g f.2).tell .done
      | none => s.tell (.refused Cause.ctxBad)
  | .unmap ctx addr => s.ifReach ctx fun s => s.setPresent ctx addr false
  | .map ctx addr => s.ifReach ctx fun s => s.setPresent ctx addr true
  | .readMem ctx addr n => s.ifReach ctx fun s => s.debugRead ctx addr n
  | .storeQueue g w wave =>
    match s.group? g, s.wave? g w with
    | some gr, some wv => s.ifWave wave gr.ctx fun s => s.tell (.stores (s.debugStores g w wv))
    | _, _ => s.tell (.refused Cause.ctxBad)
  | .matrixQueue core =>
    if s.mbd.attached then
      s.tell (.commands ((s.cmds.filter fun c => c.2.queue = qMatrix && s.coreOfGroup c.2.g = core
        && ((s.group? c.2.g).map fun gr => s.reaches gr.ctx).getD false).map (·.2)))
    else s.tell (.refused Cause.debugLocked)
  | .timelines group => s.ifGroup group fun s _ gr => s.tell (.queues ((List.range 5).map gr.queue))
  | .image group => s.ifGroup group fun s g gr =>
    if gr.state == .swapped then s.tell (.image gr ((s.cmds.filter fun c => c.2.g = g && c.2.queue = qMatrix).map (·.2))) else s.tell (.refused Cause.ctxBad)
  | .history ctx addr => s.ifFull fun s => s.debugHistory ctx addr
  | .unit => s.ifFull fun s => s.tell (.unit s.slots)
  | .deque core =>
    let c := s.coreOf core
    let seen := match c.dqLaunch.bind fun l => Table.find s.launches l with
      | some l => s.reaches l.ctx
      | none => s.mbd.attached
    if seen then s.tell (.words (c.deque.map (·.word))) else s.tell (.refused Cause.debugLocked)
  | .dgWord sel => s.ifFull fun s => s.tell (.words [s.dgWord sel])
  | .whey k => s.ifFull fun s => s.tell (.log (s.stack k).log)
  | .rind page => s.ifFull fun s => s.tell (.words (s.rindOf page))
  | .control => if s.mbd.attached && s.boot.mode = 2 then s.tell (.control s.boot) else s.tell (.refused Cause.debugLocked)

/-- DEBUG_ACCESS (R330, R332, R399): no access is accepted during a reset (R377), and none before the last is complete (R413). -/
def execDebugAccess (r : DebugReq) (s : State) : Host.Outcome State Fault Refusal :=
  .next (if s.resetting then s
    else
      let s := s.settle
      if s.mbd.work.isSome then s
      else if s.debugOpen (debugUse r) then s.debug r
      else s.tell (.refused Cause.debugLocked))

end Sys2Proof.Machine
end

