-- ==== Sys2Proof/Machine/Fabric.lean ====
section
/-! DEFINITION. The fabric interface's receiving side (R240, R244, R261 to R265): flits in sequence, requests of other modules, the
answers to this module's own, retransmission, ports, and the domain's configuration. -/

namespace Sys2Proof.Machine

open Sys2Proof

-- Sequences (R262) --------------------------------------------------------------------------------------------------------

/-- One sequence number lies before another: 32-bit numbers wrap. -/
def seqBefore (a b : BitVec 32) : Bool := a != b && decide ((b - a).toNat < 2 ^ 31)

/-- The flits sent to a module that it has not acknowledged, after an acknowledgement. -/
def State.acknowledge (s : State) (m : BitVec 8) (ack : BitVec 32) : State :=
  let left := (Table.read s.fabric.unacked m.toNat []).filter fun f => !seqBefore f.seq ack
  { s with fabric := { s.fabric with unacked := Table.write s.fabric.unacked m.toNat left [] } }

/-- A flit of a module has been accepted. -/
def State.acceptFlit (s : State) (m : BitVec 8) : State :=
  { s with fabric := { s.fabric with accepted := Table.write s.fabric.accepted m.toNat (Table.read s.fabric.accepted m.toNat 0 + 1) 0 } }

/-- Put a flit on the wire again (R262). -/
def State.rewire (s : State) (f : Flit) : State := { s with fabric := { s.fabric with wire := f :: s.fabric.wire } }

-- Requests of other modules (R240, R261, R323) ------------------------------------------------------------------------------------

/-- The entry of a duplicate table for an atomic's identity (R240). -/
def State.dupOf (s : State) (m core : BitVec 8) (seq : BitVec 32) : Option Dup :=
  s.dups.find? fun d => d.module = m && d.core = core && d.seq = seq

/-- A slice's duplicate table is full, counting the atomics that wait at the slice (R240). -/
def State.dupFull (s : State) (slice : Nat) : Bool :=
  let waiting := s.reqs.filter fun r => homeSlice r.2.gran = slice && (match r.2.agent, r.2.kind with | .peer _ _ _, .atom _ _ => true | _, _ => false)
  1024 ≤ (s.dups.filter fun d => d.slice = slice).length + waiting.length

/-- A message asks for items of this module's memory for a context (R154, R228, R323): those a page refuses are refused, the
others become granule requests. -/
def State.peerRequest (s : State) (m : BitVec 8) (stream tag : Nat) (ctx : BitVec 12) (kind : ReqKind) (its : List ReqItem)
    (carried : Option Stamp) : State :=
  let why (i : ReqItem) : Option Nat := if s.ours i.addr then s.pageRefuses ctx i.addr else some Cause.rBound
  let s := its.foldl (fun s i => match why i with
    | some r => s.send m (.refusal tag i.num (Cause.access kind.access r))
    | none => s) s
  s.sendItems { agent := .peer m stream tag, ctx := ctx, launch := none, kind := kind, gran := 0, items := [], carried := carried }
    (its.filter fun i => (why i).isNone)

/-- Another module asks for new attributes of a page (R344): what the walk would refuse is refused. -/
def State.peerAttrs (s : State) (m : BitVec 8) (stream tag : Nat) (ctx : BitVec 12) (d : Nat) (x : Word) (big : Bool) (carried : Stamp) : State :=
  if !s.ours d then s.send m (.refusal tag 0 (Cause.access Cause.kLoad Cause.rBound))
  else if !(s.page (dpaPage d)).mapped then s.send m (.refusal tag 0 (Cause.access Cause.kLoad Cause.rNotPresent))
  else
    s.addReq {
      agent := .peer m stream tag
      ctx := ctx
      launch := none
      kind := .attrs x big
      gran := dpaPage d * 2 ^ 16
      items := []
      carried := some carried }

/-- The items of a message, numbered. -/
def readItems (l : List (BitVec 52 × Nat)) : List ReqItem :=
  l.zipIdx.map fun x => { thread := 0, byte := 0, addr := x.1.1.toNat, len := x.1.2, num := x.2 }
def writeItems (l : List (BitVec 52 × List Byte)) : List ReqItem :=
  l.zipIdx.map fun x => { thread := 0, byte := 0, addr := x.1.1.toNat, len := x.1.2.length, data := x.1.2, num := x.2 }

/-- Another module's interfaces have put their counts and broadcasts into a round (R165, R264). -/
def State.hear (s : State) (m : Nat) (a : Announce) : State :=
  { s with announced := Table.write s.announced m (Table.read s.announced m [] ++ [a]) [] }

-- Answers to this module's requests (R262, R263) --------------------------------------------------------------------------------

/-- The request that an answer is for: by its number, or by an atomic's identity (R240). -/
def State.answered (s : State) (tag : Nat) : Option (Nat × Req) :=
  s.reqs.find? fun r => r.2.away.isSome && r.2.held != some .unsent && (match r.2.kind with
    | .atom _ _ => (match r.2.agent with
      | .op g _ _ => atomTag (BitVec.ofNat 8 (s.coreOfGroup g)) (BitVec.ofNat 32 r.2.gran) = tag
      | _ => false)
    | _ => r.1 = tag)

/-- The flags that an atomic's operator raises on the value it has met (R95, R237). -/
def ReqKind.flagsOf (k : ReqKind) (i : ReqItem) (old : Word) : Flags :=
  match k with
  | .atom op ty => (atomVal op ty old i.x i.cmp).2
  | _ => 0

/-- One item of a request to another module has been answered or refused: with its last the request is done. -/
def State.itemDone (s : State) (id num : Nat) : State :=
  match Table.find s.reqs id with
  | some r =>
    let left := r.items.filter fun i => i.num ≠ num
    if left.isEmpty then s.dropReq id else { s with reqs := Table.insert s.reqs id { r with items := left } }
  | none => s

/-- Another module has answered to `sys.pgattr` (R344). -/
def OpBody.attrsAnswered (b : OpBody) (ok : Bool) : OpBody :=
  match b with
  | .pgattr va x .asked => .pgattr va x (.answered ok)
  | b => b

/-- An answer to one item has arrived: what was asked for is done. A load's line is kept in L1 as far as it has come (log 8). -/
def State.takeAnswer (s : State) (id : Nat) (r : Req) (i : ReqItem) (data : List Byte) (x : Stamp) : State :=
  let s := s.itemDone id i.num
  match r.agent with
  | .op g w o =>
    let fl := r.kind.flagsOf i (BitVec.ofNat 64 (ofBytes data))
    let s := s.modOp g w o fun y => { y.take i data with flags := y.flags ||| fl }
    match r.kind with
    | .asof _ => s
    | .atom _ _ => ((s.noteSeen g w x).noteStored g w x).dropFar (s.coreOfGroup g) i.addr i.len
    | .store => (s.noteStored g w x).dropFar (s.coreOfGroup g) i.addr i.len
    | .attrs _ _ => s.modOp g w o fun y => { y with body := y.body.attrsAnswered (data == [1]) }
    | .load => (s.noteSeen g w x).putL1 (s.coreOfGroup g) i.addr ⟨data, x, count (r.carried.getD 0)⟩
  | .wave g w => (s.noteStored g w x).dropFar (s.coreOfGroup g) i.addr i.len
  | .cmd c =>
    if r.kind.writes then
      ({ s with cmds := Table.modify s.cmds c fun k => { k with top := stampJoin k.top (some x) } }.countStored c { r with items := [i] } false).dropFar
        (s.coreOfAgent r.agent) i.addr i.len
    else { s with cmds := Table.modify s.cmds c fun k => { k with gathered := Table.insert k.gathered (gatherKey i.thread i.byte) data } }
  | _ => s

/-- The code of a refusal in an engine command (R139, R263). -/
def State.engineCode (s : State) (id : Nat) (c : Cause) : Cause :=
  if c = Cause.linkFail then c else s.refusalOf id (c.extractLsb' 0 3).toNat

/-- A read of an engine command has been refused: a page that is not present suspends a copy, gather or scatter, another reason
skips the piece (R139); a collective goes on with a free value (log 21); a task is broken (R146). -/
def State.refuseRead (s : State) (id : Nat) (i : ReqItem) (c : Cause) : State :=
  let code := s.engineCode id c
  match s.job id with
  | some j =>
    if j.c.landed.contains i.thread then s
    else if c != Cause.linkFail && c.extractLsb' 0 3 == 0 then s.suspend id j.gr i.x
    else (s.cmdError id code).skipPiece id j i.thread (s.pieceRow id j i.thread) true
  | none =>
    match s.tasks.find? fun t => t.2.work = some id with
    | some (t, _) => s.breakTask t (asTask code)
    | none =>
      let free := toBytes (Config.freeValue s.tick (8 * i.thread + i.byte)).toNat i.len
      (s.cmdError id code).modCmd id fun k => { k with gathered := Table.insert k.gathered (gatherKey i.thread i.byte) free }

/-- A refusal has arrived, or no answer can (R263): lane accesses fault, a retired store is reported (log 29), a command's error is
recorded. -/
def State.takeRefusal (s : State) (id : Nat) (r : Req) (i : ReqItem) (c : Cause) : State :=
  let s := s.itemDone id i.num
  match r.agent with
  | .op g w o => s.modOp g w o fun y => y.deny i c
  | .wave _ _ => s.record .writeDropped c r.ctx 0 0 (BitVec.ofNat 64 i.addr)
  | .task t => s.refuseTask t c
  | .cmd k => if r.kind.writes then (s.cmdError k (s.engineCode k c)).countStored k { r with items := [i] } true else s.refuseRead k i c
  | _ => s

/-- Another module refuses an access with a code of its kind: a reason that memory gives (R228, R354), or a cause of R174. A message with
another code is no module's, and it is ignored (DEDUCED, log 114). -/
def ReqKind.mayRefuse (k : ReqKind) (c : Cause) : Bool :=
  ([Cause.rNotPresent, Cause.rPermission, Cause.rBound, Cause.rUncorrectable].any fun r => c == Cause.access k.access r) ||
  (match k with
   | .asof _ => c = Cause.notVersioned || c = Cause.stampWindow || c = Cause.histReclaimed
   | _ => false)

/-- Apply an answer or a refusal to the item of a request that it is for; one that is for none is ignored. -/
def State.onAnswer (s : State) (tag num : Nat) (f : State → Nat → Req → ReqItem → State) : State :=
  match s.answered tag with
  | some (id, r) =>
    match r.items.find? fun i => i.num = num with
    | some i => f s id r i
    | none => s
  | none => s

/-- The identity that an atomic's number stands for is acknowledged, so that its duplicate entry retires (R240). -/
def State.ackAtom (s : State) (m : BitVec 8) (tag : Nat) : State :=
  if 2 ^ 64 ≤ tag then s.send m (.atomAck (BitVec.ofNat 8 (tag / 2 ^ 32)) (BitVec.ofNat 32 tag)) else s

-- Flits (R262) -------------------------------------------------------------------------------------------------------------------

/-- What a flit accepted in sequence does. -/
def State.deliverFlit (s : State) (f : Flit) : State :=
  match f.body with
  | .readReq tag stream ctx l carried => s.peerRequest f.src stream tag ctx .load (readItems l) (some carried)
  | .asofReq tag stream ctx l t carried => s.peerRequest f.src stream tag ctx (.asof t) (readItems l) (some carried)
  | .writeReq tag stream ctx l carried => s.peerRequest f.src stream tag ctx .store (writeItems l) (some carried)
  | .atomReq core seq stream ctx dpa op ty x cmp carried =>
    match s.dupOf f.src core seq with
    | some d => s.send f.src (.answer (atomTag core seq) [(0, toBytes d.old.toNat ty.bytes)] d.stamp)
    | none =>
      s.peerRequest f.src stream (atomTag core seq) ctx (.atom op ty)
        [{ thread := 0, byte := 0, addr := dpa.toNat, len := ty.bytes, x := x, cmp := cmp }] (some carried)
  | .attrReq tag stream ctx d x big carried => s.peerAttrs f.src stream tag ctx d.toNat x big carried
  | .atomAck core seq => { s with dups := s.dups.filter fun d => !(d.module = f.src && d.core = core && d.seq = seq) }
  | .answer tag l x => (l.foldl (fun s d => s.onAnswer tag d.1 fun s id r i => s.takeAnswer id r i d.2 x) s).ackAtom f.src tag
  | .refusal tag num c => s.onAnswer tag num fun s id r i => if r.kind.mayRefuse c then s.takeRefusal id r i c else s
  | .holdReq tag ctx t =>
    let (r, s) := s.placeHold ctx t
    match r with
    | .ok x => s.send f.src (.holdAnswer (tagActor tag) x 0)
    | .error c => s.send f.src (.holdAnswer (tagActor tag) 0 c)
  | .holdDrop ctx slot => s.dropHold ctx slot.toNat
  | .holdRevoke ctx slot => s.revokeHold ctx slot.toNat
  | .holdAnswer a x c =>
    if c = 0 || c = Cause.holdFull || c = Cause.stampWindow || c = Cause.histReclaimed then
      s.modEnt a fun e => if e.stage = 1 then { e with answer := some (x, c) } else e
    else s
  | .collective ws data => s.hearCollective ws data
  | .participate e => s.takeParticipant f.src e
  | .participated tag status => if Cause.produced status then s.endAbroad f.src tag status else s
  | .announce c l => s.hear f.src.toNat ⟨c, l⟩
  | .closed => { s with unclosed := Table.write s.unclosed f.src.toNat (Table.read s.unclosed f.src.toNat 0 - 1) 0 }

/-- A request that finds its slice's duplicate table full is refused at the link layer: its flit is not accepted (R240). So is a
COLLECTIVE whose group's queue is full. -/
def State.linkRefuses (s : State) (f : Flit) : Bool :=
  match f.body with
  | .atomReq core seq _ _ dpa _ _ _ _ _ => (s.dupOf f.src core seq).isNone && s.dupFull (homeSlice (dpaLocal dpa.toNat))
  | .participate e => s.collectiveFull ⟨subWords e⟩
  | _ => false

/-- The number under which a request is answered. -/
def requestTag : Payload → Option Nat
  | .readReq tag _ _ _ _ | .asofReq tag _ _ _ _ _ | .writeReq tag _ _ _ _ | .attrReq tag _ _ _ _ _ _ => some tag
  | .atomReq core seq _ _ _ _ _ _ _ _ => some (atomTag core seq)
  | _ => none

/-- A message answers a request. -/
def answersReq (f q : Payload) : Bool :=
  match f with
  | .answer t _ _ | .refusal t _ _ => requestTag q == some t
  | .holdAnswer a _ _ => (match q with | .holdReq tag _ _ => tagActor tag == a | _ => false)
  | _ => false

/-- The answers to a request that are sent and not acknowledged. -/
def State.answersTo (s : State) (m : BitVec 8) (q : Payload) : List Flit :=
  (Table.read s.fabric.unacked m.toNat []).filter fun f => answersReq f.body q

/-- A duplicate is discarded; what has been answered to the request is sent again (R240, R262): as it was while it is not
acknowledged, an atomic's answer from the duplicate table, and a store's acknowledgement anew. -/
def State.duplicate (s : State) (f : Flit) : State :=
  let again := s.answersTo f.src f.body
  let s' := again.foldl State.rewire s
  match f.body with
  | .writeReq tag n _ l _ =>
    if !again.isEmpty || s.reqs.any fun r => r.2.agent == Agent.peer f.src n tag then s'
    else
      let x := ((l.head?.map fun i => s.versionStamp (s.granOf (dpaLocal i.1.toNat)))).getD 0
      s.send f.src (.answer tag (l.zipIdx.map fun i => (i.2, [])) x)
  | .atomReq core seq _ _ _ _ ty _ _ _ =>
    match s.dupOf f.src core seq with
    | some d => s.send f.src (.answer (atomTag core seq) [(0, toBytes d.old.toNat ty.bytes)] d.stamp)
    | none => s'
  | _ => s'

/-- FLIT_RECEIVE (R262): a flit of another module of the domain for this one; out of order it is discarded. -/
def execFlitReceive (f : Flit) (s : State) : Host.Outcome State Fault Refusal :=
  .next (if s.resetting || f.dst ≠ s.fabric.index || f.src = s.fabric.index || !s.inDomain f.src.toNat then s
    else
      let s := s.acknowledge f.src f.ack
      let next := BitVec.ofNat 32 (Table.read s.fabric.accepted f.src.toNat 0)
      if f.seq = next then (if s.linkRefuses f then s else (s.acceptFlit f.src).deliverFlit f)
      else if seqBefore f.seq next then s.duplicate f
      else s)

-- Ports and the domain (R261, R263, R377) --------------------------------------------------------------------------------------

/-- Change a port. -/
def State.modPort (s : State) (p : Nat) (f : Port → Port) : State :=
  { s with fabric := { s.fabric with ports := Table.write s.fabric.ports p (f (Table.read s.fabric.ports p {})) {} } }

/-- What is asked of a module to which no route remains is refused with `LINK_FAIL` (R263). -/
def State.failAway (s : State) : State :=
  let s := s.mbx.flights.foldl (fun s f => match f.2 with
    | .abroad m => if s.routeUp m.toNat then s else s.endAbroad m f.1 Cause.linkFail
    | _ => s) s
  s.reqs.foldl (fun s p =>
    match p.2.away with
    | some m => if s.routeUp m.toNat then s else p.2.items.foldl (fun s i => s.takeRefusal p.1 p.2 i Cause.linkFail) s
    | none => s) s

/-- FLIT_RETRANSMIT (R262): the oldest flit to a module that is not acknowledged is sent again, by a route that remains; where
none does, what is asked of the module is refused (R263). -/
def execFlitRetransmit (dst : BitVec 8) (s : State) : Host.Outcome State Fault Refusal :=
  .next (if s.resetting then s
    else if !s.routeUp dst.toNat then s.failAway
    else
      match Table.read s.fabric.unacked dst.toNat [] with
      | f :: _ => s.rewire f
      | [] => s)

/-- PORT_FAIL (R263): a port whose flits have failed 8 consecutive times. -/
def execPortFail (port : Nat) (s : State) : Host.Outcome State Fault Refusal :=
  .next (if 12 ≤ port then s else ((s.modPort port fun p => { p with failed := true }).raiseVector 4).failAway)

/-- FABRIC_LINK_TRAINED (R377): the port carries traffic again. -/
def execFabricLinkTrained (port : Nat) (s : State) : Host.Outcome State Fault Refusal :=
  .next (if 12 ≤ port then s else s.modPort port fun _ => { trained := true, failed := false })

/-- DOMAIN_CONFIGURATION (R261): the host writes the module's index and its route table. -/
def execDomainConfiguration (index : BitVec 8) (routes : List (BitVec 8 × List Nat)) (s : State) : Host.Outcome State Fault Refusal :=
  .next { s with fabric := { s.fabric with
      index := index
      routes := routes.foldl (fun t r => Table.insert t r.1.toNat r.2) [] } }

end Sys2Proof.Machine
end

