-- ==== Sys2Proof/Machine/Security.lean ====
section
/-! DEFINITION. Identity, firmware and attestation (R327 to R329): the measurements, and the SPDM responder. -/

namespace Sys2Proof.Machine

open Sys2Proof

-- Measurements (R328) -------------------------------------------------------------------------------------------------------

/-- The firmware image that the module holds. -/
def Boot.held (b : Boot) : List Byte := b.image.getD Config.firstImage

/-- The number of a security state in measurement 3 (DESIGN CHOICE, log 27). -/
def Security.byte : Security → Byte
  | .unprovisioned => 0
  | .secure => 1
  | .failed => 2

/-- The 8 bytes that measurement 3 digests: security state, debug mode and security version (R328, log 27). -/
def Boot.stateBytes (b : Boot) : List Byte := b.security.byte :: BitVec.ofNat 8 b.mode :: toBytes (Config.imageVersion b.held) 6

/-- What the boot ROM measures, by index (R328). -/
def Boot.measure (b : Boot) : List (Nat × List Byte) :=
  [(1, Config.sha256 Config.bootRom), (2, Config.sha256 b.held), (3, Config.sha256 b.stateBytes)]

/-- The measurements a request asks for: one, all of them with 255, none but their count with 0 (PRESUMED, SPDM, log 28). -/
def Boot.measured (b : Boot) (idx : Nat) : List (Nat × List Byte) :=
  if idx = 255 then b.measurements else b.measurements.filter fun m => m.1 = idx

-- The responder (R329) -----------------------------------------------------------------------------------------------------------

/-- Answer an SPDM request. -/
def State.spdmAnswer (s : State) (x : SpdmAnswer) : State :=
  { s with boot := { s.boot with spdm := { s.boot.spdm with answers := x :: s.boot.spdm.answers } } }

/-- Change the connection. -/
def State.modSpdm (s : State) (f : Spdm → Spdm) : State := { s with boot := { s.boot with spdm := f s.boot.spdm } }

/-- An SPDM request reaches the responder: not during a reset; in state Failed there is no attestation, and every request is
answered with an error (R332, log 28). -/
def State.spdm (s : State) (f : State → State) : Host.Outcome State Fault Refusal :=
  .next (if s.resetting then s else if s.boot.security == .failed then s.spdmAnswer .error else f s)

/-- A request that needs the identity key: an Unprovisioned module answers with an error (R327, R332). -/
def State.keyed (s : State) (f : State → State) : State := if s.boot.security == .secure then f s else s.spdmAnswer .error

/-- GET_VERSION (R329): SPDM 1.2 and 1.3. -/
def execGetVersion (s : State) : Host.Outcome State Fault Refusal := s.spdm fun s => s.spdmAnswer (.version [(1, 2), (1, 3)])

/-- GET_CAPABILITIES (R329). -/
def execGetCapabilities (s : State) : Host.Outcome State Fault Refusal := s.spdm fun s => s.spdmAnswer .capabilities

/-- The offered sets hold ECDSA P-256, SHA-256, secp256r1 and AES-256-GCM, by the bits of SPDM (PRESUMED, log 28). -/
def algorithmsOk (sig hash kex aead : Nat) : Bool := sig.testBit 4 && hash.testBit 0 && kex.testBit 3 && aead.testBit 1

/-- NEGOTIATE_ALGORITHMS (R329): any other algorithm is answered with an error. -/
def execNegotiateAlgorithms (sig hash kex aead : Nat) (s : State) : Host.Outcome State Fault Refusal :=
  s.spdm fun s =>
    if algorithmsOk sig hash kex aead then (s.modSpdm fun p => { p with algorithms := true }).spdmAnswer .algorithms
    else s.spdmAnswer .error

/-- GET_DIGESTS (R329): of slot 0. -/
def execGetDigests (s : State) : Host.Outcome State Fault Refusal :=
  s.spdm fun s => s.keyed fun s => s.spdmAnswer (.digests (Config.sha256 Config.certChain))

/-- GET_CERTIFICATE (R327, R329): slot 0 alone holds a chain. -/
def execGetCertificate (slot : Nat) (off len : Nat) (s : State) : Host.Outcome State Fault Refusal :=
  s.spdm fun s => s.keyed fun s =>
    if slot = 0 then s.spdmAnswer (.certificate ((Config.certChain.drop off).take len) (Config.certChain.length - (off + len)))
    else s.spdmAnswer .error

/-- CHALLENGE (R329): signed by the identity key, refused when Unprovisioned. -/
def execChallenge (slot : Nat) (nonce : List Byte) (s : State) : Host.Outcome State Fault Refusal :=
  s.spdm fun s => s.keyed fun s =>
    if slot = 0 then
      s.spdmAnswer (.challenge (Config.sign (Config.sha256 Config.certChain ++ nonce ++ (s.boot.measurements.flatMap (·.2)))))
    else s.spdmAnswer .error

/-- GET_MEASUREMENTS (R328, R329): without the identity key they are not signed (R332). -/
def execGetMeasurements (idx : Nat) (nonce : List Byte) (s : State) : Host.Outcome State Fault Refusal :=
  s.spdm fun s =>
    let l := s.boot.measured idx
    if l.isEmpty && idx ≠ 0 then s.spdmAnswer .error
    else
      let sig := if s.boot.security == .secure then Config.sign (l.flatMap (fun m => BitVec.ofNat 8 m.1 :: m.2) ++ nonce) else []
      s.spdmAnswer (.measurements l sig)

/-- KEY_EXCHANGE (R329): once the algorithms are settled; it starts the handshake of a session. -/
def execKeyExchange (exchange : List Byte) (s : State) : Host.Outcome State Fault Refusal :=
  s.spdm fun s => s.keyed fun s =>
    if s.boot.spdm.algorithms then
      let secret := Config.exchange s.tick exchange
      (s.modSpdm fun p => { p with session := some secret, secured := false }).spdmAnswer
        (.keyExchange (Config.sha256 secret) (Config.sign (exchange ++ Config.sha256 secret)))
    else s.spdmAnswer .error

/-- FINISH (R329): the handshake ends where the verification data agrees; else the session is not established. The IDE keys that are
programmed inside the session, where the link's mode has IDE (R256), are taken here: R329 names no request for them (log 28). -/
def execFinish (verify : List Byte) (s : State) : Host.Outcome State Fault Refusal :=
  s.spdm fun s =>
    match s.boot.spdm.session with
    | some k =>
      if !s.boot.spdm.secured && Config.finishVerifies k verify then
        let keys := if s.link.ide.isSome then Config.ideKeys s.tick else none
        (s.modSpdm fun p => { p with secured := true, ide := keys.or p.ide }).spdmAnswer .finish
      else s.spdmAnswer .error
    | none => s.spdmAnswer .error

/-- KEY_UPDATE (R329): the session goes on under keys derived from its own. -/
def execKeyUpdate (s : State) : Host.Outcome State Fault Refusal :=
  s.spdm fun s =>
    if s.boot.spdm.secured then (s.modSpdm fun p => { p with session := p.session.map Config.sha256 }).spdmAnswer .keyUpdate
    else s.spdmAnswer .error

/-- END_SESSION (R329). -/
def execEndSession (s : State) : Host.Outcome State Fault Refusal :=
  s.spdm fun s =>
    if s.boot.spdm.secured then (s.modSpdm fun p => { p with session := none, secured := false }).spdmAnswer .endSession
    else s.spdmAnswer .error

/-- SPDM_UNSUPPORTED (R329): any other request is answered with an error. -/
def execSpdmUnsupported (_code : Nat) (s : State) : Host.Outcome State Fault Refusal := s.spdm fun s => s.spdmAnswer .error

end Sys2Proof.Machine
end

