-- ==== Sys2Proof/Machine/Reset.lean ====
section
/-! DEFINITION. Machine faults (R331, R374), warm and cold reset with their completion (R375 to R377), and the boot (R328, R330). -/

namespace Sys2Proof.Machine

open Sys2Proof

-- Machine faults (R374) ------------------------------------------------------------------------------------------------------

/-- A POWER command in progress when the module stops completes with `MACHINE`, as every command does then (R374). -/
def State.stopPower (s : State) : State :=
  s.mbx.flights.foldl (fun s f =>
    match f.2 with
    | .power _ _ _ => { s with mbx := { s.mbx with flights := s.mbx.flights.erase f } }.complete f.1 Cause.machine
    | _ => s) s

/-- The module stops (R374): the fault is latched, vector 1 is raised and a record of kind 6 is posted. A further one changes
nothing. -/
def State.stopModule (s : State) : State :=
  if s.machine.isSome then s
  else (({ s with machine := some Cause.machine }.raiseVector 1).record .machine Cause.machine 0 0 0 0).stopPower

/-- MACHINE_FAULT (R370, R374). -/
def execMachineFault (s : State) : Host.Outcome State Fault Refusal := .next s.stopModule

/-- THERMAL_TRIP (R331): in any power state. -/
def execThermalTrip (s : State) : Host.Outcome State Fault Refusal := .next s.stopModule

-- Warm reset (R375, R376) ------------------------------------------------------------------------------------------------------

/-- The largest count stored with a granule or a page of the module (R376), as the slices' sweeps have left it (R175). -/
def State.storedCount (s : State) : BitVec 50 :=
  let swept := s.sweeps.map (·.2)
  let grans := s.gstamps.map fun x => count (s.ownStamp x.1)
  let pages := s.pages.flatMap fun p => count (s.pageStamp (2 ^ 16 * p.1)) :: (p.2.base.map count).toList
  let all := swept ++ grans ++ pages
  all.foldl countMax (all.headD 0)

/-- The largest count of the module's slices. -/
def State.largestCount (s : State) : BitVec 50 := (List.range 64).foldl (fun c k => countMax c (s.sliceCount k)) (s.sliceCount 0)

/-- The count that every slice takes on the exit of a warm reset (R376): the counts written on entry, or, where a machine fault
has prevented that, what a scan of the stored stamps finds. -/
def State.startingCount (s : State) : BitVec 50 := (if s.machine.isSome then s.storedCount else s.largestCount) + 1

/-- A stack after a warm reset (R375, R376): its sizes are kept, every record is reclaimed, and H is the present. -/
def Stack.warm (st : Stack) (h : Stamp) : Stack where
  whey := st.whey
  rind := st.rind
  next := st.next
  base := st.next
  h := h
  hRound := h
  corrected := st.corrected
  uncorrectable := st.uncorrectable

/-- What a granule's bytes are after a warm reset, where its slice line was modified: its media may not have received them
(R346, R375, log 11). -/
def State.mediaBytes (s : State) : Table Byte :=
  s.dirty.foldl (fun m g => if Config.pick s.tick (2 ^ 66 + g.1) then m else writeBytes m g.1 g.2) s.mem

/-- A port that has not been trained (R377). -/
def Fabric.untrained (f : Fabric) : Fabric := { f with ports := [], heard := [] }

/-- What a warm reset leaves of the firmware and attestation (R375): keys and the connection are lost. -/
def Boot.warm (b : Boot) : Boot := { b with spdm := { answers := b.spdm.answers }, measurements := [] }

/-- A warm reset begins (R375, R376): what it keeps, and `State.reset` for the rest. -/
def State.warmReset (s : State) : State :=
  let c := s.startingCount
  { State.reset with
    tick := s.tick
    actor := s.actor
    nextId := s.nextId
    mem := s.mediaBytes
    pages := Table.mapValues s.pages fun _ p => { p with migrating := false }
    gstamps := s.gstamps
    glinks := s.glinks
    flips := s.flips
    counts := (List.range 64).foldl (fun t k => Table.write t k c 0) []
    sweeps := s.sweeps
    sweptAt := s.sweptAt
    stackTable := (List.range 16).foldl (fun t k => Table.write t k ((s.stack k).warm (mkStamp c (s.originOf (4 * k)))) {}) []
    cores := s.cores.filterMap fun k => if k.2.seq = 0 then none else some (k.1, { seq := k.2.seq })
    round := s.round
    hostMem := s.hostMem
    hostSeen := s.hostSeen
    msix := s.msix
    boot := s.boot.warm
    fabric := s.fabric.untrained
    warmResets := s.warmResets + 1
    coldResets := s.coldResets
    link := s.link }

/-- WARM_RESET (R375): a write of 1 to FWGO, or the firmware's own. -/
def execWarmReset (s : State) : Host.Outcome State Fault Refusal := .next (if s.resetting then s else s.warmReset)

/-- The bytes of the host's memory. -/
def State.hostBytes (s : State) (a n : Nat) : List Byte := (List.range n).map fun k => Table.read s.hostMem (a + k) 0

/-- FWGO (R328): a write of 1 starts a warm reset with the image at FWADDR and FWLEN, in every state. -/
def execFwgo (v : Word) (s : State) : Host.Outcome State Fault Refusal :=
  .next (if v = 1 && !s.resetting then
      let s := { s with boot := { s.boot with image := some (s.hostBytes s.boot.fwaddr.toNat s.boot.fwlen.toNat) } }
      s.warmReset
    else s)

/-- PROVISIONING (R327): the identity key is generated and the module is Secure; it cannot be undone. Cold resets count from it (R379).
It passes through a warm reset, at whose boot the debug mode is judged anew, so that no context from before remains in Secure (R332,
DESIGN CHOICE, log 108). -/
def execProvisioning (s : State) : Host.Outcome State Fault Refusal :=
  .next (if s.boot.provisioned then s
    else
      let b := { s.boot with
        provisioned := true
        security := if s.boot.security == .unprovisioned then .secure else s.boot.security }
      let t : State := { s with boot := b }
      let t := if s.resetting then t else t.warmReset
      { t with coldResets := 0 })

-- Cold reset (R375) ------------------------------------------------------------------------------------------------------------

/-- What a cold reset keeps of the firmware: identity, security state, image and fuses (R375); the debug mode is D0 (log 6). -/
def Boot.cold (b : Boot) : Boot where
  security := b.security
  provisioned := b.provisioned
  image := b.image
  floor := b.floor
  spdm := { answers := b.spdm.answers }

/-- COLD_RESET (R375): power-on or the host link's fundamental reset. -/
def execColdReset (s : State) : Host.Outcome State Fault Refusal :=
  .next { State.reset with
    tick := s.tick
    actor := s.actor
    nextId := s.nextId
    hostMem := s.hostMem
    hostSeen := s.hostSeen
    msix := s.msix
    boot := s.boot.cold
    coldResets := s.coldResets + 1 }

-- Completion (R328, R330, R377) --------------------------------------------------------------------------------------------------

/-- The boot ROM accepts the image (R328): its signature verifies and its security version is not below the fused counter. -/
def Boot.accepts (b : Boot) : Bool := Config.imageVerifies (b.image.getD Config.firstImage) && decide (b.floor ≤ Config.imageVersion (b.image.getD Config.firstImage))

/-- The debug mode in force after the boot (R330): the one requested, where it is allowed; in Secure, D2 needs a token. -/
def Boot.allowedMode (b : Boot) : Nat := if b.wanted = 2 && b.provisioned && !b.unlocked then 0 else b.wanted

/-- The boot's outcome: the module's security state and debug mode, with its measurements, or Failed with D0 (R328, R330, R332). -/
def Boot.booted (b : Boot) (nonce : List Byte) : Boot :=
  if b.accepts then
    let b := { b with security := if b.provisioned then .secure else .unprovisioned, mode := b.allowedMode, nonce := nonce }
    { b with measurements := b.measure }
  else { b with security := .failed, mode := 0, nonce := nonce, measurements := [] }

/-- The training of the fabric links has finished (R377): every port that a route names has been trained, or has failed. -/
def Fabric.linked (f : Fabric) : Bool :=
  f.routes.all fun r => r.2.all fun p => let q := Table.read f.ports p {}; q.trained || q.failed

/-- RESET_COMPLETE (R377): every link is trained and the firmware measured; the module reports Memory_Active. In state Failed it is
off but for the boot ROM (R332). -/
def execResetComplete (mode : LinkMode) (s : State) : Host.Outcome State Fault Refusal :=
  .next (if !s.resetting || !s.fabric.linked then s
    else
      let b := s.boot.booted (Config.nonce s.tick)
      { s with
        resetting := false
        link := mode
        boot := b
        power := if b.security == .failed then 4 else 0 })

end Sys2Proof.Machine
end

