-- ==== Sys2Proof/Machine/Special.lean ====
section
/-! DEFINITION. The special functions of `vsf` (R81, R105): the exact value at the operand, rounded once. The reciprocal
and the reciprocal root are exact in integers; the others are enclosed to within 2^-236 in fixed point of 256 bits, and
where an enclosure does not decide the rounding the result is the free value `Config.hardCase` (log 12). -/

namespace Sys2Proof.Machine

open Sys2Proof

/-- binary32, the only type of `vsf` (R105). -/
def f32 : Fmt := fmtOf .f32

/-- 1 in fixed point: 256 bits below the point. -/
def fxOne : Nat := 2 ^ 256

/-- An exact magnitude in fixed point; every binary32 value fits exactly. -/
def fx (m : Nat) (e : Int) : Nat := if -256 ≤ e then m * 2 ^ (256 + e).toNat else 0

/-- A product in fixed point, rounded down. -/
def fxMul (a b : Nat) : Nat := a * b / fxOne

/-- Add the terms of a series: `p` is the power so far, multiplied by `q / d` each time, and divided by its odd index. -/
def atanSum (alternate : Bool) (num den : Nat) (p : Nat) (k : Nat) (acc : Int) : Nat → Int
  | 0 => acc
  | n + 1 =>
    let term : Int := p / (2 * k + 1)
    let acc := if alternate && k % 2 = 1 then acc - term else acc + term
    atanSum alternate num den (p * num / den) (k + 1) acc n

/-- ln 2 = 2 atanh(1/3). -/
def fxLn2 : Nat := 2 * (atanSum false 1 9 (fxOne / 3) 0 0 90).toNat

/-- pi = 16 atan(1/5) - 4 atan(1/239). -/
def fxPi : Nat := (16 * atanSum true 1 25 (fxOne / 5) 0 0 70 - 4 * atanSum true 1 57121 (fxOne / 239) 0 0 24).toNat

/-- The terms of the exponential series from index k on. -/
def expSum (y p k acc : Nat) : Nat → Nat
  | 0 => acc
  | n + 1 => expSum y (fxMul p y / (k + 1)) (k + 1) (acc + p) n

/-- e^y for 0 <= y < 1. -/
def fxExp (y : Nat) : Nat := expSum y fxOne 0 0 70

/-- The terms of the sine series. -/
def sinSum (y2 p k : Nat) (acc : Int) : Nat → Int
  | 0 => acc
  | n + 1 => sinSum y2 (fxMul p y2 / ((2 * k + 2) * (2 * k + 3))) (k + 1) (if k % 2 = 1 then acc - p else acc + p) n

/-- sin(pi u) for u at most 1/2. -/
def fxSinpi (u : Nat) : Nat :=
  let y := fxMul fxPi u
  (sinSum (fxMul y y) y 0 0 40).toNat

/-- log2 of g, 1 <= g < 2: ln g = 2 atanh((g - 1) / (g + 1)). -/
def fxLog2 (g : Nat) : Nat :=
  let t := (g - fxOne) * fxOne / (g + fxOne)
  2 * (atanSum false (fxMul t t) fxOne t 0 0 90).toNat * fxOne / fxLn2

/-- tanh y for 0 <= y: (1 - q) / (1 + q) with q = e^(-2y). -/
def fxTanh (y : Nat) : Nat :=
  let z := 2 * y
  let k := z / fxLn2
  let q := fxOne * fxOne / (fxExp (z - k * fxLn2) * 2 ^ k)
  (fxOne - q) * fxOne / (fxOne + q)

/-- Half the width of an enclosure. -/
def fxSlack : Nat := 2 ^ 20

/-- Round a value that is not exactly representable, known to within an enclosure, in units of 2^e: both ends must round
alike. -/
def roundEnclosed (minor : Nat) (x : BitVec 32) (s : Bool) (c : Nat) (e : Int) : FpRes :=
  let lo := f32.rne s ⟨c - fxSlack, e, true⟩
  let hi := f32.rne s ⟨c + fxSlack, e, true⟩
  if lo = hi then lo else ((Config.hardCase minor x).toNat, lo.2)

/-- `.rcp` (R81). -/
def rcpVal (x : BitVec 32) : FpRes :=
  f32.div (.fin false 1 0) (f32.decode x.toNat)

/-- `.rsqrt` (R81): the root of 1/x to 60 bits and more. -/
def rsqrtVal (x : BitVec 32) : FpRes :=
  match f32.decode x.toNat with
  | .nan q => f32.nan q
  | .inf s => if s then f32.nan false else (0, 0)
  | .fin s m e =>
    if m = 0 then (f32.signed s f32.infBits, flDZ)
    else if s then f32.nan false
    else
      let (m, e) := if e % 2 = 0 then (m, e) else (2 * m, e - 1)
      let n := 64 + Nat.log2 m
      let r := isqrt (2 ^ (2 * n) / m)
      f32.rne false ⟨r, -(e / 2) - n, r * r * m ≠ 2 ^ (2 * n)⟩

/-- `.exp2` (R81). -/
def exp2Val (x : BitVec 32) : FpRes :=
  match f32.decode x.toNat with
  | .nan q => f32.nan q
  | .inf s => (if s then 0 else f32.infBits, 0)
  | .fin s m e =>
    if m = 0 then f32.rne false ⟨1, 0, false⟩
    else if 9 ≤ (Nat.log2 m : Int) + e then f32.rne false ⟨1, if s then -400 else 400, s⟩
    else
      let v := fx m e
      let whole := v / fxOne
      let part := v % fxOne
      let (n, f) : Int × Nat := if !s then ((whole : Int), part) else if part = 0 then (-(whole : Int), 0) else (-(whole : Int) - 1, fxOne - part)
      if f = 0 then f32.rne false ⟨1, n, false⟩ else roundEnclosed 2 x false (fxExp (fxMul f fxLn2)) (n - 256)

/-- `.log2` (R81). -/
def log2Val (x : BitVec 32) : FpRes :=
  match f32.decode x.toNat with
  | .nan q => f32.nan q
  | .inf s => if s then f32.nan false else (f32.infBits, 0)
  | .fin s m e =>
    if m = 0 then (f32.signed true f32.infBits, flDZ)
    else if s then f32.nan false
    else
      let n : Int := (Nat.log2 m : Int) + e
      if m = 2 ^ Nat.log2 m then f32.rne (decide (n < 0)) ⟨n.natAbs, 0, false⟩
      else
        let l := fxLog2 (fx m (-(Nat.log2 m : Int)))
        if 0 ≤ n then roundEnclosed 3 x false (n.toNat * fxOne + l) (-256)
        else roundEnclosed 3 x true (n.natAbs * fxOne - l) (-256)

/-- A magnitude modulo 2 in fixed point: of a value below 2^23 in exponent. -/
def modTwo (m : Nat) (e : Int) : Nat := if 1 ≤ e then 0 else fx m e % (2 * fxOne)

/-- sin(pi r) or its like, for 0 < u < 1 in fixed point, folded to the first quadrant; 1 is exact at 1/2. -/
def sinpiFold (minor : Nat) (x : BitVec 32) (s : Bool) (u : Nat) : FpRes :=
  let u := if fxOne / 2 < u then fxOne - u else u
  if u = fxOne / 2 then f32.rne s ⟨1, 0, false⟩ else roundEnclosed minor x s (fxSinpi u) (-256)

/-- `.sinpi` (R81). -/
def sinpiVal (x : BitVec 32) : FpRes :=
  match f32.decode x.toNat with
  | .nan q => f32.nan q
  | .inf _ => f32.nan false
  | .fin s m e =>
    let r := modTwo m e
    if r % fxOne = 0 then (f32.signed s 0, 0) else sinpiFold 4 x (s != decide (fxOne ≤ r)) (r % fxOne)

/-- `.cospi` (R81): the sine of the angle from the quarter. -/
def cospiVal (x : BitVec 32) : FpRes :=
  match f32.decode x.toNat with
  | .nan q => f32.nan q
  | .inf _ => f32.nan false
  | .fin _ m e =>
    let r := modTwo m e
    let r := if fxOne < r then 2 * fxOne - r else r
    if r = fxOne / 2 then (0, 0)
    else if r < fxOne / 2 then sinpiFold 5 x false (fxOne / 2 - r)
    else sinpiFold 5 x true (r - fxOne / 2)

/-- `.tanh` (R81): beyond 64 as at 64, where it lies as close below 1. -/
def tanhVal (x : BitVec 32) : FpRes :=
  match f32.decode x.toNat with
  | .nan q => f32.nan q
  | .inf s => f32.rne s ⟨1, 0, false⟩
  | .fin s m e =>
    if m = 0 then (f32.signed s 0, 0)
    else roundEnclosed 6 x s (fxTanh (if 6 ≤ (Nat.log2 m : Int) + e then 64 * fxOne else fx m e)) (-256)

/-- The shared form of `vsf` (R105). -/
def special (g : Guard) (f : Flag) (d a : Reg) (s : State) (fn : BitVec 32 → FpRes) : Host.Outcome State Fault Refusal :=
  aluLong g f .f32 d (vHighs [(false, d), (false, a)]) s fun v t => fpWord (fn ((v.src s.tick .f32 a t).setWidth 32))

/-- VSF_RCP. -/
def execVsfRcp (g : Guard) (f : Flag) (d a : Reg) (s : State) : Host.Outcome State Fault Refusal := special g f d a s rcpVal

/-- VSF_RSQRT. -/
def execVsfRsqrt (g : Guard) (f : Flag) (d a : Reg) (s : State) : Host.Outcome State Fault Refusal := special g f d a s rsqrtVal

/-- VSF_EXP2. -/
def execVsfExp2 (g : Guard) (f : Flag) (d a : Reg) (s : State) : Host.Outcome State Fault Refusal := special g f d a s exp2Val

/-- VSF_LOG2. -/
def execVsfLog2 (g : Guard) (f : Flag) (d a : Reg) (s : State) : Host.Outcome State Fault Refusal := special g f d a s log2Val

/-- VSF_SINPI. -/
def execVsfSinpi (g : Guard) (f : Flag) (d a : Reg) (s : State) : Host.Outcome State Fault Refusal := special g f d a s sinpiVal

/-- VSF_COSPI. -/
def execVsfCospi (g : Guard) (f : Flag) (d a : Reg) (s : State) : Host.Outcome State Fault Refusal := special g f d a s cospiVal

/-- VSF_TANH. -/
def execVsfTanh (g : Guard) (f : Flag) (d a : Reg) (s : State) : Host.Outcome State Fault Refusal := special g f d a s tanhVal

end Sys2Proof.Machine
end

