-- ==== Sys2Proof/Machine/Dispatch.lean ====
section
/-! DEFINITION. The meaning of every instruction and event: one arm per constructor of `Instr`. -/

namespace Sys2Proof.Machine

open Sys2Proof

def exec (i : Instr) (s : State) : Host.Outcome State Fault Refusal :=
  match i with
  | .vadd g sat ty d a b => Sys2Proof.Machine.execVadd g sat ty d a b s
  | .vaddImm g ty d a imm => Sys2Proof.Machine.execVaddImm g ty d a imm s
  | .vsub g sat ty d a b => Sys2Proof.Machine.execVsub g sat ty d a b s
  | .vsubImm g ty d a imm => Sys2Proof.Machine.execVsubImm g ty d a imm s
  | .vmul g mode ty d a b => Sys2Proof.Machine.execVmul g mode ty d a b s
  | .vmulImm g ty d a imm => Sys2Proof.Machine.execVmulImm g ty d a imm s
  | .vmin g ty d a b => Sys2Proof.Machine.execVmin g ty d a b s
  | .vminImm g ty d a imm => Sys2Proof.Machine.execVminImm g ty d a imm s
  | .vmax g ty d a b => Sys2Proof.Machine.execVmax g ty d a b s
  | .vmaxImm g ty d a imm => Sys2Proof.Machine.execVmaxImm g ty d a imm s
  | .vfma g ty d a b c => Sys2Proof.Machine.execVfma g ty d a b c s
  | .vdiv g f ty d a b => Sys2Proof.Machine.execVdiv g f ty d a b s
  | .vsqrt g f ty d a => Sys2Proof.Machine.execVsqrt g f ty d a s
  | .vsfRcp g f d a => Sys2Proof.Machine.execVsfRcp g f d a s
  | .vsfRsqrt g f d a => Sys2Proof.Machine.execVsfRsqrt g f d a s
  | .vsfExp2 g f d a => Sys2Proof.Machine.execVsfExp2 g f d a s
  | .vsfLog2 g f d a => Sys2Proof.Machine.execVsfLog2 g f d a s
  | .vsfSinpi g f d a => Sys2Proof.Machine.execVsfSinpi g f d a s
  | .vsfCospi g f d a => Sys2Proof.Machine.execVsfCospi g f d a s
  | .vsfTanh g f d a => Sys2Proof.Machine.execVsfTanh g f d a s
  | .vcvt g sat rm dty sty d a => Sys2Proof.Machine.execVcvt g sat rm dty sty d a s
  | .vand g ty d a b => Sys2Proof.Machine.execVand g ty d a b s
  | .vandImm g ty d a imm => Sys2Proof.Machine.execVandImm g ty d a imm s
  | .vor g ty d a b => Sys2Proof.Machine.execVor g ty d a b s
  | .vorImm g ty d a imm => Sys2Proof.Machine.execVorImm g ty d a imm s
  | .vxor g ty d a b => Sys2Proof.Machine.execVxor g ty d a b s
  | .vxorImm g ty d a imm => Sys2Proof.Machine.execVxorImm g ty d a imm s
  | .vshl g ty d a b => Sys2Proof.Machine.execVshl g ty d a b s
  | .vshlImm g ty d a imm => Sys2Proof.Machine.execVshlImm g ty d a imm s
  | .vshr g ty d a b => Sys2Proof.Machine.execVshr g ty d a b s
  | .vshrImm g ty d a imm => Sys2Proof.Machine.execVshrImm g ty d a imm s
  | .vbitPopc g ty d a => Sys2Proof.Machine.execVbitPopc g ty d a s
  | .vbitClz g ty d a => Sys2Proof.Machine.execVbitClz g ty d a s
  | .vbitCtz g ty d a => Sys2Proof.Machine.execVbitCtz g ty d a s
  | .vbitRev g ty d a => Sys2Proof.Machine.execVbitRev g ty d a s
  | .vsel g ty d a b pk => Sys2Proof.Machine.execVsel g ty d a b pk s
  | .vcmp g uni cond ty pd a b => Sys2Proof.Machine.execVcmp g uni cond ty pd a b s
  | .vpredAnd g pd pa pb => Sys2Proof.Machine.execVpredAnd g pd pa pb s
  | .vpredOr g pd pa pb => Sys2Proof.Machine.execVpredOr g pd pa pb s
  | .vpredXor g pd pa pb => Sys2Proof.Machine.execVpredXor g pd pa pb s
  | .vpredNot g pd pa => Sys2Proof.Machine.execVpredNot g pd pa s
  | .vpredMov g pd pa => Sys2Proof.Machine.execVpredMov g pd pa s
  | .vmov g ty d a => Sys2Proof.Machine.execVmov g ty d a s
  | .vmovImm g ty d imm => Sys2Proof.Machine.execVmovImm g ty d imm s
  | .shflIdx g z rel ty d a b => Sys2Proof.Machine.execShflIdx g z rel ty d a b s
  | .shflRel g z rel ty d a b => Sys2Proof.Machine.execShflRel g z rel ty d a b s
  | .scan g op excl ty d a => Sys2Proof.Machine.execScan g op excl ty d a s
  | .lred g op ty d a => Sys2Proof.Machine.execLred g op ty d a s
  | .voteAll g pd pa => Sys2Proof.Machine.execVoteAll g pd pa s
  | .voteAny g pd pa => Sys2Proof.Machine.execVoteAny g pd pa s
  | .voteBallot g d pa k => Sys2Proof.Machine.execVoteBallot g d pa k s
  | .ld g f sp ty d win off => Sys2Proof.Machine.execLd g f sp ty d win off s
  | .st g sp ty win off a => Sys2Proof.Machine.execSt g sp ty win off a s
  | .ldAsof g f ty d win off t => Sys2Proof.Machine.execLdAsof g f ty d win off t s
  | .atomG g f op sc prm ty d a win off => Sys2Proof.Machine.execAtomG g f op sc prm ty d a win off s
  | .atomSp g f op sc prm ty d a off => Sys2Proof.Machine.execAtomSp g f op sc prm ty d a off s
  | .atomnG g f op sc ty a win off => Sys2Proof.Machine.execAtomnG g f op sc ty a win off s
  | .atomnSp g f op sc ty a off => Sys2Proof.Machine.execAtomnSp g f op sc ty a off s
  | .fenceAcq g sc prm => Sys2Proof.Machine.execFenceAcq g sc prm s
  | .fenceRel g sc => Sys2Proof.Machine.execFenceRel g sc s
  | .fenceAr g sc prm => Sys2Proof.Machine.execFenceAr g sc prm s
  | .win g bd sa limit => Sys2Proof.Machine.execWin g bd sa limit s
  | .winReg g bd sa sb => Sys2Proof.Machine.execWinReg g bd sa sb s
  | .stmpGet g sd => Sys2Proof.Machine.execStmpGet g sd s
  | .stmpHold g sd sa => Sys2Proof.Machine.execStmpHold g sd sa s
  | .stmpHoldDm g sd sa sc => Sys2Proof.Machine.execStmpHoldDm g sd sa sc s
  | .stmpDrop g sa => Sys2Proof.Machine.execStmpDrop g sa s
  | .xbeg smask vmask sc fallback => Sys2Proof.Machine.execXbeg smask vmask sc fallback s
  | .xend g fl => Sys2Proof.Machine.execXend g fl s
  | .xabt g sa => Sys2Proof.Machine.execXabt g sa s
  | .xstat g sd => Sys2Proof.Machine.execXstat g sd s
  | .hset g hd idx => Sys2Proof.Machine.execHset g hd idx s
  | .hget g hd idx => Sys2Proof.Machine.execHget g hd idx s
  | .mma g f hc ha hw => Sys2Proof.Machine.execMma g f hc ha hw s
  | .mmaInit g f hc ha hw => Sys2Proof.Machine.execMmaInit g f hc ha hw s
  | .mmaTern g f hc ha hw => Sys2Proof.Machine.execMmaTern g f hc ha hw s
  | .mmaTernInit g f hc ha hw => Sys2Proof.Machine.execMmaTernInit g f hc ha hw s
  | .mmaWh g f hc ha hw => Sys2Proof.Machine.execMmaWh g f hc ha hw s
  | .mmaWhInit g f hc ha hw => Sys2Proof.Machine.execMmaWhInit g f hc ha hw s
  | .tcopy g f tr rb mc hd ha bar => Sys2Proof.Machine.execTcopy g f tr rb mc hd ha bar s
  | .tgather g f hd ha hx bar => Sys2Proof.Machine.execTgather g f hd ha hx bar s
  | .tscatter g f hd ha hx bar => Sys2Proof.Machine.execTscatter g f hd ha hx bar s
  | .taskPush g f sa => Sys2Proof.Machine.execTaskPush g f sa s
  | .taskPushWave g f sa sb => Sys2Proof.Machine.execTaskPushWave g f sa sb s
  | .br g off => Sys2Proof.Machine.execBr g off s
  | .brc pn neg off tok => Sys2Proof.Machine.execBrc pn neg off tok s
  | .join => Sys2Proof.Machine.execJoin s
  | .exit g => Sys2Proof.Machine.execExit g s
  | .launch g f sd sa => Sys2Proof.Machine.execLaunch g f sd sa s
  | .rgn smask vmask => Sys2Proof.Machine.execRgn smask vmask s
  | .barInit g idx n => Sys2Proof.Machine.execBarInit g idx n s
  | .barInitBytes g idx n => Sys2Proof.Machine.execBarInitBytes g idx n s
  | .barExpect g idx n => Sys2Proof.Machine.execBarExpect g idx n s
  | .barArrive g idx n => Sys2Proof.Machine.execBarArrive g idx n s
  | .barWait g idx p => Sys2Proof.Machine.execBarWait g idx p s
  | .barArw g idx n => Sys2Proof.Machine.execBarArw g idx n s
  | .tlwait g tl sc n => Sys2Proof.Machine.execTlwait g tl sc n s
  | .tlread g sd tl => Sys2Proof.Machine.execTlread g sd tl s
  | .dqPush g f sa => Sys2Proof.Machine.execDqPush g f sa s
  | .dqPop g f sd => Sys2Proof.Machine.execDqPop g f sd s
  | .dqSteal g f sd sa => Sys2Proof.Machine.execDqSteal g f sd sa s
  | .msgSend g f sd sa sb => Sys2Proof.Machine.execMsgSend g f sd sa sb s
  | .ringWait g sd sa => Sys2Proof.Machine.execRingWait g sd sa s
  | .ringTake g sd sa => Sys2Proof.Machine.execRingTake g sd sa s
  | .yield g => Sys2Proof.Machine.execYield g s
  | .qend g => Sys2Proof.Machine.execQend g s
  | .sysRd g sd reg => Sys2Proof.Machine.execSysRd g sd reg s
  | .sysWr g reg sa => Sys2Proof.Machine.execSysWr g reg sa s
  | .cstampWrite g sa => Sys2Proof.Machine.execCstampWrite g sa s
  | .bufreqWrite g sa => Sys2Proof.Machine.execBufreqWrite g sa s
  | .ringdescWrite g k sa => Sys2Proof.Machine.execRingdescWrite g k sa s
  | .turnrptRead g sd n => Sys2Proof.Machine.execTurnrptRead g sd n s
  | .trap g n => Sys2Proof.Machine.execTrap g n s
  | .tret g => Sys2Proof.Machine.execTret g s
  | .tlset g tl v => Sys2Proof.Machine.execTlset g tl v s
  | .sysCtxsave g f sd sa => Sys2Proof.Machine.execSysCtxsave g f sd sa s
  | .sysCtxload g f sd sa => Sys2Proof.Machine.execSysCtxload g f sd sa s
  | .sysHadv g sa sb => Sys2Proof.Machine.execSysHadv g sa sb s
  | .sysWsize g sa sb => Sys2Proof.Machine.execSysWsize g sa sb s
  | .sysHrevoke g sa sb => Sys2Proof.Machine.execSysHrevoke g sa sb s
  | .sysPgattr g f sa sb => Sys2Proof.Machine.execSysPgattr g f sa sb s
  | .sysTlbinv g f sa sb => Sys2Proof.Machine.execSysTlbinv g f sa sb s
  | .sysWininv g f sa sb => Sys2Proof.Machine.execSysWininv g f sa sb s
  | .sysL1inv g f => Sys2Proof.Machine.execSysL1inv g f s
  | .sysL1wb g f => Sys2Proof.Machine.execSysL1wb g f s
  | .sysSlwb g f sa sb => Sys2Proof.Machine.execSysSlwb g f sa sb s
  | .sysSlinv g f sa sb => Sys2Proof.Machine.execSysSlinv g f sa sb s
  | .sysBrk g n => Sys2Proof.Machine.execSysBrk g n s
  | .sysDbgrd g sd => Sys2Proof.Machine.execSysDbgrd g sd s
  | .sysDgrd g sd sa => Sys2Proof.Machine.execSysDgrd g sd sa s
  | .selection core => Sys2Proof.Machine.execSelection core s
  | .longLatencyCompletion g w op => Sys2Proof.Machine.execLongLatencyCompletion g w op s
  | .sliceLoadRequest req => Sys2Proof.Machine.execSliceLoadRequest req s
  | .sliceCommit req => Sys2Proof.Machine.execSliceCommit req s
  | .sliceAtomic req => Sys2Proof.Machine.execSliceAtomic req s
  | .contentionDecay gran => Sys2Proof.Machine.execContentionDecay gran s
  | .asofRead req => Sys2Proof.Machine.execAsofRead req s
  | .heldRequestRelease req => Sys2Proof.Machine.execHeldRequestRelease req s
  | .wheyRetry h => Sys2Proof.Machine.execWheyRetry h s
  | .holdRevocation stack => Sys2Proof.Machine.execHoldRevocation stack s
  | .horizonLagReclaim stack => Sys2Proof.Machine.execHorizonLagReclaim stack s
  | .ageSweep slice => Sys2Proof.Machine.execAgeSweep slice s
  | .regionAccess req => Sys2Proof.Machine.execRegionAccess req s
  | .abortDelivery g w => Sys2Proof.Machine.execAbortDelivery g w s
  | .xbegServe => Sys2Proof.Machine.execXbegServe s
  | .regionCommit slot => Sys2Proof.Machine.execRegionCommit slot s
  | .roundClose => Sys2Proof.Machine.execRoundClose s
  | .landing cmd piece => Sys2Proof.Machine.execLanding cmd piece s
  | .matrixKstep cmd => Sys2Proof.Machine.execMatrixKstep cmd s
  | .engineCommandCompletion cmd => Sys2Proof.Machine.execEngineCommandCompletion cmd s
  | .copyPageResume cmd => Sys2Proof.Machine.execCopyPageResume cmd s
  | .fmtAbsentEmulation cmd piece => Sys2Proof.Machine.execFmtAbsentEmulation cmd piece s
  | .matrixTaskStart task => Sys2Proof.Machine.execMatrixTaskStart task s
  | .waveTaskPlace task => Sys2Proof.Machine.execWaveTaskPlace task s
  | .taskDone task => Sys2Proof.Machine.execTaskDone task s
  | .taskNoArea die => Sys2Proof.Machine.execTaskNoArea die s
  | .msgDeliver g w op => Sys2Proof.Machine.execMsgDeliver g w op s
  | .bufreqGrant core sp => Sys2Proof.Machine.execBufreqGrant core sp s
  | .dispatchBatch => Sys2Proof.Machine.execDispatchBatch s
  | .groupPlacement die => Sys2Proof.Machine.execGroupPlacement die s
  | .groupFreed g => Sys2Proof.Machine.execGroupFreed g s
  | .quantumBoundary launch => Sys2Proof.Machine.execQuantumBoundary launch s
  | .faultReplay a => Sys2Proof.Machine.execFaultReplay a s
  | .causeRecordDrain => Sys2Proof.Machine.execCauseRecordDrain s
  | .turnerPeriodEnd stack => Sys2Proof.Machine.execTurnerPeriodEnd stack s
  | .turnerMigration stack => Sys2Proof.Machine.execTurnerMigration stack s
  | .launchCmd e => Sys2Proof.Machine.execLaunchCmd e s
  | .collective e => Sys2Proof.Machine.execCollective e s
  | .power e => Sys2Proof.Machine.execPower e s
  | .resync e => Sys2Proof.Machine.execResync e s
  | .contextEnd e => Sys2Proof.Machine.execContextEnd e s
  | .unknownMailboxCommand e => Sys2Proof.Machine.execUnknownMailboxCommand e s
  | .sqtail v => Sys2Proof.Machine.execSqtail v s
  | .cqhead v => Sys2Proof.Machine.execCqhead v s
  | .mbxctlEnable => Sys2Proof.Machine.execMbxctlEnable s
  | .mbxctlDrain => Sys2Proof.Machine.execMbxctlDrain s
  | .mailboxRegisterWrite bar4 off v => Sys2Proof.Machine.execMailboxRegisterWrite bar4 off v s
  | .fwgo v => Sys2Proof.Machine.execFwgo v s
  | .dbgreq v token => Sys2Proof.Machine.execDbgreq v token s
  | .hostRead addr n => Sys2Proof.Machine.execHostRead addr n s
  | .hostWrite addr data => Sys2Proof.Machine.execHostWrite addr data s
  | .getVersion => Sys2Proof.Machine.execGetVersion s
  | .getCapabilities => Sys2Proof.Machine.execGetCapabilities s
  | .negotiateAlgorithms sig hash kex aead => Sys2Proof.Machine.execNegotiateAlgorithms sig hash kex aead s
  | .getDigests => Sys2Proof.Machine.execGetDigests s
  | .getCertificate slot off len => Sys2Proof.Machine.execGetCertificate slot off len s
  | .challenge slot nonce => Sys2Proof.Machine.execChallenge slot nonce s
  | .getMeasurements idx nonce => Sys2Proof.Machine.execGetMeasurements idx nonce s
  | .keyExchange exchange => Sys2Proof.Machine.execKeyExchange exchange s
  | .finish verify => Sys2Proof.Machine.execFinish verify s
  | .keyUpdate => Sys2Proof.Machine.execKeyUpdate s
  | .endSession => Sys2Proof.Machine.execEndSession s
  | .spdmUnsupported code => Sys2Proof.Machine.execSpdmUnsupported code s
  | .flitReceive f => Sys2Proof.Machine.execFlitReceive f s
  | .flitRetransmit dst => Sys2Proof.Machine.execFlitRetransmit dst s
  | .portFail port => Sys2Proof.Machine.execPortFail port s
  | .thermalTrip => Sys2Proof.Machine.execThermalTrip s
  | .machineFault => Sys2Proof.Machine.execMachineFault s
  | .warmReset => Sys2Proof.Machine.execWarmReset s
  | .coldReset => Sys2Proof.Machine.execColdReset s
  | .resetComplete mode => Sys2Proof.Machine.execResetComplete mode s
  | .debugAccess r => Sys2Proof.Machine.execDebugAccess r s
  | .domainConfiguration index routes => Sys2Proof.Machine.execDomainConfiguration index routes s
  | .provisioning => Sys2Proof.Machine.execProvisioning s
  | .fabricLinkTrained port => Sys2Proof.Machine.execFabricLinkTrained port s
  | .backInvalidationResponse line => Sys2Proof.Machine.execBackInvalidationResponse line s

end Sys2Proof.Machine
end

