-- ==== Sys2Proof/Machine/Placing.lean ====
section
/-! DEFINITION. Placing one instruction where the next step runs it: what a host and its launch would have set up (log 18). -/

namespace Sys2Proof.Machine

open Sys2Proof

/-- Write a 64-bit word to device memory. -/
def State.putWord (s : State) (a : Nat) (w : Word) : State := { s with mem := writeBytes s.mem a (toBytes w.toNat 8) }

/-- A page-table entry (R320): present, perhaps a leaf with every permission, and a frame. -/
def pte (leaf : Bool) (frame : Nat) : Word :=
  (1 : BitVec 1) ++ BitVec.ofBool leaf ++ (0 : BitVec 3) ++ (if leaf then (15 : BitVec 4) else 0) ++ (0 : BitVec 3)
    ++ BitVec.ofNat 36 (frame / 2 ^ 16) ++ (0 : BitVec 16)

/-- The launch the placed instruction belongs to: one role of one wave with the full register budget. -/
def placedLaunch : Launch where
  ctx := 1
  block := List.replicate 32 0

/-- The entity that issues the placed instruction: every thread active, in a clause of the word's class on pipe 0. -/
def placedEntity (cls : BitVec 4) (count : Nat) : Entity where
  mask := BitVec.allOnes 64
  hdr := 0x10000
  clause := some ⟨cls, count⟩
  pipe := some 0

/-- The state with an instruction word at the address an entity issues from next: system context 1 with page tables at
DPA 0, 0x20000 and 0x30000, the code page at virtual 0x10000 in device page 4. -/
def State.placeWord (s : State) (nbits w : Nat) : State :=
  let w0 := tableWord (w % 2 ^ nbits) 0
  let w1 := tableWord (w % 2 ^ nbits) 1
  let cls := (classOfWord w0).getD 0
  let two := bits w0 56 8 == 0x4A
  let count := if two then 2 else 1
  let m := s.fabric.index.toNat * 2 ^ 44
  let hdr := encodeHeader { cls := cls, count := count, wait := 0, any := false }
  let s := ((s.putWord 0 (pte false (m + 0x20000))).putWord 0x20000 (pte false (m + 0x30000))).putWord 0x30008 (pte true (m + 0x40000))
  let s := ((s.putWord 0x40000 hdr).putWord 0x40008 w0).putWord 0x40010 (if two then w1 else 0)
  let s := s.setPage 4 { s.page 4 with mapped := true, owner := 1 }
  let gr : Group := { pnum := 1, lin := 0, launch := 1, ctx := 1, core := 0, waves := [{ slot := 0, role := 0, blocks := 16, ents := [(0, placedEntity cls count)] }] }
  { s with
    ctxs := [(1, { root := BitVec.ofNat 35 (m / 2 ^ 17), sys := true, dbg := false })]
    launches := [(1, placedLaunch)]
    groups := [(1, gr)]
    nextId := 2
    nextPnum := 2
    resetting := false
    machine := none
    power := 0
    agenda := [.issue ⟨1, 0, 0⟩] }

/-- The state with a submission entry where the mailbox reads its next one. -/
def State.placeEntry (s : State) (w : Nat) : State :=
  { s with
    hostMem := writeBytes s.hostMem (0x1000) (toBytes (w % 2 ^ 512) 64)
    mbx := { s.mbx with ctl := 1, sqbase := 0x1000, cqbase := 0x2000, qsize := 16, sqtail := 1, cqhead := 0, consumed := 0 }
    resetting := false
    machine := none
    agenda := [.mailbox] }

end Sys2Proof.Machine
end

