-- ==== Sys2Proof/Machine/Step.lean ====
section
/-! DEFINITION. One step of the machine: the turn that is next, and what it runs; and a state in which the next step
runs a given instruction. -/

namespace Sys2Proof.Machine

open Sys2Proof

/-- Run what a turn has made ready. -/
def runReady (s : State) : Ready → Host.Outcome State Fault Refusal
  | .idle => .next s
  | .faulted t => .next t
  | .settled t => .next t
  | .run i t => exec i t

/-- One step: the next turn of the agenda, or of the schedule (log 1). -/
def step (s : State) : Host.Outcome State Fault Refusal := runReady s.popTurn.2 (s.popTurn.2.ready s.popTurn.1)

/-- The state with an instruction where the next step runs it (log 18). -/
def State.withFetchWord (s : State) (nbits w : Nat) : State := if nbits = 512 then s.placeEntry w else s.placeWord nbits w

end Sys2Proof.Machine
end

