-- ==== Sys2Proof/Safety.lean ====
section
/-! DEFINITION. What the claims speak of: the memory invariant, the checks the manual gives each instruction form, when an
instruction acts, what the class-0 forms compute, and how far an instruction reaches. -/

namespace Sys2Proof.Machine

open Sys2Proof

-- The invariant ---------------------------------------------------------------------------------------------------------------

/-- Device memory and host memory are in their canonical form. -/
structure State.Inv (s : State) : Prop where
  mem : Memory.wf s.mem = true
  hostMem : Memory.wf s.hostMem = true

-- The checks of each form -------------------------------------------------------------------------------------------------------

/-- A class-0 form (R88, R248): it may issue in a forwarding region, needs no privilege and ends no quantum. -/
def plainMeta (g : Guard) (lane : Bool) (vregs : List Nat) : Meta := { guard := g, lane := lane, vregs := vregs, inRegion := true }

/-- A form of class 2 or 3 that ends a deterministic quantum (R290) and is banned in forwarding regions (R248). -/
def enderMeta (g : Guard) : Meta := { guard := g, lane := false, ends := true }

/-- The v-registers of an offset operand. -/
def offHigh (off : Option Reg) : List Nat := (off.map (vHigh false)).getD []

/-- An offset in a v-register. -/
def laneOff : Option Reg → Bool
  | some (.v _) => true
  | _ => false

/-- The checks of each instruction form: its guard, whether it is a lane form (R39), the highest v-registers it names (R40),
its place in the clause (R61), whether a forwarding region lets it issue (R248), the privilege it needs (R335), whether it
ends a deterministic quantum (R290), the flag it raises (R44), whether it waits for the instructions in flight (R46), and
how many slots it takes. An event has none. -/
def checks : Instr → Option Meta
  | .vadd g _ ty d a b | .vsub g _ ty d a b | .vmin g ty d a b | .vmax g ty d a b | .vand g ty d a b | .vor g ty d a b
  | .vxor g ty d a b | .vshl g ty d a b | .vshr g ty d a b | .vsel g ty d a b _ =>
    some (plainMeta g (!d.isS) (vHighs [(ty.wide, d), (ty.wide, a), (ty.wide, b)]))
  | .vaddImm g ty d a _ | .vsubImm g ty d a _ | .vmulImm g ty d a _ | .vminImm g ty d a _ | .vmaxImm g ty d a _
  | .vandImm g ty d a _ | .vorImm g ty d a _ | .vxorImm g ty d a _ | .vshlImm g ty d a _ | .vshrImm g ty d a _
  | .vbitPopc g ty d a | .vbitClz g ty d a | .vbitCtz g ty d a | .vbitRev g ty d a | .vmov g ty d a =>
    some (plainMeta g (!d.isS) (vHighs [(ty.wide, d), (ty.wide, a)]))
  | .vmul g mode ty d a b =>
    some (plainMeta g (!d.isS) (vHighs [(if mode == .wide then (wideTy ty).wide else ty.wide, d), (ty.wide, a), (ty.wide, b)]))
  | .vfma g ty d a b c => some (plainMeta g (!d.isS) (vHighs [(ty.wide, d), (ty.wide, a), (ty.wide, b), (ty.wide, c)]))
  | .vcvt g _ _ dty sty d a => some (plainMeta g (!d.isS) (vHighs [(dty.wide, d), (sty.wide, a)]))
  | .vmovImm g ty d _ => some (plainMeta g (!d.isS) (vHighs [(ty.wide, d)]))
  | .vdiv g f ty d a b => some { plainMeta g (!d.isS) (vHighs [(ty.wide, d), (ty.wide, a), (ty.wide, b)]) with long := some f }
  | .vsqrt g f ty d a => some { plainMeta g (!d.isS) (vHighs [(ty.wide, d), (ty.wide, a)]) with long := some f }
  | .vsfRcp g f d a | .vsfRsqrt g f d a | .vsfExp2 g f d a | .vsfLog2 g f d a | .vsfSinpi g f d a | .vsfCospi g f d a
  | .vsfTanh g f d a => some { plainMeta g (!d.isS) (vHighs [(false, d), (false, a)]) with long := some f }
  | .vcmp g uni _ ty _ a b => some (plainMeta g (!uni) (vHigh ty.wide a ++ cmpHigh ty b))
  | .vpredAnd g _ _ _ | .vpredOr g _ _ _ | .vpredXor g _ _ _ | .vpredNot g _ _ | .vpredMov g _ _ | .voteAll g _ _
  | .voteAny g _ _ => some (plainMeta g true [])
  | .shflIdx g _ _ ty d a b | .shflRel g _ _ ty d a b =>
    some (plainMeta g true (vHighs [(ty.wide, .v d), (ty.wide, .v a)] ++ shflHigh b))
  | .scan g _ _ ty d a | .lred g _ ty d a => some (plainMeta g true (vHighs [(ty.wide, .v d), (ty.wide, .v a)]))
  | .voteBallot g d _ _ => some (plainMeta g true (vHigh true (.v d)))
  | .ld g f _ ty d _ off | .ldAsof g f ty d _ off _ =>
    some { plainMeta g (!d.isS) (vHigh ty.wide d ++ offHigh off) with long := some f }
  | .st g _ ty _ off a => some (plainMeta g (!(a.isS && !laneOff off)) (vHigh ty.wide a ++ offHigh off))
  | .atomG g f _ _ _ ty d a _ off =>
    some { plainMeta g (!d.isS) (vHigh ty.wide a ++ vHigh ty.wide d ++ offHigh off) with ends := true, long := some f }
  | .atomSp g f _ _ _ ty d a off =>
    some { plainMeta g (!d.isS) (vHigh ty.wide a ++ vHigh ty.wide d ++ offHigh off) with inRegion := false, ends := true, long := some f }
  | .atomnG g f _ _ ty a _ off =>
    some { plainMeta g (!(a.isS && !laneOff off)) (vHigh ty.wide a ++ [] ++ offHigh off) with ends := true, long := some f }
  | .atomnSp g f _ _ ty a off =>
    some { plainMeta g (!(a.isS && !laneOff off)) (vHigh ty.wide a ++ [] ++ offHigh off) with
           inRegion := false, ends := true, long := some f }
  | .fenceAcq g _ _ | .fenceRel g _ | .fenceAr g _ _ | .win g _ _ _ | .winReg g _ _ _ | .stmpGet g _ | .stmpHold g _ _
  | .stmpHoldDm g _ _ _ | .stmpDrop g _ | .xstat g _ => some (plainMeta g false [])
  | .xbeg _ vmask _ _ =>
    some { guard := ⟨7, false⟩, lane := false, vregs := maskHigh vmask, place := .notLast, ends := true, slots := 2 }
  | .xend g fl => some { plainMeta g false [] with ends := true, long := some ⟨0, fl⟩ }
  | .xabt g _ => some { plainMeta g false [] with place := .last, drains := true }
  | .hset g _ _ | .hget g _ _ | .barInit g _ _ | .barInitBytes g _ _ | .barExpect g _ _ | .tlread g _ _ =>
    some { guard := g, lane := false }
  | .mma g f _ _ _ | .mmaInit g f _ _ _ | .mmaTern g f _ _ _ | .mmaTernInit g f _ _ _ | .mmaWh g f _ _ _ | .mmaWhInit g f _ _ _
  | .tcopy g f _ _ _ _ _ _ | .tgather g f _ _ _ _ | .tscatter g f _ _ _ _ | .taskPush g f _ | .taskPushWave g f _ _
  | .launch g f _ _ | .dqPush g f _ | .dqPop g f _ | .dqSteal g f _ _ | .msgSend g f _ _ _ =>
    some { enderMeta g with long := some f }
  | .br g _ => some { plainMeta g false [] with place := .last, drains := true }
  | .brc _ _ _ _ => some { plainMeta ⟨7, false⟩ true [] with place := .last, drains := true }
  | .join => some { plainMeta ⟨7, false⟩ false [] with place := .first, drains := true }
  | .exit g => some { enderMeta g with place := .last, drains := true }
  | .rgn _ vmask => some { guard := ⟨7, false⟩, lane := false, vregs := maskHigh vmask }
  | .barArrive g _ _ | .barWait g _ _ | .barArw g _ _ | .tlwait g _ _ _ | .ringWait g _ _ | .ringTake g _ _ => some (enderMeta g)
  | .yield g | .qend g => some { enderMeta g with place := .last }
  | .sysRd g _ _ | .sysWr g _ _ | .bufreqWrite g _ | .ringdescWrite g _ _ | .sysBrk g _ | .sysDbgrd g _ => some (sysMeta g false)
  | .cstampWrite g _ | .turnrptRead g _ _ | .tlset g _ _ | .sysHadv g _ _ | .sysWsize g _ _ | .sysHrevoke g _ _ | .sysDgrd g _ _ =>
    some (sysMeta g true)
  | .trap g n => some { sysMeta g (5 ≤ n.toNat) with place := .last, drains := true }
  | .tret g => some { sysMeta g false with place := .last, drains := true }
  | .sysCtxsave g f _ _ | .sysCtxload g f _ _ | .sysPgattr g f _ _ | .sysTlbinv g f _ _ | .sysWininv g f _ _ | .sysSlwb g f _ _
  | .sysSlinv g f _ _ => some { sysMeta g true with long := some f }
  | .sysL1inv g f | .sysL1wb g f => some { sysMeta g false with long := some f }
  | .selection _ | .longLatencyCompletion _ _ _ | .sliceLoadRequest _ | .sliceCommit _ | .sliceAtomic _ | .contentionDecay _
  | .asofRead _ | .heldRequestRelease _ | .wheyRetry _ | .holdRevocation _ | .horizonLagReclaim _ | .ageSweep _ | .regionAccess _
  | .abortDelivery _ _ | .xbegServe | .regionCommit _ | .roundClose | .landing _ _ | .matrixKstep _ | .engineCommandCompletion _
  | .copyPageResume _ | .fmtAbsentEmulation _ _ | .matrixTaskStart _ | .waveTaskPlace _ | .taskDone _ | .taskNoArea _
  | .msgDeliver _ _ _ | .bufreqGrant _ _ | .dispatchBatch | .groupPlacement _ | .groupFreed _ | .quantumBoundary _
  | .faultReplay _ | .causeRecordDrain | .turnerPeriodEnd _ | .turnerMigration _ | .launchCmd _ | .collective _ | .power _
  | .resync _ | .contextEnd _ | .unknownMailboxCommand _ | .sqtail _ | .cqhead _ | .mbxctlEnable | .mbxctlDrain
  | .mailboxRegisterWrite _ _ _ | .fwgo _ | .dbgreq _ _ | .hostRead _ _ | .hostWrite _ _ | .getVersion | .getCapabilities
  | .negotiateAlgorithms _ _ _ _ | .getDigests | .getCertificate _ _ _ | .challenge _ _ | .getMeasurements _ _ | .keyExchange _
  | .finish _ | .keyUpdate | .endSession | .spdmUnsupported _ | .flitReceive _ | .flitRetransmit _ | .portFail _ | .thermalTrip
  | .machineFault | .warmReset | .coldReset | .resetComplete _ | .debugAccess _ | .domainConfiguration _ _ | .provisioning
  | .fabricLinkTrained _ | .backInvalidationResponse _ => none

/-- The entity `v` reaches an instruction with these checks and passes them all (R39, R40, R44, R46, R61, R248, R290, R335). -/
structure Acts (m : Meta) (s : State) (v : View) : Prop where
  view : s.view? = some v
  regs : ∀ n ∈ m.vregs, n < 16 * v.wv.blocks
  place : m.place.ok v.cl v.en.idx = true
  drained : m.drains = true → v.wv.inFlight v.a.e = false
  acting : v.acting m ≠ 0
  region : m.inRegion = true ∨ v.wv.region = none
  priv : m.sys = true → s.sysPriv v.gr.ctx = true
  boundary : m.ends = true → s.det v.gr = true → v.wv.quantum = .granted v.a.e
  room : ∀ f k, m.long = some f → flagIndex f = some k → v.wv.pending k < 15

-- What an instruction leaves --------------------------------------------------------------------------------------------------------

/-- The state with another wave in place of that of the instruction at hand: every other wave and group, memory, pages, engines,
tasks, host state and fabric are as they were. -/
def State.withWave (s : State) (v : View) (wv : Wave) : State := s.modWave v.a.g v.a.w fun _ => wv

/-- The position after so many slots of the instruction's clause: past its last slot, the next header's (R32, R34). -/
def View.after (v : View) (n : Nat) : Word × Nat := if v.en.idx + n < v.cl.count then (v.en.hdr, v.en.idx + n) else (v.nextHdr, 0)

/-- The entity of the instruction at hand stands at a position, its threads, records and parking as they were; the wave's
other entities are as they were. -/
structure Moved (v : View) (at_ : Word × Nat) (wv : Wave) : Prop where
  self : ∃ e, Table.find wv.ents v.a.e = some e ∧ (e.hdr, e.idx) = at_ ∧ e.mask = v.en.mask ∧ e.recs = v.en.recs ∧ e.park = v.en.park
    ∧ e.frag = v.en.frag ∧ e.fault = none ∧ e.stage = 0
  others : ∀ k, k ≠ v.a.e → Table.find wv.ents k = Table.find v.wv.ents k

/-- The long-latency instructions in flight of one wave are those of the other: the same numbers, entities, threads and work. -/
def sameOps (a b : Wave) : Prop :=
  b.ops.map (fun o => (o.1, o.2.ent, o.2.mask, o.2.fl, o.2.body)) = a.ops.map fun o => (o.1, o.2.ent, o.2.mask, o.2.fl, o.2.body)

/-- A wave that has retired an instruction which writes no register: of the wave only the entities, the count of retired
instructions, the quantum's state and the windows of the instructions in flight may differ. -/
structure Plain (v : View) (at_ : Word × Nat) (wv : Wave) : Prop where
  moved : Moved v at_ wv
  flight : sameOps v.wv wv
  frame : wv = { v.wv with
    ents := wv.ents
    ops := wv.ops
    retired := wv.retired
    quantum := wv.quantum }

/-- A register operand has been written in some threads with a value each, and no other general register of the wave: a
v-register or an even-odd pair in the acting threads (R40, R65, R90); an s-register once. With several entities alive an
s-register may keep its value against the write (R91). -/
def Wrote (a b : Wave) (d : Reg) (wide : Bool) (act : Mask) (f : Nat → Word) : Prop :=
  match d with
  | .v n => b.s = a.s ∧ ∀ k t, t < 64 → b.vLane k t =
      if act.getLsbD t && k == n.toNat then (f t).setWidth 32
      else if act.getLsbD t && wide && k == n.toNat + 1 then (f t >>> 32).setWidth 32
      else a.vLane k t
  | .s n => b.v = a.v ∧ (∀ k, k ≠ n.toNat → b.sReg k = a.sReg k)
      ∧ (b.sReg n.toNat = f (lowest act) ∨ 1 < a.ents.length ∧ b.sReg n.toNat = a.sReg n.toNat)

/-- FPSTATUS has gained exactly these flags: those of the threads that computed (R93 to R95). -/
def Raised (a b : Wave) (computed : Nat → Prop) (f : Nat → Flags) : Prop :=
  ∀ k, b.fpstatus.getLsbD k = true ↔ a.fpstatus.getLsbD k = true ∨ ∃ t, computed t ∧ (f t).getLsbD k = true

/-- The threads in which a form computes: the acting ones of a lane form, the lowest for a uniform one (R88). -/
def Computes (d : Reg) (act : Mask) (t : Nat) : Prop := if d.isS then t = lowest act else t < 64 ∧ act.getLsbD t = true

/-- What a class-0 form that writes one register computes: the destination, whether its value is 64 bits wide, and the value
and flags in a thread. -/
structure LaneForm where
  d : Reg
  wide : Bool
  val : View → Nat → Nat → Word × Flags

/-- The value of two operands of a type. -/
def two (ty : Ty) (a b : Reg) (f : Word → Word → Word × Flags) (v : View) (k t : Nat) : Word × Flags :=
  f (v.src k ty a t) (v.src k ty b t)

/-- The value of an operand and an immediate. -/
def withImm (ty : Ty) (a : Reg) (i : BitVec 21) (f : Word → Word → Word × Flags) (v : View) (k t : Nat) : Word × Flags :=
  f (v.src k ty a t) (immWord ty i)

/-- The class-0 forms of fixed latency that write one general register, with their values by rule: R97 (add, subtract,
multiply), R98 (fma), R100 (minimum, maximum), R101 (bitwise), R102 (shifts, bits), R103 (moves), R104 (conversion). -/
def laneForm : Instr → Option LaneForm
  | .vadd _ sat ty d a b => some ⟨d, ty.wide, two ty a b (addVal ty sat)⟩
  | .vaddImm _ ty d a i => some ⟨d, ty.wide, withImm ty a i (addVal ty false)⟩
  | .vsub _ sat ty d a b => some ⟨d, ty.wide, two ty a b (subVal ty sat)⟩
  | .vsubImm _ ty d a i => some ⟨d, ty.wide, withImm ty a i (subVal ty false)⟩
  | .vmul _ mode ty d a b => some ⟨d, if mode == .wide then (wideTy ty).wide else ty.wide, two ty a b (mulVal mode ty)⟩
  | .vmulImm _ ty d a i => some ⟨d, ty.wide, withImm ty a i (mulVal .low ty)⟩
  | .vmin _ ty d a b => some ⟨d, ty.wide, two ty a b (extremeVal false ty)⟩
  | .vminImm _ ty d a i => some ⟨d, ty.wide, withImm ty a i (extremeVal false ty)⟩
  | .vmax _ ty d a b => some ⟨d, ty.wide, two ty a b (extremeVal true ty)⟩
  | .vmaxImm _ ty d a i => some ⟨d, ty.wide, withImm ty a i (extremeVal true ty)⟩
  | .vfma _ ty d a b c => some ⟨d, ty.wide, fun v k t => fmaVal ty (v.src k ty a t) (v.src k ty b t) (v.src k ty c t)⟩
  | .vcvt _ sat rm dty sty d a => some ⟨d, dty.wide, fun v k t => cvtVal sat rm dty sty (v.src k sty a t)⟩
  | .vand _ ty d a b => some ⟨d, ty.wide, two ty a b (bitVal ty (· &&& ·))⟩
  | .vandImm _ ty d a i => some ⟨d, ty.wide, withImm ty a i (bitVal ty (· &&& ·))⟩
  | .vor _ ty d a b => some ⟨d, ty.wide, two ty a b (bitVal ty (· ||| ·))⟩
  | .vorImm _ ty d a i => some ⟨d, ty.wide, withImm ty a i (bitVal ty (· ||| ·))⟩
  | .vxor _ ty d a b => some ⟨d, ty.wide, two ty a b (bitVal ty (· ^^^ ·))⟩
  | .vxorImm _ ty d a i => some ⟨d, ty.wide, withImm ty a i (bitVal ty (· ^^^ ·))⟩
  | .vshl _ ty d a b => some ⟨d, ty.wide, fun v k t => shlVal ty (v.src k ty a t) (v.shiftCount k ty b t)⟩
  | .vshlImm _ ty d a i => some ⟨d, ty.wide, fun v k t => shlVal ty (v.src k ty a t) (immCount i)⟩
  | .vshr _ ty d a b => some ⟨d, ty.wide, fun v k t => shrVal ty (v.src k ty a t) (v.shiftCount k ty b t)⟩
  | .vshrImm _ ty d a i => some ⟨d, ty.wide, fun v k t => shrVal ty (v.src k ty a t) (immCount i)⟩
  | .vbitPopc _ ty d a => some ⟨d, ty.wide, fun v k t => popcVal ty (v.src k ty a t)⟩
  | .vbitClz _ ty d a => some ⟨d, ty.wide, fun v k t => clzVal ty (v.src k ty a t)⟩
  | .vbitCtz _ ty d a => some ⟨d, ty.wide, fun v k t => ctzVal ty (v.src k ty a t)⟩
  | .vbitRev _ ty d a => some ⟨d, ty.wide, fun v k t => revVal ty (v.src k ty a t)⟩
  | .vsel _ ty d a b pk => some ⟨d, ty.wide, fun v k t => movVal ty (v.src k ty (if (v.wv.pReg pk).getLsbD t then a else b) t)⟩
  | .vmov _ ty d a => some ⟨d, ty.wide, fun v k t => movVal ty (v.src k ty a t)⟩
  | .vmovImm _ ty d i => some ⟨d, ty.wide, fun _ _ _ => (immWord ty i, 0)⟩
  | _ => none

/-- What a class-0 form of long latency computes: its completion part, its destination, and the value and flags in a thread. -/
structure LongForm where
  f : Flag
  d : Reg
  ty : Ty
  val : View → Nat → Nat → Word × Flags

/-- The value of a special function of an operand (R81, R105). -/
def special1 (a : Reg) (fn : BitVec 32 → FpRes) (v : View) (k t : Nat) : Word × Flags :=
  fpWord (fn ((v.src k .f32 a t).setWidth 32))

/-- The class-0 forms of long latency, with their values by rule: R99 (division, square root), R105 (special functions). -/
def longForm : Instr → Option LongForm
  | .vdiv _ f ty d a b => some ⟨f, d, ty, two ty a b (divVal ty)⟩
  | .vsqrt _ f ty d a => some ⟨f, d, ty, fun v k t => sqrtVal ty (v.src k ty a t)⟩
  | .vsfRcp _ f d a => some ⟨f, d, .f32, special1 a rcpVal⟩
  | .vsfRsqrt _ f d a => some ⟨f, d, .f32, special1 a rsqrtVal⟩
  | .vsfExp2 _ f d a => some ⟨f, d, .f32, special1 a exp2Val⟩
  | .vsfLog2 _ f d a => some ⟨f, d, .f32, special1 a log2Val⟩
  | .vsfSinpi _ f d a => some ⟨f, d, .f32, special1 a sinpiVal⟩
  | .vsfCospi _ f d a => some ⟨f, d, .f32, special1 a cospiVal⟩
  | .vsfTanh _ f d a => some ⟨f, d, .f32, special1 a tanhVal⟩
  | _ => none

/-- The state with its next number used. -/
def State.numbered (s : State) : State := { s with nextId := s.nextId + 1 }

/-- Every register of a wave is as it was: general registers, predicates, windows and the special registers it holds. -/
structure SameRegs (a b : Wave) : Prop where
  general : b.v = a.v ∧ b.s = a.s ∧ b.p = a.p ∧ b.b = a.b
  cstamp : b.cstamp = a.cstamp
  special : b.fpstatus = a.fpstatus ∧ b.cause = a.cause ∧ b.faultaddr = a.faultaddr ∧ b.lanemask = a.lanemask
    ∧ b.sysstatus = a.sysstatus ∧ b.trapbase = a.trapbase ∧ b.trappos = a.trappos

/-- The entity of the instruction at hand stands at a position, unparked as it was; every other entity of the wave stands where
it stood. The idempotent region's entries may be new. -/
structure Advanced (v : View) (at_ : Word × Nat) (wv : Wave) : Prop where
  self : ∃ e, Table.find wv.ents v.a.e = some e ∧ (e.hdr, e.idx) = at_ ∧ e.mask = v.en.mask ∧ e.recs = v.en.recs ∧ e.park = v.en.park
  others : ∀ k, k ≠ v.a.e → (Table.find wv.ents k).map (fun e => (e.hdr, e.idx, e.mask, e.recs, e.park))
    = (Table.find v.wv.ents k).map fun e => (e.hdr, e.idx, e.mask, e.recs, e.park)

/-- A long-latency instruction of the entity at hand is in flight under a number (R44, R45, R48): with its position, flag,
window and threads, and work that satisfies `P`; its flag's pending count is one higher and no other has changed. -/
structure Flying (v : View) (num : Nat) (f : Flag) (act : Mask) (uni : Bool) (P : LongOp → Prop) (wv : Wave) : Prop where
  op : ∃ o, Table.find wv.ops num = some o ∧ o.ent = v.a.e ∧ o.hdr = v.en.hdr ∧ o.idx = v.en.idx ∧ o.fl = flagIndex f
    ∧ o.window = flagWindow f ∧ o.mask = act ∧ o.uni = uni ∧ P o
  flight : ∀ k, k ≠ num → (Table.find wv.ops k).map (fun o => (o.ent, o.mask, o.fl))
    = (Table.find v.wv.ops k).map fun o => (o.ent, o.mask, o.fl)
  flag : ∀ k, wv.pending k = if flagIndex f = some k then v.wv.pending k + 1 else v.wv.pending k

/-- A wave that has issued a long-latency instruction and done nothing else (R44): it is in flight and the entity goes one slot
on; no register has changed. -/
structure Issued (v : View) (num : Nat) (f : Flag) (act : Mask) (uni : Bool) (P : LongOp → Prop) (wv : Wave) : Prop where
  flying : Flying v num f act uni P wv
  moved : Moved v (v.after 1) wv
  frame : wv = { v.wv with
    f := wv.f
    ents := wv.ents
    ops := wv.ops
    retired := wv.retired
    quantum := wv.quantum }

/-- A predicate has been written in some threads with a value each (R28, R40, R106, R107): no other predicate changes, and p7
reads true in every thread whatever is written. -/
def PredWritten (a b : Wave) (pd : BitVec 3) (thr : Mask) (val : Nat → Bool) : Prop :=
  ∀ q t, t < 64 → (b.pReg q).getLsbD t = if q == pd && pd != 7 && thr.getLsbD t then val t else (a.pReg q).getLsbD t

/-- What a form that writes one predicate computes: the predicate, the threads it writes, the value in a thread, the threads
that compute and the flags they raise. -/
structure PredForm where
  pd : BitVec 3
  thr : View → Mask → Mask
  val : View → Nat → Mask → Nat → Bool
  who : Mask → Nat → Prop
  fl : View → Nat → Nat → Flags

/-- A predicate form on whole masks that raises no flag. -/
def maskForm (pd : BitVec 3) (f : Wave → Mask → Nat → Bool) : PredForm :=
  { pd := pd, thr := fun _ act => act, val := fun v _ act t => f v.wv act t, who := fun act t => t < 64 ∧ act.getLsbD t = true, fl := fun _ _ _ => 0 }

/-- The forms that write one predicate, with their values by rule: R106 (compares), R107 (predicates), R114 (votes). -/
def predForm : Instr → Option PredForm
  | .vcmp _ uni c ty pd a b => some {
      pd := pd
      thr := fun v act => if uni then v.en.mask else act
      val := fun v k act t => (cmpVal c ty (v.src k ty a (if uni then lowest act else t)) (v.cmpArg k ty b (if uni then lowest act else t))).1
      who := fun act t => if uni then t = lowest act else t < 64 ∧ act.getLsbD t = true
      fl := fun v k t => (cmpVal c ty (v.src k ty a t) (v.cmpArg k ty b t)).2 }
  | .vpredAnd _ pd pa pb => some (maskForm pd fun wv _ t => (wv.pReg pa).getLsbD t && (wv.pReg pb).getLsbD t)
  | .vpredOr _ pd pa pb => some (maskForm pd fun wv _ t => (wv.pReg pa).getLsbD t || (wv.pReg pb).getLsbD t)
  | .vpredXor _ pd pa pb => some (maskForm pd fun wv _ t => (wv.pReg pa).getLsbD t != (wv.pReg pb).getLsbD t)
  | .vpredNot _ pd pa => some (maskForm pd fun wv _ t => !(wv.pReg pa).getLsbD t)
  | .vpredMov _ pd pa => some (maskForm pd fun wv _ t => (wv.pReg pa).getLsbD t)
  | .voteAll _ pd pa => some (maskForm pd fun wv act _ => (List.range 64).all fun k => !act.getLsbD k || (wv.pReg pa).getLsbD k)
  | .voteAny _ pd pa => some (maskForm pd fun wv act _ => (List.range 64).any fun k => act.getLsbD k && (wv.pReg pa).getLsbD k)
  | _ => none

-- Cross-lane forms --------------------------------------------------------------------------------------------------------------------

/-- The source thread a shuffle reads in a thread: one of the entity's active threads, or none where the permissive bit reads 0
(R109, R111, R112). -/
def shuffleSource (v : View) (k : Nat) : Instr → Nat → Source
  | .shflIdx _ _ rel _ _ _ b, t => v.idxSource k rel b t
  | .shflRel _ _ rel _ _ _ b, t => v.relSource k rel b t
  | _, _ => .bad

/-- The operands of a shuffle: permissive, type, destination, source. -/
def shuffleForm : Instr → Option (Bool × Ty × BitVec 8 × BitVec 8)
  | .shflIdx _ z _ ty d a _ => some (z, ty, d, a)
  | .shflRel _ z _ ty d a _ => some (z, ty, d, a)
  | _ => none

/-- A source is an active thread of the entity. -/
def Source.active (v : View) : Source → Bool
  | .thread j => v.en.mask.getLsbD j
  | _ => false

/-- A thread of a shuffle reads its source, or 0 where that is no active thread (R109). -/
def shuffled (v : View) (k : Nat) (ty : Ty) (a : BitVec 8) : Source → Word
  | .thread j => if v.en.mask.getLsbD j then fillWord ty (v.src k ty (.v a) j) else 0
  | _ => 0

-- Faults --------------------------------------------------------------------------------------------------------------------------------

/-- The instruction at hand has faulted (R358, R416): its wave's CAUSE, FAULTADDR and LANEMASK hold the fault, and no general
register, predicate or window of the wave has changed; the entity, where its group goes on, is parked where it stood. A
terminal fault ends the group (R360) unless the debugger reaches its context. -/
structure Faulted (s : State) (v : View) (c : Cause) (addr : Word) (lanes : Mask) (t : State) : Prop where
  wave : ∃ wv, t.wave? v.a.g v.a.w = some wv ∧ wv.cause = c.setWidth 64 ∧ wv.faultaddr = addr ∧ wv.lanemask = lanes
    ∧ wv.v = v.wv.v ∧ wv.s = v.wv.s ∧ wv.p = v.wv.p ∧ wv.b = v.wv.b
    ∧ ((Cause.replayable c || s.reaches v.gr.ctx) = true → ∃ e, Table.find wv.ents v.a.e = some e ∧ e.park = some .fault
        ∧ e.hdr = v.en.hdr ∧ e.idx = v.en.idx ∧ e.mask = v.en.mask)
    ∧ ((Cause.replayable c || s.reaches v.gr.ctx) = false → wv.ents = [])
  memory : t.mem = s.mem

/-- A barrier instruction has faulted, and the scratchpad of its group is as it was, its words among it (R305). -/
def BarFaulted (s : State) (v : View) (c : Cause) (addr : Word) (lanes : Mask) (t : State) : Prop :=
  Faulted s v c addr lanes t ∧ ∃ gr, t.group? v.a.g = some gr ∧ gr.sp = v.gr.sp

/-- The wave of the instruction at hand has nothing more in flight than before, and no flag waits for more (R44). -/
def NothingIssued (v : View) (t : State) : Prop :=
  ∃ wv, t.wave? v.a.g v.a.w = some wv ∧ (∀ n o, Table.find wv.ops n = some o → Table.find v.wv.ops n = some o)
    ∧ ∀ k, wv.pending k = v.wv.pending k

-- Memory instructions --------------------------------------------------------------------------------------------------------------------

/-- How far a memory instruction of a wave reaches when it issues: the wave, its group's local spaces, requests on their way to
slices and other modules, numbers, cached translations and lines, and what reading a page table counts and corrects (R159,
R180). Memory, stamps, pages, history, engines, tasks, the Unit and the host are as they were, and so is every other wave. -/
structure Within (s : State) (g w : Nat) (t : State) : Prop where
  frame : t = { s with
    groups := t.groups
    reqs := t.reqs
    nextId := t.nextId
    tlb := t.tlb
    l1 := t.l1
    cores := t.cores
    fabric := t.fabric
    stackTable := t.stackTable
    flips := t.flips }
  history : ∀ k, ((t.stack k).log, (t.stack k).base, (t.stack k).next, (t.stack k).h, (t.stack k).hRound, (t.stack k).whey, (t.stack k).rind)
    = ((s.stack k).log, (s.stack k).base, (s.stack k).next, (s.stack k).h, (s.stack k).hRound, (s.stack k).whey, (s.stack k).rind)
  deques : ∀ k, (t.coreOf k).deque = (s.coreOf k).deque
  numbers : s.nextId ≤ t.nextId
  waves : ∀ g' w', g' ≠ g ∨ w' ≠ w → t.wave? g' w' = s.wave? g' w'

/-- The forms of loads, with the space, type, destination, completion part, window and offset of each, and whether it reads an
older version (R231, R235). -/
structure LoadForm where
  sp : Space
  ty : Ty
  d : Reg
  f : Flag
  w : BitVec 4
  off : Option Reg
  asof : Option (BitVec 6)

/-- The loads. -/
def loadForm : Instr → Option LoadForm
  | .ld _ f sp ty d w off => some ⟨sp, ty, d, f, w, off, none⟩
  | .ldAsof _ f ty d w off t => some ⟨.g, ty, d, f, w, off, some t⟩
  | _ => none

/-- What a load asks of memory (R228): `ld` as a load, `ld.asof` as an as-of load. -/
def LoadForm.access (k : LoadForm) : Access :=
  { sp := k.sp, need := { r := true }, kind := if k.asof.isSome then Cause.kAsof else Cause.kLoad, n := k.ty.bytes }

/-- The threads of an access that can be performed, with their pieces, and those that are refused (R188, R227 to R230). -/
def View.planned (v : View) (s : State) (c : Access) (act : Mask) (uni : Bool) (w : BitVec 4) (off : Option Reg)
    (x cmp : Nat → Word) : List (LaneOp × List Piece) × List Denied :=
  s.planAll v.gr v.wv.region.isSome (v.wv.win w) c (v.laneOps s.tick act uni off x cmp)

/-- A byte of a piece is asked for: it has been taken from the wave's own held stores or from L1, or the instruction has still to
read it from its group's local space, or a request of it asks for it. -/
def Asked (t : State) (a : Actor) (num : Nat) (o : LongOp) (p : Piece) (k : Nat) : Prop :=
  (Table.find o.got (8 * p.thread + p.byte + k)).isSome = true
  ∨ (∃ sp d ty ps, o.body = .load sp d ty ps ∧ ∃ q ∈ ps, q.thread = p.thread ∧ q.byte ≤ p.byte + k ∧ p.byte + k < q.byte + q.len
      ∧ q.addr + (p.byte + k - q.byte) = p.addr + k)
  ∨ ∃ r ∈ t.reqs, r.2.agent = .op a.g a.w num ∧ ∃ i ∈ r.2.items, i.thread = p.thread ∧ i.byte ≤ p.byte + k ∧ p.byte + k < i.byte + i.len

/-- The stores, with the space, type, window, offset and source of each. -/
structure StoreForm where
  sp : Space
  ty : Ty
  w : BitVec 4
  off : Option Reg
  a : Reg

/-- A store is uniform where its source and its offset are (R231). -/
def StoreForm.uni (k : StoreForm) : Bool := k.a.isS && !laneOff k.off

/-- What a store asks of memory (R228). -/
def StoreForm.access (k : StoreForm) : Access := { sp := k.sp, need := { w := true }, kind := Cause.kStore, n := k.ty.bytes }

/-- The entry of the store queue that a store makes (R233): for each thread that can be performed its pieces with the bytes of the
source that fall there, under the number of the moment the store enters. -/
def storeEntry (sp : Space) (num : Nat) (oks : List (LaneOp × List Piece)) : SqEntry where
  sp := sp
  items := oks.flatMap fun l => l.2.map fun p => ⟨p.thread, p.addr, pieceData l.1.x p⟩
  num := num

/-- The atomics: space, operator, scope, type, destination, source, window, offset, completion part (R236). -/
structure AtomForm where
  sp : Space
  op : AtomOp
  sc : Scope
  ty : Ty
  d : Option Reg
  a : Reg
  w : BitVec 4
  off : Option Reg
  f : Flag

/-- The atomics. -/
def atomForm : Instr → Option AtomForm
  | .atomG _ f op sc _ ty d a w off => some ⟨.g, op, sc, ty, some d, a, w, off, f⟩
  | .atomSp _ f op sc _ ty d a off => some ⟨.sp, op, sc, ty, some d, a, 0, off, f⟩
  | .atomnG _ f op sc ty a w off => some ⟨.g, op, sc, ty, none, a, w, off, f⟩
  | .atomnSp _ f op sc ty a off => some ⟨.sp, op, sc, ty, none, a, 0, off, f⟩
  | _ => none

/-- An atomic with a destination is uniform where that is; one without where source and offset are (R236). -/
def AtomForm.uni (k : AtomForm) : Bool :=
  match k.d with
  | some r => r.isS
  | none => k.a.isS && !laneOff k.off

/-- What an atomic asks of memory (R228, R236): an aligned access that reads and writes. -/
def AtomForm.access (k : AtomForm) : Access :=
  { sp := k.sp, need := { r := true, w := true }, kind := Cause.kAtomic, n := k.ty.bytes, aligned := true }

/-- The compare operand of a `.cas` is its destination register (R237). -/
def AtomForm.cmp (k : AtomForm) (v : View) (tick t : Nat) : Word :=
  match k.d with
  | some r => v.src tick k.ty r t
  | none => 0

/-- The wave holds no store and has nothing outstanding that a release of the entity waits for (R163, R193, R202, R233). -/
def Settled (s : State) (v : View) : Prop :=
  v.wv.sq = [] ∧ v.wv.late = [] ∧ s.storesBefore v.a.g v.a.w s.nextId = false ∧ s.loadsBefore v.a s.nextId = false
    ∧ s.acquiresBefore v.a s.nextId = false

/-- Every register of a wave but CSTAMP is as it was. -/
def SameButStamp (a b : Wave) : Prop := SameRegs { a with cstamp := b.cstamp } b

/-- A window has been written and no other (R230). -/
def WindowWritten (a b : Wave) (bd : BitVec 4) (w : Window) : Prop := ∀ k, b.win k = if k = bd then w else a.win k

-- Engine commands -------------------------------------------------------------------------------------------------------------------------

/-- An engine command as its instruction issues it: the completion part, the queue, the kind, the records of its handles and its
barrier word (R123, R124). -/
structure Issue where
  f : Flag
  q : Nat
  kind : CmdKind
  recs : List (BitVec 256)
  bar : Option (BitVec 16)

/-- A matrix product whose handles R127 accepts. -/
def productIssue (s : State) (v : View) (f : Flag) (tern init wh : Bool) (hc ha hw : BitVec 6) : Option Issue :=
  match decodeRec (v.gr.handle hc), decodeRec (v.gr.handle ha), decodeRec (v.gr.handle hw) with
  | some c, some a, some w =>
    match s.productCheck v.gr tern wh c a w with
    | .error _ => none
    | .ok x => some ⟨f, qMatrix, .product (w.fmt == .tern) init x.1 x.2.1 x.2.2.1 x.2.2.2, [v.gr.handle hc, v.gr.handle ha, v.gr.handle hw], none⟩
  | _, _, _ => none

/-- A gather or scatter whose handles R137 accepts. -/
def gatherIssue (v : View) (f : Flag) (kind : CmdKind) (hd ha hx : BitVec 6) (bar : Option (BitVec 16))
    (shape : Tensor → Tensor → Tensor → Bool) : Option Issue :=
  match decodeRec (v.gr.handle hd), decodeRec (v.gr.handle ha), decodeRec (v.gr.handle hx) with
  | some d, some x, some i =>
    if pairOk d x && d.cols == x.cols && i.fmt == .n32 && (i.sp == .g || i.sp == .sp) && shape d x i
        && (v.gr.copyCheck Cause.eGather d [x, i]).isNone then
      some ⟨f, qGather, kind, [v.gr.handle hd, v.gr.handle ha, v.gr.handle hx], bar⟩
    else none
  | _, _, _ => none

/-- The command that an engine instruction with accepted operands puts in its queue (R123, R127, R134 to R137, R142). -/
def issueForm (s : State) (v : View) : Instr → Option Issue
  | .mma _ f hc ha hw => productIssue s v f false false false hc ha hw
  | .mmaInit _ f hc ha hw => productIssue s v f false true false hc ha hw
  | .mmaTern _ f hc ha hw => productIssue s v f true false false hc ha hw
  | .mmaTernInit _ f hc ha hw => productIssue s v f true true false hc ha hw
  | .mmaWh _ f hc ha hw => productIssue s v f false false true hc ha hw
  | .mmaWhInit _ f hc ha hw => productIssue s v f false true true hc ha hw
  | .tcopy _ f tr rb mc hd ha bar =>
    match decodeRec (v.gr.handle hd), decodeRec (v.gr.handle ha) with
    | some d, some x =>
      if pairOk d x && copyShapeOk tr rb mc d x && (v.gr.copyCheck Cause.eCopy d [x]).isNone then
        some ⟨f, qCopy, .copy tr rb mc, [v.gr.handle hd, v.gr.handle ha], bar⟩
      else none
    | _, _ => none
  | .tgather _ f hd ha hx bar => gatherIssue v f .gather hd ha hx bar fun d _ i => i.rows * i.cols == d.rows
  | .tscatter _ f hd ha hx bar => gatherIssue v f .scatter hd ha hx bar fun d x i => i.rows * i.cols == x.rows && (d.sp == .g || d.sp == .sp)
  | .taskPush _ f sa => some ⟨f, qTask, .push (v.sval s.tick sa), [], none⟩
  | .taskPushWave _ f sa sb => some ⟨f, qTask, .pushWave (v.sval s.tick sa) (v.sval s.tick sb), [], none⟩
  | _ => none

/-- The work of a matrix task of a group, as a command of no queue: what it reads and writes carries the task's stamp (R144, R163). -/
def taskCommand (g : Nat) (x : Task) : Cmd where
  g := g
  queue := 9
  num := 0
  epoch := 0
  kind := .copy false false false
  cstamp := x.cstamp

/-- A matrix task has got a core: its work has the next number, and its chain keeps to the core that runs position 0 (R144). -/
def State.taskBegun (s : State) (n : Nat) (x : Task) (g core : Nat) : State :=
  { s with
    nextId := s.nextId + 1
    cmds := Table.insert s.cmds s.nextId (taskCommand g x)
    tasks := Table.modify s.tasks n fun y => { y with
      state := .running
      core := some core
      work := some s.nextId }
    chains := s.chains.map fun (c : Chain) =>
      if x.chained && x.pos = 0 && c.die = x.die && c.ctx = x.ctx && c.ident = x.chain then { c with core := core } else c }

/-- A task is broken with a cause where its work has stood so: the work is no more, and its record is still to be told (R146). -/
def TaskBroken (n wk : Nat) (e : Cause) (s t : State) : Prop :=
  (∀ z, Table.find s.tasks n = some z → z.work = some wk → Table.find t.cmds wk = none ∧ Table.find t.tasks n = some { z with
      state := .broken
      cause := e
      work := none
      refused := none })
    ∧ t = { s with
        tasks := t.tasks
        cmds := t.cmds
        reqs := t.reqs }

/-- The work of a task is suspended at a page that is not present, and told (R139, R146). -/
def TaskHeld (wk : Nat) (va : Word) (s t : State) : Prop :=
  Table.find t.cmds wk = (Table.find s.cmds wk).map (fun z => { z with suspended := some va })
    ∧ t = { s with
        cmds := t.cmds
        mbx := t.mbx
        hostMem := t.hostMem
        msix := t.msix }

-- Control and system forms -----------------------------------------------------------------------------------------------------------------

/-- The long-latency instructions of classes 3 and 4 whose work waits for its turn, with the work their operands name and whether it is
ready at once (R308, R309, R312, R342, R344 to R346): malformed operands issue nothing. -/
def waitForm (s : State) (v : View) : Instr → Option (Flag × OpBody × Bool)
  | .dqPush _ f sa => some (f, .dqPush (v.sval s.tick sa), false)
  | .dqPop _ f sd => some (f, .dqPop sd, true)
  | .dqSteal _ f sd sa => if (v.sval s.tick sa).toNat < 256 then some (f, .dqSteal sd (v.sval s.tick sa).toNat, true) else none
  | .msgSend _ f sd sa sb => some (f, .msg sd (v.sval s.tick sa) (v.sval s.tick sb).toNat none false, false)
  | .launch _ f sd sa => some (f, .launch sd (v.sval s.tick sa), false)
  | .sysCtxsave _ f sd sa => some (f, .ctxsave sd (v.sval s.tick sa).toNat, false)
  | .sysCtxload _ f sd sa => some (f, .ctxload sd (v.sval s.tick sa).toNat, false)
  | .sysPgattr _ f sa sb =>
    let a := v.sval s.tick sa
    let b := v.sval s.tick sb
    if a.extractLsb' 0 16 = 0 ∧ b.extractLsb' 58 3 = 0 ∧ b.extractLsb' 32 23 = 0 ∧ b.extractLsb' 12 19 = 0 then some (f, .pgattr a b .begun, false) else none
  | .sysTlbinv _ f sa sb => invalidateForm f false (v.sval s.tick sa) (v.sval s.tick sb)
  | .sysWininv _ f sa sb => invalidateForm f true (v.sval s.tick sa) (v.sval s.tick sb)
  | .sysL1inv _ f => some (f, .l1 true, false)
  | .sysL1wb _ f => some (f, .l1 false, false)
  | .sysSlwb _ f sa sb => sliceForm f false (v.sval s.tick sa) (v.sval s.tick sb)
  | .sysSlinv _ f sa sb => sliceForm f true (v.sval s.tick sa) (v.sval s.tick sb)
  | _ => none
where
  invalidateForm (f : Flag) (win : Bool) (a b : Word) : Option (Flag × OpBody × Bool) :=
    if a.extractLsb' 0 16 = 0 ∧ b.extractLsb' 44 20 = 0 then
      some (f, .tlbinv win a (b.extractLsb' 0 32).toNat (if b.extractLsb' 32 12 = 0 then v.gr.ctx else b.extractLsb' 32 12) none, false)
    else none
  sliceForm (f : Flag) (drop : Bool) (a n : Word) : Option (Flag × OpBody × Bool) :=
    if a.toNat % 64 = 0 ∧ a.toNat < 2 ^ 52 ∧ n.toNat % 64 = 0 ∧ n ≠ 0 ∧ dpaOffset a.toNat + n.toNat ≤ 2 ^ 40 then
      some (f, .slice drop a.toNat n.toNat, false)
    else none

-- Barrier words ---------------------------------------------------------------------------------------------------------------------------

/-- The phases whose waiters an update wakes that completes so many phases of a word (R281). -/
def wakes (flips : Nat) (phase : Bool) (p : Bool) : Bool := 1 ≤ flips && p == phase || 2 ≤ flips && p != phase

/-- What an entity that wakes is parked on: nothing, but a fault that one of its instructions has met while it waited (R49). -/
def wokenPark (e : Entity) : Option Park := if e.fault.isSome then some .fault else none

/-- What an entity is parked on after an update of a barrier word that wakes these phases. -/
def parkAfterFlip (word : Nat) (wk : Bool → Bool) (e : Entity) : Option Park :=
  match e.park with
  | some (.bar k p) => if k = word ∧ wk p = true then wokenPark e else e.park
  | x => x

/-- The synchronisation unit has made one step on a barrier word of a group (R281, R305, R306): the word's new value, every other
byte of the scratchpad as it was, and of the entities but one those woken that were parked on a phase completed. -/
structure BarStep (gr gr' : Group) (a : Actor) (word : Nat) (x : Word) (wk : Bool → Bool) : Prop where
  value : gr'.sp.word (8 * word) = x
  bytes : ∀ off, off < 8 * word ∨ 8 * word + 8 ≤ off → gr'.sp.byte off = gr.sp.byte off
  mark : (Table.find gr'.marks word).isSome = true
  buffers : gr'.wb = gr.wb ∧ gr'.ab = gr.ab ∧ gr'.cb = gr.cb ∧ gr'.sp.size = gr.sp.size
  parks : ∀ k wv, gr.waves[k]? = some wv → ∃ wv', gr'.waves[k]? = some wv' ∧ ∀ e, k ≠ a.w ∨ e ≠ a.e →
    (Table.find wv'.ents e).map (·.park) = (Table.find wv.ents e).map (parkAfterFlip word wk)

/-- The barrier instructions with the word that each names (R304). -/
def barForm : Instr → Option (BitVec 16)
  | .barInit _ w _ | .barInitBytes _ w _ | .barExpect _ w _ | .barArrive _ w _ | .barWait _ w _ | .barArw _ w _ => some w
  | _ => none

/-- The count of a barrier instruction that R304 limits to 1 to 2^29 - 1, and whether it is checked before the word's place. -/
def barCounted : Instr → Option (BarArg × Bool)
  | .barInit _ _ n | .barInitBytes _ _ n => some (n, false)
  | .barExpect _ _ n => some (n, true)
  | _ => none

/-- The count of an instruction that arrives (R304). -/
def barArrival : Instr → Option BarArg
  | .barArrive _ _ n | .barArw _ _ n => some n
  | _ => none

-- What the mailbox has posted ------------------------------------------------------------------------------------------------------------

/-- An entry with these words is at the next place of the completion queue, with its phase bit, and its vector is raised; no other byte
of the host's memory has changed (R259, R260). -/
structure Entered (s t : State) (w0 w1 : Word) (vector : Nat) : Prop where
  size : ∃ q, queueSize s.mbx.qsize = some q
    ∧ t.hostMem = writeBytes s.hostMem (s.mbx.cqbase.toNat + 16 * (s.mbx.posted % q))
        (toBytes (w0 ||| if s.mbx.posted / q % 2 = 0 then 0x8000000000000000 else 0).toNat 8 ++ toBytes w1.toNat 8)
  mbx : t.mbx = { s.mbx with posted := s.mbx.posted + 1 }
  msix : t.msix = vector :: s.msix

/-- A command has completed with a status: its entry is in the queue, or waits for room (R259, R361). -/
structure Answered (s t : State) (tag : BitVec 16) (status : Cause) : Prop where
  now : s.completionRoom = true → s.mbx.waiting = [] → Entered s t (completionWord tag status) 0 0
  later : s.completionRoom = false ∨ s.mbx.waiting ≠ [] → t.hostMem = s.hostMem ∧ t.msix = s.msix
    ∧ t.mbx = { s.mbx with waiting := s.mbx.waiting ++ [(completionWord tag status, 0)] }

/-- A cause record is posted: in the queue, else in the device buffer of 1,024 entries, else it is counted as lost (R361). -/
structure Posted (s t : State) (w0 w1 : Word) : Prop where
  now : s.completionRoom = true → s.mbx.waiting = [] → s.mbx.records = [] → Entered s t w0 w1 2
  later : (s.completionRoom = false ∨ s.mbx.waiting ≠ [] ∨ s.mbx.records ≠ []) → t.hostMem = s.hostMem ∧ t.msix = s.msix
    ∧ (s.mbx.records.length < 1024 → t.mbx = { s.mbx with records := s.mbx.records ++ [(w0, w1)] })
    ∧ (1024 ≤ s.mbx.records.length → ∃ n, t.mbx = { s.mbx with lost := n } ∧ n.toNat = min (s.mbx.lost.toNat + 1) (2 ^ 16 - 1))

/-- The state in which a commit-class instruction has released what its wave held (log 55), and the instruction's view of it: the
same entity, which stands where it stood. Every store to a local space has been performed: none waits for an acquire (R202). -/
def Released (s : State) (v : View) (u : State) (x : View) : Prop := u = s.close v ∧ u.view? = some x ∧ x.wv.late = []

/-- What a step finds in bytes of the scratchpad: as they stand after the release of what the wave held, and, where it held no store to
them, as they stood before (R234, log 55). -/
def Stands (v x : View) (off n : Nat) (P : Buf → Prop) : Prop :=
  P x.gr.sp ∧ ((∀ i, i < n → queueByte v.wv.sq .sp (off + i) = none) → P v.gr.sp)

/-- A 64-bit word of the scratchpad that a step reads has a value and is not refused (R185, R370). -/
def WordStands (s : State) (v x : View) (off : Nat) (w : Word) : Prop :=
  Stands v x off 8 fun b => b.word off = w ∧ b.refuses (s.warns v.gr) .sp off 8 = none

-- Integer arithmetic ---------------------------------------------------------------------------------------------------------------------

/-- What a form of integer arithmetic computes before its result is reduced to its type (R66): the type, the destination, whether
the result is clamped, and the exact integer in a thread. -/
structure ExactForm where
  ty : Ty
  d : Reg
  sat : Bool
  val : View → Nat → Nat → Int

/-- The integers of two register operands, and of a register operand and an immediate, put through an operation. -/
def exactTwo (ty : Ty) (d a b : Reg) (sat : Bool) (f : Int → Int → Int) : ExactForm :=
  ⟨ty, d, sat, fun v k t => f (intVal ty (v.src k ty a t)) (intVal ty (v.src k ty b t))⟩

/-- The same with an immediate, sign-extended to the type's width (R90). -/
def exactImm (ty : Ty) (d a : Reg) (i : BitVec 21) (f : Int → Int → Int) : ExactForm :=
  ⟨ty, d, false, fun v k t => f (intVal ty (v.src k ty a t)) (intVal ty (immWord ty i))⟩

/-- The forms of integer addition, subtraction, multiplication and multiply-add that reduce to their operands' type (R97, R98). -/
def exactForm : Instr → Option ExactForm
  | .vadd _ sat ty d a b => some (exactTwo ty d a b sat (· + ·))
  | .vsub _ sat ty d a b => some (exactTwo ty d a b sat (· - ·))
  | .vmul _ .low ty d a b => some (exactTwo ty d a b false (· * ·))
  | .vmul _ .sat ty d a b => some (exactTwo ty d a b true (· * ·))
  | .vaddImm _ ty d a i => some (exactImm ty d a i (· + ·))
  | .vsubImm _ ty d a i => some (exactImm ty d a i (· - ·))
  | .vmulImm _ ty d a i => some (exactImm ty d a i (· * ·))
  | .vfma _ ty d a b c => some ⟨ty, d, false, fun v k t =>
      intVal ty (v.src k ty a t) * intVal ty (v.src k ty b t) + intVal ty (v.src k ty c t)⟩
  | _ => none

/-- A word holds an exact integer reduced to a type (R66): as an integer of the type it is congruent to it modulo 2^n, or it is it
clamped to the type's range; and the bits above n are filled by the type (R65). -/
def Reduced (ty : Ty) (sat : Bool) (exact : Int) (r : Word) : Prop :=
  fillWord ty r = r
    ∧ if sat then intVal ty r = max (minInt ty) (min (maxInt ty) exact) else ∃ q : Int, exact = intVal ty r + q * (2 ^ ty.width : Nat)

end Sys2Proof.Machine
end

