-- ==== Sys2Proof/Certificates/Slice0/Obligations.lean ====
section
/-! DEFINITION. The statements for the provers. `v` is always the entity whose instruction is at hand, with its wave, group and
clause; `m` the checks of the form; a state after is described by what it holds and by what it leaves. -/

open Sys2Proof Sys2Proof.Machine

/-- R88, R89, R93 to R104: a class-0 form of fixed latency that passes its checks completes: its destination holds the form's
value in each thread that acts, FPSTATUS gains the flags of the threads that computed, the entity goes one slot on, and
nothing else of the machine changes: no other register, no flag count, no memory, no other wave. -/
def Obligations.LaneForms : Prop :=
  ∀ (i : Instr) (k : LaneForm) (m : Meta) (s : State) (v : View), laneForm i = some k → checks i = some m → Acts m s v →
    ∃ wv, exec i s = .next (s.withWave v wv)
      ∧ Wrote v.wv wv k.d k.wide (v.acting m) (fun t => (k.val v s.tick t).1)
      ∧ Raised v.wv wv (Computes k.d (v.acting m)) (fun t => (k.val v s.tick t).2)
      ∧ Moved v (v.after 1) wv ∧ sameOps v.wv wv
      ∧ wv = { v.wv with
          v := wv.v
          s := wv.s
          fpstatus := wv.fpstatus
          sRace := wv.sRace
          ents := wv.ents
          ops := wv.ops
          retired := wv.retired
          quantum := wv.quantum }

/-- R44, R45, R48, R99, R105: a division, square root or special function that passes its checks issues and goes in flight with
the values its operands have now; its flag's pending count rises by one. -/
def Obligations.LongForms : Prop :=
  ∀ (i : Instr) (k : LongForm) (m : Meta) (s : State) (v : View), longForm i = some k → checks i = some m → Acts m s v →
    ∃ wv vals fl, exec i s = .next (s.numbered.withWave v wv)
      ∧ Issued v s.nextId k.f (v.acting m) k.d.isS (fun o => o.body = .alu k.d k.ty vals fl ∧ o.ready = true ∧ o.refused = []) wv
      ∧ (∀ t, Computes k.d (v.acting m) t → vals.getD (if k.d.isS then 0 else t) 0 = (k.val v s.tick t).1)
      ∧ (∀ b, fl.getLsbD b = true ↔ ∃ t, Computes k.d (v.acting m) t ∧ (k.val v s.tick t).2.getLsbD b = true)

/-- R106, R107, R114: a compare, a predicate operation or a vote that passes its checks completes: its predicate holds the value
in the threads it writes (a uniform compare writes every active thread), p7 keeps reading true, and nothing else changes but
the flags a compare raises. -/
def Obligations.PredicateForms : Prop :=
  ∀ (i : Instr) (k : PredForm) (m : Meta) (s : State) (v : View), predForm i = some k → checks i = some m → Acts m s v →
    ∃ wv, exec i s = .next (s.withWave v wv)
      ∧ PredWritten v.wv wv k.pd (k.thr v (v.acting m)) (k.val v s.tick (v.acting m))
      ∧ Raised v.wv wv (k.who (v.acting m)) (k.fl v s.tick)
      ∧ Moved v (v.after 1) wv ∧ sameOps v.wv wv
      ∧ wv = { v.wv with
          p := wv.p
          fpstatus := wv.fpstatus
          ents := wv.ents
          ops := wv.ops
          retired := wv.retired
          quantum := wv.quantum }

/-- R109 to R112: a shuffle in which every acting thread names an active thread, or any thread in range or out of it with the
permissive bit, completes: each acting thread receives its source thread's value from before the instruction, or 0.
R109, R110: a shuffle that is not permissive and in which an acting thread names a thread out of range faults `XL_RANGE` with
those threads in LANEMASK, and else, where one names an inactive thread, `XL_INACTIVE`; nothing is written. -/
def Obligations.Shuffles : Prop :=
  (∀ (i : Instr) (z : Bool) (ty : Ty) (d a : BitVec 8) (m : Meta) (s : State) (v : View),
      shuffleForm i = some (z, ty, d, a) → checks i = some m → Acts m s v →
      (∀ t, t < 64 → (v.acting m).getLsbD t = true → shuffleSource v s.tick i t ≠ .bad
        ∧ (z = true ∨ (shuffleSource v s.tick i t).active v = true)) →
      ∃ wv, exec i s = .next (s.withWave v wv)
        ∧ Wrote v.wv wv (.v d) ty.wide (v.acting m) (fun t => shuffled v s.tick ty a (shuffleSource v s.tick i t))
        ∧ Moved v (v.after 1) wv ∧ sameOps v.wv wv
        ∧ wv = { v.wv with
            v := wv.v
            ents := wv.ents
            ops := wv.ops
            retired := wv.retired
            quantum := wv.quantum })
  ∧ (∀ (i : Instr) (ty : Ty) (d a : BitVec 8) (m : Meta) (s : State) (v : View),
      shuffleForm i = some (false, ty, d, a) → checks i = some m → Acts m s v →
      (∃ t, t < 64 ∧ (v.acting m).getLsbD t = true ∧ (shuffleSource v s.tick i t).active v = false) →
      ∃ c lanes t, exec i s = .next t ∧ Faulted s v c v.addr lanes t
        ∧ (c = Cause.xlRange ∧ lanes ≠ 0 ∧ ∀ t, t < 64 → (lanes.getLsbD t = true ↔ (v.acting m).getLsbD t = true ∧
              (shuffleSource v s.tick i t = .bad ∨ shuffleSource v s.tick i t = .outside))
          ∨ c = Cause.xlInactive ∧ ∀ t, t < 64 → (lanes.getLsbD t = true ↔ (v.acting m).getLsbD t = true ∧
              ∃ j, shuffleSource v s.tick i t = .thread j ∧ v.en.mask.getLsbD j = false)
            ∧ ∀ t, t < 64 → (v.acting m).getLsbD t = true → ∃ j, shuffleSource v s.tick i t = .thread j))

/-- R113: `lred` writes the value that the fixed tree over the acting threads gives into every acting thread, and raises the flags
of every node.
R113: `scan` writes into each acting thread the fixed tree's inclusive result at it, or with `.excl` that of the nearest acting
thread below it, and the operator's identity where there is none.
R114: `vote.ballot` of window 0 writes into the pair d of each acting thread the mask of the acting threads in which pa holds;
a window at or beyond W faults `XL_RANGE`. That LANEMASK then names every acting thread is the model's choice (log 111). -/
def Obligations.CrossLane : Prop :=
  (∀ (g : Guard) (op : RedOp) (ty : Ty) (d a : BitVec 8) (m : Meta) (s : State) (v : View),
      checks (.lred g op ty d a) = some m → Acts m s v →
      ∃ wv, exec (.lred g op ty d a) s = .next (s.withWave v wv)
        ∧ Wrote v.wv wv (.v d) ty.wide (v.acting m)
            (fun _ => fillWord ty ((laneReduce (redVal op ty) (v.present s.tick ty a (v.acting m)) 0 6).1.getD 0))
        ∧ wv.fpstatus = v.wv.fpstatus ||| (laneReduce (redVal op ty) (v.present s.tick ty a (v.acting m)) 0 6).2
        ∧ Moved v (v.after 1) wv ∧ sameOps v.wv wv
        ∧ wv = { v.wv with
            v := wv.v
            fpstatus := wv.fpstatus
            ents := wv.ents
            ops := wv.ops
            retired := wv.retired
            quantum := wv.quantum })
  ∧ (∀ (g : Guard) (op : RedOp) (excl : Bool) (ty : Ty) (d a : BitVec 8) (m : Meta) (s : State) (v : View),
      checks (.scan g op excl ty d a) = some m → Acts m s v →
      ∃ wv ys fl, exec (.scan g op excl ty d a) s = .next (s.withWave v wv)
        ∧ (ys, fl) = laneScan (redVal op ty) (v.present s.tick ty a (v.acting m)) 1 0 6
        ∧ (∃ vals : Nat → Word, Wrote v.wv wv (.v d) ty.wide (v.acting m) (fun t => fillWord ty (vals t))
          ∧ ∀ t, t < 64 → (v.acting m).getLsbD t = true →
              (excl = false → vals t = (ys.getD t none).getD 0)
            ∧ (excl = true → ∀ u, u < t → (v.acting m).getLsbD u = true → (∀ w, u < w → w < t → (v.acting m).getLsbD w = false) →
                vals t = (ys.getD u none).getD 0)
            ∧ (excl = true → (∀ u, u < t → (v.acting m).getLsbD u = false) → vals t = redIdentity op ty))
        ∧ wv.fpstatus = v.wv.fpstatus ||| fl
        ∧ Moved v (v.after 1) wv ∧ sameOps v.wv wv
        ∧ wv = { v.wv with
            v := wv.v
            fpstatus := wv.fpstatus
            ents := wv.ents
            ops := wv.ops
            retired := wv.retired
            quantum := wv.quantum })
  ∧ (∀ (g : Guard) (d : BitVec 8) (pa : BitVec 3) (k : BitVec 8) (m : Meta) (s : State) (v : View),
      checks (.voteBallot g d pa k) = some m → Acts m s v →
      (k = 0 → ∃ wv, exec (.voteBallot g d pa k) s = .next (s.withWave v wv)
        ∧ (∃ x : Word, Wrote v.wv wv (.v d) true (v.acting m) (fun _ => x)
          ∧ ∀ t, t < 64 → (x.getLsbD t = true ↔ (v.acting m).getLsbD t = true ∧ (v.wv.pReg pa).getLsbD t = true))
        ∧ Moved v (v.after 1) wv ∧ sameOps v.wv wv
        ∧ wv = { v.wv with
            v := wv.v
            ents := wv.ents
            ops := wv.ops
            retired := wv.retired
            quantum := wv.quantum })
      ∧ (k ≠ 0 → ∃ t, exec (.voteBallot g d pa k) s = .next t ∧ Faulted s v Cause.xlRange v.addr (v.acting m) t))

/-- R229, R231, R234, R235: a load none of whose threads the region rule forbids, and whose bytes no held store covers in part,
issues: it is in flight with its destination, the refused threads are kept with it, every byte of the others has been taken
from the wave's own stores or L1 or is asked for, and no register, held store or memory byte changes. -/
def Obligations.LoadsIssue : Prop :=
  ∀ (i : Instr) (k : LoadForm) (m : Meta) (s : State) (v : View) (oks : List (LaneOp × List Piece)) (ds : List Denied),
    loadForm i = some k → checks i = some m → Acts m s v →
    v.planned s k.access (v.acting m) k.d.isS k.w k.off (fun _ => 0) (fun _ => 0) = (oks, ds) → forbidden ds = false →
    (k.asof.isSome = true ∨ v.wv.region.isSome = true ∨ ∀ l ∈ oks, coverOf v.wv.sq k.sp l.2 ≠ .some) →
    ∃ t wv, exec i s = .next t ∧ t.wave? v.a.g v.a.w = some wv
      ∧ Flying v s.nextId k.f (v.acting m) k.d.isS (fun o => o.refused = ds
          ∧ (match k.asof with
            | none => ∃ ps, o.body = .load k.sp k.d k.ty ps
            | some r => o.body = .asof k.d k.ty (v.sval s.tick r) [])
          ∧ ∀ l ∈ oks, ∀ p ∈ l.2, ∀ b, b < p.len → Asked t v.a s.nextId o p b) wv
      ∧ Advanced v (v.after 1) wv ∧ SameRegs v.wv wv ∧ wv.sq = v.wv.sq ∧ Within s v.a.g v.a.w t

/-- R229, R233: outside a forwarding region a store of which no thread is refused, with room in the store queue, enters the queue
and retires: one entry with each thread's bytes at their addresses. Nothing is written yet, no request is sent, and no register
changes.
R229, R358: outside a forwarding region a store of which some thread is refused faults with the lowest such thread's cause and
address and the refused threads in LANEMASK, and with room in the queue the other threads' stores enter it. -/
def Obligations.Stores : Prop :=
  (∀ (g : Guard) (k : StoreForm) (m : Meta) (s : State) (v : View) (oks : List (LaneOp × List Piece)),
      checks (.st g k.sp k.ty k.w k.off k.a) = some m → Acts m s v → v.wv.region = none → s.queued v < 32 →
      v.planned s k.access (v.acting m) k.uni k.w k.off (fun t => v.src s.tick k.ty k.a t) (fun _ => 0) = (oks, []) →
      ∃ t wv, exec (.st g k.sp k.ty k.w k.off k.a) s = .next t ∧ t.wave? v.a.g v.a.w = some wv
        ∧ wv.sq = v.wv.sq ++ (if (storeEntry k.sp s.nextId oks).items = [] then [] else [storeEntry k.sp s.nextId oks])
        ∧ Advanced v (v.after 1) wv ∧ SameRegs v.wv wv ∧ sameOps v.wv wv ∧ t.reqs = s.reqs ∧ Within s v.a.g v.a.w t)
  ∧ (∀ (g : Guard) (k : StoreForm) (m : Meta) (s : State) (v : View) (oks : List (LaneOp × List Piece)) (e : Denied) (ds : List Denied),
      checks (.st g k.sp k.ty k.w k.off k.a) = some m → Acts m s v → v.wv.region = none → s.queued v < 32 →
      v.planned s k.access (v.acting m) k.uni k.w k.off (fun t => v.src s.tick k.ty k.a t) (fun _ => 0) = (oks, e :: ds) →
      forbidden (e :: ds) = false →
      ∃ t, exec (.st g k.sp k.ty k.w k.off k.a) s = .next t
        ∧ Faulted s v e.cause e.addr (deniedMask k.uni (v.acting m) (e :: ds)) t
        ∧ ((Cause.replayable e.cause || s.reaches v.gr.ctx) = true → ∃ wv, t.wave? v.a.g v.a.w = some wv
            ∧ wv.sq = v.wv.sq ++ (if (storeEntry k.sp s.nextId oks).items = [] then [] else [storeEntry k.sp s.nextId oks])))

/-- R236 to R238, R302: an atomic none of whose threads the region rule forbids issues: it is in flight with each performed
thread's address, operand and compare value, its refused threads are kept with it, and outside a region and a running quantum
the wave's held stores have left the queue before it. No register and no memory byte changes yet. -/
def Obligations.AtomicsIssue : Prop :=
  ∀ (i : Instr) (k : AtomForm) (m : Meta) (s : State) (v : View) (oks : List (LaneOp × List Piece)) (ds : List Denied),
    atomForm i = some k → checks i = some m → Acts m s v →
    v.planned s k.access (v.acting m) k.uni k.w k.off (fun t => v.src s.tick k.ty k.a t) (k.cmp v s.tick) = (oks, ds) →
    forbidden ds = false →
    ∃ t wv num, exec i s = .next t ∧ t.wave? v.a.g v.a.w = some wv ∧ s.nextId ≤ num
      ∧ Flying v num k.f (v.acting m) k.uni (fun o => o.refused = ds
          ∧ o.body = .atom k.sp k.op k.ty k.sc k.d (oks.flatMap fun l => l.2.map fun p => ⟨p.thread, p.addr, l.1.x, l.1.cmp⟩)) wv
      ∧ Advanced v (v.after 1) wv ∧ SameRegs v.wv wv
      ∧ (v.wv.region = none → s.det v.gr = false → wv.sq = [])
      ∧ (v.wv.region.isSome = true → wv.sq = v.wv.sq)
      ∧ Within s v.a.g v.a.w t

/-- R241, R153: an acquiring fence whose entity has no load or atomic in flight, and a releasing one whose wave has nothing
outstanding, completes: CSTAMP takes the stamps that loads and atomics returned (acquire) and those of stores and atomics
(release, outside a forwarding region), an acquire at `.wh` or wider leaves no line in the core's L1, and nothing else of the
wave's registers changes. -/
def Obligations.Fences : Prop :=
  ∀ (i : Instr) (acq rel : Bool) (sc : Scope) (m : Meta) (s : State) (v : View),
    ((∃ g prm, i = .fenceAcq g sc prm) ∧ acq = true ∧ rel = false ∨ (∃ g, i = .fenceRel g sc) ∧ acq = false ∧ rel = true
      ∨ (∃ g prm, i = .fenceAr g sc prm) ∧ acq = true ∧ rel = true) →
    checks i = some m → Acts m s v → (acq = true → v.wv.loadsInFlight v.a.e = false) → (rel = true → Settled s v) →
    ∃ t wv, exec i s = .next t ∧ t.wave? v.a.g v.a.w = some wv
      ∧ wv.cstamp = (((if rel && v.wv.region.isNone then v.wv.releaseStamps else v.wv).mergeStamp (if acq then v.wv.seen else none))).cstamp
      ∧ (acq = true → Scope.wide sc = true → ∀ k l, (k, l) ∈ t.l1 → k / 2 ^ 52 ≠ v.gr.core)
      ∧ (acq = false ∨ Scope.wide sc = false → t.l1 = s.l1)
      ∧ Advanced v (v.after 1) wv ∧ (v.wv.v, v.wv.s, v.wv.p, v.wv.b, v.wv.f, v.wv.fpstatus) = (wv.v, wv.s, wv.p, wv.b, wv.f, wv.fpstatus)
      ∧ sameOps v.wv wv ∧ wv.sq = v.wv.sq ∧ t.reqs = s.reqs ∧ Within s v.a.g v.a.w t

/-- R230: `win` makes its window of base sa and the limit: the smaller of the limit asked for (at most 2^32 - 1) and what is left of
the base's page, through which the translation at this moment goes; with no translation, or a page that is not present, the
limit is 0. Nothing but the window and cached translations changes. -/
def Obligations.Windows : Prop :=
  ∀ (i : Instr) (g : Guard) (bd : BitVec 4) (sa : BitVec 6) (lim : Nat) (m : Meta) (s : State) (v : View),
    ((∃ l, i = .win g bd sa l ∧ lim = l.toNat) ∨ ∃ sb, i = .winReg g bd sa sb ∧ lim = (v.sval s.tick sb).toNat) →
    checks i = some m → Acts m s v →
    ∃ t wv w, exec i s = .next t ∧ t.wave? v.a.g v.a.w = some wv ∧ WindowWritten v.wv wv bd w
      ∧ w.set = true ∧ w.base = v.sval s.tick sa ∧ w.limit ≤ lim ∧ w.limit < 2 ^ 32
      ∧ (∀ e, s.leaf v.gr.core v.gr.ctx w.base = .ok e →
          (s.ours (leafDpa e w.base) = true → (s.page (dpaPage (leafDpa e w.base))).mapped = true) →
          w.frame = leafDpa e w.base ∧ w.leaf = e
            ∧ w.limit = min (min lim (2 ^ 32 - 1)) (s.pageEnd v.gr.ctx w.base - w.base.toNat))
      ∧ (∀ e, s.leaf v.gr.core v.gr.ctx w.base = .error e → w.limit = 0)
      ∧ Moved v (v.after 1) wv ∧ sameOps v.wv wv
      ∧ wv = { v.wv with
          b := wv.b
          ents := wv.ents
          ops := wv.ops
          retired := wv.retired
          quantum := wv.quantum }
      ∧ t = { s with
          groups := t.groups
          tlb := t.tlb
          stackTable := t.stackTable
          flips := t.flips }
      ∧ Within s v.a.g v.a.w t

/-- R243 to R245: `stmp.get` writes CSTAMP into sd; `stmp.hold`, and `stmp.hold.dm` of this module, with a free slot and no stack
that refuses the stamp, place a hold of the context at it in the lowest free slot and write its identifier; `stmp.drop` of a
hold of this module ends it and frees its slot; a slot that holds nothing, as a revoked hold's (log 103), stays so. -/
def Obligations.StampsAndHolds : Prop :=
  (∀ (g : Guard) (sd : BitVec 6) (m : Meta) (s : State) (v : View), checks (.stmpGet g sd) = some m → Acts m s v →
    ∃ wv, exec (.stmpGet g sd) s = .next (s.withWave v wv) ∧ Wrote v.wv wv (.s sd) true (v.acting m) (fun _ => v.wv.cstamp)
      ∧ Moved v (v.after 1) wv ∧ wv.p = v.wv.p ∧ wv.b = v.wv.b ∧ wv.f = v.wv.f ∧ wv.cstamp = v.wv.cstamp)
  ∧ (∀ (i : Instr) (g : Guard) (sd sa : BitVec 6) (k : Nat) (m : Meta) (s : State) (v : View),
    (i = .stmpHold g sd sa ∨ ∃ sc, i = .stmpHoldDm g sd sa sc ∧ (v.sval s.tick sc).setWidth 8 = s.fabric.index) →
    checks i = some m → Acts m s v → s.freeHold v.gr.ctx = some k → s.holdRefused (v.sval s.tick sa) = none →
    ∃ t wv, exec i s = .next t ∧ t.wave? v.a.g v.a.w = some wv
      ∧ Wrote v.wv wv (.s sd) true (v.acting m) (fun _ => holdIdent s.fabric.index k)
      ∧ t.holds = Table.insert s.holds (holdKey v.gr.ctx k) ⟨v.sval s.tick sa, s.holdOrder⟩
      ∧ Moved v (v.after 1) wv ∧ t.mem = s.mem
      ∧ t = { s with
          groups := t.groups
          holds := t.holds
          holdOrder := s.holdOrder + 1 })
  ∧ (∀ (g : Guard) (sa : BitVec 6) (k : Nat) (m : Meta) (s : State) (v : View),
    checks (.stmpDrop g sa) = some m → Acts m s v → k < 16 → v.sval s.tick sa = holdIdent s.fabric.index k →
    ∃ t wv, exec (.stmpDrop g sa) s = .next t ∧ t.wave? v.a.g v.a.w = some wv ∧ Plain v (v.after 1) wv
      ∧ (∀ n, Table.find t.holds n = if n = holdKey v.gr.ctx k then none else Table.find s.holds n)
      ∧ t = { s with
          groups := t.groups
          holds := t.holds
          holdsEnded := s.holdsEnded + if (Table.find s.holds (holdKey v.gr.ctx k)).isSome then 1 else 0 })

/-- R246, R247: an `xbeg` of a wave with one entity, with a shadow of its core and a slot of the Unit free and no `xbeg` waiting
before it, opens its region: the lowest free slot, a start count one above the larger of the Unit's and its causal stamp's, a shadow of the wave's registers, its
live-ins, its fallback and its cause register, and the entity goes on behind its two slots. -/
def Obligations.RegionOpens : Prop :=
  ∀ (smask : BitVec 16) (vmask : BitVec 32) (sc : BitVec 6) (fb : BitVec 32) (m : Meta) (s : State) (v : View),
    checks (.xbeg smask vmask sc fb) = some m → Acts m s v → v.wv.ents.length ≤ 1 → v.wv.region = none → Settled s v →
    s.canBegin v.gr.core = true → s.xbegQueue = [] →
    ∃ t wv r x, exec (.xbeg smask vmask sc fb) s = .next t ∧ t.wave? v.a.g v.a.w = some wv ∧ wv.region = some r
      ∧ s.freeSlot = some r.slot ∧ Table.find t.slots r.slot = some x ∧ x.start = countMax s.startCount (count v.wv.acquire.cstamp) + 1 ∧ t.startCount = x.start
      ∧ x.dir = [] ∧ x.writes = [] ∧ x.edges = [] ∧ x.ending = none
      ∧ (r.v, r.s, r.p, r.b) = (v.wv.v, v.wv.s, v.wv.p, v.wv.b) ∧ (r.vmask, r.smask, r.sc) = (vmask, smask, sc)
      ∧ r.fallback = v.addr + ((fb.signExtend 64) <<< 3) ∧ r.mask = v.en.mask ∧ r.recs = v.en.recs ∧ r.aborted = none
      ∧ (∃ e, Table.find wv.ents v.a.e = some e ∧ (e.hdr, e.idx) = v.after 2 ∧ e.mask = v.en.mask ∧ e.recs = v.en.recs)
      ∧ SameButStamp v.wv wv ∧ t.mem = s.mem

/-- R252, R253: an `xend` in a region of a wave with one entity (outside deterministic mode) goes in flight and hands the region
to the Unit, which knows it as ending; outside a region it goes in flight alone. An `xstat` writes depth and slot of the region,
or 0 outside one. An `xabt` outside a region only retires. -/
def Obligations.RegionEnds : Prop :=
  (∀ (g : Guard) (fl : BitVec 4) (m : Meta) (s : State) (v : View), checks (.xend g fl) = some m → Acts m s v →
    v.wv.ents.length ≤ 1 → s.det v.gr = false →
    ∃ t wv num, exec (.xend g fl) s = .next t ∧ t.wave? v.a.g v.a.w = some wv
      ∧ Flying v num ⟨0, fl⟩ (v.acting m) true (fun o => o.body = .xend ∧ o.ready = false) wv
      ∧ Advanced v (v.after 1) wv ∧ SameRegs v.wv wv ∧ wv.region = v.wv.region
      ∧ (∀ r x, v.wv.region = some r → Table.find s.slots r.slot = some x →
          Table.find t.slots r.slot = some { x with ending := some s.unitOrder } ∧ t.unitOrder = s.unitOrder + 1)
      ∧ (v.wv.region = none → t.slots = s.slots ∧ wv.sq = []) ∧ t.mem = s.mem)
  ∧ (∀ (g : Guard) (sd : BitVec 6) (m : Meta) (s : State) (v : View), checks (.xstat g sd) = some m → Acts m s v →
    ∃ wv x, exec (.xstat g sd) s = .next (s.withWave v wv) ∧ Wrote v.wv wv (.s sd) true (v.acting m) (fun _ => x)
      ∧ Moved v (v.after 1) wv
      ∧ (v.wv.region = none → x = 0)
      ∧ (∀ r, v.wv.region = some r → x.getLsbD 63 = true ∧ x.extractLsb' 56 3 = BitVec.ofNat 3 (s.depthOf r.slot)
          ∧ x.extractLsb' 48 8 = BitVec.ofNat 8 r.slot))
  ∧ (∀ (g : Guard) (sa : BitVec 6) (m : Meta) (s : State) (v : View), checks (.xabt g sa) = some m → Acts m s v →
    v.wv.region = none →
    ∃ t wv, exec (.xabt g sa) s = .next t ∧ t.wave? v.a.g v.a.w = some wv ∧ Advanced v (v.after 1) wv ∧ SameRegs v.wv wv
      ∧ Within s v.a.g v.a.w t)

/-- R251, R253: an `xabt` in a region aborts it: its slot is free, no request of it is left, and its wave waits for delivery of
the abort with the cause `XR_EXPLICIT` and the low 8 bits of sa, or with that of an earlier abort. -/
def Obligations.RegionAborts : Prop :=
  ∀ (g : Guard) (sa : BitVec 6) (m : Meta) (s : State) (v : View) (r : Region) (x : Slot), checks (.xabt g sa) = some m → Acts m s v →
    v.wv.region = some r → Table.find s.slots r.slot = some x → x.g = v.a.g → x.w = v.a.w →
    ∃ t wv r', exec (.xabt g sa) s = .next t ∧ t.wave? v.a.g v.a.w = some wv ∧ wv.region = some r'
      ∧ Table.find t.slots r.slot = none
      ∧ r'.aborted = some (r.aborted.getD (abortWord ((v.sval s.tick sa).setWidth 8) Cause.xrExplicit))
      ∧ (∀ q ∈ t.reqs, q.2.slot ≠ some r.slot) ∧ SameRegs v.wv wv ∧ t.mem = s.mem

/-- R122, R234: an `hset` inside the scratchpad allocation takes the 32 bytes that the newest of the wave's held stores to them covers
whole, or that memory holds where no held store covers any, or else that memory holds once the held stores are released; before it
reads memory it waits until every store of the wave that has been released is there. It gives the handle the record, or empties it
where the valid bit is clear; a record with the valid bit set that R117 and R118 do not accept faults `HANDLE_BAD` and leaves every
handle; a word that may not be read faults with its cause and place.
R122, R233: an `hget` inside the scratchpad allocation, with room in the store queue, holds the handle's 32 bytes as a store of
the scratchpad: 32 zero bytes for an empty handle. Nothing else changes. -/
def Obligations.Handles : Prop :=
  (∀ (g : Guard) (hd : BitVec 6) (idx : BitVec 16) (m : Meta) (s : State) (v : View) (r : BitVec 256) (off : Nat) (c : Cover),
      checks (.hset g hd idx) = some m → Acts m s v → off = 8 * idx.toNat → off + 32 ≤ v.gr.sp.size →
      c = coverOf v.wv.sq .sp [⟨lowest v.en.mask, 0, off, 32⟩] →
      ((∃ bs, c = .full bs ∧ r = recOfBytes (bs.map (·.2)))
        ∨ (c = .free ∧ v.wv.late = [] ∧ v.gr.spRefused (s.warns v.gr) off 32 = none ∧ r = recOfBytes (v.gr.sp.read off 32))
        ∨ (c = .some ∧ s.det v.gr = false ∧ ∃ u x, u = s.closeRegion v.a.g v.a.w ∧ u.view? = some x ∧ x.wv.late = []
            ∧ x.gr.spRefused (s.warns v.gr) off 32 = none ∧ r = recOfBytes (x.gr.sp.read off 32)) →
        ((recValid r = false ∨ (decodeRec r).isSome = true) →
          ∃ t wv gr, exec (.hset g hd idx) s = .next t ∧ t.wave? v.a.g v.a.w = some wv ∧ t.group? v.a.g = some gr
            ∧ (∀ k : BitVec 6, gr.handle k = if k = hd then (if recValid r then r else 0) else v.gr.handle k)
            ∧ Advanced v (v.after 1) wv ∧ SameRegs v.wv wv ∧ t.mem = s.mem)
        ∧ (recValid r = true → decodeRec r = none →
          ∃ t, exec (.hset g hd idx) s = .next t ∧ Faulted s v Cause.handleBad v.addr (oneMask (lowest v.en.mask)) t
            ∧ ∃ gr, t.group? v.a.g = some gr ∧ ∀ k : BitVec 6, gr.handle k = v.gr.handle k))
      ∧ (c = .free → v.wv.late ≠ [] → exec (.hset g hd idx) s = .next s)
      ∧ (c = .free → v.wv.late = [] → ∀ x a, v.gr.spRefused (s.warns v.gr) off 32 = some (x, a) →
        ∃ t, exec (.hset g hd idx) s = .next t ∧ Faulted s v x (BitVec.ofNat 64 a) (oneMask (lowest v.en.mask)) t))
  ∧ (∀ (g : Guard) (hd : BitVec 6) (idx : BitVec 16) (m : Meta) (s : State) (v : View),
      checks (.hget g hd idx) = some m → Acts m s v → 8 * idx.toNat + 32 ≤ v.gr.sp.size → s.queued v < 32 →
      ∃ wv, exec (.hget g hd idx) s = .next (s.withWave v wv)
        ∧ wv.sq = v.wv.sq ++ [⟨.sp, [⟨lowest v.en.mask, 8 * idx.toNat, toBytes (v.gr.handle hd).toNat 32⟩], s.nextId, false⟩]
        ∧ Moved v (v.after 1) wv ∧ SameRegs v.wv wv ∧ sameOps v.wv wv)

/-- R123, R124, R127, R134 to R137, R142, R193: an engine instruction whose operands are accepted, of a wave with nothing
outstanding, with room in its queue, puts one command into it: numbered next in its queue, with the records of its handles as
they stand, its barrier word and the wave's causal stamp after the release; the instruction goes in flight with it. No other
command, no general register and no memory byte changes. -/
def Obligations.EngineIssue : Prop :=
  ∀ (i : Instr) (k : Issue) (m : Meta) (s : State) (v : View), issueForm s v i = some k → checks i = some m → Acts m s v →
    Settled s v → s.queueLen v.a.g k.q < queueDepth k.q →
    ∃ t wv gr c, exec i s = .next t ∧ t.wave? v.a.g v.a.w = some wv ∧ t.group? v.a.g = some gr
      ∧ t.cmds = Table.insert s.cmds s.nextId c ∧ c.g = v.a.g ∧ c.wave = v.a.w ∧ c.queue = k.q ∧ c.kind = k.kind ∧ c.recs = k.recs
      ∧ c.bar = k.bar.map (·.toNat) ∧ c.num = min (v.gr.queue k.q).next (2 ^ 64 - 1) ∧ c.cstamp = v.wv.releaseStamps.cstamp
      ∧ c.begun = false ∧ c.finished = false ∧ c.progress = 0 ∧ c.err = none
      ∧ (gr.queue k.q).next = min (c.num + 1) (2 ^ 64 - 1) ∧ (gr.queue k.q).c = (v.gr.queue k.q).c
      ∧ Flying v (s.nextId + 1) k.f v.en.mask true (fun o => o.body = .cmd s.nextId) wv
      ∧ Advanced v (v.after 1) wv ∧ wv.cstamp = v.wv.releaseStamps.cstamp ∧ SameButStamp v.wv wv ∧ t.mem = s.mem ∧ t.reqs = s.reqs

/-- R52, R296, R297: `br` goes to its target; `brc` to the next clause where no active thread takes it, to its target where all do,
and else splits: the side with fewer threads, the taken one on a tie, detaches as a fragment with a slot of the core, each side
with a pair record of the token on top; with no slot free it stays as the other side of a serial record; beyond 16 records it
faults `DIVERGE_DEPTH`. No register and no memory changes. -/
def Obligations.Branches : Prop :=
  (∀ (g : Guard) (off : BitVec 24) (m : Meta) (s : State) (v : View), checks (.br g off) = some m → Acts m s v →
    ∃ wv, exec (.br g off) s = .next (s.withWave v wv) ∧ Plain v (v.addr + off.signExtend 64 <<< 3, 0) wv)
  ∧ (∀ (pn : BitVec 3) (neg : Bool) (off tok : BitVec 19) (m : Meta) (s : State) (v : View) (taken other : Mask) (target token : Word),
    checks (.brc pn neg off tok) = some m → Acts m s v → taken = v.en.mask &&& v.wv.guardMask ⟨pn, neg⟩ → other = v.en.mask &&& ~~~taken →
    target = v.addr + off.signExtend 64 <<< 3 → token = v.addr + tok.signExtend 64 <<< 3 →
    (taken = 0 → ∃ wv, exec (.brc pn neg off tok) s = .next (s.withWave v wv) ∧ Plain v (v.nextHdr, 0) wv)
    ∧ (taken ≠ 0 → other = 0 → ∃ wv, exec (.brc pn neg off tok) s = .next (s.withWave v wv) ∧ Plain v (target, 0) wv)
    ∧ (taken ≠ 0 → other ≠ 0 → 16 ≤ v.en.recs.length →
      ∃ t, exec (.brc pn neg off tok) s = .next t ∧ Faulted s v Cause.divergeDepth v.addr v.en.mask t)
    ∧ (∀ stay stayPc leave leavePc, taken ≠ 0 → other ≠ 0 → v.en.recs.length < 16 →
      (stay, stayPc, leave, leavePc) =
        (if popcount taken ≤ popcount other then (other, v.nextHdr, taken, target) else (taken, target, other, v.nextHdr)) →
      (s.fragments v.gr.core < 64 → Table.find v.wv.ents v.wv.nextEnt = none →
        ∃ wv e f, exec (.brc pn neg off tok) s = .next (s.withWave v wv)
          ∧ Table.find wv.ents v.a.e = some e ∧ e.mask = stay ∧ (e.hdr, e.idx) = (stayPc, 0) ∧ e.frag = v.en.frag
          ∧ e.recs = { pair := some v.wv.nextPair, token := token } :: v.en.recs
          ∧ Table.find wv.ents v.wv.nextEnt = some f ∧ f.mask = leave ∧ (f.hdr, f.idx) = (leavePc, 0) ∧ f.frag = true ∧ f.park = none
          ∧ f.recs = { pair := some v.wv.nextPair, detached := true, token := token } :: v.en.recs
          ∧ (∀ k, k ≠ v.a.e → k ≠ v.wv.nextEnt → Table.find wv.ents k = Table.find v.wv.ents k)
          ∧ sameOps v.wv wv
          ∧ wv = { v.wv with
              ents := wv.ents
              ops := wv.ops
              retired := wv.retired
              quantum := wv.quantum
              sRace := wv.sRace
              nextEnt := v.wv.nextEnt + 1
              nextPair := v.wv.nextPair + 1 })
      ∧ (64 ≤ s.fragments v.gr.core →
        ∃ wv e, exec (.brc pn neg off tok) s = .next (s.withWave v wv)
          ∧ Table.find wv.ents v.a.e = some e ∧ e.mask = stay ∧ (e.hdr, e.idx) = (stayPc, 0)
          ∧ e.recs = { pair := none, token := token, other := leave, otherpc := leavePc, full := v.en.mask } :: v.en.recs
          ∧ (∀ k, k ≠ v.a.e → Table.find wv.ents k = Table.find v.wv.ents k)
          ∧ sameOps v.wv wv
          ∧ wv = { v.wv with
              ents := wv.ents
              ops := wv.ops
              retired := wv.retired
              quantum := wv.quantum })))

/-- R298, R299: a `join` whose clause no record names passes; one that a record below the top names faults `JOIN_ORDER`; on a
serial record the entity goes to the other side, and on its second side goes on with the full mask; of the two sides of a split
the first to come parks and the second merges with it into the one that had not detached, which goes on with both masks, unless the
first stands at a fault meanwhile, for which the second waits (R49); with the partner Gone the entity passes alone.
R193, R300: an `exit` of a wave with nothing outstanding releases at `.pk` and ends the entity's threads. With no record the
entity is Gone, and with the last entity of the group's waves the group drains; on the first side of a serial record whose other
side still has threads the entity goes on there. No thread that has ended is left in a record. -/
def Obligations.JoinsAndExits : Prop :=
  (∀ (m : Meta) (s : State) (v : View), checks .join = some m → Acts m s v →
     ((∀ r ∈ v.en.recs, r.token ≠ v.en.hdr) → ∃ wv, exec .join s = .next (s.withWave v wv) ∧ Plain v (v.after 1) wv)
     ∧ (∀ r rest, v.en.recs = r :: rest → r.token ≠ v.en.hdr → (∃ x ∈ rest, x.token = v.en.hdr) →
       ∃ t, exec .join s = .next t ∧ Faulted s v Cause.joinOrder v.addr (oneMask (lowest v.en.mask)) t)
     ∧ (∀ r rest, v.en.recs = r :: rest → r.token = v.en.hdr → r.pair = none →
       ∃ wv e, exec .join s = .next (s.withWave v wv) ∧ Table.find wv.ents v.a.e = some e
         ∧ ((e.hdr, e.idx), e.mask, e.recs) = (if r.second then (v.after 1, r.full, rest) else ((r.otherpc, 0), r.other, { r with second := true } :: rest))
         ∧ (∀ k, k ≠ v.a.e → Table.find wv.ents k = Table.find v.wv.ents k) ∧ sameOps v.wv wv ∧ SameRegs v.wv wv)
     ∧ (∀ r rest pair, v.en.recs = r :: rest → r.token = v.en.hdr → r.pair = some pair →
       (v.wv.waiting? v.a.e pair = none → v.wv.hasPartner v.a.e pair = true →
         ∃ wv e, exec .join s = .next (s.withWave v wv) ∧ Table.find wv.ents v.a.e = some e ∧ e.park = some (.join pair)
           ∧ (e.hdr, e.idx) = v.after 1 ∧ e.mask = v.en.mask ∧ e.recs = v.en.recs ∧ e.pipe = none
           ∧ (∀ k, k ≠ v.a.e → Table.find wv.ents k = Table.find v.wv.ents k) ∧ sameOps v.wv wv ∧ SameRegs v.wv wv)
       ∧ (v.wv.waiting? v.a.e pair = none → v.wv.hasPartner v.a.e pair = false →
         ∃ wv e, exec .join s = .next (s.withWave v wv) ∧ Table.find wv.ents v.a.e = some e
           ∧ (e.hdr, e.idx) = v.after 1 ∧ e.mask = v.en.mask ∧ e.recs = rest
           ∧ (∀ k, k ≠ v.a.e → Table.find wv.ents k = Table.find v.wv.ents k) ∧ sameOps v.wv wv ∧ SameRegs v.wv wv)
       ∧ (∀ k x f, v.wv.waiting? v.a.e pair = some k → Table.find v.wv.ents k = some x → x.fault = some f → exec .join s = .next s)
       ∧ (∀ k x stay gone, v.wv.waiting? v.a.e pair = some k → Table.find v.wv.ents k = some x → x.fault = none →
         (stay, gone) = (if r.detached then (k, v.a.e) else (v.a.e, k)) →
         ∃ wv e, exec .join s = .next (s.withWave v wv) ∧ Table.find wv.ents gone = none ∧ Table.find wv.ents stay = some e
           ∧ e.mask = x.mask ||| v.en.mask ∧ e.park = none
           ∧ ((e.hdr, e.idx), e.recs) = (if r.detached then ((x.hdr, x.idx), x.recs.drop 1) else (v.after 1, rest))
           ∧ (∀ j, j ≠ stay → j ≠ gone → Table.find wv.ents j = Table.find v.wv.ents j)
           ∧ (∀ n o, Table.find wv.ops n = some o → o.ent ≠ gone) ∧ SameRegs v.wv wv)))
  ∧ (∀ (g : Guard) (m : Meta) (s : State) (v : View), checks (.exit g) = some m → Acts m s v → Settled s v →
      ∃ t wv gr, exec (.exit g) s = .next t ∧ t.wave? v.a.g v.a.w = some wv ∧ t.group? v.a.g = some gr
        ∧ (v.en.recs = [] → Table.find wv.ents v.a.e = none)
        ∧ (∀ r rest, v.en.recs = r :: rest → r.pair = none → r.second = false → r.other &&& ~~~v.en.mask ≠ 0 →
            ∃ e, Table.find wv.ents v.a.e = some e ∧ (e.hdr, e.idx) = (r.otherpc, 0) ∧ e.mask = r.other &&& ~~~v.en.mask
              ∧ ∀ q ∈ e.recs, q.other &&& v.en.mask = 0 ∧ q.full &&& v.en.mask = 0)
        ∧ (∀ k, k ≠ v.a.e → (Table.find wv.ents k).map (fun e => (e.mask, e.hdr, e.idx)) = (Table.find v.wv.ents k).map fun e => (e.mask, e.hdr, e.idx))
        ∧ (gr.state = .draining ↔ v.gr.state = .draining ∨ v.gr.state = .running ∧ ∀ w ∈ gr.waves, w.ents = [])
        ∧ wv.cstamp = v.wv.releaseStamps.cstamp ∧ SameButStamp v.wv wv ∧ wv.sq = []
        ∧ (∀ w, w ≠ v.a.w → t.wave? v.a.g w = s.wave? v.a.g w) ∧ t.mem = s.mem ∧ t.reqs = s.reqs)

/-- R301 to R303, R311: outside deterministic mode `rgn` closes the wave's region and opens one: the entity's entry is the marker with
its live-ins, every other entity takes a new entry, and no store is held; `yield` and `qend` close the region, and after a `yield`
the entity sits out the next selection of every pipe. No register changes and no memory byte. -/
def Obligations.Markers : Prop :=
  (∀ (smask : BitVec 16) (vmask : BitVec 32) (m : Meta) (s : State) (v : View), checks (.rgn smask vmask) = some m → Acts m s v →
    (s.det v.gr = true → ∃ wv, exec (.rgn smask vmask) s = .next (s.withWave v wv) ∧ Plain v (v.after 1) wv)
    ∧ (s.det v.gr = false → ∃ t wv e, exec (.rgn smask vmask) s = .next t ∧ t.wave? v.a.g v.a.w = some wv
      ∧ Table.find wv.ents v.a.e = some e ∧ e.entry = ⟨true, true, v.en.hdr, v.en.idx, vmask, smask⟩
      ∧ (∀ k x, k ≠ v.a.e → Table.find wv.ents k = some x → x.entry.taken = false)
      ∧ (∀ n o, Table.find wv.ops n = some o → o.early = true)
      ∧ Advanced v (v.after 1) wv ∧ SameRegs v.wv wv ∧ wv.sq = [] ∧ Within s v.a.g v.a.w t))
  ∧ (∀ (i : Instr) (g : Guard) (m : Meta) (s : State) (v : View), i = .yield g ∨ i = .qend g → checks i = some m → Acts m s v →
    ∃ t wv e, exec i s = .next t ∧ t.wave? v.a.g v.a.w = some wv ∧ Table.find wv.ents v.a.e = some e
      ∧ e.skip = (if i = .yield g ∧ s.det v.gr = false then 0xF else v.en.skip)
      ∧ Advanced v (v.after 1) wv ∧ SameRegs v.wv wv ∧ wv.sq = [] ∧ Within s v.a.g v.a.w t)

/-- R304 to R306: `bar.init` and `bar.init.bytes` with a count in range and a word in the allocation set the word up, at phase 0 with
nothing arrived, and leave a word that is set up so; `bar.expect` on a word of kind bytes gives it a new count and completes the
phases that what has arrived fills. That what the wave holds is released first, and performed before the step, is the model's choice
(log 55). -/
def Obligations.BarrierSetup : Prop :=
  (∀ (i : Instr) (bytes : Bool) (g : Guard) (idx : BitVec 16) (n : BarArg) (m : Meta) (s u : State) (v x : View),
    (i = .barInit g idx n ∧ bytes = false ∨ i = .barInitBytes g idx n ∧ bytes = true) → checks i = some m → Acts m s v → Released s v u x →
    8 * idx.toNat + 8 ≤ v.gr.sp.size → 1 ≤ v.barArg s.tick n → v.barArg s.tick n < 2 ^ 29 →
    ∃ t wv gr y, exec i s = .next t ∧ t.wave? v.a.g v.a.w = some wv ∧ t.group? v.a.g = some gr
      ∧ BarStep x.gr gr v.a idx.toNat y (fun _ => false)
      ∧ (y = barWord false bytes false (v.barArg s.tick n) 0
        ∨ y = x.gr.sp.word (8 * idx.toNat) ∧ x.gr.sp.allValid (8 * idx.toNat) 8 = true ∧ y.getLsbD 62 = bytes
          ∧ (y.extractLsb' 32 29).toNat = v.barArg s.tick n ∧ y.extractLsb' 0 3 = 0)
      ∧ Advanced v (v.after 1) wv ∧ SameRegs v.wv wv
      ∧ t = { u with
          groups := t.groups })
  ∧ (∀ (g : Guard) (idx : BitVec 16) (n : BarArg) (m : Meta) (s u : State) (v x : View) (w : Word) (flips left : Nat),
    checks (.barExpect g idx n) = some m → Acts m s v → Released s v u x → v.en.park = none →
    8 * idx.toNat + 8 ≤ v.gr.sp.size → 1 ≤ v.barArg s.tick n → v.barArg s.tick n < 2 ^ 29 →
    WordStands s v x (8 * idx.toNat) w → w.getLsbD 62 = true → w.extractLsb' 0 3 = 0 →
    flips = (w.extractLsb' 3 29).toNat / v.barArg s.tick n → left = (w.extractLsb' 3 29).toNat % v.barArg s.tick n →
    ∃ t wv gr, exec (.barExpect g idx n) s = .next t ∧ t.wave? v.a.g v.a.w = some wv ∧ t.group? v.a.g = some gr
      ∧ BarStep x.gr gr v.a idx.toNat
          (barWord (w.getLsbD 63 != (flips % 2 == 1)) true (w.getLsbD 61) (v.barArg s.tick n) left) (wakes flips (w.getLsbD 63))
      ∧ (∃ e, Table.find wv.ents v.a.e = some e ∧ (e.hdr, e.idx) = v.after 1 ∧ e.park = none)
      ∧ t = { u with
          groups := t.groups
          l1 := t.l1 })

/-- R281, R282, R305: `bar.arrive` on a word of kind arrivals whose count it declares counts one arrival; with the last of a phase the
word flips and every entity of the group that is parked on that phase wakes; `bar.arw` arrives and then waits for the phase it
found, which is over where its arrival was the last. (Of a wave with nothing outstanding.) -/
def Obligations.BarrierArrivals : Prop :=
  ∀ (i : Instr) (n : BarArg) (idx : BitVec 16) (m : Meta) (s : State) (v : View) (w : Word) (flips left : Nat),
    barArrival i = some n → barForm i = some idx → checks i = some m → Acts m s v → Settled s v → v.en.park = none →
    8 * idx.toNat + 8 ≤ v.gr.sp.size → v.gr.sp.refuses (s.warns v.gr) .sp (8 * idx.toNat) 8 = none → w = v.gr.sp.word (8 * idx.toNat) →
    w.getLsbD 62 = false → w.extractLsb' 0 3 = 0 → (w.extractLsb' 32 29).toNat = v.barArg s.tick n → v.barArg s.tick n ≠ 0 →
    flips = ((w.extractLsb' 3 29).toNat + 1) / v.barArg s.tick n → left = ((w.extractLsb' 3 29).toNat + 1) % v.barArg s.tick n →
    ∃ t wv gr e, exec i s = .next t ∧ t.wave? v.a.g v.a.w = some wv ∧ t.group? v.a.g = some gr
      ∧ BarStep v.gr gr v.a idx.toNat
          (barWord (w.getLsbD 63 != (flips % 2 == 1)) false (w.getLsbD 61) (v.barArg s.tick n) left) (wakes flips (w.getLsbD 63))
      ∧ Table.find wv.ents v.a.e = some e ∧ (e.hdr, e.idx) = v.after 1
      ∧ ((∃ g, i = .barArw g idx n) → flips % 2 = 0 → e.park = some (.bar idx.toNat (w.getLsbD 63)) ∧ e.pipe = none)
      ∧ ((∃ g, i = .barArrive g idx n) ∨ flips % 2 = 1 → e.park = none)
      ∧ SameButStamp v.wv wv
      ∧ t = { s with
          groups := t.groups }

/-- R282, R305: `bar.wait` on a phase that is over goes on and acquires with the stamp of the last completed phase, at `.wh` on a
word of kind bytes; on the phase that stands it parks. (Of an entity whose reads have been performed, R204.) That what the wave holds
is released first is the model's choice (log 55). -/
def Obligations.BarrierWaits : Prop :=
  ∀ (g : Guard) (idx : BitVec 16) (p : BarArg) (m : Meta) (s u : State) (v x : View) (w : Word),
    checks (.barWait g idx p) = some m → Acts m s v → Released s v u x → u.readsDone v.a u.nextId = true → v.en.park = none →
    8 * idx.toNat + 8 ≤ v.gr.sp.size → WordStands s v x (8 * idx.toNat) w → w.extractLsb' 0 3 = 0 →
    ∃ t wv gr e, exec (.barWait g idx p) s = .next t ∧ t.wave? v.a.g v.a.w = some wv ∧ t.group? v.a.g = some gr
      ∧ BarStep x.gr gr v.a idx.toNat w (fun _ => false)
      ∧ Table.find wv.ents v.a.e = some e ∧ (e.hdr, e.idx) = v.after 1
      ∧ (w.getLsbD 63 ≠ v.phaseArg s.tick p → e.park = none
          ∧ wv.cstamp = (x.wv.acquire.mergeStamp (((Table.find x.gr.marks idx.toNat).getD {}).last)).cstamp
          ∧ (w.getLsbD 62 = true → ∀ k l, (k, l) ∈ t.l1 → k / 2 ^ 52 ≠ v.gr.core))
      ∧ (w.getLsbD 63 = v.phaseArg s.tick p → e.park = some (.bar idx.toNat (v.phaseArg s.tick p)) ∧ e.pipe = none ∧ wv.cstamp = v.wv.cstamp
          ∧ t.l1 = s.l1)
      ∧ SameButStamp v.wv wv
      ∧ t = { u with
          groups := t.groups
          l1 := t.l1 }

/-- R281, R304, R305: a barrier instruction on a word beyond the scratchpad allocation faults `SP_BOUND`; a count that may not be
declared faults `BAR_COUNT`, and so does an arrival whose count is not the word's, or whose word expects none; the wrong kind, or
a word that is not well-formed, faults `BAR_KIND`; a word that may not be read faults with its cause and place (R185, R370). Every word
is left. Which of `SP_BOUND` and `BAR_COUNT` is raised where both apply is the model's choice (log 127). -/
def Obligations.BarrierFaults : Prop :=
  ∀ (i : Instr) (idx : BitVec 16) (m : Meta) (s : State) (v : View) (w : Word),
    barForm i = some idx → checks i = some m → Acts m s v → Settled s v → w = v.gr.sp.word (8 * idx.toNat) →
    ((v.gr.sp.size < 8 * idx.toNat + 8 ∧ (∀ n, barCounted i = some (n, true) → barCountOk (v.barArg s.tick n) = true)) →
      ∃ t, exec i s = .next t ∧ BarFaulted s v Cause.spBound v.addr (oneMask (lowest v.en.mask)) t)
    ∧ (∀ n b, barCounted i = some (n, b) → (b = true ∨ 8 * idx.toNat + 8 ≤ v.gr.sp.size) →
        (v.barArg s.tick n = 0 ∨ 2 ^ 29 ≤ v.barArg s.tick n) →
      ∃ t, exec i s = .next t ∧ BarFaulted s v Cause.barCount v.addr (oneMask (lowest v.en.mask)) t)
    ∧ (∀ n, barArrival i = some n → 8 * idx.toNat + 8 ≤ v.gr.sp.size → v.gr.sp.refuses (s.warns v.gr) .sp (8 * idx.toNat) 8 = none →
      ((w.getLsbD 62 = true ∨ w.extractLsb' 0 3 ≠ 0) →
        ∃ t, exec i s = .next t ∧ BarFaulted s v Cause.barKind v.addr (oneMask (lowest v.en.mask)) t)
      ∧ (w.getLsbD 62 = false → w.extractLsb' 0 3 = 0 →
          ((w.extractLsb' 32 29).toNat = 0 ∨ (w.extractLsb' 32 29).toNat ≠ v.barArg s.tick n) →
        ∃ t, exec i s = .next t ∧ BarFaulted s v Cause.barCount v.addr (oneMask (lowest v.en.mask)) t))
    ∧ (∀ g n, i = .barExpect g idx n → barCountOk (v.barArg s.tick n) = true → 8 * idx.toNat + 8 ≤ v.gr.sp.size →
        v.gr.sp.refuses (s.warns v.gr) .sp (8 * idx.toNat) 8 = none → (w.getLsbD 62 = false ∨ w.extractLsb' 0 3 ≠ 0) →
      ∃ t, exec i s = .next t ∧ BarFaulted s v Cause.barKind v.addr (oneMask (lowest v.en.mask)) t)
    ∧ (∀ g p, i = .barWait g idx p → 8 * idx.toNat + 8 ≤ v.gr.sp.size → v.gr.sp.refuses (s.warns v.gr) .sp (8 * idx.toNat) 8 = none → w.extractLsb' 0 3 ≠ 0 →
      ∃ t, exec i s = .next t ∧ BarFaulted s v Cause.barKind v.addr (oneMask (lowest v.en.mask)) t)
    ∧ (∀ c, v.gr.sp.refuses (s.warns v.gr) .sp (8 * idx.toNat) 8 = some c → 8 * idx.toNat + 8 ≤ v.gr.sp.size →
        ((∃ g p, i = .barWait g idx p) ∨ (∃ n, barArrival i = some n) ∨ ∃ g n, i = .barExpect g idx n ∧ barCountOk (v.barArg s.tick n) = true) →
      ∃ t, exec i s = .next t ∧ BarFaulted s v c (BitVec.ofNat 64 (8 * idx.toNat)) (oneMask (lowest v.en.mask)) t)

/-- R285 to R287, R307, R341: `tlread` writes the counter of its timeline; `tlwait` waits for its entity's reads to be performed (R204); then,
for a value reached, it acquires at its scope with the queue's stamp and goes on, and else parks; `tlset` gives the counter of the bound queue a value and its numbering the next, reports a
value below the counter in the TLFAULT words, and wakes the entities that wait for no more. Both leave no store of the wave held
(R302). -/
def Obligations.Timelines : Prop :=
  (∀ (g : Guard) (sd : BitVec 6) (tl : BitVec 3) (m : Meta) (s : State) (v : View), checks (.tlread g sd tl) = some m → Acts m s v →
    ∃ wv, exec (.tlread g sd tl) s = .next (s.withWave v wv)
      ∧ Wrote v.wv wv (.s sd) true (v.acting m) (fun _ => BitVec.ofNat 64 (v.gr.queue (v.gr.boundTo tl)).c)
      ∧ Moved v (v.after 1) wv ∧ wv.p = v.wv.p ∧ wv.b = v.wv.b ∧ wv.cstamp = v.wv.cstamp ∧ wv.sq = v.wv.sq)
  ∧ (∀ (g : Guard) (tl : BitVec 3) (sc : Scope) (n : TlArg) (m : Meta) (s : State) (v : View), checks (.tlwait g tl sc n) = some m →
    Acts m s v → v.en.park = none →
    (s.readsDone v.a s.nextId = false → exec (.tlwait g tl sc n) s = .next s)
    ∧ (s.readsDone v.a s.nextId = true → ∃ t wv e, exec (.tlwait g tl sc n) s = .next t ∧ t.wave? v.a.g v.a.w = some wv
      ∧ Table.find wv.ents v.a.e = some e ∧ (e.hdr, e.idx) = v.after 1
      ∧ (v.tlArg s.tick n ≤ (v.gr.queue (v.gr.boundTo tl)).c → e.park = none
          ∧ wv.cstamp = (v.wv.acquire.mergeStamp (v.gr.queue (v.gr.boundTo tl)).stamp).cstamp
          ∧ (Scope.wide sc = true → ∀ k l, (k, l) ∈ t.l1 → k / 2 ^ 52 ≠ v.gr.core))
      ∧ ((v.gr.queue (v.gr.boundTo tl)).c < v.tlArg s.tick n → e.park = some (.timeline tl (v.tlArg s.tick n) sc) ∧ e.pipe = none
          ∧ wv.cstamp = v.wv.cstamp ∧ t.l1 = s.l1)
      ∧ (∀ k, k ≠ v.a.e → (Table.find wv.ents k).map (fun e => (e.hdr, e.idx, e.mask, e.park)) = (Table.find v.wv.ents k).map fun e => (e.hdr, e.idx, e.mask, e.park))
      ∧ SameButStamp v.wv wv ∧ wv.sq = [] ∧ Within s v.a.g v.a.w t
      ∧ (v.wv.sq = [] → t = { s with
          groups := t.groups
          l1 := t.l1 })))
  ∧ (∀ (g : Guard) (tl : BitVec 3) (n : TlArg) (m : Meta) (s : State) (v : View) (q : Nat), checks (.tlset g tl n) = some m → Acts m s v →
    v.en.park = none → q = v.gr.boundTo tl →
    ∃ t wv gr e, exec (.tlset g tl n) s = .next t ∧ t.wave? v.a.g v.a.w = some wv ∧ t.group? v.a.g = some gr
      ∧ (∀ k, gr.queue k = if k = q then { v.gr.queue q with c := v.tlArg s.tick n, next := v.tlArg s.tick n + 1, ahead := [], epoch := (v.gr.queue q).epoch + 1 }
          else v.gr.queue k)
      ∧ (∀ k, Table.read gr.tlfault k 0 = if v.tlArg s.tick n < (v.gr.queue q).c ∧ k < 8 ∧ Table.read v.gr.bind k 0 = q
            ∧ (Table.read v.gr.tlfault k 0).getLsbD 63 = false then errorWord Cause.tlBackward (v.tlArg s.tick n) else Table.read v.gr.tlfault k 0)
      ∧ (∀ k w, v.gr.waves[k]? = some w → ∃ w', gr.waves[k]? = some w' ∧ ∀ j, k ≠ v.a.w ∨ j ≠ v.a.e →
          ((∀ x tl' n' sc, Table.find w.ents j = some x → x.park = some (.timeline tl' n' sc) → v.gr.boundTo tl' = q → n' ≤ v.tlArg s.tick n →
            (Table.find w'.ents j).map (·.park) = some (wokenPark x))
          ∧ ((∀ x tl' n' sc, Table.find w.ents j = some x → x.park = some (.timeline tl' n' sc) → v.gr.boundTo tl' = q → v.tlArg s.tick n < n') →
            (Table.find w'.ents j).map (·.park) = (Table.find w.ents j).map (·.park))))
      ∧ Table.find wv.ents v.a.e = some e ∧ (e.hdr, e.idx) = v.after 1 ∧ e.park = none ∧ SameButStamp v.wv wv ∧ wv.sq = []
      ∧ (∀ g', g' ≠ v.a.g → t.group? g' = s.group? g')
      ∧ t = { s with
          groups := t.groups
          l1 := t.l1
          reqs := t.reqs
          nextId := t.nextId
          cores := t.cores
          fabric := t.fabric }
      ∧ (v.wv.sq = [] → t = { s with
          groups := t.groups
          l1 := t.l1 }))

/-- R283, R308, R309, R312, R342, R344 to R346: a long-latency instruction of classes 3 and 4 with well-formed operands closes its region
and goes in flight with the work its operands name; its flag's count rises by one. What the wave held has left the queue; no
register, no deque, no cached line of another group's work and no memory byte changes yet.
R308, R344 to R346: `dq.steal` of a core number of 256 or more faults `DQ_BAD_CORE`, and `sys.pgattr`, `sys.tlbinv`, `sys.wininv`,
`sys.slwb` and `sys.slinv` with malformed operands fault `RSV_FIELD` (of a DPA, log 126): nothing more is in flight and no flag waits
for more. -/
def Obligations.LongWork : Prop :=
  (∀ (i : Instr) (f : Flag) (body : OpBody) (ready : Bool) (m : Meta) (s : State) (v : View),
      waitForm s v i = some (f, body, ready) → checks i = some m → Acts m s v →
      ∃ t wv num, exec i s = .next t ∧ t.wave? v.a.g v.a.w = some wv ∧ s.nextId ≤ num
        ∧ Flying v num f v.en.mask true (fun o => o.body = body ∧ o.ready = ready ∧ o.refused = []) wv
        ∧ Advanced v (v.after 1) wv ∧ SameRegs v.wv wv ∧ wv.sq = [] ∧ Within s v.a.g v.a.w t)
  ∧ (∀ (i : Instr) (m : Meta) (s : State) (v : View), checks i = some m → Acts m s v →
      (∀ g f sd sa, i = .dqSteal g f sd sa → 256 ≤ (v.sval s.tick sa).toNat →
        ∃ t, exec i s = .next t ∧ Faulted s v Cause.dqBadCore v.addr (oneMask (lowest v.en.mask)) t ∧ NothingIssued v t)
      ∧ (∀ g f sa sb, (i = .sysPgattr g f sa sb ∨ i = .sysTlbinv g f sa sb ∨ i = .sysWininv g f sa sb ∨ i = .sysSlwb g f sa sb ∨ i = .sysSlinv g f sa sb) →
          waitForm s v i = none →
        ∃ t, exec i s = .next t ∧ Faulted s v Cause.rsvField v.addr (oneMask (lowest v.en.mask)) t ∧ NothingIssued v t))

/-- R284, R310: with a message in an enabled ring, `ring.wait` and `ring.take` write the offset of the oldest message's slot, set p6
and acquire at `.dm` with the slot's stamp word; the ring's words stay. On an empty ring `ring.wait` parks and `ring.take` clears p6. A
ring that is not enabled faults `RING_OFF`, and one whose words lie beyond the allocation `SP_BOUND` (R313). (Of an entity whose reads
have been performed, R204.) That what the wave holds is released before the step is the model's choice (log 55). -/
def Obligations.Rings : Prop :=
  ∀ (i : Instr) (g : Guard) (sd sa : BitVec 6) (wait : Bool) (m : Meta) (s : State) (v : View) (k : Nat),
    (i = .ringWait g sd sa ∧ wait = true ∨ i = .ringTake g sd sa ∧ wait = false) → checks i = some m → Acts m s v →
    k = (v.sval s.tick sa).toNat →
    ((8 ≤ k ∨ v.gr.ring k = none) → ∃ t, exec i s = .next t ∧ Faulted s v Cause.ringOff v.addr (oneMask (lowest v.en.mask)) t)
    ∧ (∀ r, k < 8 → v.gr.ring k = some r → v.gr.sp.size < r.base + 16 →
        (v.wv.late = [] ∧ (∀ j, j < 16 → queueByte v.wv.sq .sp (r.base + j) = none) ∨ ∃ u x, Released s v u x) →
      ∃ t, exec i s = .next t ∧ Faulted s v Cause.spBound v.addr (oneMask (lowest v.en.mask)) t)
    ∧ (∀ r h tail u x, k < 8 → v.gr.ring k = some r → r.base + 64 + r.slots * 72 ≤ v.gr.sp.size → Released s v u x → u.readsDone v.a u.nextId = true →
        Stands v x r.base 16 (fun b => b.word r.base = h ∧ b.word (r.base + 8) = tail
          ∧ b.refuses (s.warns v.gr) .sp r.base 8 = none ∧ b.refuses (s.warns v.gr) .sp (r.base + 8) 8 = none) →
      (tail ≠ h → Stands v x (r.stampAt h.toNat) 8 (fun b => b.refuses (s.warns v.gr) .sp (r.stampAt h.toNat) 8 = none) →
        ∃ t wv, exec i s = .next t ∧ t.wave? v.a.g v.a.w = some wv
          ∧ Wrote v.wv wv (.s sd) true v.en.mask (fun _ => BitVec.ofNat 64 (r.base + 64 + h.toNat % r.slots * 64))
          ∧ PredWritten v.wv wv 6 v.en.mask (fun _ => true)
          ∧ wv.cstamp = (x.wv.acquire.mergeStamp (some (x.gr.sp.word (r.base + 64 + r.slots * 64 + h.toNat % r.slots * 8)))).cstamp
          ∧ (∀ n l, (n, l) ∈ t.l1 → n / 2 ^ 52 ≠ v.gr.core)
          ∧ Advanced v (v.after 1) wv ∧ wv.b = v.wv.b ∧ wv.fpstatus = v.wv.fpstatus
          ∧ (t.group? v.a.g).map (fun gr => (gr.sp, gr.ringdesc)) = some (x.gr.sp, v.gr.ringdesc)
          ∧ t = { u with
              groups := t.groups
              l1 := t.l1 })
      ∧ (tail = h →
        ∃ t wv e, exec i s = .next t ∧ t.wave? v.a.g v.a.w = some wv ∧ Table.find wv.ents v.a.e = some e ∧ (e.hdr, e.idx) = v.after 1
          ∧ e.park = (if wait then some (.ring k sd) else v.en.park)
          ∧ wv.s = v.wv.s ∧ wv.v = v.wv.v ∧ wv.cstamp = v.wv.cstamp
          ∧ PredWritten v.wv wv 6 (if wait then 0 else v.en.mask) (fun _ => false)
          ∧ t = { u with
              groups := t.groups }))

/-- R170, R336, R338: `sys.rd` of a system register that the context may read writes its value; of any other it faults `SYSREG_BAD` or
`PRIV`. The value is what the table of R336 gives each number: of HORIZON the H of one of the stacks as of the last round closed, and none
of the sixteen lies above it (of stamps within one window, R86). -/
def Obligations.SystemReads : Prop :=
  ∀ (g : Guard) (sd : BitVec 6) (reg : BitVec 12) (m : Meta) (s : State) (v : View), (Instr.sysRd g sd reg).wellFormed = true →
    checks (.sysRd g sd reg) = some m → Acts m s v →
    (sysregPriv reg.toNat = none → ∃ t, exec (.sysRd g sd reg) s = .next t ∧ Faulted s v Cause.sysregBad v.addr (oneMask (lowest v.en.mask)) t)
    ∧ (∀ w, sysregPriv reg.toNat = some (true, w) → s.sysPriv v.gr.ctx = false →
      ∃ t, exec (.sysRd g sd reg) s = .next t ∧ Faulted s v Cause.priv v.addr (oneMask (lowest v.en.mask)) t)
    ∧ (∀ r w, sysregPriv reg.toNat = some (r, w) → (r = true → s.sysPriv v.gr.ctx = true) →
      ∃ t wv x, exec (.sysRd g sd reg) s = .next t ∧ t.wave? v.a.g v.a.w = some wv ∧ Wrote v.wv wv (.s sd) true v.en.mask (fun _ => x)
        ∧ Advanced v (v.after 1) wv ∧ wv.sq = [] ∧ Within s v.a.g v.a.w t
        ∧ (reg = 0x000 → x = 64) ∧ (reg = 0x001 → x = v.en.mask) ∧ (reg = 0x002 → x = v.wv.cstamp)
        ∧ (reg = 0x003 → (∃ j, j < 16 ∧ x = (s.stack j).hRound)
            ∧ ∀ low : BitVec 50, (∀ k, k < 16 → (count (s.stack k).hRound - low).toNat < 2 ^ 49) →
                ∀ k, k < 16 → stampLe (s.stack k).hRound x = true)
        ∧ (reg = 0x004 → x = v.wv.fpstatus.setWidth 64)
        ∧ (reg = 0x005 → x = if s.det v.gr then BitVec.ofNat 32 (s.quantumOf v.gr) ++ BitVec.ofNat 32 v.wv.retired else 0)
        ∧ (reg = 0x008 → x = v.wv.cause) ∧ (reg = 0x009 → x = v.wv.faultaddr) ∧ (reg = 0x00A → x = v.wv.lanemask)
        ∧ (reg = 0x00B → x = v.wv.sysstatus) ∧ (reg = 0x00C → x = v.wv.trapbase) ∧ (reg = 0x00D → x = v.wv.trappos)
        ∧ (reg = 0x010 → x = (0 : BitVec 38) ++ s.fabric.index ++ BitVec.ofNat 4 (v.gr.core / 16) ++ BitVec.ofNat 6 (v.gr.core / 4) ++ BitVec.ofNat 8 v.gr.core)
        ∧ (reg = 0x011 → x.extractLsb' 0 12 = v.gr.ctx ∧ x.getLsbD 12 = s.sysPriv v.gr.ctx
            ∧ x.getLsbD 13 = ((Table.find s.ctxs v.gr.ctx.toNat).map (·.dbg)).getD false ∧ x.extractLsb' 14 50 = 0)
        ∧ (reg = 0x012 → x = BitVec.ofNat 32 v.gr.lin ++ BitVec.ofNat 32 v.gr.pnum)
        ∧ (reg = 0x020 → x = v.gr.bufacl) ∧ (reg = 0x021 → x = v.gr.bufreq) ∧ (reg = 0x022 → x = v.gr.uninitcount)
        ∧ (reg = 0x023 → x = v.gr.uninitaddr)
        ∧ (∀ k, k < 8 → reg.toNat = 0x030 + k → x = Table.read v.gr.ringdesc k 0)
        ∧ (∀ k, k < 8 → reg.toNat = 0x040 + k → x = Table.read v.gr.tlfault k 0)
        ∧ (∀ k, k < 5 → reg.toNat = 0x048 + k → x = Table.read v.gr.qfault k 0)
        ∧ (∀ k, k < 16 → reg.toNat = 0x060 + k → x = (s.stack k).uncorrectable ++ (s.stack k).corrected)
        ∧ (reg = 0x070 → x = BitVec.ofNat 64 ((s.coreOf v.gr.core).bottom - (s.coreOf v.gr.core).top)))

/-- R93, R121, R124, R159, R185, R336, R338: `sys.wr` of a system register that the context may write gives it the value, as far as its
fields go; a read-only register and every other register keep theirs. A number that does not exist faults `SYSREG_BAD`, a write below
the register's privilege `PRIV`. -/
def Obligations.SystemWrites : Prop :=
  ∀ (g : Guard) (reg : BitVec 12) (sa : BitVec 6) (m : Meta) (s : State) (v : View) (x : Word), (Instr.sysWr g reg sa).wellFormed = true →
    checks (.sysWr g reg sa) = some m → Acts m s v → x = v.sval s.tick sa →
    (sysregPriv reg.toNat = none → ∃ t, exec (.sysWr g reg sa) s = .next t ∧ Faulted s v Cause.sysregBad v.addr (oneMask (lowest v.en.mask)) t)
    ∧ (∀ r, sysregPriv reg.toNat = some (r, true) → s.sysPriv v.gr.ctx = false →
      ∃ t, exec (.sysWr g reg sa) s = .next t ∧ Faulted s v Cause.priv v.addr (oneMask (lowest v.en.mask)) t)
    ∧ (∀ r w, sysregPriv reg.toNat = some (r, w) → (w = true → s.sysPriv v.gr.ctx = true) →
      ∃ t wv gr, exec (.sysWr g reg sa) s = .next t ∧ t.wave? v.a.g v.a.w = some wv ∧ t.group? v.a.g = some gr
        ∧ wv.fpstatus = (if reg = 0x004 then x.setWidth 6 else v.wv.fpstatus)
        ∧ wv.cause = (if reg = 0x008 then x &&& 0x1FF else v.wv.cause)
        ∧ wv.faultaddr = (if reg = 0x009 then x else v.wv.faultaddr)
        ∧ wv.lanemask = (if reg = 0x00A then x else v.wv.lanemask)
        ∧ wv.sysstatus = (if reg = 0x00B then x &&& 0x1FF else v.wv.sysstatus)
        ∧ wv.trapbase = (if reg = 0x00C then x else v.wv.trapbase)
        ∧ wv.trappos = (if reg = 0x00D then x &&& 0x80FFFFFFFFFFFFFF else v.wv.trappos)
        ∧ (wv.v, wv.s, wv.p, wv.b, wv.cstamp) = (v.wv.v, v.wv.s, v.wv.p, v.wv.b, v.wv.cstamp)
        ∧ gr.bufacl = (if reg = 0x020 then x &&& 0xFFF else v.gr.bufacl) ∧ gr.bufreq = v.gr.bufreq
        ∧ (∀ k, k < 8 → Table.read gr.tlfault k 0 = if reg.toNat = 0x040 + k then x else Table.read v.gr.tlfault k 0)
        ∧ (∀ k, k < 5 → Table.read gr.qfault k 0 = if reg.toNat = 0x048 + k then x else Table.read v.gr.qfault k 0)
        ∧ (v.wv.sq = [] → gr.uninitcount = (if reg = 0x022 then x else v.gr.uninitcount) ∧ gr.uninitaddr = (if reg = 0x023 then x else v.gr.uninitaddr))
        ∧ (∀ k, k < 16 → (t.stack k).corrected = (if reg.toNat = 0x060 + k then x.setWidth 32 else (s.stack k).corrected)
            ∧ (t.stack k).uncorrectable = (if reg.toNat = 0x060 + k then x.extractLsb' 32 32 else (s.stack k).uncorrectable))
        ∧ Advanced v (v.after 1) wv ∧ wv.sq = [] ∧ t.mem = s.mem)

/-- R163, R284, R288, R309, R326, R336, R337: a write of CSTAMP merges its value, and a stamp out of the window faults `STAMP_WINDOW`; a write
of a ring descriptor keeps the ring enabled only where it lies aligned inside the allocation, and one that changes it tells the messages
held for that ring; a read of a Turner report takes the oldest out of its queue and reads 0 of an empty one; a buffer request that asks
for no more is granted, unless issued commands name what would be freed, which it then waits for; one that the core cannot hold is
refused, and one that it could hold parks. Each leaves no store of the wave held (R302). That bits [63:54] of a buffer request are
ignored, and that a larger one parks even where there is room, is the model's choice (log 62). -/
def Obligations.ConfigurationWrites : Prop :=
  (∀ (g : Guard) (sa : BitVec 6) (m : Meta) (s : State) (v : View) (x : Word), checks (.cstampWrite g sa) = some m → Acts m s v →
    x = v.sval s.tick sa →
    (stampCmp x v.wv.cstamp = .far → ∃ t, exec (.cstampWrite g sa) s = .next t ∧ Faulted s v Cause.stampWindow v.addr (oneMask (lowest v.en.mask)) t)
    ∧ (stampCmp x v.wv.cstamp ≠ .far → ∃ t wv, exec (.cstampWrite g sa) s = .next t ∧ t.wave? v.a.g v.a.w = some wv
      ∧ wv.cstamp = (if stampCmp x v.wv.cstamp = .gt then x else v.wv.cstamp) ∧ SameButStamp v.wv wv ∧ Advanced v (v.after 1) wv
      ∧ wv.sq = [] ∧ Within s v.a.g v.a.w t
      ∧ (v.wv.sq = [] → t = { s with
          groups := t.groups })))
  ∧ (∀ (g : Guard) (k : BitVec 3) (sa : BitVec 6) (m : Meta) (s : State) (v : View) (x d : Word), checks (.ringdescWrite g k sa) = some m →
    Acts m s v → x = v.sval s.tick sa →
    ∃ t wv gr, exec (.ringdescWrite g k sa) s = .next t ∧ t.wave? v.a.g v.a.w = some wv ∧ t.group? v.a.g = some gr
      ∧ (∀ j, Table.read gr.ringdesc j 0 = if j = k.toNat then Table.read gr.ringdesc k.toNat 0 else Table.read v.gr.ringdesc j 0)
      ∧ (d = Table.read gr.ringdesc k.toNat 0 → d.extractLsb' 0 28 = x.extractLsb' 0 28 ∧ d.extractLsb' 28 35 = 0
        ∧ (d.getLsbD 63 = true ↔ x.getLsbD 63 = true ∧ x.extractLsb' 0 3 = 0 ∧ (x.extractLsb' 16 12).toNat ≤ 11
            ∧ 8 * (x.extractLsb' 0 16).toNat + 64 + 72 * 2 ^ ((x.extractLsb' 16 12).toNat + 1) ≤ v.gr.sp.size)
        ∧ (d ≠ Table.read v.gr.ringdesc k.toNat 0 → ∀ g' w' gr' wv' n o sd dest src msg off, s.group? g' = some gr' → gr'.launch = v.gr.launch →
            s.wave? g' w' = some wv' → Table.find wv'.ops n = some o → o.body = .msg sd dest src (some msg) off →
            dest.extractLsb' 32 3 = k → (dest.extractLsb' 0 32).toNat = v.gr.lin →
            ((t.wave? g' w').bind fun y => (Table.find y.ops n).map (·.body)) = some (.msg sd dest src (some msg) true)))
      ∧ SameRegs v.wv wv ∧ Advanced v (v.after 1) wv ∧ wv.sq = [] ∧ (v.wv.sq = [] → gr.sp = v.gr.sp)
      ∧ (∀ g' w', g' ≠ v.a.g ∨ w' ≠ v.a.w → (t.wave? g' w').map (fun y => { y with ops := [] }) = (s.wave? g' w').map fun y => { y with ops := [] })
      ∧ t = { s with
          groups := t.groups
          reqs := t.reqs
          nextId := t.nextId
          cores := t.cores
          fabric := t.fabric }
      ∧ (v.wv.sq = [] → t = { s with
          groups := t.groups }))
  ∧ (∀ (g : Guard) (sd : BitVec 6) (n : BitVec 4) (m : Meta) (s : State) (v : View), checks (.turnrptRead g sd n) = some m → Acts m s v →
    ∃ t wv, exec (.turnrptRead g sd n) s = .next t ∧ t.wave? v.a.g v.a.w = some wv
      ∧ Wrote v.wv wv (.s sd) true v.en.mask (fun _ => (s.stack n.toNat).reports.headD 0)
      ∧ (∀ k, t.stack k = if k = n.toNat then { s.stack k with reports := (s.stack k).reports.drop 1 } else s.stack k)
      ∧ Advanced v (v.after 1) wv ∧ wv.p = v.wv.p ∧ wv.cstamp = v.wv.cstamp ∧ wv.sq = []
      ∧ (∀ g' w', g' ≠ v.a.g ∨ w' ≠ v.a.w → t.wave? g' w' = s.wave? g' w') ∧ t.mem = s.mem
      ∧ (v.wv.sq = [] → t = { s with
          groups := t.groups
          stackTable := t.stackTable }))
  ∧ (∀ (g : Guard) (sa : BitVec 6) (m : Meta) (s u : State) (v y : View) (x : Word) (sp : Space) (units : Nat),
    checks (.bufreqWrite g sa) = some m → Acts m s v → x = v.sval s.tick sa → sp = bufSpace x → units = (x.extractLsb' 2 10).toNat →
    (x.extractLsb' 12 42 ≠ 0 → ∃ t, exec (.bufreqWrite g sa) s = .next t ∧ Faulted s v Cause.rsvField v.addr (oneMask (lowest v.en.mask)) t)
    ∧ (x.extractLsb' 12 42 = 0 → Released s v u y →
      ∃ t wv gr e, exec (.bufreqWrite g sa) s = .next t ∧ t.wave? v.a.g v.a.w = some wv ∧ t.group? v.a.g = some gr
      ∧ Table.find wv.ents v.a.e = some e ∧ (e.hdr, e.idx) = v.after 1 ∧ wv.v = v.wv.v ∧ wv.s = v.wv.s
      ∧ (4096 * units = (v.gr.buf sp).size ∨ 4096 * units < (v.gr.buf sp).size ∧ s.namedBeyond v.a.g sp (4096 * units) = false →
          PredWritten v.wv wv 6 v.en.mask (fun _ => true) ∧ e.park = v.en.park ∧ gr.bufreq = x &&& 0xFFF ∧ (gr.buf sp).size = 4096 * units
          ∧ ∀ off, off < 4096 * units → (gr.buf sp).byte off = (y.gr.buf sp).byte off)
      ∧ (4096 * units < (v.gr.buf sp).size → s.namedBeyond v.a.g sp (4096 * units) = true →
          e.park = some (.bufreq sp units) ∧ gr.buf sp = y.gr.buf sp)
      ∧ ((v.gr.buf sp).size < 4096 * units → physical sp < s.held v.gr.core sp v.a.g + 4096 * units →
          PredWritten v.wv wv 6 v.en.mask (fun _ => false) ∧ e.park = v.en.park ∧ gr.buf sp = y.gr.buf sp
          ∧ gr.bufreq = (1 : BitVec 1) ++ Cause.allocRefused ++ (0 : BitVec 42) ++ x.extractLsb' 0 12)
      ∧ ((v.gr.buf sp).size < 4096 * units → s.held v.gr.core sp v.a.g + 4096 * units ≤ physical sp →
          e.park = some (.bufreq sp units) ∧ gr.buf sp = y.gr.buf sp)
      ∧ t = { u with
          groups := t.groups }))

/-- R339, R340: `trap` 0 to 4 of a wave with one entity, a handler table and no trap taken saves the header after its clause in TRAPPOS with
the valid bit and goes on at its entry of the table, 64 bytes each; `tret` of a wave whose TRAPPOS is valid clears that bit and goes on
at the saved header, whose address is sign-extended from its 56 bits by the model's choice (log 59); else both fault `TRAP_STATE`. A
`trap` of 5 or more raises its MSI-X vector. R61: both end their clause; elsewhere they fault `SLOT_POS`. The worked words of R340 decode
to them. -/
def Obligations.Traps : Prop :=
  (∀ (g : Guard) (n : BitVec 6) (m : Meta) (s : State) (v : View), checks (.trap g n) = some m → Acts m s v →
    (n.toNat ≤ 4 → (v.wv.trapbase = 0 ∨ v.wv.trappos.getLsbD 63 = true ∨ 1 < v.wv.ents.length) →
      ∃ t, exec (.trap g n) s = .next t ∧ Faulted s v Cause.trapState v.addr (oneMask (lowest v.en.mask)) t)
    ∧ (n.toNat ≤ 4 → v.wv.trapbase ≠ 0 → v.wv.trappos.getLsbD 63 = false → v.wv.ents.length ≤ 1 →
      ∃ t wv, exec (.trap g n) s = .next t ∧ t.wave? v.a.g v.a.w = some wv
        ∧ wv.trappos.getLsbD 63 = true ∧ wv.trappos.extractLsb' 56 7 = 0 ∧ wv.trappos.extractLsb' 0 56 = v.nextHdr.extractLsb' 0 56
        ∧ Advanced v (v.wv.trapbase + BitVec.ofNat 64 (64 * n.toNat), 0) wv ∧ wv.sq = []
        ∧ SameRegs { v.wv with trappos := wv.trappos } wv ∧ Within s v.a.g v.a.w t)
    ∧ (5 ≤ n.toNat → ∃ t wv, exec (.trap g n) s = .next t ∧ t.wave? v.a.g v.a.w = some wv ∧ t.msix = n.toNat :: s.msix
        ∧ Advanced v (v.after 1) wv ∧ SameRegs v.wv wv ∧ wv.sq = [] ∧ t.mem = s.mem))
  ∧ (∀ (g : Guard) (m : Meta) (s : State) (v : View), checks (.tret g) = some m → Acts m s v →
    ((v.wv.trappos.getLsbD 63 = false ∨ 1 < v.wv.ents.length) →
      ∃ t, exec (.tret g) s = .next t ∧ Faulted s v Cause.trapState v.addr (oneMask (lowest v.en.mask)) t)
    ∧ (v.wv.trappos.getLsbD 63 = true → v.wv.ents.length ≤ 1 →
      ∃ t wv, exec (.tret g) s = .next t ∧ t.wave? v.a.g v.a.w = some wv
        ∧ wv.trappos = v.wv.trappos &&& 0x7FFFFFFFFFFFFFFF
        ∧ Advanced v ((v.wv.trappos.extractLsb' 0 56).signExtend 64, 0) wv ∧ wv.sq = []
        ∧ SameRegs { v.wv with trappos := wv.trappos } wv ∧ Within s v.a.g v.a.w t))
  ∧ (∀ (g : Guard) (n : BitVec 6) (i : Instr) (s : State) (v : View), (i = .trap g n ∨ i = .tret g) → s.view? = some v →
      v.en.idx + 1 ≠ v.cl.count → ∃ t, exec i s = .next t ∧ Faulted s v Cause.slotPos v.addr (oneMask (lowest v.en.mask)) t)
  ∧ decodeWord 4 0xC1FFF00000028000 none = .ok (.trap ⟨7, false⟩ 5) ∧ decodeWord 4 0xC2FFF00000000000 none = .ok (.tret ⟨7, false⟩)

/-- R170, R171, R173, R335, R343: `sys.hadv` to a stamp in the window of each stack it names reclaims from the oldest end every record at or
below the stamp that no hold pins; `sys.wsize` that is not refused empties the stack's Whey, resizes it and its Rind pool and unlinks its
granules; `sys.hrevoke` of a hold of this module ends it. Each sets p6; refused, each clears p6, names the cause in SYSSTATUS and
changes nothing else. Each leaves no store of the wave held (R302). -/
def Obligations.HistoryControls : Prop :=
  ∀ (i : Instr) (g : Guard) (sa sb : BitVec 6) (m : Meta) (s : State) (v : View) (a b : Word),
    (i = .sysHadv g sa sb ∨ i = .sysWsize g sa sb ∨ i = .sysHrevoke g sa sb) → checks i = some m → Acts m s v →
    a = v.sval s.tick sa → b = v.sval s.tick sb →
    ∃ t wv ok, exec i s = .next t ∧ t.wave? v.a.g v.a.w = some wv ∧ PredWritten v.wv wv 6 v.en.mask (fun _ => ok)
      ∧ Advanced v (v.after 1) wv ∧ wv.v = v.wv.v ∧ wv.s = v.wv.s ∧ wv.cstamp = v.wv.cstamp ∧ t.mem = s.mem
      ∧ (ok = true → wv.sysstatus = v.wv.sysstatus)
      ∧ wv.sq = [] ∧ (∀ g' w', g' ≠ v.a.g ∨ w' ≠ v.a.w → t.wave? g' w' = s.wave? g' w')
      ∧ (ok = false → Within s v.a.g v.a.w t ∧ wv.sysstatus ≠ 0 ∧ (v.wv.sq = [] → t = { s with groups := t.groups }))
      ∧ (i = .sysHadv g sa sb →
          (ok = true ↔ b.toNat ≤ 16 ∧ ∀ k, k < 16 → (b.toNat = 16 ∨ b.toNat = k) → stampCmp a (s.stack k).h ≠ .far)
          ∧ (16 < b.toNat → wv.sysstatus = Cause.rsvField.setWidth 64) ∧ (b.toNat ≤ 16 → ok = false → wv.sysstatus = Cause.stampWindow.setWidth 64)
          ∧ (ok = true → ∀ k, k < 16 →
              ((b.toNat = 16 ∨ b.toNat = k) → ∃ gone, (s.stack k).log = gone ++ (t.stack k).log ∧ (∀ r ∈ gone, stampLe r.sup a = true ∧ s.holdsAllow r.sup = true)
                ∧ ∀ r, (t.stack k).log.head? = some r → stampLe r.sup a = false ∨ s.holdsAllow r.sup = false)
              ∧ (b.toNat ≠ 16 → b.toNat ≠ k → t.stack k = s.stack k)))
      ∧ (i = .sysWsize g sa sb → ∀ k size pool, k = (b.extractLsb' 0 4).toNat → size = a.toNat → pool = (b.extractLsb' 32 16).toNat →
          (ok = true ↔ size % 2 ^ 26 = 0 ∧ size ≤ 12 * 2 ^ 30 ∧ b.extractLsb' 4 28 = 0 ∧ b.extractLsb' 48 16 = 0 ∧ s.wsizeRefused k size pool = false)
          ∧ (ok = true → (t.stack k).whey = size ∧ (t.stack k).rind = pool ∧ (t.stack k).log = [] ∧ (t.stack k).base = (t.stack k).next
              ∧ (∀ j, j ≠ k → t.stack j = s.stack j)
              ∧ ∀ gr l, (gr, l) ∈ t.glinks ↔ (gr, l) ∈ s.glinks ∧ dpaStack gr ≠ k))
      ∧ (i = .sysHrevoke g sa sb → ∀ k ctx, k = (a.extractLsb' 0 4).toNat → ctx = b.setWidth 12 → (a.extractLsb' 8 8).toNat = s.fabric.index.toNat →
          (ok = true ↔ a.getLsbD 16 = true ∧ a.extractLsb' 17 47 = 0 ∧ a.extractLsb' 4 4 = 0)
          ∧ (ok = true → ∀ n, Table.find t.holds n = if n = holdKey ctx k then none else Table.find s.holds n))

/-- R335, R347, R348: `sys.brk` stops the entity for a debugger in reach and hands it n, and without one only retires: it stops after
itself, by the model's choice (log 90); `sys.dbgrd` reads the debug mode, whether a debugger reaches the context and whether the part is Secure; `sys.dgrd` reads a slot's state word or a word of
the dependence or the reachability matrix. Each leaves no store of the wave held (R302). -/
def Obligations.DebugReads : Prop :=
  (∀ (g : Guard) (n : BitVec 12) (m : Meta) (s : State) (v : View), checks (.sysBrk g n) = some m → Acts m s v →
    ∃ t wv e, exec (.sysBrk g n) s = .next t ∧ t.wave? v.a.g v.a.w = some wv ∧ Table.find wv.ents v.a.e = some e
      ∧ Advanced v (v.after 1) wv ∧ SameRegs v.wv wv
      ∧ e.stopped = (v.en.stopped || s.reaches v.gr.ctx)
      ∧ t.mbd = { s.mbd with answers := if s.reaches v.gr.ctx then .words [n.setWidth 64] :: s.mbd.answers else s.mbd.answers }
      ∧ wv.sq = [] ∧ Within s v.a.g v.a.w { t with mbd := s.mbd }
      ∧ (v.wv.sq = [] → t = { s with
          groups := t.groups
          mbd := t.mbd }))
  ∧ (∀ (g : Guard) (sd : BitVec 6) (m : Meta) (s : State) (v : View), checks (.sysDbgrd g sd) = some m → Acts m s v →
    ∃ t wv x, exec (.sysDbgrd g sd) s = .next t ∧ t.wave? v.a.g v.a.w = some wv ∧ Wrote v.wv wv (.s sd) true v.en.mask (fun _ => x)
      ∧ x.extractLsb' 0 2 = BitVec.ofNat 2 s.boot.mode ∧ x.getLsbD 2 = s.reaches v.gr.ctx ∧ x.getLsbD 3 = (s.boot.security == .secure)
      ∧ x.extractLsb' 4 60 = 0 ∧ Advanced v (v.after 1) wv ∧ wv.sq = [] ∧ Within s v.a.g v.a.w t
      ∧ (v.wv.sq = [] → t = { s with
          groups := t.groups }))
  ∧ (∀ (g : Guard) (sd sa : BitVec 6) (m : Meta) (s : State) (v : View) (a : Word), checks (.sysDgrd g sd sa) = some m → Acts m s v →
    a = v.sval s.tick sa →
    (a.extractLsb' 12 52 ≠ 0 → ∃ t, exec (.sysDgrd g sd sa) s = .next t ∧ Faulted s v Cause.rsvField v.addr (oneMask (lowest v.en.mask)) t)
    ∧ (a.extractLsb' 12 52 = 0 → ∃ t wv x, exec (.sysDgrd g sd sa) s = .next t ∧ t.wave? v.a.g v.a.w = some wv
      ∧ Wrote v.wv wv (.s sd) true v.en.mask (fun _ => x) ∧ Advanced v (v.after 1) wv
      ∧ (a.getLsbD 11 = true → x = s.slotWord (a.extractLsb' 0 8).toNat)
      ∧ (a.getLsbD 11 = false → ∀ j, j < 64 → (x.getLsbD j = true ↔
          64 * (a.extractLsb' 9 2).toNat + j ∈
            (if a.getLsbD 8 then s.closure (s.successors (a.extractLsb' 0 8).toNat) unitSlots else s.successors (a.extractLsb' 0 8).toNat)))
      ∧ wv.sq = [] ∧ Within s v.a.g v.a.w t
      ∧ (v.wv.sq = [] → t = { s with
          groups := t.groups })))

/-- R277 to R279, R311: a selection in which one pipe is free and nothing else happens gives that pipe to one entity that is a candidate:
of the marked ones where there is one, else of all, the oldest; each other candidate has been passed over once more. An entity that
sits this selection out after a `yield` is no candidate. Nothing but entities changes. -/
def Obligations.Selections : Prop :=
  ∀ (core p : Nat) (s0 s : State) (a : Actor) (marked : Actor → Bool) (cand : Actor → Prop), s0.placing = true → core < 256 → p < 4 →
    s = (s0.endDamaged core).closeEarly core →
    (∀ b ∈ s.actorsOn core, s.look b = s) → (∀ q, q < 4 → (s.pipeTaken core q = false ↔ q = p)) →
    (∀ b, marked b = ((s.entity? b).map (·.marked)).getD false) →
    (∀ b, cand b ↔ b ∈ s.actorsOn core ∧ (s.candidate b).isSome = true ∧ ∃ e, s.entity? b = some e ∧ e.skip.getLsbD p = false) →
    cand a → (∀ b, cand b → b ≠ a → if marked a = marked b then olderKey (s.ageKey a) (s.ageKey b) = true else marked a = true) →
    ∃ t, exec (.selection core) s0 = .next t
      ∧ ((∀ q ∈ s0.residents core, ∀ wv ∈ q.2.waves, wv.bad = false ∧ wv.sq = []) → s = s0)
      ∧ (∃ e e', s.entity? a = some e ∧ t.entity? a = some e' ∧ e'.pipe = some p ∧ e'.clause = s.candidate a ∧ e'.passed = 0 ∧ e'.marked = false
        ∧ (e'.hdr, e'.idx, e'.mask, e'.recs) = (e.hdr, e.idx, e.mask, e.recs))
      ∧ ((s.actorsOn core).Nodup → ∀ b, cand b → b ≠ a → ∀ e, s.entity? b = some e → ∃ e', t.entity? b = some e'
        ∧ e'.passed = e.passed + 1 ∧ e'.marked = (e.marked || decide (64 ≤ e.passed + 1)))
      ∧ (∀ b, b ≠ a → (t.entity? b).map (fun e => (e.pipe, e.hdr, e.idx, e.mask)) = (s.entity? b).map fun e => (e.pipe, e.hdr, e.idx, e.mask))
      ∧ t = { s with
          groups := t.groups }

/-- R44, R48, R153, R185, R308, R346: a turn of an instruction in flight whose work is done. A result or a load with every byte at hand and no
thread refused is written, where nothing issued since has written the register, with the flags merged; `dq.pop` and `dq.steal` of a deque
that holds entries of the launch take the bottom or the top entry and set p6, and of any other clear it; `sys.l1inv` drops the core's
lines; one that its guard had turned off does nothing. Each is in flight no more, and its flag's count is one lower. A load with a refused
thread gives its entity the fault, at which it is parked, once it has left a wait that it is parked in (R49). -/
def Obligations.Completions : Prop :=
  ∀ (g w id : Nat) (s : State) (gr : Group) (wv : Wave) (o : LongOp), s.group? g = some gr → s.wave? g w = some wv →
    Table.find wv.ops id = some o → o.faulted = false → (o.blocked = false ∨ gr.state = .running) → o.uncounted = false → wv.late = [] →
    o.clob = [] →
    (∀ d ty vals fl, o.body = .alu d ty vals fl → o.refused = [] → o.mask ≠ 0 →
      ∃ t wv', exec (.longLatencyCompletion g w id) s = .next t ∧ t.wave? g w = some wv' ∧ Table.find wv'.ops id = none
        ∧ Wrote wv wv' d ty.wide o.mask (fun t => vals.getD (if o.uni then 0 else t) 0) ∧ wv'.fpstatus = wv.fpstatus ||| fl
        ∧ (∀ k, wv'.pending k = if o.fl = some k then wv.pending k - 1 else wv.pending k) ∧ wv'.ents = wv.ents ∧ wv'.p = wv.p
        ∧ t = { s with groups := t.groups })
    ∧ (∀ sp d ty, o.body = .load sp d ty [] → o.refused = [] → o.mask ≠ 0 → s.asksFor g w id = false → wv.behindAcquire id o = false →
      wv.behindLate id = false → ∀ x : Nat → Word, (∀ t, t < 64 → o.mask.getLsbD t = true → o.gotWord (if o.uni then 0 else t) ty.bytes = some (x t)) →
      ∃ t wv', exec (.longLatencyCompletion g w id) s = .next t ∧ t.wave? g w = some wv' ∧ Table.find wv'.ops id = none
        ∧ Wrote wv wv' d ty.wide o.mask (fun t => fillWord ty (x t)) ∧ wv'.fpstatus = wv.fpstatus
        ∧ (∀ k, wv'.pending k = if o.fl = some k then wv.pending k - 1 else wv.pending k) ∧ wv'.ents = wv.ents ∧ wv'.p = wv.p
        ∧ t = { s with groups := t.groups })
    ∧ (∀ sp d ty e, o.body = .load sp d ty [] → o.refused ≠ [] → s.asksFor g w id = false → wv.behindAcquire id o = false →
      wv.behindLate id = false → s.entity? ⟨g, w, o.ent⟩ = some e → e.fault = none → Cause.replayable o.denied.cause = true →
      ∃ t wv' e', exec (.longLatencyCompletion g w id) s = .next t ∧ t.wave? g w = some wv' ∧ t.entity? ⟨g, w, o.ent⟩ = some e'
        ∧ e'.park = some (e.park.getD .fault) ∧ (e'.fault.map fun f => (f.cause, f.addr, f.op)) = some (o.denied.cause, o.denied.addr, some id)
        ∧ wv'.cause = o.denied.cause.setWidth 64 ∧ wv'.faultaddr = o.denied.addr ∧ (Table.find wv'.ops id).map (·.faulted) = some true ∧ t.mem = s.mem)
    ∧ (∀ sd top core c, (o.body = .dqPop sd ∧ top = false ∧ core = gr.core ∨ o.body = .dqSteal sd core ∧ top = true) →
      s.mayAcquire g w id wv o = true → c = s.coreOf core →
      ∃ t wv', exec (.longLatencyCompletion g w id) s = .next t ∧ t.wave? g w = some wv' ∧ Table.find wv'.ops id = none
        ∧ (c.dqLaunch = some gr.launch → ∀ (x : DqEntry) rest, (if top then c.deque = x :: rest else c.deque = rest ++ [x]) →
            (t.coreOf core).deque = rest ∧ PredWritten wv wv' 6 o.mask (fun _ => true)
            ∧ (wv'.sReg sd.toNat = x.word ∨ 1 < wv.ents.length ∧ wv'.sReg sd.toNat = wv.sReg sd.toNat)
            ∧ ((t.coreOf core).top, (t.coreOf core).bottom) = (if top then (c.top + 1, c.bottom) else (c.top, c.bottom - 1))
            ∧ wv'.cstamp = (wv.acquire.mergeStamp (some x.stamp)).cstamp
            ∧ (top = true ∨ x.task = true → ∀ k l, (k, l) ∈ t.l1 → k / 2 ^ 52 ≠ gr.core)
            ∧ (top = false → x.task = false → t.l1 = s.l1))
        ∧ (c.dqLaunch ≠ some gr.launch ∨ c.deque = [] → t.coreOf core = c ∧ PredWritten wv wv' 6 o.mask (fun _ => false) ∧ wv'.s = wv.s
            ∧ wv'.cstamp = wv.cstamp)
        ∧ wv'.v = wv.v ∧ t.mem = s.mem)
    ∧ (o.body = .off →
      ∃ t wv', exec (.longLatencyCompletion g w id) s = .next t ∧ t.wave? g w = some wv' ∧ Table.find wv'.ops id = none ∧ wv'.ents = wv.ents
        ∧ (∀ k, wv'.pending k = if o.fl = some k then wv.pending k - 1 else wv.pending k) ∧ SameRegs wv wv'
        ∧ t = { s with groups := t.groups })
    ∧ (∀ drop, o.body = .l1 drop →
      ∃ t wv', exec (.longLatencyCompletion g w id) s = .next t ∧ t.wave? g w = some wv' ∧ Table.find wv'.ops id = none ∧ wv'.ents = wv.ents
        ∧ (∀ k l, (k, l) ∈ t.l1 ↔ (k, l) ∈ s.l1 ∧ (drop = true → k / 2 ^ 52 ≠ gr.core))
        ∧ t = { s with
            groups := t.groups
            l1 := t.l1 })

/-- R30, R251: delivery of an abort discards what the wave did since its `xbeg`: predicates, windows and the live-in general registers are
as they were then, the others keep what they hold, which is the model's choice (log 48), `sc` holds the record, every flag reads set, nothing is held or in flight, and the
wave's one entity stands at the fallback with the threads it had. Memory is as it was. -/
def Obligations.AbortDelivered : Prop :=
  ∀ (g w : Nat) (s : State) (wv : Wave) (r : Region) (word : Word), s.wave? g w = some wv → wv.region = some r → r.aborted = some word →
    ∃ t wv' e, exec (.abortDelivery g w) s = .next t ∧ t.wave? g w = some wv' ∧ wv'.region = none ∧ wv'.sq = [] ∧ wv'.ops = []
      ∧ (∀ k, wv'.pending k = 0) ∧ wv'.p = r.p ∧ wv'.b = r.b
      ∧ (∀ n k, n < 256 → k < 64 → wv'.vLane n k = if r.vmask.getLsbD (n / 8) then (Table.read r.v n zeroLanes).getD k 0 else wv.vLane n k)
      ∧ (∀ n, n < 64 → wv'.sReg n = if n = r.sc.toNat then word else if r.smask.getLsbD (n / 4) then Table.read r.s n 0 else wv.sReg n)
      ∧ wv'.ents = [(r.ent, e)] ∧ e.mask = r.mask ∧ (e.hdr, e.idx) = (r.fallback, 0) ∧ e.recs = r.recs ∧ e.clause = none ∧ e.park = none
      ∧ (wv'.cstamp, wv'.fpstatus, wv'.cause, wv'.faultaddr, wv'.lanemask) = (wv.cstamp, wv.fpstatus, wv.cause, wv.faultaddr, wv.lanemask)
      ∧ (∀ q ∈ t.reqs, ∀ k, q.2.agent ≠ .op g w k) ∧ (∀ q ∈ s.reqs, (∀ k, q.2.agent ≠ .op g w k) → q ∈ t.reqs)
      ∧ (∀ n x, Table.find t.cmds n = some x → ∀ k, x.op = some (w, k) → x.g ≠ g)
      ∧ t = { s with
          groups := t.groups
          reqs := t.reqs
          cmds := t.cmds }

/-- R288, R289, R359, R361: a replay of a fault that a trigger covers unparks its entity, whose instruction issues again in the threads of
the fault, or goes on in flight (in deterministic mode the boundary replays it, R290); of the requests for a buffer the oldest is
granted when there is room, its group's allocation is what it asked for and p6 is set; where no request of the core can be granted and
every holder waits the youngest for a larger allocation is refused, where an older group asks too, and BUFREQ shows it where that request
is the one last written; an entity that leaves its wait is parked at a fault that it has met in it; the queues of completions and cause
records drain until they are empty or the completion queue is full. -/
def Obligations.Grants : Prop :=
  (∀ (a : Actor) (s : State) (gr : Group) (e : Entity) (f : FaultInfo), s.group? a.g = some gr → gr.state = .running → gr.saving = false →
    gr.triggered.contains (a.w, a.e) = true → s.det gr = false → s.entity? a = some e → e.park = some .fault → e.fault = some f →
    (∀ id wv, f.op = some id → s.wave? a.g a.w = some wv → wv.flagFull id = false) →
    ∃ t e', exec (.faultReplay a) s = .next t ∧ t.entity? a = some e' ∧ e'.park = none ∧ e'.fault = none
      ∧ (f.op = none → e'.replay = some f.lanes) ∧ (e'.hdr, e'.idx, e'.mask) = (e.hdr, e.idx, e.mask)
      ∧ ((t.group? a.g).map fun gr => gr.triggered.contains (a.w, a.e)) = some false ∧ t.mem = s.mem)
  ∧ (∀ (core : Nat) (sp : Space) (s : State) (a : Actor) (n : Nat) (rest : List (Actor × Nat)) (gr : Group) (wv : Wave) (e : Entity),
    s.requesters core sp = (a, n) :: rest → (∀ r ∈ s.requesters core sp, s.shrinks sp r = false) → s.group? a.g = some gr →
    s.wave? a.g a.w = some wv → s.entity? a = some e →
    (s.held core sp a.g + 4096 * n ≤ physical sp →
      ∃ t gr' wv' e', exec (.bufreqGrant core sp) s = .next t ∧ t.group? a.g = some gr' ∧ t.wave? a.g a.w = some wv' ∧ t.entity? a = some e'
        ∧ e'.park = wokenPark e ∧ PredWritten wv wv' 6 e.mask (fun _ => true) ∧ (gr'.buf sp).size = 4096 * n
        ∧ (∀ off, off < 4096 * n → (gr'.buf sp).byte off = (gr.buf sp).byte off)
        ∧ t = { s with groups := t.groups })
    ∧ (∀ b c gb wb eb, physical sp < s.held core sp a.g + 4096 * n → s.deadlocked core sp = true →
        (s.growRequests core).head? = some c → (s.growRequests core).getLast? = some b → c.g ≠ b.g →
        s.group? b.g = some gb → s.wave? b.g b.w = some wb → s.entity? b = some eb →
      ∃ t gb' wb' eb', exec (.bufreqGrant core sp) s = .next t ∧ t.group? b.g = some gb' ∧ t.wave? b.g b.w = some wb' ∧ t.entity? b = some eb'
        ∧ eb'.park = wokenPark eb ∧ PredWritten wb wb' 6 eb.mask (fun _ => false) ∧ (gb'.sp, gb'.wb, gb'.ab, gb'.cb) = (gb.sp, gb.wb, gb.ab, gb.cb)
        ∧ gb'.bufreq = (if gb.bufBy = some (b.w, b.e) then (1 : BitVec 1) ++ Cause.allocRefused ++ (0 : BitVec 42) ++ gb.bufreq.extractLsb' 0 12
            else gb.bufreq)
        ∧ t = { s with groups := t.groups }))
  ∧ (∀ s : State, ∃ t, exec .causeRecordDrain s = .next t
      ∧ (t.completionRoom = false ∨ t.mbx.waiting = [] ∧ t.mbx.records = [])
      ∧ (∃ k j, t.mbx.waiting = s.mbx.waiting.drop k ∧ t.mbx.records = s.mbx.records.drop j ∧ (0 < j → t.mbx.waiting = [])
          ∧ t.mbx.posted = s.mbx.posted + (s.mbx.waiting.length - t.mbx.waiting.length) + (s.mbx.records.length - t.mbx.records.length))
      ∧ t = { s with
          mbx := t.mbx
          hostMem := t.hostMem
          msix := t.msix })

/-- R152, R153, R162, R163, R166, R174, R235: a load of a wave at its home slice, of error-free memory, merges what it carries into the
slice's count, hands each item its bytes, notes the granule's stamp for the wave's next acquire, and outside a region leaves the granule
in the core's L1, where there is room for it. An as-of read without a carried stamp of a versioned page returns the current bytes where the granule's stamp lies at
or below T, else those of the first kept version at or below T on the granule's chain; of an unversioned page, and of a T below H, it
is refused. No byte of memory changes. -/
def Obligations.SliceReads : Prop :=
  (∀ (id g w o : Nat) (s : State) (r : Req) (gr : Group) (wv : Wave) (x : LongOp), s.turnOf id = some r → r.kind = .load → r.slot = none →
    s.barred r = false → r.agent = .op g w o → s.flips = [] → s.group? g = some gr → s.wave? g w = some wv → Table.find wv.ops o = some x →
    ∃ t wv' x', exec (.sliceLoadRequest id) s = .next t ∧ t.wave? g w = some wv' ∧ Table.find wv'.ops o = some x'
      ∧ (∀ i ∈ r.items, ∀ k, k < i.len → ∃ j ∈ r.items, ∃ l, l < j.len ∧ 8 * j.thread + (j.byte + l) = 8 * i.thread + (i.byte + k)
          ∧ Table.find x'.got (8 * i.thread + (i.byte + k)) = some (s.byte (j.addr + l)))
      ∧ (∀ n, (∀ i ∈ r.items, ∀ k, k < i.len → n ≠ 8 * i.thread + (i.byte + k)) → Table.find x'.got n = Table.find x.got n)
      ∧ wv'.seen = stampJoin wv.seen (some (s.versionStamp r.gran)) ∧ SameRegs wv wv' ∧ wv'.ents = wv.ents
      ∧ Table.find t.reqs id = none ∧ (∀ n, n ≠ id → Table.find t.reqs n = Table.find s.reqs n)
      ∧ (∀ k, t.sliceCount k = if k = homeSlice r.gran then mergeCount (s.sliceCount k) r.carried else s.sliceCount k)
      ∧ (wv.region = none → s.l1Bytes gr.core + granSize (s.page (dpaPage r.gran)).gran ≤ 2 ^ 18 →
          ∃ l, Table.find t.l1 (l1Key gr.core (s.dpaOf r.gran)) = some l ∧ l.data = s.bytes r.gran (granSize (s.page (dpaPage r.gran)).gran)
            ∧ l.stamp = s.versionStamp r.gran ∧ l.count = t.sliceCount (homeSlice r.gran))
      ∧ t.mem = s.mem ∧ t.gstamps = s.gstamps ∧ t.pages = s.pages)
  ∧ (∀ (id g w o : Nat) (s : State) (r : Req) (wv : Wave) (x : LongOp) (i : ReqItem) (T : Stamp) (k : Nat), s.turnOf id = some r →
    r.kind = .asof T → s.barred r = false → r.agent = .op g w o → r.items = [i] → r.carried = none → s.flips = [] → s.wave? g w = some wv → Table.find wv.ops o = some x →
    k = dpaStack r.gran →
    ∃ t wv' x', exec (.asofRead id) s = .next t ∧ t.wave? g w = some wv' ∧ Table.find wv'.ops o = some x' ∧ Table.find t.reqs id = none
      ∧ ((s.page (dpaPage r.gran)).v = false → x'.refused = x.refused ++ [⟨i.thread, Cause.notVersioned, x.vaOf i.thread i.byte⟩] ∧ x'.got = x.got)
      ∧ ((s.page (dpaPage r.gran)).v = true → (∀ d, countAbove (count T) (s.sliceCount (homeSlice r.gran)) = some d → d ≤ 2 ^ 40) →
          (stampCmp T (s.stack k).hRound = .lt → x'.refused = x.refused ++ [⟨i.thread, Cause.histReclaimed, x.vaOf i.thread i.byte⟩])
          ∧ (stampCmp T (s.stack k).hRound = .far → x'.refused = x.refused ++ [⟨i.thread, Cause.stampWindow, x.vaOf i.thread i.byte⟩])
          ∧ ((stampCmp T (s.stack k).hRound = .gt ∨ stampCmp T (s.stack k).hRound = .eq) →
            (stampLe (s.ownStamp r.gran) T = true → x'.refused = x.refused ∧ ∀ n, n < i.len → Table.find x'.got (8 * i.thread + (i.byte + n)) = some (s.byte (i.addr + n)))
            ∧ (∀ p rec_, stampLe (s.ownStamp r.gran) T = false → Table.find s.glinks r.gran = some p → (s.stack k).base ≤ p →
                (s.stack k).log.find? (fun y => y.pos == p) = some rec_ → rec_.flips = [] → stampLe rec_.old T = true →
                x'.refused = x.refused ∧ ∀ n, n < i.len → i.addr - r.gran + n < rec_.data.length →
                  Table.find x'.got (8 * i.thread + (i.byte + n)) = rec_.data[i.addr - r.gran + n]?)
            ∧ (stampLe (s.ownStamp r.gran) T = false → Table.find s.glinks r.gran = none →
                x'.refused = x.refused ++ [⟨i.thread, Cause.histReclaimed, x.vaOf i.thread i.byte⟩])))
      ∧ t.mem = s.mem ∧ t.gstamps = s.gstamps)

/-- R152, R161, R163, R169, R237, R239: a released store of a wave, of error-free memory, that no region and no host line holds back and whose old
version the Whey has room for, commits at its home slice: its bytes are in place, in order and nothing else is; the granule has a stamp of
the slice's next count, above what the store carried in the window, and of a deterministic launch above its last commit (R293; how the
model keeps that order is log 120); on a versioned page the old bytes and stamp are the newest record
of the stack's log and the granule links to it. An atomic of one thread outside regions on an unversioned page returns the old bytes to its
instruction and writes the value of R237, if there is one, likewise. -/
def Obligations.SliceWrites : Prop :=
  (∀ (id g w : Nat) (s : State) (r : Req) (wv : Wave) (c : BitVec 50) (p : Page), s.turnOf id = some r → r.kind = .store → r.slot = none →
    s.barred r = false → r.agent = .wave g w → s.flips = [] → s.wave? g w = some wv → s.snooping r.gran = false → s.onGranule r.gran = [] →
    c = mergeCount (s.sliceCount (homeSlice r.gran)) (s.carriedOf r) + 1 → p = s.page (dpaPage r.gran) →
    (p.v = true → s.wheyRoom (dpaStack r.gran) (recordBytes p.gran) none = true) →
    ∃ t wv' x, exec (.sliceCommit id) s = .next t ∧ t.wave? g w = some wv' ∧ x = mkStamp c (s.originOf (homeSlice r.gran))
      ∧ t.mem = r.items.foldl (fun m i => writeBytes m i.addr i.data) s.mem
      ∧ t.sliceCount (homeSlice r.gran) = c ∧ (∀ k, k ≠ homeSlice r.gran → t.sliceCount k = s.sliceCount k)
      ∧ Table.find t.gstamps r.gran = some x ∧ (∀ n, n ≠ r.gran → Table.find t.gstamps n = Table.find s.gstamps n)
      ∧ wv'.stored = stampJoin wv.stored (some x) ∧ SameRegs wv wv' ∧ wv'.ents = wv.ents ∧ wv'.ops = wv.ops
      ∧ Table.find t.reqs id = none ∧ (∀ n, n ≠ id → Table.find t.reqs n = Table.find s.reqs n)
      ∧ (p.v = true → ∃ y, (t.stack (dpaStack r.gran)).log = (s.stack (dpaStack r.gran)).log ++ [y] ∧ y.pos = (s.stack (dpaStack r.gran)).next
          ∧ y.old = s.ownStamp r.gran ∧ y.sup = x ∧ y.link = Table.find s.glinks r.gran ∧ y.data = s.bytes r.gran (granSize p.gran)
          ∧ Table.find t.glinks r.gran = some y.pos ∧ (t.stack (dpaStack r.gran)).next = y.pos + 32 + granSize p.gran)
      ∧ (p.v = false → t.glinks = s.glinks ∧ ∀ k, (t.stack k).log = (s.stack k).log))
  ∧ (∀ (id g w o : Nat) (s : State) (r : Req) (wv : Wave) (x : LongOp) (i : ReqItem) (op : AtomOp) (ty : Ty) (old : Word), s.turnOf id = some r →
    r.kind = .atom op ty → r.slot = none → s.barred r = false → r.agent = .op g w o → r.items = [i] → s.flips = [] → s.wave? g w = some wv → wv.region = none →
    Table.find wv.ops o = some x → s.snooping r.gran = false → s.onGranule r.gran = [] → (s.page (dpaPage r.gran)).v = false →
    old = BitVec.ofNat 64 (ofBytes (s.bytes i.addr i.len)) →
    ∃ t wv' x', exec (.sliceAtomic id) s = .next t ∧ t.wave? g w = some wv' ∧ Table.find wv'.ops o = some x'
      ∧ (∀ n, n < i.len → Table.find x'.got (8 * i.thread + (i.byte + n)) = some (s.byte (i.addr + n)))
      ∧ x'.flags = x.flags ||| (atomVal op ty old i.x i.cmp).2
      ∧ (∀ y, (atomVal op ty old i.x i.cmp).1 = some y → t.mem = writeBytes s.mem i.addr (toBytes y.toNat i.len)
          ∧ ∃ z, count z = mergeCount (s.sliceCount (homeSlice r.gran)) (s.carriedOf r) + 1 ∧ origin z = s.originOf (homeSlice r.gran)
            ∧ Table.find t.gstamps r.gran = some z ∧ wv'.stored = stampJoin wv.stored (some z)
            ∧ wv'.seen = stampJoin wv.seen (some z))
      ∧ ((atomVal op ty old i.x i.cmp).1 = none → t.mem = s.mem ∧ t.gstamps = s.gstamps ∧ wv'.stored = wv.stored)
      ∧ SameRegs wv wv' ∧ wv'.ents = wv.ents ∧ Table.find t.reqs id = none ∧ (∀ n, n ≠ id → Table.find t.reqs n = Table.find s.reqs n))

/-- R152, R170, R173, R175, R239, R257: the contention counter of a granule falls by one for each 1,024 atomics served; a stack whose appends
have been refused 2^16 times has the lowest hold revoked, and its owner is told; one whose horizon lags reclaims its oldest record, or
has the hold revoked that keeps it, and with no record raises H (the value of H then, and the count of refusals that restarts at 0, are
log 19); a sweep, of the whole slice at once (log 51), leaves no stamp of its slice more than 2^47 below its count, each with its origin; a request held behind a region that is gone is performed as one that was never held, and a held append is tried again
in a later round, or once the stack has reclaimed or a hold has ended; a line the host has given back is no longer its own. -/
def Obligations.SliceUpkeep : Prop :=
  (∀ (b : Nat) (s : State) (c : Contention), c = Table.read s.contention b {} →
    ∃ t, exec (.contentionDecay b) s = .next t
      ∧ (∀ n, Table.read t.contention n {} = if n = b ∧ 2 ≤ c.counter ∧ 1024 ≤ c.served then { c with counter := c.counter - 1, served := c.served - 1024 }
          else Table.read s.contention n {})
      ∧ t = { s with contention := t.contention })
  ∧ (∀ (k j : Nat) (s : State) (h : Hold), 2 ^ 16 ≤ (s.stack k).refused → s.lowestHold = some (j, h) →
    ∃ t, exec (.holdRevocation k) s = .next t ∧ (∀ n, Table.find t.holds n = if n = j then none else Table.find s.holds n)
      ∧ t.holdsEnded = s.holdsEnded + 1 ∧ (t.stack k).refused = 0 ∧ (∀ n, n ≠ k → t.stack n = s.stack n) ∧ t.mem = s.mem ∧ t.groups = s.groups
      ∧ (t.mbx.posted = s.mbx.posted + 1 ∨ t.mbx.records.length = s.mbx.records.length + 1 ∨ s.mbx.records.length ≥ 1024))
  ∧ (∀ (k : Nat) (s : State), k < 16 → 2 ^ 47 ≤ s.lag k →
    ∃ t, exec (.horizonLagReclaim k) s = .next t ∧ t.mem = s.mem ∧ t.groups = s.groups ∧ (∀ n, n ≠ k → t.stack n = s.stack n)
      ∧ (∀ r rest, (s.stack k).log = r :: rest → s.holdsAllow r.sup = true → (t.stack k).log = rest ∧ (t.stack k).h = stampMax (s.stack k).h r.sup
          ∧ t.holds = s.holds ∧ (64 + k, .horizon k (stampMax (s.stack k).h r.sup)) ∈ t.bcasts)
      ∧ (∀ r rest j h, (s.stack k).log = r :: rest → s.holdsAllow r.sup = false → s.lowestHold = some (j, h) →
          (t.stack k).log = (s.stack k).log ∧ Table.find t.holds j = none ∧ t.holdsEnded = s.holdsEnded + 1)
      ∧ ((s.stack k).log = [] → ∀ (cur : BitVec 50) (h : Stamp),
          cur = ((List.range 4).map fun i => s.sliceCount (4 * k + i)).foldl countMax (count (s.stack k).h) →
          h = mkStamp (cur - BitVec.ofNat 50 (2 ^ 47) + 1) (s.originOf (4 * k)) → (t.stack k).log = []
            ∧ (s.holdsAllow h = true → (t.stack k).h = h ∧ t.holds = s.holds)
            ∧ (s.holdsAllow h = false → (t.stack k).h = (s.stack k).h ∧ ∀ j x, s.lowestHold = some (j, x) → Table.find t.holds j = none)))
  ∧ (∀ (k base : Nat) (s : State), k < 64 → 2 ^ 47 ≤ (s.sliceCount k).toNat → homeSlice base = k →
    ∃ t, exec (.ageSweep k) s = .next t
      ∧ (∀ x, (Table.find s.gstamps base).or (s.page (dpaPage base)).base = some x → origin (t.ownStamp base) = origin x)
      ∧ countAbove (s.sliceCount k - BitVec.ofNat 50 (2 ^ 47)) (count (t.ownStamp base)) = none
      ∧ (∀ n, t.page n = { s.page n with
          stamp := (t.page n).stamp
          base := (t.page n).base })
      ∧ t = { s with
          gstamps := t.gstamps
          pages := t.pages
          sweeps := t.sweeps
          sweptAt := t.sweptAt })
  ∧ (∀ (id k : Nat) (start : BitVec 50) (s : State) (r : Req), Table.find s.reqs id = some r →
    (r.held = some (.behind k start) ∨ r.held = some (.edge k start)) →
    (s.regionOver k start = false → exec (.heldRequestRelease id) s = .next s)
    ∧ (s.regionOver k start = true → r.slot = none → ∀ u, u = { s with reqs := Table.insert s.reqs id { r with held := none } } →
        u.turnOf id = some { r with held := none } → r.kind = .load ∨ r.kind = .store →
        ∃ t, exec (.heldRequestRelease id) s = .next t
          ∧ exec (if r.kind = .load then .sliceLoadRequest id else .sliceCommit id) u = .next t
          ∧ (r.kind = .load → Table.find t.reqs id = none ∧ t.mem = s.mem)))
  ∧ (∀ (id n f : Nat) (s : State) (r : Req), Table.find s.reqs id = some r → r.held = some (.whey n f) → r.slot = none → r.kind = .store →
    (n = s.round → f = s.freedAt (dpaStack r.gran) → exec (.wheyRetry (.req id)) s = .next s)
    ∧ (n ≠ s.round ∨ f ≠ s.freedAt (dpaStack r.gran) →
      ∀ u, u = { s with reqs := Table.insert s.reqs id { r with held := none } } → u.turnOf id = some { r with held := none } →
      ∃ t, exec (.wheyRetry (.req id)) s = .next t ∧ exec (.sliceCommit id) u = .next t))
  ∧ (∀ (l : Nat) (s : State), ∃ t, exec (.backInvalidationResponse l) s = .next t ∧ (∀ n, n ∈ t.hostLines ↔ n ∈ s.hostLines ∧ n ≠ l)
      ∧ t = { s with hostLines := t.hostLines })

/-- R164, R206, R207, R246 to R250, R252: an `xbeg` that waits is served, first come first, when a shadow and a slot are free. A region's store becomes
its newest uncommitted write; its load returns its own uncommitted bytes, else those of an older region that has written the granule, from
which it then has a forward edge and below which it lies, else the committed ones. A region that may commit, whose stamp lies above those of the
regions committed before and whose writes no line of the host's holds back, puts them all in place under one stamp, which its wave's
next release merges, and is gone. Nothing is committed before that. -/
def Obligations.RegionEvents : Prop :=
  (∀ (s : State) (a : Actor) (rest : List Actor) (k : Nat) (wv : Wave) (e : Entity) (hdr : Word) (idx : Nat) (vmask : BitVec 32) (smask : BitVec 16)
      (target : Word) (sc : BitVec 6), s.xbegQueue = a :: rest → s.runs a.g = true → s.canBegin (s.coreOfGroup a.g) = true → s.freeSlot = some k →
    s.wave? a.g a.w = some wv → s.entity? a = some e → e.fault = none → e.waiting = some (hdr, idx, vmask, smask, target, sc) →
    ∃ t wv' e' r x, exec .xbegServe s = .next t ∧ t.xbegQueue = rest ∧ t.wave? a.g a.w = some wv' ∧ t.entity? a = some e' ∧ wv'.region = some r
      ∧ r.slot = k ∧ Table.find t.slots k = some x ∧ x.start = countMax s.startCount (count wv.cstamp) + 1 ∧ t.startCount = x.start ∧ (x.g, x.w) = (a.g, a.w)
      ∧ (r.v, r.s, r.p, r.b, r.vmask, r.smask, r.fallback, r.sc) = (wv.v, wv.s, wv.p, wv.b, vmask, smask, target, sc) ∧ r.mask = e.mask ∧ r.recs = e.recs
      ∧ e'.park = none ∧ (e'.hdr, e'.idx, e'.mask) = (e.hdr, e.idx, e.mask) ∧ t.mem = s.mem)
  ∧ (∀ (id k : Nat) (s : State) (r : Req) (x : Slot), s.turnOf id = some r → r.slot = some k → Table.find s.slots k = some x → r.kind = .store →
    s.barred r = false → (s.onGranule r.gran).filter (· ≠ k) = [] → s.entriesAt (homeSlice r.gran) < 4096 →
    ∃ t y, exec (.regionAccess id) s = .next t ∧ Table.find t.slots k = some y
      ∧ y.writes.map (fun w => (w.addr, w.data)) = x.writes.map (fun w => (w.addr, w.data)) ++ r.items.map (fun i => (i.addr, i.data))
      ∧ (y.dir.any fun d => d.gran == r.gran && d.writes) = true ∧ y.edges = x.edges ∧ y.start = x.start
      ∧ Table.find t.reqs id = none ∧ (∀ n, n ≠ id → Table.find t.reqs n = Table.find s.reqs n) ∧ t.mem = s.mem ∧ t.gstamps = s.gstamps)
  ∧ (∀ (id k g w o : Nat) (s : State) (r : Req) (x : Slot) (wv : Wave) (p : LongOp) (i : ReqItem), s.turnOf id = some r → r.slot = some k →
    Table.find s.slots k = some x → r.kind = .load → s.barred r = false → r.agent = .op g w o → r.items = [i] → s.flips = [] → s.wave? g w = some wv →
    Table.find wv.ops o = some p → s.entriesAt (homeSlice r.gran) < 4096 →
    ((s.onGranule r.gran).filter (· ≠ k) = [] →
      ∃ t wv' p' y, exec (.regionAccess id) s = .next t ∧ t.wave? g w = some wv' ∧ Table.find wv'.ops o = some p' ∧ Table.find t.slots k = some y
        ∧ (∀ n, n < i.len → Table.find p'.got (8 * i.thread + (i.byte + n)) = some (((uncommitted x.writes (i.addr + n)).map (·.2)).getD (s.byte (i.addr + n))))
        ∧ (y.dir.any fun d => d.gran == r.gran && d.reads) = true ∧ y.writes = x.writes ∧ y.edges = x.edges ∧ Table.find t.reqs id = none ∧ t.mem = s.mem)
    ∧ (∀ f xf, f ≠ k → (s.onGranule r.gran).filter (· ≠ k) = [f] → Table.find s.slots f = some xf → s.wrote f r.gran = true →
        older xf.start x.start = true → xf.depth + 1 + s.height k 5 ≤ 4 → s.reach k f = false → s.reach k k = false →
      ∃ t wv' p' y yf, exec (.regionAccess id) s = .next t ∧ t.wave? g w = some wv' ∧ Table.find wv'.ops o = some p' ∧ Table.find t.slots k = some y
        ∧ Table.find t.slots f = some yf ∧ (k, EdgeKind.forward) ∈ yf.edges ∧ y.depth = max x.depth (xf.depth + 1)
        ∧ (∀ n, n < i.len → Table.find p'.got (8 * i.thread + (i.byte + n)) = some
            (match uncommitted x.writes (i.addr + n) with
              | some (_, b) => b
              | none => ((uncommitted xf.writes (i.addr + n)).map (·.2)).getD (s.byte (i.addr + n))))
        ∧ Table.find t.reqs id = none ∧ t.mem = s.mem))
  ∧ (∀ (k : Nat) (s : State) (x : Slot) (gr : Group) (wv : Wave), Table.find s.slots k = some x → x.state = .live → s.mayCommit k = true →
    s.group? x.g = some gr → s.wave? x.g x.w = some wv → s.flips = [] →
    (∀ r, wv.region = some r → s.overtaken r = false) → s.inOrder x ((stampJoin (some wv.cstamp) (s.lastOf x.g)).getD wv.cstamp) = true →
    s.regionSnoops x = false →
    (∀ b ∈ x.written, s.granOf b = b ∧ (s.page (dpaPage b)).v = false) →
    (∀ w ∈ x.writes, w.data ≠ [] ∧ ∃ b ∈ x.written, b ≤ w.addr ∧ w.addr + w.data.length ≤ b + granSize (s.page (dpaPage b)).gran) →
    ∃ t wv' z, exec (.regionCommit k) s = .next t ∧ Table.find t.slots k = none ∧ t.wave? x.g x.w = some wv' ∧ wv'.region = none
      ∧ (∀ a, t.byte a = ((uncommitted x.writes a).map (·.2)).getD (s.byte a))
      ∧ (∀ b ∈ x.written, Table.find t.gstamps b = some z) ∧ t.cmCount = count z
      ∧ wv'.stored = stampJoin wv.stored (some z) ∧ SameRegs wv wv'
      ∧ (∀ n q, Table.find wv'.ops n = some q → q.body = .xend → q.ready = true)
      ∧ (∀ n, n ≠ k → (Table.find t.slots n).map (fun y => (y.start, y.edges, y.writes)) = (Table.find s.slots n).map fun y => (y.start, y.edges, y.writes))
      ∧ (∀ n y, n ≠ k → Table.find s.slots n = some y → (n, EdgeKind.forward) ∈ x.edges →
          (Table.find t.slots n).map (·.sources) = some (stampJoin y.sources (some z))))

/-- R163, R165, R170, R209, R264: the token visits this module's interfaces once the round before has closed at every interface of the
domain; they put their largest count and at most four broadcasts each into the round, and the other modules are told. Once every module
has, which alone in its domain it has, the round closes: every slice's count reaches the largest of all, the broadcasts apply, among them
a stack's horizon, and the next round begins; each other module is told, and its own close is awaited. The stamp of each launch that was
accepted before the round began is formed at slice 0: its origin is that slice's, its count lies above the slice's own, above every count
of the round and above that of its issuer, and the slice's reaches it; of one launch alone it is the largest of those plus one. Until
every module has announced the round stays open. No byte of memory and no wave changes. How modules tell each other is the model's choice
(log 119). -/
def Obligations.RoundCloses : Prop :=
  ∀ s u : State, u = s.placeRound →
    (s.placed = none → s.allClosed = false → u = s ∧ exec .roundClose s = .next s)
    ∧ (s.placed ≠ none ∨ s.allClosed = true → ∃ a, u.placed = some a ∧ (s.placed = none → (∀ k, k < 64 → (s.sliceCount k).toNat < 2 ^ 48) →
        (∀ k, k < 64 → (s.sliceCount k).toNat ≤ a.count.toNat)
        ∧ (∀ src, (a.bcasts.filter fun b => b.1 = src).length = min 4 (s.bcasts.filter fun b => b.1 = src).length)
        ∧ (∀ m ∈ s.others, m < 256 → ∃ f ∈ Table.read u.fabric.unacked m [], f.body = .announce a.count a.bcasts)))
    ∧ (s.others = [] → ∃ l, u.roundOf = some l)
    ∧ (u.roundOf = none → exec .roundClose s = .next u ∧ u.round = s.round)
    ∧ (∀ l, u.roundOf = some l → ∃ t, exec .roundClose s = .next t ∧ t.round = s.round + 1 ∧ t.placed = none
      ∧ ((∀ k, k < 64 → (s.sliceCount k).toNat < 2 ^ 48) → (∀ x ∈ l, x.2.count.toNat < 2 ^ 48) →
          (∀ n x, (n, x) ∈ s.launches → ∀ c, x.seedCount = some c → c.toNat < 2 ^ 48) → s.launches.length < 2 ^ 47 →
        (∀ x k, x ∈ l → k < 64 → x.2.count.toNat ≤ (t.sliceCount k).toNat)
        ∧ (∀ k, k < 64 → (s.sliceCount k).toNat ≤ (t.sliceCount k).toNat)
        ∧ (∀ n x, Table.find s.launches n = some x → x.stamp = none → x.round ≤ s.round →
          ∃ y, Table.find t.launches n = some { x with stamp := some y } ∧ origin y = s.originOf 0
            ∧ (s.sliceCount 0).toNat < (count y).toNat ∧ (∀ z ∈ l, z.2.count.toNat < (count y).toNat)
            ∧ (∀ c, x.seedCount = some c → c.toNat < (count y).toNat) ∧ (count y).toNat ≤ (t.sliceCount 0).toNat
            ∧ ((s.launches.filter fun p => p.2.stamp.isNone && p.2.round ≤ s.round) = [(n, x)] →
              (count y).toNat = 1 + (l.map (·.2.count.toNat)).foldl max
                (max (s.sliceCount 0).toNat ((x.seedCount.map (·.toNat)).getD 0)))))
      ∧ (Table.rising s.launches = true → ∀ n x, Table.find s.launches n = some x → x.stamp ≠ none ∨ s.round < x.round →
          Table.find t.launches n = some x)
      ∧ (∀ n x, Table.find t.launches n = some x → x.round ≤ s.round → x.stamp.isSome = true)
      ∧ (∀ k c h, l = [(s.fabric.index.toNat, ⟨c, [(64 + k, .horizon k h)]⟩)] → (t.stack k).hRound = h)
      ∧ (s.others.Nodup → ∀ m ∈ s.others, Table.read t.announced m [] = (Table.read s.announced m []).drop 1
          ∧ Table.read t.unclosed m 0 = Table.read s.unclosed m 0 + 1)
      ∧ (∀ m ∈ s.others, m < 256 → ∃ f ∈ Table.read t.fabric.unacked m [], f.body = .closed)
      ∧ t.mem = s.mem ∧ t.groups = s.groups ∧ t.reqs = s.reqs ∧ t.gstamps = s.gstamps)

/-- R134, R135, R138, R140: a piece of a plain copy between tensors in the scratchpad lands: each of its elements holds its source's,
converted; no other byte of the group changes. The engine lands a native pairing, the firmware another, with the same bits.
R139, R359: a copy that a trigger lets resume is no longer suspended.
R78, R129: a K-step adds one slice's terms to every element of one tile, and changes no other byte. R399: where the debugger holds the
engine in that step, it halts in place of taking it. R131: in trap mode a product
that would read what was never written ends with its error and no part of its work.
R44, R124, R285: a finished product completes: its queue's counter takes its number when it is the next, its flag counts down, and the
entities parked on a timeline that has reached their value go on. -/
def Obligations.EngineEvents : Prop :=
  (∀ (native : Bool) (i : Instr) (id piece : Nat) (s : State) (j : Job), s.job id = some j → s.canLand id j piece = true →
    j.c.kind = .copy false false false → j.d.sp = .sp → j.x.sp = .sp → j.c.bar = none → nativePair j.d.fmt j.x.fmt = native →
    j.gr.holds j.d = true → (∀ e ∈ j.elems piece, j.gr.sp.allValid (j.x.elemAt e.1 e.2) j.x.esize = true ∧ j.gr.sp.sound (j.x.elemAt e.1 e.2) j.x.esize = true) →
    (native = true ∧ i = .landing id piece ∨ native = false ∧ i = .fmtAbsentEmulation id piece) →
    ∃ t gr' c', exec i s = .next t ∧ t.group? j.c.g = some gr' ∧ gr' = { j.gr with sp := gr'.sp } ∧ gr'.sp.size = j.gr.sp.size
      ∧ (∀ e ∈ j.elems piece, ∀ k, k < j.d.esize → gr'.sp.byte (j.d.elemAt e.1 e.2 + k)
          = (toBytes (convertPlain j.d.fmt j.x.fmt
              (BitVec.ofNat 64 (ofBytes (j.gr.sp.read (j.x.elemAt e.1 e.2) j.x.esize)))).toNat j.d.esize).getD k 0)
      ∧ (∀ off, (∀ e ∈ j.elems piece, ∀ k, k < j.d.esize → off ≠ j.d.elemAt e.1 e.2 + k) → gr'.sp.byte off = j.gr.sp.byte off)
      ∧ Table.find t.cmds id = some c' ∧ c'.landed = piece :: j.c.landed ∧ c'.begun = true ∧ c'.err = j.c.err
      ∧ (∀ n, n ≠ id → Table.find t.cmds n = Table.find s.cmds n) ∧ (∀ n, n ≠ j.c.g → t.group? n = s.group? n)
      ∧ t = { s with
          groups := t.groups
          cmds := t.cmds })
  ∧ (∀ (id : Nat) (s : State) (c : Cmd), Table.find s.cmds id = some c → c.resume = true →
    ∃ t c', exec (.copyPageResume id) s = .next t ∧ Table.find t.cmds id = some c' ∧ c'.suspended = none ∧ c'.resume = false
      ∧ c' = { c with
          suspended := none
          resume := false }
      ∧ (∀ n, n ≠ id → Table.find t.cmds n = Table.find s.cmds n) ∧ t = { s with cmds := t.cmds })
  ∧ (∀ (id u : Nat) (s : State) (p : Product), s.product? id = some p → s.mayStep id p = true →
    (p.c.begun = true → s.kheld p = true → exec (.matrixKstep id) s = .next (s.halt p.gr.core id))
    ∧ (p.c.begun = true → s.kheld p = false → p.sound u = true → p.c.progress = u → u < p.total → p.out.sp = .cb → p.out.cols = p.nq →
      ∃ t gr' c', exec (.matrixKstep id) s = .next t ∧ t.group? p.c.g = some gr' ∧ gr' = { p.gr with cb := gr'.cb }
        ∧ (∀ m n k, m < p.mq → n < p.nq → k < p.out.esize → gr'.cb.byte (p.out.elemAt m n + k)
            = if u / p.a.kslices = m / 64 * p.across + n / 64 then (toBytes (p.elem (u % p.a.kslices) m n) p.out.esize).getD k 0
              else p.gr.cb.byte (p.out.elemAt m n + k))
        ∧ (∀ off, (∀ m n k, m < p.mq → n < p.nq → k < p.out.esize → off ≠ p.out.elemAt m n + k) → gr'.cb.byte off = p.gr.cb.byte off)
        ∧ Table.find t.cmds id = some c' ∧ c' = { p.c with
            progress := u + 1
            finished := decide (p.total ≤ u + 1) }
        ∧ t = { s with
            groups := t.groups
            cmds := t.cmds })
    ∧ (p.c.begun = false → p.valid = false → s.warns p.gr = false → p.c.queue = qMatrix →
      ∃ t gr' c', exec (.matrixKstep id) s = .next t ∧ t.group? p.c.g = some gr' ∧ gr'.cb = p.gr.cb ∧ Table.find t.cmds id = some c'
        ∧ c'.finished = true ∧ c'.err = p.c.err.or (some (Cause.engine Cause.eMatrix Cause.rUninit)) ∧ c'.progress = p.c.progress
        ∧ (Table.read gr'.qfault qMatrix 0).getLsbD 63 = true
        ∧ t = { s with
            groups := t.groups
            cmds := t.cmds }))
  ∧ (∀ (id w o : Nat) (s : State) (k : Cmd) (gr : Group) (wv : Wave) (x : LongOp) (tern init : Bool) (m0 n0 mq nq : Nat),
    Table.find s.cmds id = some k → k.kind = .product tern init m0 n0 mq nq → k.queue = qMatrix → k.finished = true →
    s.group? k.g = some gr → k.op = some (w, o) → s.wave? k.g w = some wv → Table.find wv.ops o = some x → x.body = .cmd id →
    (∀ f ∈ s.mbx.flights, f.2 ≠ .collective id) →
    ∃ t gr' wv', exec (.engineCommandCompletion id) s = .next t ∧ Table.find t.cmds id = none
      ∧ (∀ n, n ≠ id → Table.find t.cmds n = Table.find s.cmds n) ∧ t.group? k.g = some gr' ∧ t.wave? k.g w = some wv'
      ∧ Table.find wv'.ops o = none ∧ (∀ f, wv'.pending f = if x.fl = some f then wv.pending f - 1 else wv.pending f)
      ∧ ((gr.queue qMatrix).epoch = k.epoch → k.num = (gr.queue qMatrix).c + 1 → (gr.queue qMatrix).ahead = [] →
          (gr'.queue qMatrix).c = k.num
          ∧ ∀ a e tl n sc, s.entity? a = some e → a.g = k.g → e.park = some (.timeline tl n sc) → gr.boundTo tl = qMatrix → n ≤ k.num →
            ((t.entity? a).map (·.park)) = some (wokenPark e))
      ∧ ((gr.queue qMatrix).epoch = k.epoch → (gr.queue qMatrix).c + 1 < k.num → (gr.queue qMatrix).ahead = [] →
          (gr'.queue qMatrix).c = (gr.queue qMatrix).c ∧ (gr'.queue qMatrix).ahead = [k.num])
      ∧ ((gr.queue qMatrix).epoch ≠ k.epoch → gr'.queues = gr.queues)
      ∧ (gr'.sp, gr'.wb, gr'.ab, gr'.cb) = (gr.sp, gr.wb, gr.ab, gr.cb) ∧ t.mem = s.mem ∧ t.mbx = s.mbx)

/-- R144, R146: the ready matrix tasks of a die without a reserving group break with `TASK_NO_AREA`; that none breaks that is not
ready yet is log 69. R141: a word that a scheduler writes to an unversioned page, where nothing
holds it back, is in memory. R145: a ready wave-task goes to the bottom of its core's deque with its stamp once state 3 is written to its
record. R144: a ready matrix task that a group can serve gets that group's core and engine, and state 3 is written to its record; once
that write is performed its work begins, at once where the group is Running and the engine free: its record and its six descriptors are
read; they are refused, or its landings and its product are made, to their end, to a page that is not present, or to what they wait for.
R146: a task whose work is done leaves its engine, and state 4 is written to its record, after its cause where it has one; one that has
signalled every successor has state 5 written and is gone once that is performed; a broken or faulted one has its state and its cause
written and is reported. R309: a message that finds room in its ring is appended: its slot holds its bytes, its stamp word the sender's
stamp, the tail counts one more, the entities parked on the ring go on, and its instruction completes with status 0; one that a
deterministic launch holds waits for a boundary (R291; that a task of such a launch does not is log 116). -/
def Obligations.TaskEvents : Prop :=
  (∀ (die : Nat) (s : State), s.hasArea die = false →
    ∃ t, exec (.taskNoArea die) s = .next t ∧ t = { s with tasks := t.tasks }
      ∧ ∀ n x, Table.find s.tasks n = some x →
        (x.wave = false → x.die = die → x.state = .ready → Table.find t.tasks n = some { x with
          state := .broken
          cause := Cause.taskNoArea })
        ∧ (x.wave = true ∨ x.die ≠ die ∨ x.state ≠ .ready → Table.find t.tasks n = some x))
  ∧ (∀ (n d b : Nat) (s : State) (x : Task) (va w : Word), va.toNat % 8 = 0 →
    s.translate (16 * x.die) x.ctx {
      r := true
      w := true } va = .ok d →
    s.ours d = true → s.flips = [] → b = s.granOf (dpaLocal d) → s.snooping b = false → s.onGranule b = [] → s.queuedOn b = false →
    (s.page (dpaPage b)).v = false → dpaPage b = dpaPage (dpaLocal d) →
    ∃ u, s.taskWrite n x va w = .ok () u ∧ u.mem = writeBytes s.mem (dpaLocal d) (toBytes w.toNat 8) ∧ u.tasks = s.tasks ∧ u.groups = s.groups)
  ∧ (∀ (n k : Nat) (s s1 s2 : State) (x : Task) (bs : List Byte), Table.find s.tasks n = some x → x.wave = true → x.state = .ready →
    s.taskRead x x.addr 128 = .ok bs s1 →
    k = (if (((wordsOf bs).getD 3 0).extractLsb' 0 16).toNat = 0xFFFF then s1.emptiestDeque x.die else (((wordsOf bs).getD 3 0).extractLsb' 0 16).toNat) →
    (s1.coreOf k).fullTo x.launch = false → s1.taskWrite n x x.addr (tSetState ((wordsOf bs).getD 0 0) 3) = .ok () s2 →
    ∃ t, exec (.waveTaskPlace n) s = .next t ∧ (t.coreOf k).bottom = (s2.coreOf k).bottom + 1
      ∧ ((s2.groups.any fun q => q.2.launch = x.launch) = true →
        (t.coreOf k).deque = (s2.coreOf k).deque ++ [⟨x.addr, x.cstamp, true⟩] ∧ (t.coreOf k).top = (s2.coreOf k).top
        ∧ (t.coreOf k).dqLaunch = some x.launch ∧ ∀ c, c ≠ k → t.coreOf c = s2.coreOf c)
      ∧ ((s2.groups.any fun q => q.2.launch = x.launch) = false → (t.coreOf k).deque = [] ∧ (t.coreOf k).dqLaunch = none)
      ∧ Table.find t.tasks n = (Table.find s2.tasks n).map (fun y => { y with
          state := .running
          core := some k })
      ∧ t = { s2 with
          tasks := t.tasks
          cores := t.cores })
  ∧ (∀ (n g : Nat) (s s1 s2 : State) (x : Task) (gr : Group) (bs : List Byte), Table.find s.tasks n = some x → x.wave = false → x.state = .ready →
    s.taskHost x = some (g, gr) → s.taskRead x x.addr 8 = .ok bs s1 →
    s1.taskWrite n x x.addr (tSetState (BitVec.ofNat 64 (ofBytes bs)) 3) = .ok () s2 →
    ∃ t u wk, exec (.matrixTaskStart n) s = .next t ∧ wk = s2.nextId ∧ u = s2.taskBegun n x g gr.core
      ∧ Table.find u.tasks n = (Table.find s2.tasks n).map (fun y => { y with
          state := .running
          core := some gr.core
          work := some wk })
      ∧ Table.find u.cmds wk = some (taskCommand g x)
      ∧ (x.pos = 0 → x.chained = true → ∀ c ∈ u.chains, c.die = x.die → c.ctx = x.ctx → c.ident = x.chain → c.core = gr.core)
      ∧ (s2.taskAsks n = true → t = u)
      ∧ (s2.taskAsks n = false → ∀ y gr', Table.find u.tasks n = some y → u.group? g = some gr' → gr'.state = .running → gr'.saving = false →
          u.engineFree gr'.core n = true →
        (∀ e, y.refused = some e → TaskBroken n wk e u t)
        ∧ (y.refused = none →
          (∀ r s3, u.taskRead y y.addr 128 = .bad r s3 → TaskBroken n wk (taskFail r) s3 t)
          ∧ (∀ va s3, u.taskRead y y.addr 128 = .absent va s3 → TaskHeld wk va s3 t)
          ∧ (∀ bs' s3, u.taskRead y y.addr 128 = .ok bs' s3 →
            (∀ r s4, s3.taskDescs y ((List.range 6).map fun k => (wordsOf bs').getD (3 + k) 0) = .bad r s4 → TaskBroken n wk (taskFail r) s4 t)
            ∧ (∀ va s4, s3.taskDescs y ((List.range 6).map fun k => (wordsOf bs').getD (3 + k) 0) = .absent va s4 → TaskHeld wk va s4 t)
            ∧ (∀ ds s4, s3.taskDescs y ((List.range 6).map fun k => (wordsOf bs').getD (3 + k) 0) = .ok ds s4 →
              (planOf g gr' (taskCommand g x) y ((wordsOf bs').getD 9 0) ds = none → TaskBroken n wk Cause.handleBad s4 t)
              ∧ (∀ p, planOf g gr' (taskCommand g x) y ((wordsOf bs').getD 9 0) ds = some p →
                (∀ e, s4.planBad p = some e → TaskBroken n wk e s4 t)
                ∧ (s4.planBad p = none →
                  (∀ e s5, s4.taskWork wk p = .broken e s5 → TaskBroken n wk e s5 t)
                  ∧ (∀ va, s4.taskWork wk p = .suspend va → TaskHeld wk va u t)
                  ∧ (∀ s5, s4.taskWork wk p = .wait s5 → t = { s5 with groups := u.groups })
                  ∧ (∀ s5 un, s4.taskWork wk p = .done s5 un →
                    Table.find t.tasks n = (Table.find s5.tasks n).map (fun z => { z with cause := if un then taskCause Cause.rUninit else 0 })
                    ∧ Table.find t.cmds wk = (Table.find s5.cmds wk).map (fun z => { z with finished := true })
                    ∧ t = { s5 with
                        tasks := t.tasks
                        cmds := t.cmds }))))))))
  ∧ (∀ (n wk : Nat) (s s1 s2 : State) (x : Task) (c : Cmd) (bs : List Byte), Table.find s.tasks n = some x →
    (∀ y : Task, x.state = .running → x.work = some wk → Table.find s.cmds wk = some c → c.finished = true → c.err = none →
      (∀ r ∈ s.reqs, r.2.agent ≠ .cmd wk) →
      y = { x with
        state := .signalling
        work := none
        cstamp := stampMax x.cstamp c.stamp } →
      s.taskRead y y.addr 8 = .ok bs s1 →
      s1.taskWrites n y (if x.cause = 0 then [(x.addr, tSetState (BitVec.ofNat 64 (ofBytes bs)) 4)]
        else [(x.addr + 120, x.cause.setWidth 64), (x.addr, tSetState (BitVec.ofNat 64 (ofBytes bs)) 4)]) = .ok () s2 →
      ∃ t, exec (.taskDone n) s = .next t ∧ Table.find t.cmds wk = none
        ∧ Table.find t.tasks n = (Table.find s2.tasks n).map (fun z => { z with
            state := .signalling
            work := none
            cstamp := y.cstamp })
        ∧ (x.chained = true → ∀ k ∈ t.chains, k.die = x.die → k.ctx = x.ctx → k.ident = x.chain → k.next = x.pos + 1 ∧ k.next < x.len)
        ∧ t = { s2 with
            tasks := t.tasks
            cmds := t.cmds
            chains := t.chains })
    ∧ (x.state = .signalling → x.sent = false → x.refused = none → s.taskAsks n = false → s.taskRead x x.addr 16 = .ok bs s1 →
      tCount ((wordsOf bs).getD 0 0) ≤ tIndex ((wordsOf bs).getD 0 0) →
      s1.taskWrite n x x.addr (tSetState ((wordsOf bs).getD 0 0) 5) = .ok () s2 →
      ∃ t, exec (.taskDone n) s = .next t
        ∧ Table.find t.tasks n = (if s2.taskSettled n then none else (Table.find s2.tasks n).map fun z => { z with state := .ended })
        ∧ (∀ m, m ≠ n → Table.find t.tasks m = Table.find s2.tasks m) ∧ t = { s2 with tasks := t.tasks })
    ∧ (x.state = .ended → x.refused = none → s.taskAsks n = false →
      ∃ t, exec (.taskDone n) s = .next t ∧ Table.find t.tasks n = none ∧ (∀ m, m ≠ n → Table.find t.tasks m = Table.find s.tasks m)
        ∧ t = { s with tasks := t.tasks })
    ∧ (∀ code : Nat, x.state = .broken ∧ code = 7 ∨ x.state = .faulted ∧ code = 6 → s.taskRead x x.addr 8 = .ok bs s1 →
      s1.taskWrites n x [(x.addr, tSetState (BitVec.ofNat 64 (ofBytes bs)) code), (x.addr + 120, x.cause.setWidth 64)] = .ok () s2 →
      ∃ t, exec (.taskDone n) s = .next t ∧ Table.find t.tasks n = none ∧ (∀ m, m ≠ n → Table.find t.tasks m = Table.find s2.tasks m)
        ∧ Posted s2 t (recordWord .task x.cause x.ctx (x.core.getD 0) 0) x.addr
        ∧ t = { s2 with
            tasks := t.tasks
            mbx := t.mbx
            hostMem := t.hostMem
            msix := t.msix }))
  ∧ (∀ (g w op g' src k : Nat) (s : State) (gr gr' : Group) (wv : Wave) (o : LongOp) (sd : BitVec 6) (dest : Word) (m : List Byte) (c : Stamp)
      (r : Ring), s.group? g = some gr → s.wave? g w = some wv → Table.find wv.ops op = some o → o.ready = true →
    o.body = .msg sd dest src (some (m, c)) false → o.uncounted = false → m.length = 64 → wv.behindMessage op dest = false → k = (dest.extractLsb' 32 3).toNat →
    s.isQueued gr.launch (dest.extractLsb' 0 32).toNat = false → s.groupAt gr.launch (dest.extractLsb' 0 32).toNat = some (g', gr') →
    s.group? g' = some gr' →
    gr'.state ≠ .draining → gr'.ring k = some r → (gr'.ringTail r - gr'.ringHead r).toNat < r.slots → wv.late = [] → o.clob = [] →
    (s.det gr = true → exec (.msgDeliver g w op) s = .next s)
    ∧ (s.det gr = false → ∃ t u wv', exec (.msgDeliver g w op) s = .next t ∧ t.group? g' = some u ∧ t.wave? g w = some wv'
      ∧ u.ringTail r = gr'.ringTail r + 1 ∧ u.ringHead r = gr'.ringHead r ∧ u.sp.read (r.slotAt (gr'.ringTail r).toNat) 64 = m
      ∧ u.sp.word (r.stampAt (gr'.ringTail r).toNat) = c ∧ Table.find wv'.ops op = none
      ∧ (∀ f, wv'.pending f = if o.fl = some f then wv.pending f - 1 else wv.pending f)
      ∧ ((∀ a e sd', s.entity? a = some e → a.g = g' → e.park ≠ some (.ring k sd')) → wv'.sReg sd.toNat = 0 ∨ 1 < wv.ents.length)
      ∧ (∀ a e sd', s.entity? a = some e → a.g = g' → e.park = some (.ring k sd') →
          ((t.entity? a).map (·.park)) = some (wokenPark e))
      ∧ t.mem = s.mem))

/-- R273, R274, R367: with no Swapped group to resume, a batch of the launch that is served goes to a die: its queued groups in order, those
given back first, at most 64 and at most what the die has free. A Swapped group that can resume is placed before every batch: it
runs on its core with what its image holds, and every entity reads its clause header again; that the core's L1 lines are dropped then is
the model's choice (log 82).
R28, R269, R271: a group of a batch, of a launch with wheels of one group, is placed on the first core of its die that fits it: its waves start with the lane numbers in v0, their
index, linear index and argument in s0 to s2, every thread active, the launch's stamp, and otherwise zero registers.
R273, R283: a draining group with nothing outstanding is freed; its launch counts it, and completes with its last group.
R291: a boundary begins when no wave's quantum runs, runs the launch's commands once every wave's part is done, and ends when they
are done: each wave whose part is done and that can run begins its next quantum, which ends at once where a replayed instruction ends
quanta (R290). -/
def Obligations.DispatchEvents : Prop :=
  (∀ (id d : Nat) (s : State) (l : Launch), s.dispatching = true → s.resumable = [] → s.servedLaunch = some (id, l, d) →
    ∃ (t : State) (lins : List Nat) (l' : Launch), exec .dispatchBatch s = .next t ∧ t.batches = s.batches ++ lins.map (fun k => (id, d, k)) ∧ t.lastDie = some d
      ∧ lins.length = min (min 64 (s.freeCount d (wheelSize (blk l.block 0)) (needsOf l.block))) (l.back.length + (groupsOf l.block - l.next))
      ∧ (∀ i, i < lins.length → lins[i]? = if i < l.back.length then l.back[i]? else some (l.next + (i - l.back.length)))
      ∧ Table.find t.launches id = some l' ∧ (∀ n, n ≠ id → Table.find t.launches n = Table.find s.launches n)
      ∧ l' = { l with
          back := l.back.drop lins.length
          next := l.next + (lins.length - l.back.length) }
      ∧ t = { s with
          launches := t.launches
          batches := t.batches
          lastDie := t.lastDie })
  ∧ (∀ (die g core : Nat) (rest : List (Nat × Nat)) (s : State) (gr : Group), s.dispatching = true → die < 16 → s.resumable = (g, core) :: rest →
    core / 16 = die → s.group? g = some gr → (∀ p ∈ s.groups, ∀ wv ∈ p.2.waves, ∀ o ∈ wv.ops, o.2.helps gr.pnum = none) →
    ∃ (t : State) (gr' : Group), exec (.groupPlacement die) s = .next t ∧ t.group? g = some gr' ∧ gr' = { gr with
          core := core
          state := .running
          eligible := none
          waves := gr'.waves }
      ∧ gr'.waves.length = gr.waves.length
      ∧ (∀ (k : Nat) (wv : Wave), gr.waves[k]? = some wv → ∃ wv' : Wave, gr'.waves[k]? = some wv' ∧ wv' = { wv with
            slot := wv'.slot
            ents := wv'.ents
            resumed := true }
          ∧ ∀ n, Table.find wv'.ents n = (Table.find wv.ents n).map fun e => { e with
              pipe := none
              clause := none })
      ∧ (∀ k l, (k, l) ∈ t.l1 ↔ (k, l) ∈ s.l1 ∧ k / 2 ^ 52 ≠ core) ∧ (∀ n, n ≠ g → t.group? n = s.group? n)
      ∧ t = { s with
          groups := t.groups
          l1 := t.l1 })
  ∧ (∀ (die id lin core : Nat) (s : State) (l : Launch), s.dispatching = true → die < 16 → s.resumable = [] → s.detStarts = [] →
    s.batches.find? (fun b => b.2.1 = die) = some (id, die, lin) → Table.find s.launches id = some l → wheelSize (blk l.block 0) = 1 →
    ((List.range 16).map (16 * die + ·)).find? (fun k => s.fits k (needsOf l.block) 1) = some core →
    ∃ (t : State) (gr' : Group), exec (.groupPlacement die) s = .next t ∧ t.group? s.nextId = some gr' ∧ (gr'.lin, gr'.launch, gr'.ctx, gr'.core) = (lin, id, l.ctx, core)
      ∧ gr'.state = .running ∧ gr'.pnum = s.placementNumber
      ∧ (gr'.sp.size, gr'.wb.size, gr'.ab.size, gr'.cb.size)
          = (budget l.block .sp, budget l.block .wb, budget l.block .ab, budget l.block .cb)
      ∧ (∀ sp off, (gr'.buf sp).isValid off = false) ∧ gr'.waves.length = groupWaves l.block
      ∧ (∀ (k : Nat) (wv : Wave), gr'.waves[k]? = some wv → ∃ role i w e, (gang l.block)[k]? = some (role, i, w) ∧ (wv.role, wv.blocks) = (role, roleBlocks w)
          ∧ (∀ t, t < 64 → wv.vLane 0 t = BitVec.ofNat 32 t) ∧ (∀ n t, n ≠ 0 → t < 64 → wv.vLane n t = 0)
          ∧ wv.sReg 0 = BitVec.ofNat 64 i ∧ wv.sReg 1 = BitVec.ofNat 64 lin ∧ wv.sReg 2 = blk l.block 2 ∧ (∀ n, 3 ≤ n → wv.sReg n = 0)
          ∧ wv.cstamp = l.stamp.getD 0 ∧ wv.ents = [(0, e)] ∧ e.mask = BitVec.allOnes 64
          ∧ (e.hdr, e.idx) = (blk l.block 1 + BitVec.ofNat 64 (8 * fieldOf w 0 32), 0) ∧ e.clause = none ∧ e.park = none ∧ e.recs = []
          ∧ wv.ops = [] ∧ wv.sq = [] ∧ wv.region = none)
      ∧ (∀ b, b ∈ t.batches ↔ b ∈ s.batches ∧ b ≠ (id, die, lin)) ∧ (∀ n, n ≠ s.nextId → t.group? n = s.group? n)
      ∧ t = { s with
          groups := t.groups
          batches := t.batches
          nextId := s.nextId + 1
          nextPnum := gr'.pnum + 1
          l1 := t.l1 })
  ∧ (∀ (g : Nat) (s : State) (gr : Group) (l : Launch), s.group? g = some gr → gr.state = .draining → s.draining g gr = false →
    Table.find s.launches gr.launch = some l → (∀ f ∈ s.mbx.flights, ∀ c, f.2 ≠ .contextEnd c) →
    ∃ t, exec (.groupFreed g) s = .next t ∧ t.group? g = none ∧ (∀ n, n ≠ g → t.group? n = s.group? n)
      ∧ (l.freed + 1 < groupsOf l.block → Table.find t.launches gr.launch = some { l with freed := l.freed + 1 } ∧ t.mbx = s.mbx)
      ∧ (groupsOf l.block ≤ l.freed + 1 → Table.find t.launches gr.launch = none
          ∧ (l.tag = none → t.mbx = s.mbx)
          ∧ ∀ tag u, l.tag = some tag → u = { s with
              mbx := { s.mbx with flights := s.mbx.flights.filter fun f => f.2 != .launch gr.launch } } → Answered u t tag l.cause)
      ∧ ((∀ p ∈ t.groups, p.2.launch ≠ gr.launch) → ∀ c ∈ t.cores, c.2.dqLaunch ≠ some gr.launch)
      ∧ t = { s with
          groups := t.groups
          launches := t.launches
          cores := t.cores
          mbx := t.mbx
          hostMem := t.hostMem
          msix := t.msix })
  ∧ (∀ (id : Nat) (s : State) (l : Launch), Table.find s.launches id = some l → detOf l.block = true →
    (l.boundary = none → s.launchWaves id ≠ [] →
      (∀ x ∈ s.launchWaves id, ∀ wv, s.wave? x.1 x.2 = some wv → wv.inQuantum = false ∧ s.reading x.1 x.2 wv = false) →
      ∃ t, exec (.quantumBoundary id) s = .next t ∧ Table.find t.launches id = some { l with boundary := some 0 }
        ∧ (∀ g w wv, s.wave? g w = some wv → ∃ wv', t.wave? g w = some wv' ∧ wv' = { wv with quantum := wv'.quantum }
          ∧ wv'.quantum = if (g, w) ∈ s.launchWaves id ∧ (wv.quantum = .running ∨ wv.quantum = .done) then .ended else wv.quantum)
        ∧ t = { s with
            groups := t.groups
            launches := t.launches })
    ∧ (l.boundary = some 0 → (∀ x ∈ s.launchWaves id, ∀ wv, s.wave? x.1 x.2 = some wv →
          wv.quantum = .done ∧ s.performing x.1 x.2 wv = false ∨ wv.quantum = .running ∧ wv.ents = []) →
      ∃ t, exec (.quantumBoundary id) s = .next t ∧ Table.find t.launches id = some { l with boundary := some 1 } ∧ t = { s with launches := t.launches })
    ∧ (l.boundary = some 1 → s.commandsRun id = false → s.triggeredOf id = [] → s.resumable = [] → l.back = [] → groupsOf l.block ≤ l.next →
      ∃ t, exec (.quantumBoundary id) s = .next t ∧ Table.find t.launches id = some { l with boundary := none }
        ∧ (∀ g w wv gr, s.group? g = some gr → s.wave? g w = some wv → ∃ wv', t.wave? g w = some wv'
          ∧ (gr.launch = id → wv.quantum = .done → (∃ e ∈ wv.ents, e.2.park = none) → wv' = { wv with
              quantum := if wv.ops.any (fun o => o.2.held) then .ended else .running
              retired := 0 })
          ∧ (gr.launch ≠ id ∨ wv.quantum ≠ .done ∨ (∀ e ∈ wv.ents, e.2.park ≠ none) → wv' = wv))
        ∧ t = { s with
            groups := t.groups
            launches := t.launches }))

/-- R180, R181, R183, R337: a stack's period ends with 2^20 requests, and its counts begin at 0; by the counts of a period that has ended
every range that contradicted its class is reported, as far as the queue of 256 has room, and at most 64 pages each way are queued to
move. R182: a move whose direction has not used up the period's 64 pages and that finds a frame begins, and the moves that can start
only later stay queued; each granule of the page is copied in turn with its bytes as they are; with the last the page lies in its new
frame, and what was in error in its old one is given up. No byte of memory changes. -/
def Obligations.TurnerEvents : Prop :=
  (∀ st : Stack, 2 ^ 20 ≤ st.period →
    st.endPeriod.period = 0 ∧ st.endPeriod.ended = st.ended ++ [st.counts] ∧ st.endPeriod.promoted = 0 ∧ st.endPeriod.demoted = 0
      ∧ ∀ n, Table.find st.endPeriod.counts n = (Table.find st.counts n).map fun c => { cursor := c.cursor })
  ∧ (∀ (k : Nat) (s : State) (c : Table RangeCount) (rest : List (Table RangeCount)), k < 16 → (s.stack k).ended = c :: rest →
    ∃ (t : State) (ms : List (Nat × Bool)) (rs : List Word), exec (.turnerPeriodEnd k) s = .next t ∧ (t.stack k).ended = rest
      ∧ (∀ n, Table.read (t.stack k).counts n {} = { Table.read (s.stack k).counts n {} with
          cursor := (Table.read (t.stack k).counts n {}).cursor })
      ∧ (t.stack k).moves = (s.stack k).moves ++ ms ∧ (ms.filter fun m => m.2).length ≤ 64 ∧ (ms.filter fun m => !m.2).length ≤ 64
      ∧ (∀ m ∈ ms, s.movable m.1 m.2 = true)
      ∧ rs = (((s.rangedOn c).filter Ranged.contradicts).map Ranged.report).take (256 - (s.stack k).reports.length)
      ∧ (t.stack k).reports = (s.stack k).reports ++ rs ∧ t.msix = List.replicate rs.length 3 ++ s.msix
      ∧ (∀ n, n ≠ k → t.stack n = s.stack n)
      ∧ t = { s with
          stackTable := t.stackTable
          msix := t.msix })
  ∧ (∀ (k : Nat) (s : State) (m : Nat × Bool) (rest : List (Nat × Bool)) (f : BitVec 32), k < 16 → (s.stack k).migration = none →
    (s.stack k).moves = m :: rest → s.startable k m = some f →
    ∃ t, exec (.turnerMigration k) s = .next t
      ∧ (t.stack k).migration = some { page := m.1, capacity := !m.2, frame := f }
      ∧ (m.2 = true → (t.stack k).promoted = (s.stack k).promoted + 1 ∧ (t.stack k).demoted = (s.stack k).demoted)
      ∧ (m.2 = false → (t.stack k).demoted = (s.stack k).demoted + 1 ∧ (t.stack k).promoted = (s.stack k).promoted)
      ∧ (t.stack k).moves = ((s.stack k).moves.filter fun x => s.movable x.1 x.2).filter (· ≠ m) ∧ t.page m.1 = { s.page m.1 with migrating := true } ∧ (∀ n, n ≠ m.1 → t.page n = s.page n)
      ∧ t = { s with
          stackTable := t.stackTable
          pages := t.pages })
  ∧ (∀ (k size : Nat) (s : State) (m : Migration), k < 16 → (s.stack k).migration = some m → size = granSize (s.page m.page).gran →
    (2 ^ 16 ≤ m.copied * size →
      ∃ t, exec (.turnerMigration k) s = .next t ∧ (t.stack k).migration = none ∧ (∀ n, n ≠ m.page → t.page n = s.page n)
        ∧ t.page m.page = { s.page m.page with
            migrating := false
            capacity := m.capacity
            frame := m.frame }
        ∧ (∀ n, n / 1024 / 2 ^ 16 ≠ m.page → Table.find t.flips n = Table.find s.flips n)
        ∧ t = { s with
            stackTable := t.stackTable
            pages := t.pages
            flips := t.flips })
    ∧ (m.copied * size < 2 ^ 16 → s.flips = [] →
      ∃ t, exec (.turnerMigration k) s = .next t ∧ (t.stack k).migration = some { m with copied := m.copied + 1 }
        ∧ (t.stack k) = { s.stack k with migration := (t.stack k).migration }
        ∧ t.gstamps = (if (s.page m.page).v = true ∨ m.capacity = true then s.gstamps
            else Table.insert s.gstamps (m.page * 2 ^ 16 + m.copied * size) (s.pageStamp (m.page * 2 ^ 16 + m.copied * size)))
        ∧ t = { s with
            stackTable := t.stackTable
            gstamps := t.gstamps }))

/-- R259, R269, R316: a LAUNCH whose context exists or is created and whose block keeps its rules, without lists of its own, is
accepted: the launch is there with every group queued, and its command is in flight; a bad block completes it with `LAUNCH_BAD`, a bad
context with `CTX_BAD`. R124, R265: a COLLECTIVE of a Running or Swapped group enters that group's queue under its next number, and goes to the
group's module where that is another; one that names none completes with `CTX_BAD`, one that breaks its rules with `RSV_FIELD`. R329, R331, R363: POWER to P0, P1 or P2 acts at
once; to P3 or P4 once no group is Running or Draining, when caches are empty and in P4 the session and its keys are gone. R378, R379:
RESYNC writes the summary and empties the device buffer, after a machine fault too. R318: after CONTEXT END no group of the context
runs, none is queued, and no task or hold of it is left; it completes, and the context is gone, once no group of it is left. R259:
an unknown command completes with `RSV_FIELD`, and after a machine fault any but RESYNC with `MACHINE`. The model's choices among these:
that POWER to P0, P1 or P2 acts at once and what P3 drops (log 24), how a command that must wait stays in the queue (log 25), the steps of
CONTEXT END (log 26), that RESYNC does not count itself in its summary (log 32), and that a list is absent at address 0 (log 74). -/
def Obligations.MailboxCommands : Prop :=
  (∀ (e : SubEntry) (s : State), s.machine = none →
    ((∀ r ∈ [(1, 1), (4, 7), (18, 23), (32, 63)], zeroBytes e r.1 r.2 = true) → ∀ (id : BitVec 16) (ws : List Word), id = e.extractLsb' 128 16 →
      ws = s.hostWords (subWord e 1).toNat 32 →
      (id = 0 ∨ 4096 ≤ id.toNat ∨ s.nameContext (id.setWidth 12) (subWord e 3) = none →
        ∃ t, exec (.launchCmd e) s = .next t ∧ Answered s t (entryTag e) Cause.ctxBad ∧ t = { s with
          mbx := t.mbx
          hostMem := t.hostMem
          msix := t.msix })
      ∧ (∀ t0, id ≠ 0 → id.toNat < 4096 → s.nameContext (id.setWidth 12) (subWord e 3) = some t0 →
        ((subWord e 1).toNat % 256 ≠ 0 ∨ blockOk ws = false ∧ s.launches.length < launchSlots →
          ∃ t, exec (.launchCmd e) s = .next t ∧ Answered s t (entryTag e) Cause.launchBad ∧ t = { s with
            ctxs := t0.ctxs
            mbx := t.mbx
            hostMem := t.hostMem
            msix := t.msix })
        ∧ ((subWord e 1).toNat % 256 = 0 → blockOk ws = true → s.launches.length < launchSlots → blk ws 3 = 0 → blk ws 10 = 0 → blk ws 12 = 0 →
          detOf ws = false ∨ wheelSize (blk ws 0) = 1 →
          ∃ (t : State) (l : Launch) (c : Context), exec (.launchCmd e) s = .next t ∧ Table.find t.launches s.nextId = some l
            ∧ (l.ctx, l.block, l.tag) = (id.setWidth 12, ws, some (entryTag e)) ∧ (l.next, l.back, l.freed, l.stamp) = (0, [], 0, none)
            ∧ Table.find t.ctxs id.toNat = some c ∧ c.ended = false
            ∧ t.mbx = { s.mbx with flights := s.mbx.flights ++ [(entryTag e, .launch s.nextId)] }
            ∧ (∀ n, n ≠ s.nextId → Table.find t.launches n = Table.find s.launches n)
            ∧ t = { s with
                ctxs := t0.ctxs
                launches := t.launches
                nextId := s.nextId + 1
                mbx := t.mbx })))
    ∧ ((∀ r ∈ [(1, 1), (4, 7)], zeroBytes e r.1 r.2 = true) → ∀ c : Collective, c = ⟨subWords e⟩ →
      (∀ x : Cause, c.ok = false ∧ x = Cause.rsvField
            ∨ c.ok = true ∧ c.modIdx = s.fabric.index ∧ s.participant c = none ∧ x = Cause.ctxBad
            ∨ c.ok = true ∧ c.modIdx ≠ s.fabric.index ∧ s.inDomain c.modIdx.toNat = false ∧ x = Cause.ctxBad
            ∨ c.ok = true ∧ c.modIdx ≠ s.fabric.index ∧ s.inDomain c.modIdx.toNat = true ∧ s.routeUp c.modIdx.toNat = false ∧ x = Cause.linkFail →
        ∃ t, exec (.collective e) s = .next t ∧ Answered s t (entryTag e) x ∧ t = { s with
          mbx := t.mbx
          hostMem := t.hostMem
          msix := t.msix })
      ∧ (c.ok = true → c.modIdx ≠ s.fabric.index → s.inDomain c.modIdx.toNat = true → s.routeUp c.modIdx.toNat = true →
        ∃ t f, exec (.collective e) s = .next t ∧ t.fabric.wire = f :: s.fabric.wire ∧ f.dst = c.modIdx ∧ f.body = .participate e
          ∧ t.mbx = { s.mbx with flights := s.mbx.flights ++ [(entryTag e, .abroad c.modIdx)] }
          ∧ t = { s with
              fabric := t.fabric
              mbx := t.mbx })
      ∧ (∀ g gr, c.ok = true → c.modIdx = s.fabric.index → s.participant c = some (g, gr) → s.group? g = some gr → s.queueLen g qCollective < queueDepth qCollective →
        ∃ t k gr', exec (.collective e) s = .next t ∧ Table.find t.cmds s.nextId = some k ∧ (k.g, k.queue, k.kind) = (g, qCollective, .collective e)
          ∧ (k.num, gr'.queue qCollective) = (gr.queue qCollective).take ∧ (k.op, k.begun, k.finished, k.guest) = (none, false, false, none)
          ∧ t.group? g = some gr' ∧ gr' = { gr with queues := gr'.queues } ∧ (∀ q, q ≠ qCollective → gr'.queue q = gr.queue q)
          ∧ t = { s with
              cmds := t.cmds
              groups := t.groups
              nextId := s.nextId + 1
              mbx := { s.mbx with flights := s.mbx.flights ++ [(entryTag e, .collective s.nextId)] } }))
    ∧ ((∀ r ∈ [(1, 1), (4, 7), (9, 63)], zeroBytes e r.1 r.2 = true) → s.powering = false →
      ∀ p : Nat, p = (e.extractLsb' 64 3).toNat →
      (5 ≤ p ∨ e.extractLsb' 67 5 ≠ 0 → ∃ t, exec (.power e) s = .next t ∧ Answered s t (entryTag e) Cause.rsvField ∧ t.power = s.power)
      ∧ (p < 5 → e.extractLsb' 67 5 = 0 → (3 ≤ p → ∀ g ∈ s.groups, g.2.state ≠ .running ∧ g.2.state ≠ .draining) →
        ∃ t, exec (.power e) s = .next t ∧ t.power = p ∧ Answered s t (entryTag e) 0
          ∧ (p < 3 → (t.l1, t.tlb, t.dirty) = (s.l1, s.tlb, s.dirty)) ∧ (3 ≤ p → (t.l1, t.tlb, t.dirty) = ([], [], []))
          ∧ (p ≠ 4 → t.boot = s.boot) ∧ (p = 4 → (t.boot.spdm.session, t.boot.spdm.ide, t.boot.spdm.secured) = (none, none, false))
          ∧ (t.mem, t.pages, t.groups, t.counts) = (s.mem, s.pages, s.groups, s.counts)))
    ∧ ((∀ r ∈ [(1, 1), (4, 7), (8, 15), (18, 63)], zeroBytes e r.1 r.2 = true) → ∀ (id : Nat) (ctx : BitVec 12),
      id = (e.extractLsb' 128 16).toNat → ctx = BitVec.ofNat 12 id →
      (id = 0 ∨ 4096 ≤ id ∨ Table.find s.ctxs id = none →
        ∃ t, exec (.contextEnd e) s = .next t ∧ Answered s t (entryTag e) Cause.ctxBad ∧ t = { s with
          mbx := t.mbx
          hostMem := t.hostMem
          msix := t.msix })
      ∧ (id ≠ 0 → id < 4096 → (∃ c, Table.find s.ctxs id = some c) →
        ∃ t, exec (.contextEnd e) s = .next t
          ∧ (∀ g gr, t.group? g = some gr → gr.ctx = ctx → gr.state = .draining ∧ ∀ wv ∈ gr.waves, wv.ents = [])
          ∧ (∀ n l, Table.find t.launches n = some l → l.ctx = ctx → l.back = [] ∧ groupsOf l.block ≤ l.next)
          ∧ (∀ n x, Table.find t.tasks n = some x → x.ctx ≠ ctx) ∧ (∀ k, k / 16 = id → Table.find t.holds k = none)
          ∧ ((∀ p ∈ t.groups, p.2.ctx ≠ ctx) → Table.find t.ctxs id = none)
          ∧ ((∃ p ∈ t.groups, p.2.ctx = ctx) → ((Table.find t.ctxs id).map (·.ended)) = some true
              ∧ (entryTag e, Flight.contextEnd ctx) ∈ t.mbx.flights)
          ∧ t.mem = s.mem))
    ∧ ∃ t, exec (.unknownMailboxCommand e) s = .next t ∧ Answered s t (entryTag e) Cause.rsvField ∧ t = { s with
          mbx := t.mbx
          hostMem := t.hostMem
          msix := t.msix })
  ∧ (∀ (i : Instr) (e : SubEntry) (s : State) (c : Cause), s.machine = some c →
    (i = .launchCmd e ∨ i = .collective e ∨ i = .contextEnd e ∨ i = .unknownMailboxCommand e ∨ i = .power e ∧ s.powering = false) →
    ∃ t, exec i s = .next t ∧ Answered s t (entryTag e) Cause.machine ∧ t = { s with
      mbx := t.mbx
      hostMem := t.hostMem
      msix := t.msix })
  ∧ (∀ (e : SubEntry) (s : State) (a n : Nat), (∀ r ∈ [(1, 1), (4, 7), (20, 63)], zeroBytes e r.1 r.2 = true) → a = (subWord e 1).toNat →
    n = (e.extractLsb' 128 32).toNat → a % 4096 = 0 → n ≠ 0 → n % 4096 = 0 →
    ∃ t u, exec (.resync e) s = .next t ∧ u = { s with
          hostMem := writeBytes s.hostMem a ((s.summary.flatMap fun w => toBytes w.toNat 8).take n)
          mbx := { s.mbx with
            records := []
            lost := 0 } }
      ∧ Answered u t (entryTag e) 0 ∧ t = { s with
          mbx := t.mbx
          hostMem := t.hostMem
          msix := t.msix })

/-- R259, R361: writes of SQTAIL and CQHEAD take the value; after one of CQHEAD what waited for room is written, oldest first and
completions before records, until nothing waits or the queue is full. Setting MBXCTL[0] starts both queues at their first entry; setting
[1] asks for the drain; a write of MBXCTL without [0] disables the mailbox. SQBASE, CQBASE and QSIZE, FWADDR and FWLEN take the bits they
have; a write at another offset changes nothing, and a read there gives zero. R377: during a reset no register takes a write. That the low
bits of SQBASE and CQBASE are ignored, that a second enabling has no effect, and what the first does to the indices is log 33. -/
def Obligations.MailboxRegisters : Prop :=
  (∀ (v : Word) (s : State), s.resetting = false →
    (∃ t, exec (.sqtail v) s = .next t ∧ t = { s with mbx := { s.mbx with sqtail := v } })
    ∧ (∃ t, exec (.cqhead v) s = .next t ∧ t.mbx.cqhead = v ∧ (t.completionRoom = false ∨ t.mbx.waiting = [] ∧ t.mbx.records = [])
      ∧ (∃ k j, t.mbx = { s.mbx with
            cqhead := v
            waiting := s.mbx.waiting.drop k
            records := s.mbx.records.drop j
            posted := t.mbx.posted }
          ∧ (0 < j → t.mbx.waiting = []) ∧ t.mbx.posted + t.mbx.waiting.length + t.mbx.records.length
              = s.mbx.posted + s.mbx.waiting.length + s.mbx.records.length)
      ∧ t = { s with
          mbx := t.mbx
          hostMem := t.hostMem
          msix := t.msix })
    ∧ (s.boot.security ≠ .failed → s.mbx.ctl.getLsbD 0 = false → ∃ t, exec .mbxctlEnable s = .next t ∧ t = { s with
        mbx := { s.mbx with
          ctl := 1
          consumed := 0
          posted := 0 } })
    ∧ (s.boot.security = .failed ∨ s.mbx.ctl.getLsbD 0 = true → exec .mbxctlEnable s = .next s)
    ∧ (s.mbx.ctl.getLsbD 0 = true → ∃ t, exec .mbxctlDrain s = .next t ∧ t = { s with mbx := { s.mbx with ctl := s.mbx.ctl ||| 2 } })
    ∧ (s.mbx.ctl.getLsbD 0 = false → exec .mbxctlDrain s = .next s)
    ∧ (∀ off, s.mbx.read off = if off = 0x00 then s.mbx.ctl else if off = 0x08 then s.mbx.sqbase else if off = 0x10 then s.mbx.cqbase
        else if off = 0x18 then s.mbx.qsize else if off = 0x20 then s.mbx.sqtail else if off = 0x28 then s.mbx.cqhead else 0)
    ∧ (∀ (bar4 : Bool) (off : Nat), ∃ t, exec (.mailboxRegisterWrite bar4 off v) s = .next t
      ∧ (bar4 = false → off = 0x08 → t = { s with mbx := { s.mbx with sqbase := v &&& ~~~0xFFF } })
      ∧ (bar4 = false → off = 0x10 → t = { s with mbx := { s.mbx with cqbase := v &&& ~~~0xFFF } })
      ∧ (bar4 = false → off = 0x18 → t = { s with mbx := { s.mbx with qsize := v &&& 0xFFFF } })
      ∧ (bar4 = true → off = 0x00 → t = { s with boot := { s.boot with fwaddr := v } })
      ∧ (bar4 = true → off = 0x08 → t = { s with boot := { s.boot with fwlen := v } })
      ∧ (bar4 = false → off = 0x00 → v.getLsbD 0 = false → t = { s with mbx := { s.mbx with ctl := 0 } })
      ∧ (bar4 = false → off = 0x00 → v.getLsbD 0 = true → ∃ u, exec .mbxctlEnable s = .next u
          ∧ if v.getLsbD 1 then exec .mbxctlDrain u = .next t else t = u)
      ∧ (bar4 = false → off = 0x20 → exec (.sqtail v) s = .next t) ∧ (bar4 = false → off = 0x28 → exec (.cqhead v) s = .next t)
      ∧ (bar4 = false → off ∉ [0x00, 0x08, 0x10, 0x18, 0x20, 0x28] → t = s) ∧ (bar4 = true → off ∉ [0x00, 0x08] → t = s)))
  ∧ (∀ (i : Instr) (v : Word) (bar4 : Bool) (off : Nat) (s : State), s.resetting = true →
    (i = .sqtail v ∨ i = .cqhead v ∨ i = .mbxctlEnable ∨ i = .mbxctlDrain ∨ i = .mailboxRegisterWrite bar4 off v) → exec i s = .next s)

/-- R152, R206, R257: a host read of bytes of one 32-byte block in error-free memory, with no request on the granule before it, is answered
with the bytes as they are, and under CXL 3.1 the host holds their line; a host write to an unversioned granule that no region holds puts
its bytes in place with a stamp of the slice's next count. R258: an access to a page that is not mapped, or beyond the module, is answered
with Unsupported Request. R331: with the cores off an access is answered with an error. R330: DBGREQ takes the token and the mode that it
asks for, D1, D2 or else D0, which the next warm reset puts in force where it may (log 6); that any other value asks for D0, and that the
token is verified at the write, is log 34. -/
def Obligations.HostEvents : Prop :=
  (∀ (addr n : Nat) (s : State), s.resetting = false → s.power < 3 → 0 < n → addr % 32 + n ≤ 32 → addr + n ≤ 2 ^ 44 →
    (s.page (dpaPage addr)).mapped = true → s.flips = [] → (∀ p ∈ s.reqs, p.2.gran ≠ s.granOf addr) →
    (∃ t, exec (.hostRead addr n) s = .next t ∧ t.hostSeen = .data (s.dpaOf addr) (s.bytes addr n) :: s.hostSeen
      ∧ (∀ l, l ∈ t.hostLines ↔ l ∈ s.hostLines ∨ s.link = .cxl31 ∧ l = addr / 64)
      ∧ (∀ k, t.sliceCount k = s.sliceCount k) ∧ (t.mem, t.gstamps, t.pages, t.groups) = (s.mem, s.gstamps, s.pages, s.groups))
    ∧ (∀ data : List Byte, data.length = n → s.onGranule (s.granOf addr) = [] → (s.page (dpaPage addr)).v = false →
      ∃ t, exec (.hostWrite addr data) s = .next t ∧ t.hostSeen = .taken :: s.hostSeen ∧ t.mem = writeBytes s.mem addr data
        ∧ t.sliceCount (homeSlice (s.granOf addr)) = s.sliceCount (homeSlice (s.granOf addr)) + 1
        ∧ Table.find t.gstamps (s.granOf addr)
            = some (mkStamp (s.sliceCount (homeSlice (s.granOf addr)) + 1) (s.originOf (homeSlice (s.granOf addr))))
        ∧ (∀ g, g ≠ s.granOf addr → Table.find t.gstamps g = Table.find s.gstamps g)
        ∧ (t.hostLines, t.groups, t.hostMem) = (s.hostLines, s.groups, s.hostMem)))
  ∧ (∀ (i : Instr) (addr n : Nat) (data : List Byte) (s : State), (i = .hostRead addr n ∨ i = .hostWrite addr data ∧ n = data.length) →
    s.resetting = false →
    (3 ≤ s.power → ∃ t, exec i s = .next t ∧ t = { s with hostSeen := .error :: s.hostSeen })
    ∧ (s.power < 3 → (2 ^ 44 < addr + n ∨ ∃ k, k < n ∧ (s.page (dpaPage (addr + k))).mapped = false) →
      ∃ t, exec i s = .next t ∧ t = { s with hostSeen := .unsupported :: s.hostSeen }))
  ∧ (∀ (v : Word) (token : List Byte) (s : State), s.resetting = false →
    ∃ t, exec (.dbgreq v token) s = .next t ∧ t.boot.mode = s.boot.mode
      ∧ (v ≠ 1 → v ≠ 2 → t.boot.wanted = 0) ∧ (v = 1 → t.boot.wanted = 1) ∧ (v = 2 → t.boot.wanted = 2)
      ∧ t = { s with boot := { s.boot with
          token := token
          unlocked := Config.tokenVerifies token s.boot.nonce
          wanted := t.boot.wanted } })

/-- R327, R329: the responder answers versions, capabilities and algorithms; digests, certificates and challenges of slot 0 with the
identity key; a key exchange opens a handshake once the algorithms are settled, FINISH secures it where the verification data agrees (and
takes IDE keys where the link has them),
KEY_UPDATE derives new keys and END_SESSION closes it; anything else is an error. The bits of the algorithm sets, index 255 for every
measurement and 0 for none, the order of the session's states and what FINISH does are log 28. R328: the measurements answered are
those that the boot recorded. R327, R332: without the identity key what needs it is an error, measurements are unsigned, and in state Failed every
request is an error. -/
def Obligations.Attestation : Prop :=
  ∀ s : State, s.resetting = false →
    (s.boot.security ≠ .failed →
      (exec .getVersion s = .next (s.spdmAnswer (.version [(1, 2), (1, 3)])))
      ∧ (exec .getCapabilities s = .next (s.spdmAnswer .capabilities))
      ∧ (∀ sig hash kex aead, (sig.testBit 4 = true ∧ hash.testBit 0 = true ∧ kex.testBit 3 = true ∧ aead.testBit 1 = true →
            ∃ t, exec (.negotiateAlgorithms sig hash kex aead) s = .next t ∧ t.boot.spdm = { s.boot.spdm with
              algorithms := true
              answers := .algorithms :: s.boot.spdm.answers } ∧ t = { s with boot := { s.boot with spdm := t.boot.spdm } })
          ∧ (sig.testBit 4 = false ∨ hash.testBit 0 = false ∨ kex.testBit 3 = false ∨ aead.testBit 1 = false →
            exec (.negotiateAlgorithms sig hash kex aead) s = .next (s.spdmAnswer .error)))
      ∧ (∀ c, exec (.spdmUnsupported c) s = .next (s.spdmAnswer .error))
      ∧ (s.boot.security = .secure →
        (exec .getDigests s = .next (s.spdmAnswer (.digests (Config.sha256 Config.certChain))))
        ∧ (∀ off len, ∃ part left, exec (.getCertificate 0 off len) s = .next (s.spdmAnswer (.certificate part left))
            ∧ part = (Config.certChain.drop off).take len ∧ (off ≤ Config.certChain.length → off + part.length + left = Config.certChain.length))
        ∧ (∀ nonce, exec (.challenge 0 nonce) s = .next (s.spdmAnswer (.challenge
            (Config.sign (Config.sha256 Config.certChain ++ nonce ++ s.boot.measurements.flatMap (·.2))))))
        ∧ (∀ slot off len nonce, slot ≠ 0 → exec (.getCertificate slot off len) s = .next (s.spdmAnswer .error)
            ∧ exec (.challenge slot nonce) s = .next (s.spdmAnswer .error))
        ∧ (∀ x, s.boot.spdm.algorithms = true → ∃ t k, exec (.keyExchange x) s = .next t ∧ k = Config.exchange s.tick x
            ∧ t.boot.spdm = { s.boot.spdm with
                session := some k
                secured := false
                answers := .keyExchange (Config.sha256 k) (Config.sign (x ++ Config.sha256 k)) :: s.boot.spdm.answers }
            ∧ t = { s with boot := { s.boot with spdm := t.boot.spdm } })
        ∧ (∀ x, s.boot.spdm.algorithms = false → exec (.keyExchange x) s = .next (s.spdmAnswer .error)))
      ∧ (∀ (idx : Nat) (nonce : List Byte) (l : List (Nat × List Byte)),
          l = (if idx = 255 then s.boot.measurements else s.boot.measurements.filter fun m => m.1 = idx) →
        (l ≠ [] ∨ idx = 0 → ∃ sig, exec (.getMeasurements idx nonce) s = .next (s.spdmAnswer (.measurements l sig))
            ∧ (s.boot.security = .secure → sig = Config.sign (l.flatMap (fun m => BitVec.ofNat 8 m.1 :: m.2) ++ nonce))
            ∧ (s.boot.security = .unprovisioned → sig = []))
        ∧ (l = [] → idx ≠ 0 → exec (.getMeasurements idx nonce) s = .next (s.spdmAnswer .error)))
      ∧ (∀ k x, s.boot.spdm.session = some k → s.boot.spdm.secured = false → Config.finishVerifies k x = true →
        ∃ t, exec (.finish x) s = .next t ∧ t.boot.spdm = { s.boot.spdm with
            secured := true
            ide := (if s.link.ide.isSome then Config.ideKeys s.tick else none).or s.boot.spdm.ide
            answers := .finish :: s.boot.spdm.answers } ∧ t = { s with boot := { s.boot with spdm := t.boot.spdm } })
      ∧ (∀ x, s.boot.spdm.session = none ∨ s.boot.spdm.secured = true ∨ (∃ k, s.boot.spdm.session = some k ∧ Config.finishVerifies k x = false) →
        exec (.finish x) s = .next (s.spdmAnswer .error))
      ∧ (s.boot.spdm.secured = true →
        (∃ t, exec .keyUpdate s = .next t ∧ t.boot.spdm = { s.boot.spdm with
            session := s.boot.spdm.session.map Config.sha256
            answers := .keyUpdate :: s.boot.spdm.answers } ∧ t = { s with boot := { s.boot with spdm := t.boot.spdm } })
        ∧ (∃ t, exec .endSession s = .next t ∧ t.boot.spdm = { s.boot.spdm with
            session := none
            secured := false
            answers := .endSession :: s.boot.spdm.answers } ∧ t = { s with boot := { s.boot with spdm := t.boot.spdm } }))
      ∧ (s.boot.spdm.secured = false → exec .keyUpdate s = .next (s.spdmAnswer .error) ∧ exec .endSession s = .next (s.spdmAnswer .error)))
    ∧ (∀ i, (s.boot.security = .failed ∧ i ∈ [.getVersion, .getCapabilities, .getDigests, .keyUpdate, .endSession]
          ∨ s.boot.security = .failed ∧ (∃ sig hash kex aead, i = .negotiateAlgorithms sig hash kex aead)
          ∨ s.boot.security = .failed ∧ (∃ idx nonce, i = .getMeasurements idx nonce) ∨ s.boot.security = .failed ∧ (∃ x, i = .finish x)
          ∨ s.boot.security = .failed ∧ (∃ c, i = .spdmUnsupported c)
          ∨ s.boot.security ≠ .secure ∧ (i = .getDigests ∨ (∃ slot off len, i = .getCertificate slot off len)
              ∨ (∃ slot nonce, i = .challenge slot nonce) ∨ ∃ x, i = .keyExchange x)) →
        exec i s = .next (s.spdmAnswer .error))

/-- R262: a flit of another module of the domain that is next in sequence is accepted, and acknowledges what its module has received; a
read or write of one granule of a page that its context may use goes to its home slice, and one that is refused is answered with its cause; a flit out of
order changes nothing but what it acknowledges. R240, R262: a duplicate of an atomic that has been answered is answered again with its old
value, and is not performed again. R262: a flit that is not acknowledged is sent again: the oldest, at each such event (log 36). R263: a
failed port raises vector 4, and no request stays with a module to which no route remains, those in flight at that moment among them
(log 88). R264: what a module announces of a round, and that it has closed it, is heard. R377: a trained port carries traffic. R261: the host writes the index and the
routes of the module. -/
def Obligations.FabricEvents : Prop :=
  (∀ (f : Flit) (s : State) (next : Nat), s.resetting = false → f.dst = s.fabric.index → f.src ≠ s.fabric.index → s.inDomain f.src.toNat = true →
    next = Table.read s.fabric.accepted f.src.toNat 0 →
    (∀ tag stream ctx l x b, f.body = .readReq tag stream ctx l x → f.seq = BitVec.ofNat 32 next → l ≠ [] →
      (∀ i ∈ l, s.ours i.1.toNat = true ∧ s.pageRefuses ctx i.1.toNat = none ∧ s.granOf (dpaLocal i.1.toNat) = b) →
      ∃ t r, exec (.flitReceive f) s = .next t ∧ Table.find t.reqs s.nextId = some r ∧ r.agent = .peer f.src stream tag ∧ r.kind = .load ∧ r.ctx = ctx
        ∧ r.gran = b ∧ (r.items.map fun i => (i.addr, i.len, i.num)) = l.zipIdx.map (fun i => (dpaLocal i.1.1.toNat, i.1.2, i.2)) ∧ r.carried = some x
        ∧ r.held = none ∧ r.away = none ∧ Table.read t.fabric.accepted f.src.toNat 0 = next + 1
        ∧ (∀ g, g ∈ Table.read t.fabric.unacked f.src.toNat [] ↔ g ∈ Table.read s.fabric.unacked f.src.toNat [] ∧ seqBefore g.seq f.ack = false)
        ∧ (t.mem, t.groups) = (s.mem, s.groups))
    ∧ (∀ tag stream ctx dpa n x c, f.body = .readReq tag stream ctx [(dpa, n)] x → f.seq = BitVec.ofNat 32 next → s.ours dpa.toNat = true →
      s.pageRefuses ctx dpa.toNat = some c →
      ∃ t g, exec (.flitReceive f) s = .next t ∧ t.reqs = s.reqs ∧ t.fabric.wire = g :: s.fabric.wire ∧ g.dst = f.src
        ∧ g.body = .refusal tag 0 (Cause.access Cause.kLoad c) ∧ Table.read t.fabric.accepted f.src.toNat 0 = next + 1 ∧ t.mem = s.mem)
    ∧ (∀ tag stream ctx l x b, f.body = .writeReq tag stream ctx l x → f.seq = BitVec.ofNat 32 next → l ≠ [] →
      (∀ i ∈ l, s.ours i.1.toNat = true ∧ s.pageRefuses ctx i.1.toNat = none ∧ s.granOf (dpaLocal i.1.toNat) = b) →
      ∃ t r, exec (.flitReceive f) s = .next t ∧ Table.find t.reqs s.nextId = some r ∧ r.agent = .peer f.src stream tag ∧ r.kind = .store ∧ r.ctx = ctx
        ∧ r.gran = b ∧ (r.items.map fun i => (i.addr, i.data, i.num)) = l.zipIdx.map (fun i => (dpaLocal i.1.1.toNat, i.1.2, i.2)) ∧ r.carried = some x
        ∧ (t.mem, t.groups) = (s.mem, s.groups))
    ∧ (f.seq = BitVec.ofNat 32 next → ∃ t, exec (.flitReceive f) s = .next t
      ∧ (∀ c l, f.body = .announce c l →
          Table.read t.announced f.src.toNat [] = Table.read s.announced f.src.toNat [] ++ [⟨c, l⟩] ∧ t.unclosed = s.unclosed ∧ t.mem = s.mem)
      ∧ (f.body = .closed →
          Table.read t.unclosed f.src.toNat 0 = Table.read s.unclosed f.src.toNat 0 - 1 ∧ t.announced = s.announced ∧ t.mem = s.mem))
    ∧ (∀ core seq stream ctx dpa op ty x cmp c d, f.body = .atomReq core seq stream ctx dpa op ty x cmp c → seqBefore f.seq (BitVec.ofNat 32 next) = true →
      s.dupOf f.src core seq = some d →
      ∃ t g, exec (.flitReceive f) s = .next t ∧ t.fabric.wire = g :: s.fabric.wire ∧ g.dst = f.src
        ∧ g.body = .answer (atomTag core seq) [(0, toBytes d.old.toNat ty.bytes)] d.stamp ∧ t.reqs = s.reqs ∧ t.fabric.accepted = s.fabric.accepted
        ∧ t = { s with fabric := t.fabric })
    ∧ (f.seq ≠ BitVec.ofNat 32 next → seqBefore f.seq (BitVec.ofNat 32 next) = false →
      ∃ t, exec (.flitReceive f) s = .next t ∧ t = { s with fabric := { s.fabric with unacked := t.fabric.unacked } }))
  ∧ (∀ (dst : BitVec 8) (s : State) (f : Flit) (rest : List Flit), s.resetting = false → s.routeUp dst.toNat = true →
    Table.read s.fabric.unacked dst.toNat [] = f :: rest →
    ∃ t, exec (.flitRetransmit dst) s = .next t ∧ t = { s with fabric := { s.fabric with wire := f :: s.fabric.wire } })
  ∧ (∀ (port : Nat) (s : State), port < 12 →
    (∃ t, exec (.portFail port) s = .next t ∧ (Table.read t.fabric.ports port {}).failed = true ∧ 4 ∈ t.msix
      ∧ (∀ n, n ≠ port → Table.read t.fabric.ports n {} = Table.read s.fabric.ports n {})
      ∧ (∀ id r m, Table.find t.reqs id = some r → r.away = some m → r.items ≠ [] → t.routeUp m.toNat = true)
      ∧ t.mem = s.mem)
    ∧ ∃ t, exec (.fabricLinkTrained port) s = .next t ∧ t.portUp port = true
      ∧ (∀ n, n ≠ port → Table.read t.fabric.ports n {} = Table.read s.fabric.ports n {})
      ∧ t = { s with fabric := { s.fabric with ports := t.fabric.ports } })
  ∧ (∀ (index : BitVec 8) (routes : List (BitVec 8 × List Nat)) (s : State), (routes.map (·.1)).Nodup →
    ∃ t, exec (.domainConfiguration index routes) s = .next t ∧ (∀ r ∈ routes, Table.find t.fabric.routes r.1.toNat = some r.2)
      ∧ (∀ n, (∀ r ∈ routes, r.1.toNat ≠ n) → Table.find t.fabric.routes n = none)
      ∧ t = { s with fabric := { s.fabric with
          index := index
          routes := t.fabric.routes } })

/-- R331, R374: a machine fault or a thermal trip is latched, raises vector 1 and posts its record, and a POWER command in progress
completes with `MACHINE`; a further one changes nothing.
R328, R375, R376: a warm reset, asked for or begun by FWGO with its image, keeps memory, pages and granule stamps, the sizes of history and
the routes; contexts, launches, groups, commands, tasks, requests, regions, holds, records and links are gone, every slice starts from one
count, and H is the present; that the sequences of the cores' atomics and the number of the round are kept is log 31. R375: a cold reset leaves what `State.reset` says but for the identity, the image and the fuses. R328,
R330, R332, R377: the completion measures the image: accepted, the module is Secure or Unprovisioned with the mode asked for, in Secure D2
only with a token that verified, and the measurements are recorded; not, it is Failed and off; it waits until every port that a route
names is trained or has failed (log 31). R327: provisioning makes an Unprovisioned
module Secure, once, and passes through a warm reset (log 108). R379: cold resets count from it. -/
def Obligations.Resets : Prop :=
  (∀ (i : Instr) (s : State), (i = .thermalTrip ∨ i = .machineFault) →
    (s.machine = none → ∃ t u x, exec i s = .next t ∧ u = { s with
          machine := some Cause.machine
          msix := 1 :: s.msix } ∧ Posted u x (recordWord .machine Cause.machine 0 0 0) 0
        ∧ ((∀ f ∈ s.mbx.flights, ∀ p o l, f.2 ≠ .power p o l) → t = x)
        ∧ (∀ tag p o l, s.mbx.flights = [(tag, .power p o l)] → Answered { x with mbx := { x.mbx with flights := [] } } t tag Cause.machine)
        ∧ t = { u with
            mbx := t.mbx
            hostMem := t.hostMem
            msix := t.msix })
    ∧ (s.machine ≠ none → exec i s = .next s))
  ∧ (∀ (i : Instr) (s : State), s.resetting = false → (i = .warmReset ∨ i = .fwgo 1) →
    ∃ t, exec i s = .next t ∧ t.resetting = true ∧ t.machine = none ∧ (s.dirty = [] → t.mem = s.mem)
      ∧ (t.gstamps, t.glinks, t.flips, t.round, t.link, t.coldResets) = (s.gstamps, s.glinks, s.flips, s.round, s.link, s.coldResets)
      ∧ t.warmResets = s.warmResets + 1 ∧ (∀ n, Table.find t.pages n = (Table.find s.pages n).map fun p => { p with migrating := false })
      ∧ (t.ctxs, t.launches, t.groups, t.cmds, t.tasks, t.chains, t.batches) = ([], [], [], [], [], [], [])
      ∧ (t.reqs, t.slots, t.holds, t.l1, t.tlb, t.dirty, t.hostLines) = ([], [], [], [], [], [], []) ∧ t.mbx = {} ∧ t.power = 0
      ∧ (∀ k, k < 64 → t.sliceCount k = s.startingCount)
      ∧ (∀ k, k < 16 → (t.stack k).log = [] ∧ (t.stack k).base = (s.stack k).next ∧ ((t.stack k).whey, (t.stack k).rind) = ((s.stack k).whey, (s.stack k).rind)
          ∧ (t.stack k).h = mkStamp s.startingCount (s.originOf (4 * k)) ∧ (t.stack k).hRound = (t.stack k).h)
      ∧ (Table.rising s.cores = true → ∀ k, (t.coreOf k).deque = [] ∧ (t.coreOf k).seq = (s.coreOf k).seq)
      ∧ (t.fabric.index, t.fabric.routes) = (s.fabric.index, s.fabric.routes) ∧ (∀ p, t.portUp p = false)
      ∧ (t.boot.spdm.session, t.boot.spdm.ide, t.boot.spdm.secured) = (none, none, false)
      ∧ (t.boot.security, t.boot.floor, t.boot.wanted, t.boot.measurements) = (s.boot.security, s.boot.floor, s.boot.wanted, [])
      ∧ (i = .warmReset → t.boot.image = s.boot.image) ∧ (i = .fwgo 1 → t.boot.image = some (s.hostBytes s.boot.fwaddr.toNat s.boot.fwlen.toNat)))
  ∧ (∀ (v : Word) (s : State), v ≠ 1 → exec (.fwgo v) s = .next s)
  ∧ (∀ s : State, ∃ t, exec .coldReset s = .next t ∧ t = { State.reset with
      tick := s.tick
      actor := s.actor
      nextId := s.nextId
      hostMem := s.hostMem
      hostSeen := s.hostSeen
      msix := s.msix
      boot := t.boot
      coldResets := s.coldResets + 1 }
    ∧ (t.boot.security, t.boot.provisioned, t.boot.image, t.boot.floor, t.boot.mode) = (s.boot.security, s.boot.provisioned, s.boot.image, s.boot.floor, 0)
    ∧ t.boot.spdm.session = none)
  ∧ (∀ (mode : LinkMode) (s : State), s.resetting = false ∨ s.fabric.linked = false → exec (.resetComplete mode) s = .next s)
  ∧ (∀ (mode : LinkMode) (s : State), s.resetting = true →
    (∀ r ∈ s.fabric.routes, ∀ p ∈ r.2, (Table.read s.fabric.ports p {}).trained = true ∨ (Table.read s.fabric.ports p {}).failed = true) →
    ∃ t, exec (.resetComplete mode) s = .next t ∧ t.resetting = false ∧ t.link = mode
    ∧ (s.boot.accepts = true → t.power = 0 ∧ t.boot.security = (if s.boot.provisioned then .secure else .unprovisioned)
        ∧ t.boot.mode = (if s.boot.wanted = 2 ∧ s.boot.provisioned = true ∧ s.boot.unlocked = false then 0 else s.boot.wanted)
        ∧ t.boot.measurements = [(1, Config.sha256 Config.bootRom), (2, Config.sha256 t.boot.held), (3, Config.sha256 t.boot.stateBytes)])
    ∧ (s.boot.accepts = false → t.power = 4 ∧ t.boot.security = .failed ∧ t.boot.mode = 0 ∧ t.boot.measurements = [])
    ∧ t = { s with
        resetting := false
        link := mode
        power := t.power
        boot := t.boot })
  ∧ (∀ s : State, (s.boot.provisioned = true → exec .provisioning s = .next s)
    ∧ (s.boot.provisioned = false → ∃ t, exec .provisioning s = .next t ∧ t.boot.provisioned = true ∧ t.resetting = true
      ∧ (s.boot.security = .unprovisioned → t.boot.security = .secure) ∧ (s.boot.security ≠ .unprovisioned → t.boot.security = s.boot.security)
      ∧ t.coldResets = 0
      ∧ (s.resetting = true → t = { s with
          boot := t.boot
          coldResets := 0 })
      ∧ (s.resetting = false → (t.ctxs, t.groups, t.launches) = ([], [], []) ∧ t.warmResets = s.warmResets + 1)))

/-- R330, R332: the debugger attaches in modes D1 and D2, in P4 in D2 alone; what it stopped goes on when it detaches; what it asks of a
context that it does not reach is answered with `DEBUG_LOCKED`, and so is in P2 what changes something, in P3 what asks for neither
an image nor, in D2, for media, and in P4 every such access. No access is taken up before what the last has under way is done (log 30). R360, R399, R402, R409: within reach a breakpoint is set or deleted, registers, local spaces, store queues and command
queues are read as they are, an entity parked at a fault goes on at another position, and one at a terminal fault ends its group;
`continue` lets every stopped entity within reach go on. No read changes anything but the answers. -/
def Obligations.DebugEvents : Prop :=
  (∀ s : State, s.resetting = false → s.mbd.work = none →
    ((s.boot.mode ≠ 0 → s.power < 4 ∨ s.boot.mode = 2 → ∃ t, exec (.debugAccess .attach) s = .next t ∧ t.mbd.attached = true ∧ t.mbd.answers = .done :: s.mbd.answers
        ∧ t = { s with mbd := t.mbd })
    ∧ (s.boot.mode = 0 ∨ 4 ≤ s.power ∧ s.boot.mode ≠ 2 → ∃ t, exec (.debugAccess .attach) s = .next t
        ∧ t = { s with mbd := { s.mbd with answers := .refused Cause.debugLocked :: s.mbd.answers } })
    ∧ (s.terminals = [] → s.mbd.halts = [] → s.power < 4 ∨ s.boot.mode = 2 → ∃ t, exec (.debugAccess .detach) s = .next t ∧ t.mbd = { answers := .done :: s.mbd.answers }
      ∧ (∀ a e gr, s.entity? a = some e → s.group? a.g = some gr → ∃ e', t.entity? a = some e'
        ∧ e' = if s.reaches gr.ctx && e.stopped then { e with
            stopped := false
            continued := true } else e)
      ∧ t = { s with
          groups := t.groups
          mbd := t.mbd })))
  ∧ (∀ (i : DebugReq) (s : State) (ctx : BitVec 12), s.resetting = false → s.mbd.work = none →
    (s.reaches ctx = false ∨ s.power = 2 ∧ debugUse i = .act ∨ s.power = 3 ∧ ¬ (debugUse i = .media ∧ s.boot.mode = 2) ∨ 4 ≤ s.power) →
    ((∃ addr w g, i = .breakAt ctx addr w g) ∨ (∃ addr, i = .delete ctx addr) ∨ (∃ addr n, i = .readMem ctx addr n)
      ∨ (∃ addr x, i = .writeMem ctx addr x) ∨ (∃ addr, i = .unmap ctx addr) ∨ (∃ addr, i = .map ctx addr)
      ∨ (∃ b c d, i = .launch ctx b c d) ∨ (∃ a k r gr wv e, i = .readReg a k r ∧ s.group? a.g = some gr ∧ s.wave? a.g a.w = some wv
          ∧ s.entity? a = some e ∧ gr.ctx = ctx)) →
    exec (.debugAccess i) s = .next { s with mbd := { s.mbd with answers := .refused Cause.debugLocked :: s.mbd.answers } })
  ∧ (∀ (s : State) (ctx : BitVec 12) (addr : Word) (w : Option Nat) (g : Option (BitVec 32)), s.resetting = false → s.mbd.work = none → s.reaches ctx = true → s.power < 2 →
    (w = none ∨ s.boot.mode = 2 → ∃ t, exec (.debugAccess (.breakAt ctx addr w g)) s = .next t ∧ t = { s with mbd := { s.mbd with
        breaks := s.mbd.breaks ++ [(ctx, addr, w, g)]
        answers := .done :: s.mbd.answers } })
    ∧ (∃ t, exec (.debugAccess (.delete ctx addr)) s = .next t
      ∧ (∀ b, b ∈ t.mbd.breaks ↔ b ∈ s.mbd.breaks ∧ (b.1 ≠ ctx ∨ b.2.1 ≠ addr))
      ∧ t = { s with mbd := { s.mbd with
          breaks := t.mbd.breaks
          answers := .done :: s.mbd.answers } }))
  ∧ (∀ (s : State) (a : Actor) (gr : Group) (wv : Wave) (e : Entity), s.resetting = false → s.mbd.work = none → s.power < 3 → s.group? a.g = some gr →
    s.wave? a.g a.w = some wv → s.entity? a = some e → s.reaches gr.ctx = true →
    (∀ (k : Bool) (r : DebugReg), k = false ∨ s.boot.mode = 2 → ∃ t l, exec (.debugAccess (.readReg a k r)) s = .next t
      ∧ (∀ n, r = .s n → l = [wv.sReg n.toNat]) ∧ (∀ n, r = .p n → l = [wv.pReg n.toNat])
      ∧ (∀ n, r = .b n → l = [(wv.win n).base, BitVec.ofNat 64 (wv.win n).limit])
      ∧ (∀ n ts, r = .v n ts → l = ts.map fun x => (wv.vLane n.toNat x.toNat).setWidth 64)
      ∧ (∀ n, r = .f n → n.toNat < 12 → l = [BitVec.ofNat 64 (wv.pending n.toNat)])
      ∧ (∀ n, r = .h n → l = (List.range 4).map fun k => (gr.handle n).extractLsb' (64 * k) 64)
      ∧ t = { s with mbd := { s.mbd with answers := .words l :: s.mbd.answers } })
    ∧ (∀ k : Bool, k = false ∨ s.boot.mode = 2 → ∃ t l, exec (.debugAccess (.storeQueue a.g a.w k)) s = .next t ∧ (∀ q ∈ wv.sq, q ∈ l)
      ∧ (∀ i x y, l[i]? = some x → l[i + 1]? = some y → x.num ≤ y.num) ∧ ((∀ q ∈ s.reqs, q.2.agent ≠ .wave a.g a.w) → ∀ q, q ∈ l ↔ q ∈ wv.sq)
      ∧ t = { s with mbd := { s.mbd with answers := .stores l :: s.mbd.answers } })
    ∧ (∀ hdr, s.power < 2 → e.fault.isSome = true → ∃ t e', exec (.debugAccess (.resumeAt a hdr)) s = .next t ∧ t.entity? a = some e' ∧ e'.park = none
      ∧ e'.fault = none ∧ (e'.hdr, e'.idx, e'.clause, e'.mask) = (hdr, 0, none, e.mask) ∧ t.mem = s.mem)
    ∧ (∀ f, s.power < 2 → e.fault = some f → Cause.replayable f.cause = false →
      ∃ t gr', exec (.debugAccess (.endFault a)) s = .next t ∧ t.group? a.g = some gr' ∧ gr'.state = .draining ∧ (∀ w ∈ gr'.waves, w.ents = [])
        ∧ t.mem = s.mem))
  ∧ (∀ s : State, s.resetting = false → s.mbd.work = none → s.mbd.attached = true → s.power < 2 → s.terminals = [] → s.haltsReached = [] →
    ∃ t, exec (.debugAccess .continueAll) s = .next t
      ∧ (∀ a e gr, s.entity? a = some e → s.group? a.g = some gr → ∃ e', t.entity? a = some e'
        ∧ (s.reaches gr.ctx = true → e.stopped = true → e' = { e with
            stopped := false
            continued := true })
        ∧ (s.reaches gr.ctx = false ∨ e.stopped = false → e' = e))
      ∧ t = { s with
          groups := t.groups
          mbd := t.mbd })

/-- R66: the forms of integer arithmetic complete on every operand and never fault: an exact result is reduced to the type, keeping
its low n bits, or clamped by a `.sat` form; a division issues with the quotient truncated toward zero, a zero divisor gives all
ones, and the quotient of the least value by -1 is the least value. -/
def Obligations.IntegerValues : Prop :=
  (∀ (i : Instr) (k : ExactForm) (m : Meta) (s : State) (v : View), exactForm i = some k → k.ty.isInt = true →
      checks i = some m → Acts m s v →
    ∃ (wv : Wave) (f : Nat → Word), exec i s = .next (s.withWave v wv) ∧ Wrote v.wv wv k.d k.ty.wide (v.acting m) f
      ∧ ∀ t, Computes k.d (v.acting m) t → Reduced k.ty k.sat (k.val v s.tick t) (f t))
  ∧ (∀ (g : Guard) (fl : Flag) (ty : Ty) (d a b : Reg) (m : Meta) (s : State) (v : View), ty.isInt = true →
      checks (.vdiv g fl ty d a b) = some m → Acts m s v →
    ∃ (wv : Wave) (vals : List Word), exec (.vdiv g fl ty d a b) s = .next (s.numbered.withWave v wv)
      ∧ Issued v s.nextId fl (v.acting m) d.isS (fun o => o.body = .alu d ty vals 0 ∧ o.ready = true ∧ o.refused = []) wv
      ∧ ∀ (t : Nat) (x y : Int) (r : Word), Computes d (v.acting m) t → x = intVal ty (v.src s.tick ty a t) →
          y = intVal ty (v.src s.tick ty b t) → r = vals.getD (if d.isS then 0 else t) 0 →
        fillWord ty r = r
          ∧ (y = 0 → intVal ty r = if ty.isS then -1 else (2 ^ ty.width : Int) - 1)
          ∧ (x = -(2 ^ (ty.width - 1) : Int) → y = -1 → intVal ty r = x)
          ∧ (y ≠ 0 → ¬ (x = -(2 ^ (ty.width - 1) : Int) ∧ y = -1) → intVal ty r = x.tdiv y))

/-- R87: of a device-physical address the bits [51:44] give the module, [43:40] the stack and [39:0] the offset. Its home slice is
four times the stack plus two bits, the exclusive or of the offset's pairs of bits from bit 9 up, bit 39 standing alone: of the
odd offset bits from 9, and of the even ones from 10. The bits [8:0] take no part, so all bytes of a granule have one home
slice. -/
def Obligations.HomeSlices : Prop :=
  ∀ d : Nat, d < 2 ^ 52 →
    d = dpaModule d * 2 ^ 44 + dpaStack d * 2 ^ 40 + dpaOffset d ∧ dpaModule d < 2 ^ 8 ∧ dpaStack d < 2 ^ 4 ∧ dpaOffset d < 2 ^ 40
    ∧ homeSlice d / 4 = dpaStack d ∧ homeSlice d < 64
    ∧ (homeSlice d).testBit 0 = ((List.range 16).foldl (fun b k => b ^^ d.testBit (9 + 2 * k)) false)
    ∧ (homeSlice d).testBit 1 = ((List.range 15).foldl (fun b k => b ^^ d.testBit (10 + 2 * k)) false)
    ∧ (∀ e : Nat, e / 2 ^ 9 = d / 2 ^ 9 → homeSlice e = homeSlice d)
    ∧ (∀ (g : BitVec 2) (k : Nat), d % granSize g = 0 → k < granSize g → homeSlice (d + k) = homeSlice d)

/-- R39, R40, R44, R46, R61, R62, R248, R290, R335, R416: what an instruction does that a check stops, in the order of the checks:
a v-register beyond the role's budget faults `REG_RANGE`; a wrong place in the clause `SLOT_POS`; one that must wait for the
entity's instructions in flight waits; one whose guard holds in no thread only retires, and one with a completion part clears and sets
its flag as well; one that a forwarding region bans faults `XR_FORBIDDEN`; one without the privilege `PRIV`; one that ends a deterministic quantum ends it and is performed later; and one
whose flag has fifteen pending waits. The fault of a lane instruction names every active thread, another's the lowest. Every form of
an entity that is there goes on to a next state, and so does every event, whatever the state and the operands. -/
def Obligations.Checks : Prop :=
  (∀ (i : Instr) (m : Meta) (s : State), checks i = some m → (s.view? = none → exec i s = .fault .noActor)
    ∧ ∀ v, s.view? = some v → ∃ t, exec i s = .next t)
  ∧ (∀ (i : Instr) (s : State), checks i = none → ∃ t, exec i s = .next t)
  ∧ ∀ (i : Instr) (m : Meta) (s : State) (v : View) (lanes : Mask), checks i = some m → s.view? = some v →
      lanes = (if m.lane then v.en.mask else oneMask (lowest v.en.mask)) →
    ((∃ n ∈ m.vregs, 16 * v.wv.blocks ≤ n) → ∃ t, exec i s = .next t ∧ Faulted s v Cause.regRange v.addr lanes t)
    ∧ ((∀ n ∈ m.vregs, n < 16 * v.wv.blocks) →
      (m.place.ok v.cl v.en.idx = false → ∃ t, exec i s = .next t ∧ Faulted s v Cause.slotPos v.addr lanes t)
      ∧ (m.place.ok v.cl v.en.idx = true →
        (m.drains = true → v.wv.inFlight v.a.e = true → exec i s = .next s)
        ∧ ((m.drains = true → v.wv.inFlight v.a.e = false) →
          (v.acting m = 0 → m.long = none → ∃ wv, exec i s = .next (s.withWave v wv) ∧ Plain v (v.after m.slots) wv)
          ∧ (∀ f, v.acting m = 0 → m.long = some f →
            ((∀ k, flagIndex f = some k → v.wv.pending k < 15) → ∃ wv, exec i s = .next (s.numbered.withWave v wv)
              ∧ Issued v s.nextId f 0 (!m.lane) (fun o => o.body = .off ∧ o.ready = true ∧ o.refused = []) wv)
            ∧ (∀ k, flagIndex f = some k → 15 ≤ v.wv.pending k → exec i s = .next s))
          ∧ (v.acting m ≠ 0 →
            (v.wv.region ≠ none → m.inRegion = false →
              ∃ t, exec i s = .next t ∧ Faulted s v Cause.xrForbidden v.addr lanes t)
            ∧ ((v.wv.region = none ∨ m.inRegion = true) →
              (m.sys = true → s.sysPriv v.gr.ctx = false →
                ∃ t, exec i s = .next t ∧ Faulted s v Cause.priv v.addr lanes t)
              ∧ ((m.sys = true → s.sysPriv v.gr.ctx = true) →
                (m.ends = true → s.det v.gr = true → v.wv.quantum ≠ .granted v.a.e →
                  ∃ (wv : Wave) (e : Entity), exec i s = .next (s.withWave v wv) ∧ SameRegs v.wv wv ∧ wv.ops = v.wv.ops
                    ∧ wv.quantum = (if v.wv.quantum = .running then .endedAt v.a.e else v.wv.quantum)
                    ∧ Table.find wv.ents v.a.e = some e ∧ (e.hdr, e.idx) = (v.en.hdr, v.en.idx) ∧ e.mask = v.en.mask
                    ∧ e.pipe = none ∧ (∀ k, k ≠ v.a.e → Table.find wv.ents k = Table.find v.wv.ents k))
                ∧ ((m.ends = true → s.det v.gr = true → v.wv.quantum = .granted v.a.e) →
                  ∀ f k, m.long = some f → flagIndex f = some k → 15 ≤ v.wv.pending k → exec i s = .next s)))))))

/-- R32, R34, R60, R62, R259: a step takes the agenda's next turn, or the schedule's where the agenda is empty; upkeep of a history that its
bounds no longer let wait comes before both (R173, R175). The turn of an
entity that may issue fetches the word where it stands and runs the instruction that the word decodes to, an `xbeg` with the
word in the next slot; a word that is no instruction faults in its place, and so does a fetch that translation or memory
refuses. The turn of an open mailbox runs its next submission entry, which is then consumed. An event that can happen runs.
Otherwise nothing happens. (The agenda and the schedule are the model's, log 1.) -/
def Obligations.StepRuns : Prop :=
  ∀ (s u : State) (turn : Turn),
      (turn, u.agenda) = (match s.overdue, s.agenda with
        | some i, l => (.event i, l)
        | none, t :: r => (t, r)
        | none, [] => (Config.schedule s.tick, [])) →
      u = { s with
        agenda := u.agenda
        tick := s.tick + 1 } →
    (∀ (a : Actor), turn = .issue a →
      (u.issuing a = none → step s = .next u)
      ∧ (∀ (v : View), u.issuing a = some v →
        (({ u with actor := a } : State).fetchWord v.gr v.addr = .wait → step s = .next u)
        ∧ (∀ (c : Cause) (s1 : State), ({ u with actor := a } : State).fetchWord v.gr v.addr = .fault c s1 →
          step s = .next (s1.takeFault a c v.addr v.en.mask none))
        ∧ (∀ (w : Word) (s1 : State), ({ u with actor := a } : State).fetchWord v.gr v.addr = .word w s1 →
          (∀ (e : EncFault), decodeWord v.cl.cls w none = .error e →
            step s = .next (s1.faultHere v (wordIsLane w) (encCause e)))
          ∧ (∀ (i : Instr), decodeWord v.cl.cls w none = .ok i → bits w 56 8 ≠ 0x4A ∨ v.cl.count ≤ v.en.idx + 1 →
            step s = exec i s1)
          ∧ (∀ (i : Instr) (x : Word) (s2 : State), decodeWord v.cl.cls w none = .ok i → bits w 56 8 = 0x4A →
              v.en.idx + 1 < v.cl.count → s1.fetchWord v.gr (wordAddr v.en.hdr (v.en.idx + 1)) = .word x s2 →
            (∀ (j : Instr), decodeWord v.cl.cls w (some x) = .ok j → step s = exec j s2)
            ∧ (∀ (e : EncFault), decodeWord v.cl.cls w (some x) = .error e →
              step s = .next (s2.faultHere v (wordIsLane w) (encCause e)))))))
    ∧ (turn = .mailbox →
      (u.mailboxOpen = false → step s = .next u)
      ∧ (∀ (e : SubEntry), u.mailboxOpen = true → u.mbx.pending = true → (entryCode e = 3 → u.powering = false) →
          (∀ k, k < 64 → BitVec.setWidth 8 (e >>> (8 * k)) = Table.read u.hostMem (u.mbx.entryAddr + k) 0) →
        step s = exec (decodeEntry e) { u with mbx := { u.mbx with consumed := u.mbx.consumed + 1 } }))
    ∧ (∀ (i : Instr), turn = .event i → step s = if u.mayHappen i then exec i u else .next u)

/-- R327, R332, R361, R375, R377: after a cold reset the module holds no context, group, launch, hold, region slot, cause record or cached
translation; every mailbox register is zero; every device page is free, unversioned and G64, every granule reads zero with a
valid code; no stack has a history; and `RESET_COMPLETE` is still to come. Which power state, debug mode, module index, counts and H
the machine holds is the model's choice (logs 5 and 6). -/
def Obligations.ResetState : Prop :=
  let s := State.reset
  s.ctxs = [] ∧ s.groups = [] ∧ s.launches = [] ∧ s.holds = [] ∧ s.slots = [] ∧ s.tlb = [] ∧ s.l1 = [] ∧ s.reqs = [] ∧ s.cmds = []
    ∧ s.tasks = [] ∧ s.chains = [] ∧ s.hostLines = [] ∧ s.resetting = true ∧ s.machine = none
    ∧ (∀ k, (s.coreOf k).deque = [] ∧ (s.coreOf k).seq = 0)
    ∧ (s.mbx.ctl = 0 ∧ s.mbx.sqbase = 0 ∧ s.mbx.cqbase = 0 ∧ s.mbx.qsize = 0 ∧ s.mbx.sqtail = 0 ∧ s.mbx.cqhead = 0)
    ∧ (s.mbx.flights = [] ∧ s.mbx.waiting = [] ∧ s.mbx.records = [] ∧ s.mbx.lost = 0)
    ∧ (∀ k, (s.page k).owner = 0 ∧ (s.page k).v = false ∧ (s.page k).gran = 1 ∧ (s.page k).migrating = false)
    ∧ (∀ a, Table.read s.mem a unlistedByte = 0 ∧ Table.find s.flips a = none)
    ∧ (∀ k, (s.stack k).log = [] ∧ (s.stack k).whey = 0 ∧ (s.stack k).rind = 0)
    ∧ s.boot.spdm.session = none ∧ s.boot.spdm.ide = none ∧ s.mbd.attached = false ∧ s.power = 0 ∧ s.fabric.index = 0 ∧ s.Inv

/-- A step keeps device memory and host memory in their canonical form, whatever instruction it runs. -/
def Obligations.InvStep : Prop := ∀ (s t : State), s.Inv → step s = .next t → t.Inv

/-- R37 to R43, R52 to R59, R259: every well-formed instruction word decodes to the instruction it encodes, with every operand at every
value the encoding admits, in a clause of the class of its opcode; and a word that decodes is the encoding of a well-formed
instruction and stands in a clause of its class, so no bit of a word is ignored. The same holds of submission entries. -/
def Obligations.RoundTrip : Prop :=
  (∀ (i : Instr) (w : Word), i.wellFormed = true → encodeFirst i = some w →
    ∃ c, classOfWord w = some c ∧ decodeWord c w (encodeExt i) = .ok i)
  ∧ (∀ (c : BitVec 4) (w : Word) (x : Option Word) (i : Instr), decodeWord c w x = .ok i →
    i.wellFormed = true ∧ encodeFirst i = some w ∧ classOfWord w = some c ∧ ∀ y z, encodeExt i = some y → x = some z → z = y)
  ∧ (∀ (i : Instr) (e : SubEntry), i.wellFormed = true → encodeEntry i = some e → decodeEntry e = i)
  ∧ (∀ e : SubEntry, (decodeEntry e).wellFormed = true ∧ encodeEntry (decodeEntry e) = some e)

/-- The worked encodings of the manual, and one word of each further format written out from R37 and R52 to R56. -/
def Obligations.SampleWords : Prop :=
  decodeWord 1 0x48FFF00400000100 none = .ok (.win ⟨7, false⟩ 0 2 256)
  ∧ decodeWord 1 0x40207020008C0000 none = .ok (.ld ⟨7, false⟩ ⟨2, 0⟩ .g .n32 (.v 4) 0 (some (.v 1)) )
  ∧ decodeWord 0 0x01FFF01804E00064 none = .ok (.vaddImm ⟨7, false⟩ .n64 (.s 3) (.s 0) 100)
  ∧ decodeWord 3 0x9500040000000100 none = .ok (.rgn 4 1)
  ∧ decodeWord 2 0x70FFF08000004000 none = .ok (.hset ⟨7, false⟩ 4 0x20)
  ∧ decodeWord 4 0xC1FFF00000028000 none = .ok (.trap ⟨7, false⟩ 5)
  ∧ decodeWord 4 0xC2FFF00000000000 none = .ok (.tret ⟨7, false⟩)
  ∧ decodeWord 0 0x0FFF700000000000 none = .error .undefOp
  ∧ decodeWord 1 0x01FFF01804E00064 none = .error .classMismatch
  ∧ decodeHeader 0xF110000000000000 = .ok { cls := 1, count := 2, wait := 0, any := false }
end

