-- ==== Sys2Proof/Laws/State.lean ====
section
/-! SUPPORT. One lemma for each field and each shared update of State, Group, Wave and Entity: the fields an update leaves, and
what it does to the one it changes. -/

namespace Sys2Proof.Machine

open Sys2Proof


-- State ---------------------------------------------------------------------------------------------------------------

@[simp] theorem State.modGroup_agenda (s : State) (g : Nat) (h : Group → Group) : (s.modGroup g h).agenda = s.agenda := rfl
@[simp] theorem State.modGroup_tick (s : State) (g : Nat) (h : Group → Group) : (s.modGroup g h).tick = s.tick := rfl
@[simp] theorem State.modGroup_actor (s : State) (g : Nat) (h : Group → Group) : (s.modGroup g h).actor = s.actor := rfl
@[simp] theorem State.modGroup_nextId (s : State) (g : Nat) (h : Group → Group) : (s.modGroup g h).nextId = s.nextId := rfl
@[simp] theorem State.modGroup_mem (s : State) (g : Nat) (h : Group → Group) : (s.modGroup g h).mem = s.mem := rfl
@[simp] theorem State.modGroup_pages (s : State) (g : Nat) (h : Group → Group) : (s.modGroup g h).pages = s.pages := rfl
@[simp] theorem State.modGroup_gstamps (s : State) (g : Nat) (h : Group → Group) : (s.modGroup g h).gstamps = s.gstamps := rfl
@[simp] theorem State.modGroup_glinks (s : State) (g : Nat) (h : Group → Group) : (s.modGroup g h).glinks = s.glinks := rfl
@[simp] theorem State.modGroup_flips (s : State) (g : Nat) (h : Group → Group) : (s.modGroup g h).flips = s.flips := rfl
@[simp] theorem State.modGroup_dirty (s : State) (g : Nat) (h : Group → Group) : (s.modGroup g h).dirty = s.dirty := rfl
@[simp] theorem State.modGroup_counts (s : State) (g : Nat) (h : Group → Group) : (s.modGroup g h).counts = s.counts := rfl
@[simp] theorem State.modGroup_sweeps (s : State) (g : Nat) (h : Group → Group) : (s.modGroup g h).sweeps = s.sweeps := rfl
@[simp] theorem State.modGroup_sweptAt (s : State) (g : Nat) (h : Group → Group) : (s.modGroup g h).sweptAt = s.sweptAt := rfl
@[simp] theorem State.modGroup_contention (s : State) (g : Nat) (h : Group → Group) : (s.modGroup g h).contention = s.contention := rfl
@[simp] theorem State.modGroup_dups (s : State) (g : Nat) (h : Group → Group) : (s.modGroup g h).dups = s.dups := rfl
@[simp] theorem State.modGroup_l1 (s : State) (g : Nat) (h : Group → Group) : (s.modGroup g h).l1 = s.l1 := rfl
@[simp] theorem State.modGroup_tlb (s : State) (g : Nat) (h : Group → Group) : (s.modGroup g h).tlb = s.tlb := rfl
@[simp] theorem State.modGroup_reqs (s : State) (g : Nat) (h : Group → Group) : (s.modGroup g h).reqs = s.reqs := rfl
@[simp] theorem State.modGroup_hostLines (s : State) (g : Nat) (h : Group → Group) : (s.modGroup g h).hostLines = s.hostLines := rfl
@[simp] theorem State.modGroup_hostSeen (s : State) (g : Nat) (h : Group → Group) : (s.modGroup g h).hostSeen = s.hostSeen := rfl
@[simp] theorem State.modGroup_stackTable (s : State) (g : Nat) (h : Group → Group) : (s.modGroup g h).stackTable = s.stackTable := rfl
@[simp] theorem State.modGroup_holds (s : State) (g : Nat) (h : Group → Group) : (s.modGroup g h).holds = s.holds := rfl
@[simp] theorem State.modGroup_holdOrder (s : State) (g : Nat) (h : Group → Group) : (s.modGroup g h).holdOrder = s.holdOrder := rfl
@[simp] theorem State.modGroup_holdsEnded (s : State) (g : Nat) (h : Group → Group) : (s.modGroup g h).holdsEnded = s.holdsEnded := rfl
@[simp] theorem State.modGroup_round (s : State) (g : Nat) (h : Group → Group) : (s.modGroup g h).round = s.round := rfl
@[simp] theorem State.modGroup_placed (s : State) (g : Nat) (h : Group → Group) : (s.modGroup g h).placed = s.placed := rfl
@[simp] theorem State.modGroup_announced (s : State) (g : Nat) (h : Group → Group) : (s.modGroup g h).announced = s.announced := rfl
@[simp] theorem State.modGroup_unclosed (s : State) (g : Nat) (h : Group → Group) : (s.modGroup g h).unclosed = s.unclosed := rfl
@[simp] theorem State.modGroup_bcasts (s : State) (g : Nat) (h : Group → Group) : (s.modGroup g h).bcasts = s.bcasts := rfl
@[simp] theorem State.modGroup_slots (s : State) (g : Nat) (h : Group → Group) : (s.modGroup g h).slots = s.slots := rfl
@[simp] theorem State.modGroup_startCount (s : State) (g : Nat) (h : Group → Group) : (s.modGroup g h).startCount = s.startCount := rfl
@[simp] theorem State.modGroup_cmCount (s : State) (g : Nat) (h : Group → Group) : (s.modGroup g h).cmCount = s.cmCount := rfl
@[simp] theorem State.modGroup_xbegQueue (s : State) (g : Nat) (h : Group → Group) : (s.modGroup g h).xbegQueue = s.xbegQueue := rfl
@[simp] theorem State.modGroup_unitOrder (s : State) (g : Nat) (h : Group → Group) : (s.modGroup g h).unitOrder = s.unitOrder := rfl
@[simp] theorem State.modGroup_ctxs (s : State) (g : Nat) (h : Group → Group) : (s.modGroup g h).ctxs = s.ctxs := rfl
@[simp] theorem State.modGroup_launches (s : State) (g : Nat) (h : Group → Group) : (s.modGroup g h).launches = s.launches := rfl
@[simp] theorem State.modGroup_cores (s : State) (g : Nat) (h : Group → Group) : (s.modGroup g h).cores = s.cores := rfl
@[simp] theorem State.modGroup_cmds (s : State) (g : Nat) (h : Group → Group) : (s.modGroup g h).cmds = s.cmds := rfl
@[simp] theorem State.modGroup_tasks (s : State) (g : Nat) (h : Group → Group) : (s.modGroup g h).tasks = s.tasks := rfl
@[simp] theorem State.modGroup_chains (s : State) (g : Nat) (h : Group → Group) : (s.modGroup g h).chains = s.chains := rfl
@[simp] theorem State.modGroup_lastDie (s : State) (g : Nat) (h : Group → Group) : (s.modGroup g h).lastDie = s.lastDie := rfl
@[simp] theorem State.modGroup_batches (s : State) (g : Nat) (h : Group → Group) : (s.modGroup g h).batches = s.batches := rfl
@[simp] theorem State.modGroup_nextPnum (s : State) (g : Nat) (h : Group → Group) : (s.modGroup g h).nextPnum = s.nextPnum := rfl
@[simp] theorem State.modGroup_eligibleOrder (s : State) (g : Nat) (h : Group → Group) : (s.modGroup g h).eligibleOrder = s.eligibleOrder := rfl
@[simp] theorem State.modGroup_mbx (s : State) (g : Nat) (h : Group → Group) : (s.modGroup g h).mbx = s.mbx := rfl
@[simp] theorem State.modGroup_hostMem (s : State) (g : Nat) (h : Group → Group) : (s.modGroup g h).hostMem = s.hostMem := rfl
@[simp] theorem State.modGroup_msix (s : State) (g : Nat) (h : Group → Group) : (s.modGroup g h).msix = s.msix := rfl
@[simp] theorem State.modGroup_power (s : State) (g : Nat) (h : Group → Group) : (s.modGroup g h).power = s.power := rfl
@[simp] theorem State.modGroup_boot (s : State) (g : Nat) (h : Group → Group) : (s.modGroup g h).boot = s.boot := rfl
@[simp] theorem State.modGroup_mbd (s : State) (g : Nat) (h : Group → Group) : (s.modGroup g h).mbd = s.mbd := rfl
@[simp] theorem State.modGroup_fabric (s : State) (g : Nat) (h : Group → Group) : (s.modGroup g h).fabric = s.fabric := rfl
@[simp] theorem State.modGroup_machine (s : State) (g : Nat) (h : Group → Group) : (s.modGroup g h).machine = s.machine := rfl
@[simp] theorem State.modGroup_resetting (s : State) (g : Nat) (h : Group → Group) : (s.modGroup g h).resetting = s.resetting := rfl
@[simp] theorem State.modGroup_warmResets (s : State) (g : Nat) (h : Group → Group) : (s.modGroup g h).warmResets = s.warmResets := rfl
@[simp] theorem State.modGroup_coldResets (s : State) (g : Nat) (h : Group → Group) : (s.modGroup g h).coldResets = s.coldResets := rfl
@[simp] theorem State.modGroup_link (s : State) (g : Nat) (h : Group → Group) : (s.modGroup g h).link = s.link := rfl
@[simp] theorem State.modWave_agenda (s : State) (g w : Nat) (h : Wave → Wave) : (s.modWave g w h).agenda = s.agenda := rfl
@[simp] theorem State.modWave_tick (s : State) (g w : Nat) (h : Wave → Wave) : (s.modWave g w h).tick = s.tick := rfl
@[simp] theorem State.modWave_actor (s : State) (g w : Nat) (h : Wave → Wave) : (s.modWave g w h).actor = s.actor := rfl
@[simp] theorem State.modWave_nextId (s : State) (g w : Nat) (h : Wave → Wave) : (s.modWave g w h).nextId = s.nextId := rfl
@[simp] theorem State.modWave_mem (s : State) (g w : Nat) (h : Wave → Wave) : (s.modWave g w h).mem = s.mem := rfl
@[simp] theorem State.modWave_pages (s : State) (g w : Nat) (h : Wave → Wave) : (s.modWave g w h).pages = s.pages := rfl
@[simp] theorem State.modWave_gstamps (s : State) (g w : Nat) (h : Wave → Wave) : (s.modWave g w h).gstamps = s.gstamps := rfl
@[simp] theorem State.modWave_glinks (s : State) (g w : Nat) (h : Wave → Wave) : (s.modWave g w h).glinks = s.glinks := rfl
@[simp] theorem State.modWave_flips (s : State) (g w : Nat) (h : Wave → Wave) : (s.modWave g w h).flips = s.flips := rfl
@[simp] theorem State.modWave_dirty (s : State) (g w : Nat) (h : Wave → Wave) : (s.modWave g w h).dirty = s.dirty := rfl
@[simp] theorem State.modWave_counts (s : State) (g w : Nat) (h : Wave → Wave) : (s.modWave g w h).counts = s.counts := rfl
@[simp] theorem State.modWave_sweeps (s : State) (g w : Nat) (h : Wave → Wave) : (s.modWave g w h).sweeps = s.sweeps := rfl
@[simp] theorem State.modWave_sweptAt (s : State) (g w : Nat) (h : Wave → Wave) : (s.modWave g w h).sweptAt = s.sweptAt := rfl
@[simp] theorem State.modWave_contention (s : State) (g w : Nat) (h : Wave → Wave) : (s.modWave g w h).contention = s.contention := rfl
@[simp] theorem State.modWave_dups (s : State) (g w : Nat) (h : Wave → Wave) : (s.modWave g w h).dups = s.dups := rfl
@[simp] theorem State.modWave_l1 (s : State) (g w : Nat) (h : Wave → Wave) : (s.modWave g w h).l1 = s.l1 := rfl
@[simp] theorem State.modWave_tlb (s : State) (g w : Nat) (h : Wave → Wave) : (s.modWave g w h).tlb = s.tlb := rfl
@[simp] theorem State.modWave_reqs (s : State) (g w : Nat) (h : Wave → Wave) : (s.modWave g w h).reqs = s.reqs := rfl
@[simp] theorem State.modWave_hostLines (s : State) (g w : Nat) (h : Wave → Wave) : (s.modWave g w h).hostLines = s.hostLines := rfl
@[simp] theorem State.modWave_hostSeen (s : State) (g w : Nat) (h : Wave → Wave) : (s.modWave g w h).hostSeen = s.hostSeen := rfl
@[simp] theorem State.modWave_stackTable (s : State) (g w : Nat) (h : Wave → Wave) : (s.modWave g w h).stackTable = s.stackTable := rfl
@[simp] theorem State.modWave_holds (s : State) (g w : Nat) (h : Wave → Wave) : (s.modWave g w h).holds = s.holds := rfl
@[simp] theorem State.modWave_holdOrder (s : State) (g w : Nat) (h : Wave → Wave) : (s.modWave g w h).holdOrder = s.holdOrder := rfl
@[simp] theorem State.modWave_holdsEnded (s : State) (g w : Nat) (h : Wave → Wave) : (s.modWave g w h).holdsEnded = s.holdsEnded := rfl
@[simp] theorem State.modWave_round (s : State) (g w : Nat) (h : Wave → Wave) : (s.modWave g w h).round = s.round := rfl
@[simp] theorem State.modWave_placed (s : State) (g w : Nat) (h : Wave → Wave) : (s.modWave g w h).placed = s.placed := rfl
@[simp] theorem State.modWave_announced (s : State) (g w : Nat) (h : Wave → Wave) : (s.modWave g w h).announced = s.announced := rfl
@[simp] theorem State.modWave_unclosed (s : State) (g w : Nat) (h : Wave → Wave) : (s.modWave g w h).unclosed = s.unclosed := rfl
@[simp] theorem State.modWave_bcasts (s : State) (g w : Nat) (h : Wave → Wave) : (s.modWave g w h).bcasts = s.bcasts := rfl
@[simp] theorem State.modWave_slots (s : State) (g w : Nat) (h : Wave → Wave) : (s.modWave g w h).slots = s.slots := rfl
@[simp] theorem State.modWave_startCount (s : State) (g w : Nat) (h : Wave → Wave) : (s.modWave g w h).startCount = s.startCount := rfl
@[simp] theorem State.modWave_cmCount (s : State) (g w : Nat) (h : Wave → Wave) : (s.modWave g w h).cmCount = s.cmCount := rfl
@[simp] theorem State.modWave_xbegQueue (s : State) (g w : Nat) (h : Wave → Wave) : (s.modWave g w h).xbegQueue = s.xbegQueue := rfl
@[simp] theorem State.modWave_unitOrder (s : State) (g w : Nat) (h : Wave → Wave) : (s.modWave g w h).unitOrder = s.unitOrder := rfl
@[simp] theorem State.modWave_ctxs (s : State) (g w : Nat) (h : Wave → Wave) : (s.modWave g w h).ctxs = s.ctxs := rfl
@[simp] theorem State.modWave_launches (s : State) (g w : Nat) (h : Wave → Wave) : (s.modWave g w h).launches = s.launches := rfl
@[simp] theorem State.modWave_cores (s : State) (g w : Nat) (h : Wave → Wave) : (s.modWave g w h).cores = s.cores := rfl
@[simp] theorem State.modWave_cmds (s : State) (g w : Nat) (h : Wave → Wave) : (s.modWave g w h).cmds = s.cmds := rfl
@[simp] theorem State.modWave_tasks (s : State) (g w : Nat) (h : Wave → Wave) : (s.modWave g w h).tasks = s.tasks := rfl
@[simp] theorem State.modWave_chains (s : State) (g w : Nat) (h : Wave → Wave) : (s.modWave g w h).chains = s.chains := rfl
@[simp] theorem State.modWave_lastDie (s : State) (g w : Nat) (h : Wave → Wave) : (s.modWave g w h).lastDie = s.lastDie := rfl
@[simp] theorem State.modWave_batches (s : State) (g w : Nat) (h : Wave → Wave) : (s.modWave g w h).batches = s.batches := rfl
@[simp] theorem State.modWave_nextPnum (s : State) (g w : Nat) (h : Wave → Wave) : (s.modWave g w h).nextPnum = s.nextPnum := rfl
@[simp] theorem State.modWave_eligibleOrder (s : State) (g w : Nat) (h : Wave → Wave) : (s.modWave g w h).eligibleOrder = s.eligibleOrder := rfl
@[simp] theorem State.modWave_mbx (s : State) (g w : Nat) (h : Wave → Wave) : (s.modWave g w h).mbx = s.mbx := rfl
@[simp] theorem State.modWave_hostMem (s : State) (g w : Nat) (h : Wave → Wave) : (s.modWave g w h).hostMem = s.hostMem := rfl
@[simp] theorem State.modWave_msix (s : State) (g w : Nat) (h : Wave → Wave) : (s.modWave g w h).msix = s.msix := rfl
@[simp] theorem State.modWave_power (s : State) (g w : Nat) (h : Wave → Wave) : (s.modWave g w h).power = s.power := rfl
@[simp] theorem State.modWave_boot (s : State) (g w : Nat) (h : Wave → Wave) : (s.modWave g w h).boot = s.boot := rfl
@[simp] theorem State.modWave_mbd (s : State) (g w : Nat) (h : Wave → Wave) : (s.modWave g w h).mbd = s.mbd := rfl
@[simp] theorem State.modWave_fabric (s : State) (g w : Nat) (h : Wave → Wave) : (s.modWave g w h).fabric = s.fabric := rfl
@[simp] theorem State.modWave_machine (s : State) (g w : Nat) (h : Wave → Wave) : (s.modWave g w h).machine = s.machine := rfl
@[simp] theorem State.modWave_resetting (s : State) (g w : Nat) (h : Wave → Wave) : (s.modWave g w h).resetting = s.resetting := rfl
@[simp] theorem State.modWave_warmResets (s : State) (g w : Nat) (h : Wave → Wave) : (s.modWave g w h).warmResets = s.warmResets := rfl
@[simp] theorem State.modWave_coldResets (s : State) (g w : Nat) (h : Wave → Wave) : (s.modWave g w h).coldResets = s.coldResets := rfl
@[simp] theorem State.modWave_link (s : State) (g w : Nat) (h : Wave → Wave) : (s.modWave g w h).link = s.link := rfl
@[simp] theorem State.modEnt_agenda (s : State) (a : Actor) (h : Entity → Entity) : (s.modEnt a h).agenda = s.agenda := rfl
@[simp] theorem State.modEnt_tick (s : State) (a : Actor) (h : Entity → Entity) : (s.modEnt a h).tick = s.tick := rfl
@[simp] theorem State.modEnt_actor (s : State) (a : Actor) (h : Entity → Entity) : (s.modEnt a h).actor = s.actor := rfl
@[simp] theorem State.modEnt_nextId (s : State) (a : Actor) (h : Entity → Entity) : (s.modEnt a h).nextId = s.nextId := rfl
@[simp] theorem State.modEnt_mem (s : State) (a : Actor) (h : Entity → Entity) : (s.modEnt a h).mem = s.mem := rfl
@[simp] theorem State.modEnt_pages (s : State) (a : Actor) (h : Entity → Entity) : (s.modEnt a h).pages = s.pages := rfl
@[simp] theorem State.modEnt_gstamps (s : State) (a : Actor) (h : Entity → Entity) : (s.modEnt a h).gstamps = s.gstamps := rfl
@[simp] theorem State.modEnt_glinks (s : State) (a : Actor) (h : Entity → Entity) : (s.modEnt a h).glinks = s.glinks := rfl
@[simp] theorem State.modEnt_flips (s : State) (a : Actor) (h : Entity → Entity) : (s.modEnt a h).flips = s.flips := rfl
@[simp] theorem State.modEnt_dirty (s : State) (a : Actor) (h : Entity → Entity) : (s.modEnt a h).dirty = s.dirty := rfl
@[simp] theorem State.modEnt_counts (s : State) (a : Actor) (h : Entity → Entity) : (s.modEnt a h).counts = s.counts := rfl
@[simp] theorem State.modEnt_sweeps (s : State) (a : Actor) (h : Entity → Entity) : (s.modEnt a h).sweeps = s.sweeps := rfl
@[simp] theorem State.modEnt_sweptAt (s : State) (a : Actor) (h : Entity → Entity) : (s.modEnt a h).sweptAt = s.sweptAt := rfl
@[simp] theorem State.modEnt_contention (s : State) (a : Actor) (h : Entity → Entity) : (s.modEnt a h).contention = s.contention := rfl
@[simp] theorem State.modEnt_dups (s : State) (a : Actor) (h : Entity → Entity) : (s.modEnt a h).dups = s.dups := rfl
@[simp] theorem State.modEnt_l1 (s : State) (a : Actor) (h : Entity → Entity) : (s.modEnt a h).l1 = s.l1 := rfl
@[simp] theorem State.modEnt_tlb (s : State) (a : Actor) (h : Entity → Entity) : (s.modEnt a h).tlb = s.tlb := rfl
@[simp] theorem State.modEnt_reqs (s : State) (a : Actor) (h : Entity → Entity) : (s.modEnt a h).reqs = s.reqs := rfl
@[simp] theorem State.modEnt_hostLines (s : State) (a : Actor) (h : Entity → Entity) : (s.modEnt a h).hostLines = s.hostLines := rfl
@[simp] theorem State.modEnt_hostSeen (s : State) (a : Actor) (h : Entity → Entity) : (s.modEnt a h).hostSeen = s.hostSeen := rfl
@[simp] theorem State.modEnt_stackTable (s : State) (a : Actor) (h : Entity → Entity) : (s.modEnt a h).stackTable = s.stackTable := rfl
@[simp] theorem State.modEnt_holds (s : State) (a : Actor) (h : Entity → Entity) : (s.modEnt a h).holds = s.holds := rfl
@[simp] theorem State.modEnt_holdOrder (s : State) (a : Actor) (h : Entity → Entity) : (s.modEnt a h).holdOrder = s.holdOrder := rfl
@[simp] theorem State.modEnt_holdsEnded (s : State) (a : Actor) (h : Entity → Entity) : (s.modEnt a h).holdsEnded = s.holdsEnded := rfl
@[simp] theorem State.modEnt_round (s : State) (a : Actor) (h : Entity → Entity) : (s.modEnt a h).round = s.round := rfl
@[simp] theorem State.modEnt_placed (s : State) (a : Actor) (h : Entity → Entity) : (s.modEnt a h).placed = s.placed := rfl
@[simp] theorem State.modEnt_announced (s : State) (a : Actor) (h : Entity → Entity) : (s.modEnt a h).announced = s.announced := rfl
@[simp] theorem State.modEnt_unclosed (s : State) (a : Actor) (h : Entity → Entity) : (s.modEnt a h).unclosed = s.unclosed := rfl
@[simp] theorem State.modEnt_bcasts (s : State) (a : Actor) (h : Entity → Entity) : (s.modEnt a h).bcasts = s.bcasts := rfl
@[simp] theorem State.modEnt_slots (s : State) (a : Actor) (h : Entity → Entity) : (s.modEnt a h).slots = s.slots := rfl
@[simp] theorem State.modEnt_startCount (s : State) (a : Actor) (h : Entity → Entity) : (s.modEnt a h).startCount = s.startCount := rfl
@[simp] theorem State.modEnt_cmCount (s : State) (a : Actor) (h : Entity → Entity) : (s.modEnt a h).cmCount = s.cmCount := rfl
@[simp] theorem State.modEnt_xbegQueue (s : State) (a : Actor) (h : Entity → Entity) : (s.modEnt a h).xbegQueue = s.xbegQueue := rfl
@[simp] theorem State.modEnt_unitOrder (s : State) (a : Actor) (h : Entity → Entity) : (s.modEnt a h).unitOrder = s.unitOrder := rfl
@[simp] theorem State.modEnt_ctxs (s : State) (a : Actor) (h : Entity → Entity) : (s.modEnt a h).ctxs = s.ctxs := rfl
@[simp] theorem State.modEnt_launches (s : State) (a : Actor) (h : Entity → Entity) : (s.modEnt a h).launches = s.launches := rfl
@[simp] theorem State.modEnt_cores (s : State) (a : Actor) (h : Entity → Entity) : (s.modEnt a h).cores = s.cores := rfl
@[simp] theorem State.modEnt_cmds (s : State) (a : Actor) (h : Entity → Entity) : (s.modEnt a h).cmds = s.cmds := rfl
@[simp] theorem State.modEnt_tasks (s : State) (a : Actor) (h : Entity → Entity) : (s.modEnt a h).tasks = s.tasks := rfl
@[simp] theorem State.modEnt_chains (s : State) (a : Actor) (h : Entity → Entity) : (s.modEnt a h).chains = s.chains := rfl
@[simp] theorem State.modEnt_lastDie (s : State) (a : Actor) (h : Entity → Entity) : (s.modEnt a h).lastDie = s.lastDie := rfl
@[simp] theorem State.modEnt_batches (s : State) (a : Actor) (h : Entity → Entity) : (s.modEnt a h).batches = s.batches := rfl
@[simp] theorem State.modEnt_nextPnum (s : State) (a : Actor) (h : Entity → Entity) : (s.modEnt a h).nextPnum = s.nextPnum := rfl
@[simp] theorem State.modEnt_eligibleOrder (s : State) (a : Actor) (h : Entity → Entity) : (s.modEnt a h).eligibleOrder = s.eligibleOrder := rfl
@[simp] theorem State.modEnt_mbx (s : State) (a : Actor) (h : Entity → Entity) : (s.modEnt a h).mbx = s.mbx := rfl
@[simp] theorem State.modEnt_hostMem (s : State) (a : Actor) (h : Entity → Entity) : (s.modEnt a h).hostMem = s.hostMem := rfl
@[simp] theorem State.modEnt_msix (s : State) (a : Actor) (h : Entity → Entity) : (s.modEnt a h).msix = s.msix := rfl
@[simp] theorem State.modEnt_power (s : State) (a : Actor) (h : Entity → Entity) : (s.modEnt a h).power = s.power := rfl
@[simp] theorem State.modEnt_boot (s : State) (a : Actor) (h : Entity → Entity) : (s.modEnt a h).boot = s.boot := rfl
@[simp] theorem State.modEnt_mbd (s : State) (a : Actor) (h : Entity → Entity) : (s.modEnt a h).mbd = s.mbd := rfl
@[simp] theorem State.modEnt_fabric (s : State) (a : Actor) (h : Entity → Entity) : (s.modEnt a h).fabric = s.fabric := rfl
@[simp] theorem State.modEnt_machine (s : State) (a : Actor) (h : Entity → Entity) : (s.modEnt a h).machine = s.machine := rfl
@[simp] theorem State.modEnt_resetting (s : State) (a : Actor) (h : Entity → Entity) : (s.modEnt a h).resetting = s.resetting := rfl
@[simp] theorem State.modEnt_warmResets (s : State) (a : Actor) (h : Entity → Entity) : (s.modEnt a h).warmResets = s.warmResets := rfl
@[simp] theorem State.modEnt_coldResets (s : State) (a : Actor) (h : Entity → Entity) : (s.modEnt a h).coldResets = s.coldResets := rfl
@[simp] theorem State.modEnt_link (s : State) (a : Actor) (h : Entity → Entity) : (s.modEnt a h).link = s.link := rfl
@[simp] theorem State.modOp_agenda (s : State) (g w o : Nat) (h : LongOp → LongOp) : (s.modOp g w o h).agenda = s.agenda := rfl
@[simp] theorem State.modOp_tick (s : State) (g w o : Nat) (h : LongOp → LongOp) : (s.modOp g w o h).tick = s.tick := rfl
@[simp] theorem State.modOp_actor (s : State) (g w o : Nat) (h : LongOp → LongOp) : (s.modOp g w o h).actor = s.actor := rfl
@[simp] theorem State.modOp_nextId (s : State) (g w o : Nat) (h : LongOp → LongOp) : (s.modOp g w o h).nextId = s.nextId := rfl
@[simp] theorem State.modOp_mem (s : State) (g w o : Nat) (h : LongOp → LongOp) : (s.modOp g w o h).mem = s.mem := rfl
@[simp] theorem State.modOp_pages (s : State) (g w o : Nat) (h : LongOp → LongOp) : (s.modOp g w o h).pages = s.pages := rfl
@[simp] theorem State.modOp_gstamps (s : State) (g w o : Nat) (h : LongOp → LongOp) : (s.modOp g w o h).gstamps = s.gstamps := rfl
@[simp] theorem State.modOp_glinks (s : State) (g w o : Nat) (h : LongOp → LongOp) : (s.modOp g w o h).glinks = s.glinks := rfl
@[simp] theorem State.modOp_flips (s : State) (g w o : Nat) (h : LongOp → LongOp) : (s.modOp g w o h).flips = s.flips := rfl
@[simp] theorem State.modOp_dirty (s : State) (g w o : Nat) (h : LongOp → LongOp) : (s.modOp g w o h).dirty = s.dirty := rfl
@[simp] theorem State.modOp_counts (s : State) (g w o : Nat) (h : LongOp → LongOp) : (s.modOp g w o h).counts = s.counts := rfl
@[simp] theorem State.modOp_sweeps (s : State) (g w o : Nat) (h : LongOp → LongOp) : (s.modOp g w o h).sweeps = s.sweeps := rfl
@[simp] theorem State.modOp_sweptAt (s : State) (g w o : Nat) (h : LongOp → LongOp) : (s.modOp g w o h).sweptAt = s.sweptAt := rfl
@[simp] theorem State.modOp_contention (s : State) (g w o : Nat) (h : LongOp → LongOp) : (s.modOp g w o h).contention = s.contention := rfl
@[simp] theorem State.modOp_dups (s : State) (g w o : Nat) (h : LongOp → LongOp) : (s.modOp g w o h).dups = s.dups := rfl
@[simp] theorem State.modOp_l1 (s : State) (g w o : Nat) (h : LongOp → LongOp) : (s.modOp g w o h).l1 = s.l1 := rfl
@[simp] theorem State.modOp_tlb (s : State) (g w o : Nat) (h : LongOp → LongOp) : (s.modOp g w o h).tlb = s.tlb := rfl
@[simp] theorem State.modOp_reqs (s : State) (g w o : Nat) (h : LongOp → LongOp) : (s.modOp g w o h).reqs = s.reqs := rfl
@[simp] theorem State.modOp_hostLines (s : State) (g w o : Nat) (h : LongOp → LongOp) : (s.modOp g w o h).hostLines = s.hostLines := rfl
@[simp] theorem State.modOp_hostSeen (s : State) (g w o : Nat) (h : LongOp → LongOp) : (s.modOp g w o h).hostSeen = s.hostSeen := rfl
@[simp] theorem State.modOp_stackTable (s : State) (g w o : Nat) (h : LongOp → LongOp) : (s.modOp g w o h).stackTable = s.stackTable := rfl
@[simp] theorem State.modOp_holds (s : State) (g w o : Nat) (h : LongOp → LongOp) : (s.modOp g w o h).holds = s.holds := rfl
@[simp] theorem State.modOp_holdOrder (s : State) (g w o : Nat) (h : LongOp → LongOp) : (s.modOp g w o h).holdOrder = s.holdOrder := rfl
@[simp] theorem State.modOp_holdsEnded (s : State) (g w o : Nat) (h : LongOp → LongOp) : (s.modOp g w o h).holdsEnded = s.holdsEnded := rfl
@[simp] theorem State.modOp_round (s : State) (g w o : Nat) (h : LongOp → LongOp) : (s.modOp g w o h).round = s.round := rfl
@[simp] theorem State.modOp_placed (s : State) (g w o : Nat) (h : LongOp → LongOp) : (s.modOp g w o h).placed = s.placed := rfl
@[simp] theorem State.modOp_announced (s : State) (g w o : Nat) (h : LongOp → LongOp) : (s.modOp g w o h).announced = s.announced := rfl
@[simp] theorem State.modOp_unclosed (s : State) (g w o : Nat) (h : LongOp → LongOp) : (s.modOp g w o h).unclosed = s.unclosed := rfl
@[simp] theorem State.modOp_bcasts (s : State) (g w o : Nat) (h : LongOp → LongOp) : (s.modOp g w o h).bcasts = s.bcasts := rfl
@[simp] theorem State.modOp_slots (s : State) (g w o : Nat) (h : LongOp → LongOp) : (s.modOp g w o h).slots = s.slots := rfl
@[simp] theorem State.modOp_startCount (s : State) (g w o : Nat) (h : LongOp → LongOp) : (s.modOp g w o h).startCount = s.startCount := rfl
@[simp] theorem State.modOp_cmCount (s : State) (g w o : Nat) (h : LongOp → LongOp) : (s.modOp g w o h).cmCount = s.cmCount := rfl
@[simp] theorem State.modOp_xbegQueue (s : State) (g w o : Nat) (h : LongOp → LongOp) : (s.modOp g w o h).xbegQueue = s.xbegQueue := rfl
@[simp] theorem State.modOp_unitOrder (s : State) (g w o : Nat) (h : LongOp → LongOp) : (s.modOp g w o h).unitOrder = s.unitOrder := rfl
@[simp] theorem State.modOp_ctxs (s : State) (g w o : Nat) (h : LongOp → LongOp) : (s.modOp g w o h).ctxs = s.ctxs := rfl
@[simp] theorem State.modOp_launches (s : State) (g w o : Nat) (h : LongOp → LongOp) : (s.modOp g w o h).launches = s.launches := rfl
@[simp] theorem State.modOp_cores (s : State) (g w o : Nat) (h : LongOp → LongOp) : (s.modOp g w o h).cores = s.cores := rfl
@[simp] theorem State.modOp_cmds (s : State) (g w o : Nat) (h : LongOp → LongOp) : (s.modOp g w o h).cmds = s.cmds := rfl
@[simp] theorem State.modOp_tasks (s : State) (g w o : Nat) (h : LongOp → LongOp) : (s.modOp g w o h).tasks = s.tasks := rfl
@[simp] theorem State.modOp_chains (s : State) (g w o : Nat) (h : LongOp → LongOp) : (s.modOp g w o h).chains = s.chains := rfl
@[simp] theorem State.modOp_lastDie (s : State) (g w o : Nat) (h : LongOp → LongOp) : (s.modOp g w o h).lastDie = s.lastDie := rfl
@[simp] theorem State.modOp_batches (s : State) (g w o : Nat) (h : LongOp → LongOp) : (s.modOp g w o h).batches = s.batches := rfl
@[simp] theorem State.modOp_nextPnum (s : State) (g w o : Nat) (h : LongOp → LongOp) : (s.modOp g w o h).nextPnum = s.nextPnum := rfl
@[simp] theorem State.modOp_eligibleOrder (s : State) (g w o : Nat) (h : LongOp → LongOp) : (s.modOp g w o h).eligibleOrder = s.eligibleOrder := rfl
@[simp] theorem State.modOp_mbx (s : State) (g w o : Nat) (h : LongOp → LongOp) : (s.modOp g w o h).mbx = s.mbx := rfl
@[simp] theorem State.modOp_hostMem (s : State) (g w o : Nat) (h : LongOp → LongOp) : (s.modOp g w o h).hostMem = s.hostMem := rfl
@[simp] theorem State.modOp_msix (s : State) (g w o : Nat) (h : LongOp → LongOp) : (s.modOp g w o h).msix = s.msix := rfl
@[simp] theorem State.modOp_power (s : State) (g w o : Nat) (h : LongOp → LongOp) : (s.modOp g w o h).power = s.power := rfl
@[simp] theorem State.modOp_boot (s : State) (g w o : Nat) (h : LongOp → LongOp) : (s.modOp g w o h).boot = s.boot := rfl
@[simp] theorem State.modOp_mbd (s : State) (g w o : Nat) (h : LongOp → LongOp) : (s.modOp g w o h).mbd = s.mbd := rfl
@[simp] theorem State.modOp_fabric (s : State) (g w o : Nat) (h : LongOp → LongOp) : (s.modOp g w o h).fabric = s.fabric := rfl
@[simp] theorem State.modOp_machine (s : State) (g w o : Nat) (h : LongOp → LongOp) : (s.modOp g w o h).machine = s.machine := rfl
@[simp] theorem State.modOp_resetting (s : State) (g w o : Nat) (h : LongOp → LongOp) : (s.modOp g w o h).resetting = s.resetting := rfl
@[simp] theorem State.modOp_warmResets (s : State) (g w o : Nat) (h : LongOp → LongOp) : (s.modOp g w o h).warmResets = s.warmResets := rfl
@[simp] theorem State.modOp_coldResets (s : State) (g w o : Nat) (h : LongOp → LongOp) : (s.modOp g w o h).coldResets = s.coldResets := rfl
@[simp] theorem State.modOp_link (s : State) (g w o : Nat) (h : LongOp → LongOp) : (s.modOp g w o h).link = s.link := rfl
@[simp] theorem State.modStack_agenda (s : State) (k : Nat) (h : Stack → Stack) : (s.modStack k h).agenda = s.agenda := rfl
@[simp] theorem State.modStack_tick (s : State) (k : Nat) (h : Stack → Stack) : (s.modStack k h).tick = s.tick := rfl
@[simp] theorem State.modStack_actor (s : State) (k : Nat) (h : Stack → Stack) : (s.modStack k h).actor = s.actor := rfl
@[simp] theorem State.modStack_nextId (s : State) (k : Nat) (h : Stack → Stack) : (s.modStack k h).nextId = s.nextId := rfl
@[simp] theorem State.modStack_mem (s : State) (k : Nat) (h : Stack → Stack) : (s.modStack k h).mem = s.mem := rfl
@[simp] theorem State.modStack_pages (s : State) (k : Nat) (h : Stack → Stack) : (s.modStack k h).pages = s.pages := rfl
@[simp] theorem State.modStack_gstamps (s : State) (k : Nat) (h : Stack → Stack) : (s.modStack k h).gstamps = s.gstamps := rfl
@[simp] theorem State.modStack_glinks (s : State) (k : Nat) (h : Stack → Stack) : (s.modStack k h).glinks = s.glinks := rfl
@[simp] theorem State.modStack_flips (s : State) (k : Nat) (h : Stack → Stack) : (s.modStack k h).flips = s.flips := rfl
@[simp] theorem State.modStack_dirty (s : State) (k : Nat) (h : Stack → Stack) : (s.modStack k h).dirty = s.dirty := rfl
@[simp] theorem State.modStack_counts (s : State) (k : Nat) (h : Stack → Stack) : (s.modStack k h).counts = s.counts := rfl
@[simp] theorem State.modStack_sweeps (s : State) (k : Nat) (h : Stack → Stack) : (s.modStack k h).sweeps = s.sweeps := rfl
@[simp] theorem State.modStack_sweptAt (s : State) (k : Nat) (h : Stack → Stack) : (s.modStack k h).sweptAt = s.sweptAt := rfl
@[simp] theorem State.modStack_contention (s : State) (k : Nat) (h : Stack → Stack) : (s.modStack k h).contention = s.contention := rfl
@[simp] theorem State.modStack_dups (s : State) (k : Nat) (h : Stack → Stack) : (s.modStack k h).dups = s.dups := rfl
@[simp] theorem State.modStack_l1 (s : State) (k : Nat) (h : Stack → Stack) : (s.modStack k h).l1 = s.l1 := rfl
@[simp] theorem State.modStack_tlb (s : State) (k : Nat) (h : Stack → Stack) : (s.modStack k h).tlb = s.tlb := rfl
@[simp] theorem State.modStack_reqs (s : State) (k : Nat) (h : Stack → Stack) : (s.modStack k h).reqs = s.reqs := rfl
@[simp] theorem State.modStack_hostLines (s : State) (k : Nat) (h : Stack → Stack) : (s.modStack k h).hostLines = s.hostLines := rfl
@[simp] theorem State.modStack_hostSeen (s : State) (k : Nat) (h : Stack → Stack) : (s.modStack k h).hostSeen = s.hostSeen := rfl
@[simp] theorem State.modStack_holds (s : State) (k : Nat) (h : Stack → Stack) : (s.modStack k h).holds = s.holds := rfl
@[simp] theorem State.modStack_holdOrder (s : State) (k : Nat) (h : Stack → Stack) : (s.modStack k h).holdOrder = s.holdOrder := rfl
@[simp] theorem State.modStack_holdsEnded (s : State) (k : Nat) (h : Stack → Stack) : (s.modStack k h).holdsEnded = s.holdsEnded := rfl
@[simp] theorem State.modStack_round (s : State) (k : Nat) (h : Stack → Stack) : (s.modStack k h).round = s.round := rfl
@[simp] theorem State.modStack_placed (s : State) (k : Nat) (h : Stack → Stack) : (s.modStack k h).placed = s.placed := rfl
@[simp] theorem State.modStack_announced (s : State) (k : Nat) (h : Stack → Stack) : (s.modStack k h).announced = s.announced := rfl
@[simp] theorem State.modStack_unclosed (s : State) (k : Nat) (h : Stack → Stack) : (s.modStack k h).unclosed = s.unclosed := rfl
@[simp] theorem State.modStack_bcasts (s : State) (k : Nat) (h : Stack → Stack) : (s.modStack k h).bcasts = s.bcasts := rfl
@[simp] theorem State.modStack_slots (s : State) (k : Nat) (h : Stack → Stack) : (s.modStack k h).slots = s.slots := rfl
@[simp] theorem State.modStack_startCount (s : State) (k : Nat) (h : Stack → Stack) : (s.modStack k h).startCount = s.startCount := rfl
@[simp] theorem State.modStack_cmCount (s : State) (k : Nat) (h : Stack → Stack) : (s.modStack k h).cmCount = s.cmCount := rfl
@[simp] theorem State.modStack_xbegQueue (s : State) (k : Nat) (h : Stack → Stack) : (s.modStack k h).xbegQueue = s.xbegQueue := rfl
@[simp] theorem State.modStack_unitOrder (s : State) (k : Nat) (h : Stack → Stack) : (s.modStack k h).unitOrder = s.unitOrder := rfl
@[simp] theorem State.modStack_ctxs (s : State) (k : Nat) (h : Stack → Stack) : (s.modStack k h).ctxs = s.ctxs := rfl
@[simp] theorem State.modStack_launches (s : State) (k : Nat) (h : Stack → Stack) : (s.modStack k h).launches = s.launches := rfl
@[simp] theorem State.modStack_groups (s : State) (k : Nat) (h : Stack → Stack) : (s.modStack k h).groups = s.groups := rfl
@[simp] theorem State.modStack_cores (s : State) (k : Nat) (h : Stack → Stack) : (s.modStack k h).cores = s.cores := rfl
@[simp] theorem State.modStack_cmds (s : State) (k : Nat) (h : Stack → Stack) : (s.modStack k h).cmds = s.cmds := rfl
@[simp] theorem State.modStack_tasks (s : State) (k : Nat) (h : Stack → Stack) : (s.modStack k h).tasks = s.tasks := rfl
@[simp] theorem State.modStack_chains (s : State) (k : Nat) (h : Stack → Stack) : (s.modStack k h).chains = s.chains := rfl
@[simp] theorem State.modStack_lastDie (s : State) (k : Nat) (h : Stack → Stack) : (s.modStack k h).lastDie = s.lastDie := rfl
@[simp] theorem State.modStack_batches (s : State) (k : Nat) (h : Stack → Stack) : (s.modStack k h).batches = s.batches := rfl
@[simp] theorem State.modStack_nextPnum (s : State) (k : Nat) (h : Stack → Stack) : (s.modStack k h).nextPnum = s.nextPnum := rfl
@[simp] theorem State.modStack_eligibleOrder (s : State) (k : Nat) (h : Stack → Stack) : (s.modStack k h).eligibleOrder = s.eligibleOrder := rfl
@[simp] theorem State.modStack_mbx (s : State) (k : Nat) (h : Stack → Stack) : (s.modStack k h).mbx = s.mbx := rfl
@[simp] theorem State.modStack_hostMem (s : State) (k : Nat) (h : Stack → Stack) : (s.modStack k h).hostMem = s.hostMem := rfl
@[simp] theorem State.modStack_msix (s : State) (k : Nat) (h : Stack → Stack) : (s.modStack k h).msix = s.msix := rfl
@[simp] theorem State.modStack_power (s : State) (k : Nat) (h : Stack → Stack) : (s.modStack k h).power = s.power := rfl
@[simp] theorem State.modStack_boot (s : State) (k : Nat) (h : Stack → Stack) : (s.modStack k h).boot = s.boot := rfl
@[simp] theorem State.modStack_mbd (s : State) (k : Nat) (h : Stack → Stack) : (s.modStack k h).mbd = s.mbd := rfl
@[simp] theorem State.modStack_fabric (s : State) (k : Nat) (h : Stack → Stack) : (s.modStack k h).fabric = s.fabric := rfl
@[simp] theorem State.modStack_machine (s : State) (k : Nat) (h : Stack → Stack) : (s.modStack k h).machine = s.machine := rfl
@[simp] theorem State.modStack_resetting (s : State) (k : Nat) (h : Stack → Stack) : (s.modStack k h).resetting = s.resetting := rfl
@[simp] theorem State.modStack_warmResets (s : State) (k : Nat) (h : Stack → Stack) : (s.modStack k h).warmResets = s.warmResets := rfl
@[simp] theorem State.modStack_coldResets (s : State) (k : Nat) (h : Stack → Stack) : (s.modStack k h).coldResets = s.coldResets := rfl
@[simp] theorem State.modStack_link (s : State) (k : Nat) (h : Stack → Stack) : (s.modStack k h).link = s.link := rfl
@[simp] theorem State.modCore_agenda (s : State) (k : Nat) (h : Core → Core) : (s.modCore k h).agenda = s.agenda := rfl
@[simp] theorem State.modCore_tick (s : State) (k : Nat) (h : Core → Core) : (s.modCore k h).tick = s.tick := rfl
@[simp] theorem State.modCore_actor (s : State) (k : Nat) (h : Core → Core) : (s.modCore k h).actor = s.actor := rfl
@[simp] theorem State.modCore_nextId (s : State) (k : Nat) (h : Core → Core) : (s.modCore k h).nextId = s.nextId := rfl
@[simp] theorem State.modCore_mem (s : State) (k : Nat) (h : Core → Core) : (s.modCore k h).mem = s.mem := rfl
@[simp] theorem State.modCore_pages (s : State) (k : Nat) (h : Core → Core) : (s.modCore k h).pages = s.pages := rfl
@[simp] theorem State.modCore_gstamps (s : State) (k : Nat) (h : Core → Core) : (s.modCore k h).gstamps = s.gstamps := rfl
@[simp] theorem State.modCore_glinks (s : State) (k : Nat) (h : Core → Core) : (s.modCore k h).glinks = s.glinks := rfl
@[simp] theorem State.modCore_flips (s : State) (k : Nat) (h : Core → Core) : (s.modCore k h).flips = s.flips := rfl
@[simp] theorem State.modCore_dirty (s : State) (k : Nat) (h : Core → Core) : (s.modCore k h).dirty = s.dirty := rfl
@[simp] theorem State.modCore_counts (s : State) (k : Nat) (h : Core → Core) : (s.modCore k h).counts = s.counts := rfl
@[simp] theorem State.modCore_sweeps (s : State) (k : Nat) (h : Core → Core) : (s.modCore k h).sweeps = s.sweeps := rfl
@[simp] theorem State.modCore_sweptAt (s : State) (k : Nat) (h : Core → Core) : (s.modCore k h).sweptAt = s.sweptAt := rfl
@[simp] theorem State.modCore_contention (s : State) (k : Nat) (h : Core → Core) : (s.modCore k h).contention = s.contention := rfl
@[simp] theorem State.modCore_dups (s : State) (k : Nat) (h : Core → Core) : (s.modCore k h).dups = s.dups := rfl
@[simp] theorem State.modCore_l1 (s : State) (k : Nat) (h : Core → Core) : (s.modCore k h).l1 = s.l1 := rfl
@[simp] theorem State.modCore_tlb (s : State) (k : Nat) (h : Core → Core) : (s.modCore k h).tlb = s.tlb := rfl
@[simp] theorem State.modCore_reqs (s : State) (k : Nat) (h : Core → Core) : (s.modCore k h).reqs = s.reqs := rfl
@[simp] theorem State.modCore_hostLines (s : State) (k : Nat) (h : Core → Core) : (s.modCore k h).hostLines = s.hostLines := rfl
@[simp] theorem State.modCore_hostSeen (s : State) (k : Nat) (h : Core → Core) : (s.modCore k h).hostSeen = s.hostSeen := rfl
@[simp] theorem State.modCore_stackTable (s : State) (k : Nat) (h : Core → Core) : (s.modCore k h).stackTable = s.stackTable := rfl
@[simp] theorem State.modCore_holds (s : State) (k : Nat) (h : Core → Core) : (s.modCore k h).holds = s.holds := rfl
@[simp] theorem State.modCore_holdOrder (s : State) (k : Nat) (h : Core → Core) : (s.modCore k h).holdOrder = s.holdOrder := rfl
@[simp] theorem State.modCore_holdsEnded (s : State) (k : Nat) (h : Core → Core) : (s.modCore k h).holdsEnded = s.holdsEnded := rfl
@[simp] theorem State.modCore_round (s : State) (k : Nat) (h : Core → Core) : (s.modCore k h).round = s.round := rfl
@[simp] theorem State.modCore_placed (s : State) (k : Nat) (h : Core → Core) : (s.modCore k h).placed = s.placed := rfl
@[simp] theorem State.modCore_announced (s : State) (k : Nat) (h : Core → Core) : (s.modCore k h).announced = s.announced := rfl
@[simp] theorem State.modCore_unclosed (s : State) (k : Nat) (h : Core → Core) : (s.modCore k h).unclosed = s.unclosed := rfl
@[simp] theorem State.modCore_bcasts (s : State) (k : Nat) (h : Core → Core) : (s.modCore k h).bcasts = s.bcasts := rfl
@[simp] theorem State.modCore_slots (s : State) (k : Nat) (h : Core → Core) : (s.modCore k h).slots = s.slots := rfl
@[simp] theorem State.modCore_startCount (s : State) (k : Nat) (h : Core → Core) : (s.modCore k h).startCount = s.startCount := rfl
@[simp] theorem State.modCore_cmCount (s : State) (k : Nat) (h : Core → Core) : (s.modCore k h).cmCount = s.cmCount := rfl
@[simp] theorem State.modCore_xbegQueue (s : State) (k : Nat) (h : Core → Core) : (s.modCore k h).xbegQueue = s.xbegQueue := rfl
@[simp] theorem State.modCore_unitOrder (s : State) (k : Nat) (h : Core → Core) : (s.modCore k h).unitOrder = s.unitOrder := rfl
@[simp] theorem State.modCore_ctxs (s : State) (k : Nat) (h : Core → Core) : (s.modCore k h).ctxs = s.ctxs := rfl
@[simp] theorem State.modCore_launches (s : State) (k : Nat) (h : Core → Core) : (s.modCore k h).launches = s.launches := rfl
@[simp] theorem State.modCore_groups (s : State) (k : Nat) (h : Core → Core) : (s.modCore k h).groups = s.groups := rfl
@[simp] theorem State.modCore_cmds (s : State) (k : Nat) (h : Core → Core) : (s.modCore k h).cmds = s.cmds := rfl
@[simp] theorem State.modCore_tasks (s : State) (k : Nat) (h : Core → Core) : (s.modCore k h).tasks = s.tasks := rfl
@[simp] theorem State.modCore_chains (s : State) (k : Nat) (h : Core → Core) : (s.modCore k h).chains = s.chains := rfl
@[simp] theorem State.modCore_lastDie (s : State) (k : Nat) (h : Core → Core) : (s.modCore k h).lastDie = s.lastDie := rfl
@[simp] theorem State.modCore_batches (s : State) (k : Nat) (h : Core → Core) : (s.modCore k h).batches = s.batches := rfl
@[simp] theorem State.modCore_nextPnum (s : State) (k : Nat) (h : Core → Core) : (s.modCore k h).nextPnum = s.nextPnum := rfl
@[simp] theorem State.modCore_eligibleOrder (s : State) (k : Nat) (h : Core → Core) : (s.modCore k h).eligibleOrder = s.eligibleOrder := rfl
@[simp] theorem State.modCore_mbx (s : State) (k : Nat) (h : Core → Core) : (s.modCore k h).mbx = s.mbx := rfl
@[simp] theorem State.modCore_hostMem (s : State) (k : Nat) (h : Core → Core) : (s.modCore k h).hostMem = s.hostMem := rfl
@[simp] theorem State.modCore_msix (s : State) (k : Nat) (h : Core → Core) : (s.modCore k h).msix = s.msix := rfl
@[simp] theorem State.modCore_power (s : State) (k : Nat) (h : Core → Core) : (s.modCore k h).power = s.power := rfl
@[simp] theorem State.modCore_boot (s : State) (k : Nat) (h : Core → Core) : (s.modCore k h).boot = s.boot := rfl
@[simp] theorem State.modCore_mbd (s : State) (k : Nat) (h : Core → Core) : (s.modCore k h).mbd = s.mbd := rfl
@[simp] theorem State.modCore_fabric (s : State) (k : Nat) (h : Core → Core) : (s.modCore k h).fabric = s.fabric := rfl
@[simp] theorem State.modCore_machine (s : State) (k : Nat) (h : Core → Core) : (s.modCore k h).machine = s.machine := rfl
@[simp] theorem State.modCore_resetting (s : State) (k : Nat) (h : Core → Core) : (s.modCore k h).resetting = s.resetting := rfl
@[simp] theorem State.modCore_warmResets (s : State) (k : Nat) (h : Core → Core) : (s.modCore k h).warmResets = s.warmResets := rfl
@[simp] theorem State.modCore_coldResets (s : State) (k : Nat) (h : Core → Core) : (s.modCore k h).coldResets = s.coldResets := rfl
@[simp] theorem State.modCore_link (s : State) (k : Nat) (h : Core → Core) : (s.modCore k h).link = s.link := rfl
@[simp] theorem State.setCount_agenda (s : State) (k : Nat) (c : BitVec 50) : (s.setCount k c).agenda = s.agenda := rfl
@[simp] theorem State.setCount_tick (s : State) (k : Nat) (c : BitVec 50) : (s.setCount k c).tick = s.tick := rfl
@[simp] theorem State.setCount_actor (s : State) (k : Nat) (c : BitVec 50) : (s.setCount k c).actor = s.actor := rfl
@[simp] theorem State.setCount_nextId (s : State) (k : Nat) (c : BitVec 50) : (s.setCount k c).nextId = s.nextId := rfl
@[simp] theorem State.setCount_mem (s : State) (k : Nat) (c : BitVec 50) : (s.setCount k c).mem = s.mem := rfl
@[simp] theorem State.setCount_pages (s : State) (k : Nat) (c : BitVec 50) : (s.setCount k c).pages = s.pages := rfl
@[simp] theorem State.setCount_gstamps (s : State) (k : Nat) (c : BitVec 50) : (s.setCount k c).gstamps = s.gstamps := rfl
@[simp] theorem State.setCount_glinks (s : State) (k : Nat) (c : BitVec 50) : (s.setCount k c).glinks = s.glinks := rfl
@[simp] theorem State.setCount_flips (s : State) (k : Nat) (c : BitVec 50) : (s.setCount k c).flips = s.flips := rfl
@[simp] theorem State.setCount_dirty (s : State) (k : Nat) (c : BitVec 50) : (s.setCount k c).dirty = s.dirty := rfl
@[simp] theorem State.setCount_sweeps (s : State) (k : Nat) (c : BitVec 50) : (s.setCount k c).sweeps = s.sweeps := rfl
@[simp] theorem State.setCount_sweptAt (s : State) (k : Nat) (c : BitVec 50) : (s.setCount k c).sweptAt = s.sweptAt := rfl
@[simp] theorem State.setCount_contention (s : State) (k : Nat) (c : BitVec 50) : (s.setCount k c).contention = s.contention := rfl
@[simp] theorem State.setCount_dups (s : State) (k : Nat) (c : BitVec 50) : (s.setCount k c).dups = s.dups := rfl
@[simp] theorem State.setCount_l1 (s : State) (k : Nat) (c : BitVec 50) : (s.setCount k c).l1 = s.l1 := rfl
@[simp] theorem State.setCount_tlb (s : State) (k : Nat) (c : BitVec 50) : (s.setCount k c).tlb = s.tlb := rfl
@[simp] theorem State.setCount_reqs (s : State) (k : Nat) (c : BitVec 50) : (s.setCount k c).reqs = s.reqs := rfl
@[simp] theorem State.setCount_hostLines (s : State) (k : Nat) (c : BitVec 50) : (s.setCount k c).hostLines = s.hostLines := rfl
@[simp] theorem State.setCount_hostSeen (s : State) (k : Nat) (c : BitVec 50) : (s.setCount k c).hostSeen = s.hostSeen := rfl
@[simp] theorem State.setCount_stackTable (s : State) (k : Nat) (c : BitVec 50) : (s.setCount k c).stackTable = s.stackTable := rfl
@[simp] theorem State.setCount_holds (s : State) (k : Nat) (c : BitVec 50) : (s.setCount k c).holds = s.holds := rfl
@[simp] theorem State.setCount_holdOrder (s : State) (k : Nat) (c : BitVec 50) : (s.setCount k c).holdOrder = s.holdOrder := rfl
@[simp] theorem State.setCount_holdsEnded (s : State) (k : Nat) (c : BitVec 50) : (s.setCount k c).holdsEnded = s.holdsEnded := rfl
@[simp] theorem State.setCount_round (s : State) (k : Nat) (c : BitVec 50) : (s.setCount k c).round = s.round := rfl
@[simp] theorem State.setCount_placed (s : State) (k : Nat) (c : BitVec 50) : (s.setCount k c).placed = s.placed := rfl
@[simp] theorem State.setCount_announced (s : State) (k : Nat) (c : BitVec 50) : (s.setCount k c).announced = s.announced := rfl
@[simp] theorem State.setCount_unclosed (s : State) (k : Nat) (c : BitVec 50) : (s.setCount k c).unclosed = s.unclosed := rfl
@[simp] theorem State.setCount_bcasts (s : State) (k : Nat) (c : BitVec 50) : (s.setCount k c).bcasts = s.bcasts := rfl
@[simp] theorem State.setCount_slots (s : State) (k : Nat) (c : BitVec 50) : (s.setCount k c).slots = s.slots := rfl
@[simp] theorem State.setCount_startCount (s : State) (k : Nat) (c : BitVec 50) : (s.setCount k c).startCount = s.startCount := rfl
@[simp] theorem State.setCount_cmCount (s : State) (k : Nat) (c : BitVec 50) : (s.setCount k c).cmCount = s.cmCount := rfl
@[simp] theorem State.setCount_xbegQueue (s : State) (k : Nat) (c : BitVec 50) : (s.setCount k c).xbegQueue = s.xbegQueue := rfl
@[simp] theorem State.setCount_unitOrder (s : State) (k : Nat) (c : BitVec 50) : (s.setCount k c).unitOrder = s.unitOrder := rfl
@[simp] theorem State.setCount_ctxs (s : State) (k : Nat) (c : BitVec 50) : (s.setCount k c).ctxs = s.ctxs := rfl
@[simp] theorem State.setCount_launches (s : State) (k : Nat) (c : BitVec 50) : (s.setCount k c).launches = s.launches := rfl
@[simp] theorem State.setCount_groups (s : State) (k : Nat) (c : BitVec 50) : (s.setCount k c).groups = s.groups := rfl
@[simp] theorem State.setCount_cores (s : State) (k : Nat) (c : BitVec 50) : (s.setCount k c).cores = s.cores := rfl
@[simp] theorem State.setCount_cmds (s : State) (k : Nat) (c : BitVec 50) : (s.setCount k c).cmds = s.cmds := rfl
@[simp] theorem State.setCount_tasks (s : State) (k : Nat) (c : BitVec 50) : (s.setCount k c).tasks = s.tasks := rfl
@[simp] theorem State.setCount_chains (s : State) (k : Nat) (c : BitVec 50) : (s.setCount k c).chains = s.chains := rfl
@[simp] theorem State.setCount_lastDie (s : State) (k : Nat) (c : BitVec 50) : (s.setCount k c).lastDie = s.lastDie := rfl
@[simp] theorem State.setCount_batches (s : State) (k : Nat) (c : BitVec 50) : (s.setCount k c).batches = s.batches := rfl
@[simp] theorem State.setCount_nextPnum (s : State) (k : Nat) (c : BitVec 50) : (s.setCount k c).nextPnum = s.nextPnum := rfl
@[simp] theorem State.setCount_eligibleOrder (s : State) (k : Nat) (c : BitVec 50) : (s.setCount k c).eligibleOrder = s.eligibleOrder := rfl
@[simp] theorem State.setCount_mbx (s : State) (k : Nat) (c : BitVec 50) : (s.setCount k c).mbx = s.mbx := rfl
@[simp] theorem State.setCount_hostMem (s : State) (k : Nat) (c : BitVec 50) : (s.setCount k c).hostMem = s.hostMem := rfl
@[simp] theorem State.setCount_msix (s : State) (k : Nat) (c : BitVec 50) : (s.setCount k c).msix = s.msix := rfl
@[simp] theorem State.setCount_power (s : State) (k : Nat) (c : BitVec 50) : (s.setCount k c).power = s.power := rfl
@[simp] theorem State.setCount_boot (s : State) (k : Nat) (c : BitVec 50) : (s.setCount k c).boot = s.boot := rfl
@[simp] theorem State.setCount_mbd (s : State) (k : Nat) (c : BitVec 50) : (s.setCount k c).mbd = s.mbd := rfl
@[simp] theorem State.setCount_fabric (s : State) (k : Nat) (c : BitVec 50) : (s.setCount k c).fabric = s.fabric := rfl
@[simp] theorem State.setCount_machine (s : State) (k : Nat) (c : BitVec 50) : (s.setCount k c).machine = s.machine := rfl
@[simp] theorem State.setCount_resetting (s : State) (k : Nat) (c : BitVec 50) : (s.setCount k c).resetting = s.resetting := rfl
@[simp] theorem State.setCount_warmResets (s : State) (k : Nat) (c : BitVec 50) : (s.setCount k c).warmResets = s.warmResets := rfl
@[simp] theorem State.setCount_coldResets (s : State) (k : Nat) (c : BitVec 50) : (s.setCount k c).coldResets = s.coldResets := rfl
@[simp] theorem State.setCount_link (s : State) (k : Nat) (c : BitVec 50) : (s.setCount k c).link = s.link := rfl
@[simp] theorem State.setPage_agenda (s : State) (k : Nat) (p : Page) : (s.setPage k p).agenda = s.agenda := rfl
@[simp] theorem State.setPage_tick (s : State) (k : Nat) (p : Page) : (s.setPage k p).tick = s.tick := rfl
@[simp] theorem State.setPage_actor (s : State) (k : Nat) (p : Page) : (s.setPage k p).actor = s.actor := rfl
@[simp] theorem State.setPage_nextId (s : State) (k : Nat) (p : Page) : (s.setPage k p).nextId = s.nextId := rfl
@[simp] theorem State.setPage_mem (s : State) (k : Nat) (p : Page) : (s.setPage k p).mem = s.mem := rfl
@[simp] theorem State.setPage_gstamps (s : State) (k : Nat) (p : Page) : (s.setPage k p).gstamps = s.gstamps := rfl
@[simp] theorem State.setPage_glinks (s : State) (k : Nat) (p : Page) : (s.setPage k p).glinks = s.glinks := rfl
@[simp] theorem State.setPage_flips (s : State) (k : Nat) (p : Page) : (s.setPage k p).flips = s.flips := rfl
@[simp] theorem State.setPage_dirty (s : State) (k : Nat) (p : Page) : (s.setPage k p).dirty = s.dirty := rfl
@[simp] theorem State.setPage_counts (s : State) (k : Nat) (p : Page) : (s.setPage k p).counts = s.counts := rfl
@[simp] theorem State.setPage_sweeps (s : State) (k : Nat) (p : Page) : (s.setPage k p).sweeps = s.sweeps := rfl
@[simp] theorem State.setPage_sweptAt (s : State) (k : Nat) (p : Page) : (s.setPage k p).sweptAt = s.sweptAt := rfl
@[simp] theorem State.setPage_contention (s : State) (k : Nat) (p : Page) : (s.setPage k p).contention = s.contention := rfl
@[simp] theorem State.setPage_dups (s : State) (k : Nat) (p : Page) : (s.setPage k p).dups = s.dups := rfl
@[simp] theorem State.setPage_l1 (s : State) (k : Nat) (p : Page) : (s.setPage k p).l1 = s.l1 := rfl
@[simp] theorem State.setPage_tlb (s : State) (k : Nat) (p : Page) : (s.setPage k p).tlb = s.tlb := rfl
@[simp] theorem State.setPage_reqs (s : State) (k : Nat) (p : Page) : (s.setPage k p).reqs = s.reqs := rfl
@[simp] theorem State.setPage_hostLines (s : State) (k : Nat) (p : Page) : (s.setPage k p).hostLines = s.hostLines := rfl
@[simp] theorem State.setPage_hostSeen (s : State) (k : Nat) (p : Page) : (s.setPage k p).hostSeen = s.hostSeen := rfl
@[simp] theorem State.setPage_stackTable (s : State) (k : Nat) (p : Page) : (s.setPage k p).stackTable = s.stackTable := rfl
@[simp] theorem State.setPage_holds (s : State) (k : Nat) (p : Page) : (s.setPage k p).holds = s.holds := rfl
@[simp] theorem State.setPage_holdOrder (s : State) (k : Nat) (p : Page) : (s.setPage k p).holdOrder = s.holdOrder := rfl
@[simp] theorem State.setPage_holdsEnded (s : State) (k : Nat) (p : Page) : (s.setPage k p).holdsEnded = s.holdsEnded := rfl
@[simp] theorem State.setPage_round (s : State) (k : Nat) (p : Page) : (s.setPage k p).round = s.round := rfl
@[simp] theorem State.setPage_placed (s : State) (k : Nat) (p : Page) : (s.setPage k p).placed = s.placed := rfl
@[simp] theorem State.setPage_announced (s : State) (k : Nat) (p : Page) : (s.setPage k p).announced = s.announced := rfl
@[simp] theorem State.setPage_unclosed (s : State) (k : Nat) (p : Page) : (s.setPage k p).unclosed = s.unclosed := rfl
@[simp] theorem State.setPage_bcasts (s : State) (k : Nat) (p : Page) : (s.setPage k p).bcasts = s.bcasts := rfl
@[simp] theorem State.setPage_slots (s : State) (k : Nat) (p : Page) : (s.setPage k p).slots = s.slots := rfl
@[simp] theorem State.setPage_startCount (s : State) (k : Nat) (p : Page) : (s.setPage k p).startCount = s.startCount := rfl
@[simp] theorem State.setPage_cmCount (s : State) (k : Nat) (p : Page) : (s.setPage k p).cmCount = s.cmCount := rfl
@[simp] theorem State.setPage_xbegQueue (s : State) (k : Nat) (p : Page) : (s.setPage k p).xbegQueue = s.xbegQueue := rfl
@[simp] theorem State.setPage_unitOrder (s : State) (k : Nat) (p : Page) : (s.setPage k p).unitOrder = s.unitOrder := rfl
@[simp] theorem State.setPage_ctxs (s : State) (k : Nat) (p : Page) : (s.setPage k p).ctxs = s.ctxs := rfl
@[simp] theorem State.setPage_launches (s : State) (k : Nat) (p : Page) : (s.setPage k p).launches = s.launches := rfl
@[simp] theorem State.setPage_groups (s : State) (k : Nat) (p : Page) : (s.setPage k p).groups = s.groups := rfl
@[simp] theorem State.setPage_cores (s : State) (k : Nat) (p : Page) : (s.setPage k p).cores = s.cores := rfl
@[simp] theorem State.setPage_cmds (s : State) (k : Nat) (p : Page) : (s.setPage k p).cmds = s.cmds := rfl
@[simp] theorem State.setPage_tasks (s : State) (k : Nat) (p : Page) : (s.setPage k p).tasks = s.tasks := rfl
@[simp] theorem State.setPage_chains (s : State) (k : Nat) (p : Page) : (s.setPage k p).chains = s.chains := rfl
@[simp] theorem State.setPage_lastDie (s : State) (k : Nat) (p : Page) : (s.setPage k p).lastDie = s.lastDie := rfl
@[simp] theorem State.setPage_batches (s : State) (k : Nat) (p : Page) : (s.setPage k p).batches = s.batches := rfl
@[simp] theorem State.setPage_nextPnum (s : State) (k : Nat) (p : Page) : (s.setPage k p).nextPnum = s.nextPnum := rfl
@[simp] theorem State.setPage_eligibleOrder (s : State) (k : Nat) (p : Page) : (s.setPage k p).eligibleOrder = s.eligibleOrder := rfl
@[simp] theorem State.setPage_mbx (s : State) (k : Nat) (p : Page) : (s.setPage k p).mbx = s.mbx := rfl
@[simp] theorem State.setPage_hostMem (s : State) (k : Nat) (p : Page) : (s.setPage k p).hostMem = s.hostMem := rfl
@[simp] theorem State.setPage_msix (s : State) (k : Nat) (p : Page) : (s.setPage k p).msix = s.msix := rfl
@[simp] theorem State.setPage_power (s : State) (k : Nat) (p : Page) : (s.setPage k p).power = s.power := rfl
@[simp] theorem State.setPage_boot (s : State) (k : Nat) (p : Page) : (s.setPage k p).boot = s.boot := rfl
@[simp] theorem State.setPage_mbd (s : State) (k : Nat) (p : Page) : (s.setPage k p).mbd = s.mbd := rfl
@[simp] theorem State.setPage_fabric (s : State) (k : Nat) (p : Page) : (s.setPage k p).fabric = s.fabric := rfl
@[simp] theorem State.setPage_machine (s : State) (k : Nat) (p : Page) : (s.setPage k p).machine = s.machine := rfl
@[simp] theorem State.setPage_resetting (s : State) (k : Nat) (p : Page) : (s.setPage k p).resetting = s.resetting := rfl
@[simp] theorem State.setPage_warmResets (s : State) (k : Nat) (p : Page) : (s.setPage k p).warmResets = s.warmResets := rfl
@[simp] theorem State.setPage_coldResets (s : State) (k : Nat) (p : Page) : (s.setPage k p).coldResets = s.coldResets := rfl
@[simp] theorem State.setPage_link (s : State) (k : Nat) (p : Page) : (s.setPage k p).link = s.link := rfl
@[simp] theorem State.addReq_agenda (s : State) (r : Req) : (s.addReq r).agenda = s.agenda := rfl
@[simp] theorem State.addReq_tick (s : State) (r : Req) : (s.addReq r).tick = s.tick := rfl
@[simp] theorem State.addReq_actor (s : State) (r : Req) : (s.addReq r).actor = s.actor := rfl
@[simp] theorem State.addReq_mem (s : State) (r : Req) : (s.addReq r).mem = s.mem := rfl
@[simp] theorem State.addReq_pages (s : State) (r : Req) : (s.addReq r).pages = s.pages := rfl
@[simp] theorem State.addReq_gstamps (s : State) (r : Req) : (s.addReq r).gstamps = s.gstamps := rfl
@[simp] theorem State.addReq_glinks (s : State) (r : Req) : (s.addReq r).glinks = s.glinks := rfl
@[simp] theorem State.addReq_flips (s : State) (r : Req) : (s.addReq r).flips = s.flips := rfl
@[simp] theorem State.addReq_dirty (s : State) (r : Req) : (s.addReq r).dirty = s.dirty := rfl
@[simp] theorem State.addReq_counts (s : State) (r : Req) : (s.addReq r).counts = s.counts := rfl
@[simp] theorem State.addReq_sweeps (s : State) (r : Req) : (s.addReq r).sweeps = s.sweeps := rfl
@[simp] theorem State.addReq_sweptAt (s : State) (r : Req) : (s.addReq r).sweptAt = s.sweptAt := rfl
@[simp] theorem State.addReq_contention (s : State) (r : Req) : (s.addReq r).contention = s.contention := rfl
@[simp] theorem State.addReq_dups (s : State) (r : Req) : (s.addReq r).dups = s.dups := rfl
@[simp] theorem State.addReq_l1 (s : State) (r : Req) : (s.addReq r).l1 = s.l1 := rfl
@[simp] theorem State.addReq_tlb (s : State) (r : Req) : (s.addReq r).tlb = s.tlb := rfl
@[simp] theorem State.addReq_hostLines (s : State) (r : Req) : (s.addReq r).hostLines = s.hostLines := rfl
@[simp] theorem State.addReq_hostSeen (s : State) (r : Req) : (s.addReq r).hostSeen = s.hostSeen := rfl
@[simp] theorem State.addReq_stackTable (s : State) (r : Req) : (s.addReq r).stackTable = s.stackTable := rfl
@[simp] theorem State.addReq_holds (s : State) (r : Req) : (s.addReq r).holds = s.holds := rfl
@[simp] theorem State.addReq_holdOrder (s : State) (r : Req) : (s.addReq r).holdOrder = s.holdOrder := rfl
@[simp] theorem State.addReq_holdsEnded (s : State) (r : Req) : (s.addReq r).holdsEnded = s.holdsEnded := rfl
@[simp] theorem State.addReq_round (s : State) (r : Req) : (s.addReq r).round = s.round := rfl
@[simp] theorem State.addReq_placed (s : State) (r : Req) : (s.addReq r).placed = s.placed := rfl
@[simp] theorem State.addReq_announced (s : State) (r : Req) : (s.addReq r).announced = s.announced := rfl
@[simp] theorem State.addReq_unclosed (s : State) (r : Req) : (s.addReq r).unclosed = s.unclosed := rfl
@[simp] theorem State.addReq_bcasts (s : State) (r : Req) : (s.addReq r).bcasts = s.bcasts := rfl
@[simp] theorem State.addReq_slots (s : State) (r : Req) : (s.addReq r).slots = s.slots := rfl
@[simp] theorem State.addReq_startCount (s : State) (r : Req) : (s.addReq r).startCount = s.startCount := rfl
@[simp] theorem State.addReq_cmCount (s : State) (r : Req) : (s.addReq r).cmCount = s.cmCount := rfl
@[simp] theorem State.addReq_xbegQueue (s : State) (r : Req) : (s.addReq r).xbegQueue = s.xbegQueue := rfl
@[simp] theorem State.addReq_unitOrder (s : State) (r : Req) : (s.addReq r).unitOrder = s.unitOrder := rfl
@[simp] theorem State.addReq_ctxs (s : State) (r : Req) : (s.addReq r).ctxs = s.ctxs := rfl
@[simp] theorem State.addReq_launches (s : State) (r : Req) : (s.addReq r).launches = s.launches := rfl
@[simp] theorem State.addReq_groups (s : State) (r : Req) : (s.addReq r).groups = s.groups := rfl
@[simp] theorem State.addReq_cores (s : State) (r : Req) : (s.addReq r).cores = s.cores := rfl
@[simp] theorem State.addReq_cmds (s : State) (r : Req) : (s.addReq r).cmds = s.cmds := rfl
@[simp] theorem State.addReq_tasks (s : State) (r : Req) : (s.addReq r).tasks = s.tasks := rfl
@[simp] theorem State.addReq_chains (s : State) (r : Req) : (s.addReq r).chains = s.chains := rfl
@[simp] theorem State.addReq_lastDie (s : State) (r : Req) : (s.addReq r).lastDie = s.lastDie := rfl
@[simp] theorem State.addReq_batches (s : State) (r : Req) : (s.addReq r).batches = s.batches := rfl
@[simp] theorem State.addReq_nextPnum (s : State) (r : Req) : (s.addReq r).nextPnum = s.nextPnum := rfl
@[simp] theorem State.addReq_eligibleOrder (s : State) (r : Req) : (s.addReq r).eligibleOrder = s.eligibleOrder := rfl
@[simp] theorem State.addReq_mbx (s : State) (r : Req) : (s.addReq r).mbx = s.mbx := rfl
@[simp] theorem State.addReq_hostMem (s : State) (r : Req) : (s.addReq r).hostMem = s.hostMem := rfl
@[simp] theorem State.addReq_msix (s : State) (r : Req) : (s.addReq r).msix = s.msix := rfl
@[simp] theorem State.addReq_power (s : State) (r : Req) : (s.addReq r).power = s.power := rfl
@[simp] theorem State.addReq_boot (s : State) (r : Req) : (s.addReq r).boot = s.boot := rfl
@[simp] theorem State.addReq_mbd (s : State) (r : Req) : (s.addReq r).mbd = s.mbd := rfl
@[simp] theorem State.addReq_fabric (s : State) (r : Req) : (s.addReq r).fabric = s.fabric := rfl
@[simp] theorem State.addReq_machine (s : State) (r : Req) : (s.addReq r).machine = s.machine := rfl
@[simp] theorem State.addReq_resetting (s : State) (r : Req) : (s.addReq r).resetting = s.resetting := rfl
@[simp] theorem State.addReq_warmResets (s : State) (r : Req) : (s.addReq r).warmResets = s.warmResets := rfl
@[simp] theorem State.addReq_coldResets (s : State) (r : Req) : (s.addReq r).coldResets = s.coldResets := rfl
@[simp] theorem State.addReq_link (s : State) (r : Req) : (s.addReq r).link = s.link := rfl
@[simp] theorem State.dropL1_agenda (s : State) (k : Nat) : (s.dropL1 k).agenda = s.agenda := rfl
@[simp] theorem State.dropL1_tick (s : State) (k : Nat) : (s.dropL1 k).tick = s.tick := rfl
@[simp] theorem State.dropL1_actor (s : State) (k : Nat) : (s.dropL1 k).actor = s.actor := rfl
@[simp] theorem State.dropL1_nextId (s : State) (k : Nat) : (s.dropL1 k).nextId = s.nextId := rfl
@[simp] theorem State.dropL1_mem (s : State) (k : Nat) : (s.dropL1 k).mem = s.mem := rfl
@[simp] theorem State.dropL1_pages (s : State) (k : Nat) : (s.dropL1 k).pages = s.pages := rfl
@[simp] theorem State.dropL1_gstamps (s : State) (k : Nat) : (s.dropL1 k).gstamps = s.gstamps := rfl
@[simp] theorem State.dropL1_glinks (s : State) (k : Nat) : (s.dropL1 k).glinks = s.glinks := rfl
@[simp] theorem State.dropL1_flips (s : State) (k : Nat) : (s.dropL1 k).flips = s.flips := rfl
@[simp] theorem State.dropL1_dirty (s : State) (k : Nat) : (s.dropL1 k).dirty = s.dirty := rfl
@[simp] theorem State.dropL1_counts (s : State) (k : Nat) : (s.dropL1 k).counts = s.counts := rfl
@[simp] theorem State.dropL1_sweeps (s : State) (k : Nat) : (s.dropL1 k).sweeps = s.sweeps := rfl
@[simp] theorem State.dropL1_sweptAt (s : State) (k : Nat) : (s.dropL1 k).sweptAt = s.sweptAt := rfl
@[simp] theorem State.dropL1_contention (s : State) (k : Nat) : (s.dropL1 k).contention = s.contention := rfl
@[simp] theorem State.dropL1_dups (s : State) (k : Nat) : (s.dropL1 k).dups = s.dups := rfl
@[simp] theorem State.dropL1_tlb (s : State) (k : Nat) : (s.dropL1 k).tlb = s.tlb := rfl
@[simp] theorem State.dropL1_reqs (s : State) (k : Nat) : (s.dropL1 k).reqs = s.reqs := rfl
@[simp] theorem State.dropL1_hostLines (s : State) (k : Nat) : (s.dropL1 k).hostLines = s.hostLines := rfl
@[simp] theorem State.dropL1_hostSeen (s : State) (k : Nat) : (s.dropL1 k).hostSeen = s.hostSeen := rfl
@[simp] theorem State.dropL1_stackTable (s : State) (k : Nat) : (s.dropL1 k).stackTable = s.stackTable := rfl
@[simp] theorem State.dropL1_holds (s : State) (k : Nat) : (s.dropL1 k).holds = s.holds := rfl
@[simp] theorem State.dropL1_holdOrder (s : State) (k : Nat) : (s.dropL1 k).holdOrder = s.holdOrder := rfl
@[simp] theorem State.dropL1_holdsEnded (s : State) (k : Nat) : (s.dropL1 k).holdsEnded = s.holdsEnded := rfl
@[simp] theorem State.dropL1_round (s : State) (k : Nat) : (s.dropL1 k).round = s.round := rfl
@[simp] theorem State.dropL1_placed (s : State) (k : Nat) : (s.dropL1 k).placed = s.placed := rfl
@[simp] theorem State.dropL1_announced (s : State) (k : Nat) : (s.dropL1 k).announced = s.announced := rfl
@[simp] theorem State.dropL1_unclosed (s : State) (k : Nat) : (s.dropL1 k).unclosed = s.unclosed := rfl
@[simp] theorem State.dropL1_bcasts (s : State) (k : Nat) : (s.dropL1 k).bcasts = s.bcasts := rfl
@[simp] theorem State.dropL1_slots (s : State) (k : Nat) : (s.dropL1 k).slots = s.slots := rfl
@[simp] theorem State.dropL1_startCount (s : State) (k : Nat) : (s.dropL1 k).startCount = s.startCount := rfl
@[simp] theorem State.dropL1_cmCount (s : State) (k : Nat) : (s.dropL1 k).cmCount = s.cmCount := rfl
@[simp] theorem State.dropL1_xbegQueue (s : State) (k : Nat) : (s.dropL1 k).xbegQueue = s.xbegQueue := rfl
@[simp] theorem State.dropL1_unitOrder (s : State) (k : Nat) : (s.dropL1 k).unitOrder = s.unitOrder := rfl
@[simp] theorem State.dropL1_ctxs (s : State) (k : Nat) : (s.dropL1 k).ctxs = s.ctxs := rfl
@[simp] theorem State.dropL1_launches (s : State) (k : Nat) : (s.dropL1 k).launches = s.launches := rfl
@[simp] theorem State.dropL1_groups (s : State) (k : Nat) : (s.dropL1 k).groups = s.groups := rfl
@[simp] theorem State.dropL1_cores (s : State) (k : Nat) : (s.dropL1 k).cores = s.cores := rfl
@[simp] theorem State.dropL1_cmds (s : State) (k : Nat) : (s.dropL1 k).cmds = s.cmds := rfl
@[simp] theorem State.dropL1_tasks (s : State) (k : Nat) : (s.dropL1 k).tasks = s.tasks := rfl
@[simp] theorem State.dropL1_chains (s : State) (k : Nat) : (s.dropL1 k).chains = s.chains := rfl
@[simp] theorem State.dropL1_lastDie (s : State) (k : Nat) : (s.dropL1 k).lastDie = s.lastDie := rfl
@[simp] theorem State.dropL1_batches (s : State) (k : Nat) : (s.dropL1 k).batches = s.batches := rfl
@[simp] theorem State.dropL1_nextPnum (s : State) (k : Nat) : (s.dropL1 k).nextPnum = s.nextPnum := rfl
@[simp] theorem State.dropL1_eligibleOrder (s : State) (k : Nat) : (s.dropL1 k).eligibleOrder = s.eligibleOrder := rfl
@[simp] theorem State.dropL1_mbx (s : State) (k : Nat) : (s.dropL1 k).mbx = s.mbx := rfl
@[simp] theorem State.dropL1_hostMem (s : State) (k : Nat) : (s.dropL1 k).hostMem = s.hostMem := rfl
@[simp] theorem State.dropL1_msix (s : State) (k : Nat) : (s.dropL1 k).msix = s.msix := rfl
@[simp] theorem State.dropL1_power (s : State) (k : Nat) : (s.dropL1 k).power = s.power := rfl
@[simp] theorem State.dropL1_boot (s : State) (k : Nat) : (s.dropL1 k).boot = s.boot := rfl
@[simp] theorem State.dropL1_mbd (s : State) (k : Nat) : (s.dropL1 k).mbd = s.mbd := rfl
@[simp] theorem State.dropL1_fabric (s : State) (k : Nat) : (s.dropL1 k).fabric = s.fabric := rfl
@[simp] theorem State.dropL1_machine (s : State) (k : Nat) : (s.dropL1 k).machine = s.machine := rfl
@[simp] theorem State.dropL1_resetting (s : State) (k : Nat) : (s.dropL1 k).resetting = s.resetting := rfl
@[simp] theorem State.dropL1_warmResets (s : State) (k : Nat) : (s.dropL1 k).warmResets = s.warmResets := rfl
@[simp] theorem State.dropL1_coldResets (s : State) (k : Nat) : (s.dropL1 k).coldResets = s.coldResets := rfl
@[simp] theorem State.dropL1_link (s : State) (k : Nat) : (s.dropL1 k).link = s.link := rfl
@[simp] theorem State.retire_agenda (s : State) (v : View) (n : Nat) : (s.retire v n).agenda = s.agenda := rfl
@[simp] theorem State.retire_tick (s : State) (v : View) (n : Nat) : (s.retire v n).tick = s.tick := rfl
@[simp] theorem State.retire_actor (s : State) (v : View) (n : Nat) : (s.retire v n).actor = s.actor := rfl
@[simp] theorem State.retire_nextId (s : State) (v : View) (n : Nat) : (s.retire v n).nextId = s.nextId := rfl
@[simp] theorem State.retire_mem (s : State) (v : View) (n : Nat) : (s.retire v n).mem = s.mem := rfl
@[simp] theorem State.retire_pages (s : State) (v : View) (n : Nat) : (s.retire v n).pages = s.pages := rfl
@[simp] theorem State.retire_gstamps (s : State) (v : View) (n : Nat) : (s.retire v n).gstamps = s.gstamps := rfl
@[simp] theorem State.retire_glinks (s : State) (v : View) (n : Nat) : (s.retire v n).glinks = s.glinks := rfl
@[simp] theorem State.retire_flips (s : State) (v : View) (n : Nat) : (s.retire v n).flips = s.flips := rfl
@[simp] theorem State.retire_dirty (s : State) (v : View) (n : Nat) : (s.retire v n).dirty = s.dirty := rfl
@[simp] theorem State.retire_counts (s : State) (v : View) (n : Nat) : (s.retire v n).counts = s.counts := rfl
@[simp] theorem State.retire_sweeps (s : State) (v : View) (n : Nat) : (s.retire v n).sweeps = s.sweeps := rfl
@[simp] theorem State.retire_sweptAt (s : State) (v : View) (n : Nat) : (s.retire v n).sweptAt = s.sweptAt := rfl
@[simp] theorem State.retire_contention (s : State) (v : View) (n : Nat) : (s.retire v n).contention = s.contention := rfl
@[simp] theorem State.retire_dups (s : State) (v : View) (n : Nat) : (s.retire v n).dups = s.dups := rfl
@[simp] theorem State.retire_l1 (s : State) (v : View) (n : Nat) : (s.retire v n).l1 = s.l1 := rfl
@[simp] theorem State.retire_tlb (s : State) (v : View) (n : Nat) : (s.retire v n).tlb = s.tlb := rfl
@[simp] theorem State.retire_reqs (s : State) (v : View) (n : Nat) : (s.retire v n).reqs = s.reqs := rfl
@[simp] theorem State.retire_hostLines (s : State) (v : View) (n : Nat) : (s.retire v n).hostLines = s.hostLines := rfl
@[simp] theorem State.retire_hostSeen (s : State) (v : View) (n : Nat) : (s.retire v n).hostSeen = s.hostSeen := rfl
@[simp] theorem State.retire_stackTable (s : State) (v : View) (n : Nat) : (s.retire v n).stackTable = s.stackTable := rfl
@[simp] theorem State.retire_holds (s : State) (v : View) (n : Nat) : (s.retire v n).holds = s.holds := rfl
@[simp] theorem State.retire_holdOrder (s : State) (v : View) (n : Nat) : (s.retire v n).holdOrder = s.holdOrder := rfl
@[simp] theorem State.retire_holdsEnded (s : State) (v : View) (n : Nat) : (s.retire v n).holdsEnded = s.holdsEnded := rfl
@[simp] theorem State.retire_round (s : State) (v : View) (n : Nat) : (s.retire v n).round = s.round := rfl
@[simp] theorem State.retire_placed (s : State) (v : View) (n : Nat) : (s.retire v n).placed = s.placed := rfl
@[simp] theorem State.retire_announced (s : State) (v : View) (n : Nat) : (s.retire v n).announced = s.announced := rfl
@[simp] theorem State.retire_unclosed (s : State) (v : View) (n : Nat) : (s.retire v n).unclosed = s.unclosed := rfl
@[simp] theorem State.retire_bcasts (s : State) (v : View) (n : Nat) : (s.retire v n).bcasts = s.bcasts := rfl
@[simp] theorem State.retire_slots (s : State) (v : View) (n : Nat) : (s.retire v n).slots = s.slots := rfl
@[simp] theorem State.retire_startCount (s : State) (v : View) (n : Nat) : (s.retire v n).startCount = s.startCount := rfl
@[simp] theorem State.retire_cmCount (s : State) (v : View) (n : Nat) : (s.retire v n).cmCount = s.cmCount := rfl
@[simp] theorem State.retire_xbegQueue (s : State) (v : View) (n : Nat) : (s.retire v n).xbegQueue = s.xbegQueue := rfl
@[simp] theorem State.retire_unitOrder (s : State) (v : View) (n : Nat) : (s.retire v n).unitOrder = s.unitOrder := rfl
@[simp] theorem State.retire_ctxs (s : State) (v : View) (n : Nat) : (s.retire v n).ctxs = s.ctxs := rfl
@[simp] theorem State.retire_launches (s : State) (v : View) (n : Nat) : (s.retire v n).launches = s.launches := rfl
@[simp] theorem State.retire_cores (s : State) (v : View) (n : Nat) : (s.retire v n).cores = s.cores := rfl
@[simp] theorem State.retire_cmds (s : State) (v : View) (n : Nat) : (s.retire v n).cmds = s.cmds := rfl
@[simp] theorem State.retire_tasks (s : State) (v : View) (n : Nat) : (s.retire v n).tasks = s.tasks := rfl
@[simp] theorem State.retire_chains (s : State) (v : View) (n : Nat) : (s.retire v n).chains = s.chains := rfl
@[simp] theorem State.retire_lastDie (s : State) (v : View) (n : Nat) : (s.retire v n).lastDie = s.lastDie := rfl
@[simp] theorem State.retire_batches (s : State) (v : View) (n : Nat) : (s.retire v n).batches = s.batches := rfl
@[simp] theorem State.retire_nextPnum (s : State) (v : View) (n : Nat) : (s.retire v n).nextPnum = s.nextPnum := rfl
@[simp] theorem State.retire_eligibleOrder (s : State) (v : View) (n : Nat) : (s.retire v n).eligibleOrder = s.eligibleOrder := rfl
@[simp] theorem State.retire_mbx (s : State) (v : View) (n : Nat) : (s.retire v n).mbx = s.mbx := rfl
@[simp] theorem State.retire_hostMem (s : State) (v : View) (n : Nat) : (s.retire v n).hostMem = s.hostMem := rfl
@[simp] theorem State.retire_msix (s : State) (v : View) (n : Nat) : (s.retire v n).msix = s.msix := rfl
@[simp] theorem State.retire_power (s : State) (v : View) (n : Nat) : (s.retire v n).power = s.power := rfl
@[simp] theorem State.retire_boot (s : State) (v : View) (n : Nat) : (s.retire v n).boot = s.boot := rfl
@[simp] theorem State.retire_mbd (s : State) (v : View) (n : Nat) : (s.retire v n).mbd = s.mbd := rfl
@[simp] theorem State.retire_fabric (s : State) (v : View) (n : Nat) : (s.retire v n).fabric = s.fabric := rfl
@[simp] theorem State.retire_machine (s : State) (v : View) (n : Nat) : (s.retire v n).machine = s.machine := rfl
@[simp] theorem State.retire_resetting (s : State) (v : View) (n : Nat) : (s.retire v n).resetting = s.resetting := rfl
@[simp] theorem State.retire_warmResets (s : State) (v : View) (n : Nat) : (s.retire v n).warmResets = s.warmResets := rfl
@[simp] theorem State.retire_coldResets (s : State) (v : View) (n : Nat) : (s.retire v n).coldResets = s.coldResets := rfl
@[simp] theorem State.retire_link (s : State) (v : View) (n : Nat) : (s.retire v n).link = s.link := rfl
@[simp] theorem State.retireTo_agenda (s : State) (v : View) (h : Word) : (s.retireTo v h).agenda = s.agenda := rfl
@[simp] theorem State.retireTo_tick (s : State) (v : View) (h : Word) : (s.retireTo v h).tick = s.tick := rfl
@[simp] theorem State.retireTo_actor (s : State) (v : View) (h : Word) : (s.retireTo v h).actor = s.actor := rfl
@[simp] theorem State.retireTo_nextId (s : State) (v : View) (h : Word) : (s.retireTo v h).nextId = s.nextId := rfl
@[simp] theorem State.retireTo_mem (s : State) (v : View) (h : Word) : (s.retireTo v h).mem = s.mem := rfl
@[simp] theorem State.retireTo_pages (s : State) (v : View) (h : Word) : (s.retireTo v h).pages = s.pages := rfl
@[simp] theorem State.retireTo_gstamps (s : State) (v : View) (h : Word) : (s.retireTo v h).gstamps = s.gstamps := rfl
@[simp] theorem State.retireTo_glinks (s : State) (v : View) (h : Word) : (s.retireTo v h).glinks = s.glinks := rfl
@[simp] theorem State.retireTo_flips (s : State) (v : View) (h : Word) : (s.retireTo v h).flips = s.flips := rfl
@[simp] theorem State.retireTo_dirty (s : State) (v : View) (h : Word) : (s.retireTo v h).dirty = s.dirty := rfl
@[simp] theorem State.retireTo_counts (s : State) (v : View) (h : Word) : (s.retireTo v h).counts = s.counts := rfl
@[simp] theorem State.retireTo_sweeps (s : State) (v : View) (h : Word) : (s.retireTo v h).sweeps = s.sweeps := rfl
@[simp] theorem State.retireTo_sweptAt (s : State) (v : View) (h : Word) : (s.retireTo v h).sweptAt = s.sweptAt := rfl
@[simp] theorem State.retireTo_contention (s : State) (v : View) (h : Word) : (s.retireTo v h).contention = s.contention := rfl
@[simp] theorem State.retireTo_dups (s : State) (v : View) (h : Word) : (s.retireTo v h).dups = s.dups := rfl
@[simp] theorem State.retireTo_l1 (s : State) (v : View) (h : Word) : (s.retireTo v h).l1 = s.l1 := rfl
@[simp] theorem State.retireTo_tlb (s : State) (v : View) (h : Word) : (s.retireTo v h).tlb = s.tlb := rfl
@[simp] theorem State.retireTo_reqs (s : State) (v : View) (h : Word) : (s.retireTo v h).reqs = s.reqs := rfl
@[simp] theorem State.retireTo_hostLines (s : State) (v : View) (h : Word) : (s.retireTo v h).hostLines = s.hostLines := rfl
@[simp] theorem State.retireTo_hostSeen (s : State) (v : View) (h : Word) : (s.retireTo v h).hostSeen = s.hostSeen := rfl
@[simp] theorem State.retireTo_stackTable (s : State) (v : View) (h : Word) : (s.retireTo v h).stackTable = s.stackTable := rfl
@[simp] theorem State.retireTo_holds (s : State) (v : View) (h : Word) : (s.retireTo v h).holds = s.holds := rfl
@[simp] theorem State.retireTo_holdOrder (s : State) (v : View) (h : Word) : (s.retireTo v h).holdOrder = s.holdOrder := rfl
@[simp] theorem State.retireTo_holdsEnded (s : State) (v : View) (h : Word) : (s.retireTo v h).holdsEnded = s.holdsEnded := rfl
@[simp] theorem State.retireTo_round (s : State) (v : View) (h : Word) : (s.retireTo v h).round = s.round := rfl
@[simp] theorem State.retireTo_placed (s : State) (v : View) (h : Word) : (s.retireTo v h).placed = s.placed := rfl
@[simp] theorem State.retireTo_announced (s : State) (v : View) (h : Word) : (s.retireTo v h).announced = s.announced := rfl
@[simp] theorem State.retireTo_unclosed (s : State) (v : View) (h : Word) : (s.retireTo v h).unclosed = s.unclosed := rfl
@[simp] theorem State.retireTo_bcasts (s : State) (v : View) (h : Word) : (s.retireTo v h).bcasts = s.bcasts := rfl
@[simp] theorem State.retireTo_slots (s : State) (v : View) (h : Word) : (s.retireTo v h).slots = s.slots := rfl
@[simp] theorem State.retireTo_startCount (s : State) (v : View) (h : Word) : (s.retireTo v h).startCount = s.startCount := rfl
@[simp] theorem State.retireTo_cmCount (s : State) (v : View) (h : Word) : (s.retireTo v h).cmCount = s.cmCount := rfl
@[simp] theorem State.retireTo_xbegQueue (s : State) (v : View) (h : Word) : (s.retireTo v h).xbegQueue = s.xbegQueue := rfl
@[simp] theorem State.retireTo_unitOrder (s : State) (v : View) (h : Word) : (s.retireTo v h).unitOrder = s.unitOrder := rfl
@[simp] theorem State.retireTo_ctxs (s : State) (v : View) (h : Word) : (s.retireTo v h).ctxs = s.ctxs := rfl
@[simp] theorem State.retireTo_launches (s : State) (v : View) (h : Word) : (s.retireTo v h).launches = s.launches := rfl
@[simp] theorem State.retireTo_cores (s : State) (v : View) (h : Word) : (s.retireTo v h).cores = s.cores := rfl
@[simp] theorem State.retireTo_cmds (s : State) (v : View) (h : Word) : (s.retireTo v h).cmds = s.cmds := rfl
@[simp] theorem State.retireTo_tasks (s : State) (v : View) (h : Word) : (s.retireTo v h).tasks = s.tasks := rfl
@[simp] theorem State.retireTo_chains (s : State) (v : View) (h : Word) : (s.retireTo v h).chains = s.chains := rfl
@[simp] theorem State.retireTo_lastDie (s : State) (v : View) (h : Word) : (s.retireTo v h).lastDie = s.lastDie := rfl
@[simp] theorem State.retireTo_batches (s : State) (v : View) (h : Word) : (s.retireTo v h).batches = s.batches := rfl
@[simp] theorem State.retireTo_nextPnum (s : State) (v : View) (h : Word) : (s.retireTo v h).nextPnum = s.nextPnum := rfl
@[simp] theorem State.retireTo_eligibleOrder (s : State) (v : View) (h : Word) : (s.retireTo v h).eligibleOrder = s.eligibleOrder := rfl
@[simp] theorem State.retireTo_mbx (s : State) (v : View) (h : Word) : (s.retireTo v h).mbx = s.mbx := rfl
@[simp] theorem State.retireTo_hostMem (s : State) (v : View) (h : Word) : (s.retireTo v h).hostMem = s.hostMem := rfl
@[simp] theorem State.retireTo_msix (s : State) (v : View) (h : Word) : (s.retireTo v h).msix = s.msix := rfl
@[simp] theorem State.retireTo_power (s : State) (v : View) (h : Word) : (s.retireTo v h).power = s.power := rfl
@[simp] theorem State.retireTo_boot (s : State) (v : View) (h : Word) : (s.retireTo v h).boot = s.boot := rfl
@[simp] theorem State.retireTo_mbd (s : State) (v : View) (h : Word) : (s.retireTo v h).mbd = s.mbd := rfl
@[simp] theorem State.retireTo_fabric (s : State) (v : View) (h : Word) : (s.retireTo v h).fabric = s.fabric := rfl
@[simp] theorem State.retireTo_machine (s : State) (v : View) (h : Word) : (s.retireTo v h).machine = s.machine := rfl
@[simp] theorem State.retireTo_resetting (s : State) (v : View) (h : Word) : (s.retireTo v h).resetting = s.resetting := rfl
@[simp] theorem State.retireTo_warmResets (s : State) (v : View) (h : Word) : (s.retireTo v h).warmResets = s.warmResets := rfl
@[simp] theorem State.retireTo_coldResets (s : State) (v : View) (h : Word) : (s.retireTo v h).coldResets = s.coldResets := rfl
@[simp] theorem State.retireTo_link (s : State) (v : View) (h : Word) : (s.retireTo v h).link = s.link := rfl
@[simp] theorem State.retireWith_agenda (s : State) (v : View) (h : Wave → Wave) : (s.retireWith v h).agenda = s.agenda := rfl
@[simp] theorem State.retireWith_tick (s : State) (v : View) (h : Wave → Wave) : (s.retireWith v h).tick = s.tick := rfl
@[simp] theorem State.retireWith_actor (s : State) (v : View) (h : Wave → Wave) : (s.retireWith v h).actor = s.actor := rfl
@[simp] theorem State.retireWith_nextId (s : State) (v : View) (h : Wave → Wave) : (s.retireWith v h).nextId = s.nextId := rfl
@[simp] theorem State.retireWith_mem (s : State) (v : View) (h : Wave → Wave) : (s.retireWith v h).mem = s.mem := rfl
@[simp] theorem State.retireWith_pages (s : State) (v : View) (h : Wave → Wave) : (s.retireWith v h).pages = s.pages := rfl
@[simp] theorem State.retireWith_gstamps (s : State) (v : View) (h : Wave → Wave) : (s.retireWith v h).gstamps = s.gstamps := rfl
@[simp] theorem State.retireWith_glinks (s : State) (v : View) (h : Wave → Wave) : (s.retireWith v h).glinks = s.glinks := rfl
@[simp] theorem State.retireWith_flips (s : State) (v : View) (h : Wave → Wave) : (s.retireWith v h).flips = s.flips := rfl
@[simp] theorem State.retireWith_dirty (s : State) (v : View) (h : Wave → Wave) : (s.retireWith v h).dirty = s.dirty := rfl
@[simp] theorem State.retireWith_counts (s : State) (v : View) (h : Wave → Wave) : (s.retireWith v h).counts = s.counts := rfl
@[simp] theorem State.retireWith_sweeps (s : State) (v : View) (h : Wave → Wave) : (s.retireWith v h).sweeps = s.sweeps := rfl
@[simp] theorem State.retireWith_sweptAt (s : State) (v : View) (h : Wave → Wave) : (s.retireWith v h).sweptAt = s.sweptAt := rfl
@[simp] theorem State.retireWith_contention (s : State) (v : View) (h : Wave → Wave) : (s.retireWith v h).contention = s.contention := rfl
@[simp] theorem State.retireWith_dups (s : State) (v : View) (h : Wave → Wave) : (s.retireWith v h).dups = s.dups := rfl
@[simp] theorem State.retireWith_l1 (s : State) (v : View) (h : Wave → Wave) : (s.retireWith v h).l1 = s.l1 := rfl
@[simp] theorem State.retireWith_tlb (s : State) (v : View) (h : Wave → Wave) : (s.retireWith v h).tlb = s.tlb := rfl
@[simp] theorem State.retireWith_reqs (s : State) (v : View) (h : Wave → Wave) : (s.retireWith v h).reqs = s.reqs := rfl
@[simp] theorem State.retireWith_hostLines (s : State) (v : View) (h : Wave → Wave) : (s.retireWith v h).hostLines = s.hostLines := rfl
@[simp] theorem State.retireWith_hostSeen (s : State) (v : View) (h : Wave → Wave) : (s.retireWith v h).hostSeen = s.hostSeen := rfl
@[simp] theorem State.retireWith_stackTable (s : State) (v : View) (h : Wave → Wave) : (s.retireWith v h).stackTable = s.stackTable := rfl
@[simp] theorem State.retireWith_holds (s : State) (v : View) (h : Wave → Wave) : (s.retireWith v h).holds = s.holds := rfl
@[simp] theorem State.retireWith_holdOrder (s : State) (v : View) (h : Wave → Wave) : (s.retireWith v h).holdOrder = s.holdOrder := rfl
@[simp] theorem State.retireWith_holdsEnded (s : State) (v : View) (h : Wave → Wave) : (s.retireWith v h).holdsEnded = s.holdsEnded := rfl
@[simp] theorem State.retireWith_round (s : State) (v : View) (h : Wave → Wave) : (s.retireWith v h).round = s.round := rfl
@[simp] theorem State.retireWith_placed (s : State) (v : View) (h : Wave → Wave) : (s.retireWith v h).placed = s.placed := rfl
@[simp] theorem State.retireWith_announced (s : State) (v : View) (h : Wave → Wave) : (s.retireWith v h).announced = s.announced := rfl
@[simp] theorem State.retireWith_unclosed (s : State) (v : View) (h : Wave → Wave) : (s.retireWith v h).unclosed = s.unclosed := rfl
@[simp] theorem State.retireWith_bcasts (s : State) (v : View) (h : Wave → Wave) : (s.retireWith v h).bcasts = s.bcasts := rfl
@[simp] theorem State.retireWith_slots (s : State) (v : View) (h : Wave → Wave) : (s.retireWith v h).slots = s.slots := rfl
@[simp] theorem State.retireWith_startCount (s : State) (v : View) (h : Wave → Wave) : (s.retireWith v h).startCount = s.startCount := rfl
@[simp] theorem State.retireWith_cmCount (s : State) (v : View) (h : Wave → Wave) : (s.retireWith v h).cmCount = s.cmCount := rfl
@[simp] theorem State.retireWith_xbegQueue (s : State) (v : View) (h : Wave → Wave) : (s.retireWith v h).xbegQueue = s.xbegQueue := rfl
@[simp] theorem State.retireWith_unitOrder (s : State) (v : View) (h : Wave → Wave) : (s.retireWith v h).unitOrder = s.unitOrder := rfl
@[simp] theorem State.retireWith_ctxs (s : State) (v : View) (h : Wave → Wave) : (s.retireWith v h).ctxs = s.ctxs := rfl
@[simp] theorem State.retireWith_launches (s : State) (v : View) (h : Wave → Wave) : (s.retireWith v h).launches = s.launches := rfl
@[simp] theorem State.retireWith_cores (s : State) (v : View) (h : Wave → Wave) : (s.retireWith v h).cores = s.cores := rfl
@[simp] theorem State.retireWith_cmds (s : State) (v : View) (h : Wave → Wave) : (s.retireWith v h).cmds = s.cmds := rfl
@[simp] theorem State.retireWith_tasks (s : State) (v : View) (h : Wave → Wave) : (s.retireWith v h).tasks = s.tasks := rfl
@[simp] theorem State.retireWith_chains (s : State) (v : View) (h : Wave → Wave) : (s.retireWith v h).chains = s.chains := rfl
@[simp] theorem State.retireWith_lastDie (s : State) (v : View) (h : Wave → Wave) : (s.retireWith v h).lastDie = s.lastDie := rfl
@[simp] theorem State.retireWith_batches (s : State) (v : View) (h : Wave → Wave) : (s.retireWith v h).batches = s.batches := rfl
@[simp] theorem State.retireWith_nextPnum (s : State) (v : View) (h : Wave → Wave) : (s.retireWith v h).nextPnum = s.nextPnum := rfl
@[simp] theorem State.retireWith_eligibleOrder (s : State) (v : View) (h : Wave → Wave) : (s.retireWith v h).eligibleOrder = s.eligibleOrder := rfl
@[simp] theorem State.retireWith_mbx (s : State) (v : View) (h : Wave → Wave) : (s.retireWith v h).mbx = s.mbx := rfl
@[simp] theorem State.retireWith_hostMem (s : State) (v : View) (h : Wave → Wave) : (s.retireWith v h).hostMem = s.hostMem := rfl
@[simp] theorem State.retireWith_msix (s : State) (v : View) (h : Wave → Wave) : (s.retireWith v h).msix = s.msix := rfl
@[simp] theorem State.retireWith_power (s : State) (v : View) (h : Wave → Wave) : (s.retireWith v h).power = s.power := rfl
@[simp] theorem State.retireWith_boot (s : State) (v : View) (h : Wave → Wave) : (s.retireWith v h).boot = s.boot := rfl
@[simp] theorem State.retireWith_mbd (s : State) (v : View) (h : Wave → Wave) : (s.retireWith v h).mbd = s.mbd := rfl
@[simp] theorem State.retireWith_fabric (s : State) (v : View) (h : Wave → Wave) : (s.retireWith v h).fabric = s.fabric := rfl
@[simp] theorem State.retireWith_machine (s : State) (v : View) (h : Wave → Wave) : (s.retireWith v h).machine = s.machine := rfl
@[simp] theorem State.retireWith_resetting (s : State) (v : View) (h : Wave → Wave) : (s.retireWith v h).resetting = s.resetting := rfl
@[simp] theorem State.retireWith_warmResets (s : State) (v : View) (h : Wave → Wave) : (s.retireWith v h).warmResets = s.warmResets := rfl
@[simp] theorem State.retireWith_coldResets (s : State) (v : View) (h : Wave → Wave) : (s.retireWith v h).coldResets = s.coldResets := rfl
@[simp] theorem State.retireWith_link (s : State) (v : View) (h : Wave → Wave) : (s.retireWith v h).link = s.link := rfl

-- Group ---------------------------------------------------------------------------------------------------------------

@[simp] theorem Group.modWave_pnum (gr : Group) (w : Nat) (h : Wave → Wave) : (gr.modWave w h).pnum = gr.pnum := rfl
@[simp] theorem Group.modWave_lin (gr : Group) (w : Nat) (h : Wave → Wave) : (gr.modWave w h).lin = gr.lin := rfl
@[simp] theorem Group.modWave_launch (gr : Group) (w : Nat) (h : Wave → Wave) : (gr.modWave w h).launch = gr.launch := rfl
@[simp] theorem Group.modWave_ctx (gr : Group) (w : Nat) (h : Wave → Wave) : (gr.modWave w h).ctx = gr.ctx := rfl
@[simp] theorem Group.modWave_core (gr : Group) (w : Nat) (h : Wave → Wave) : (gr.modWave w h).core = gr.core := rfl
@[simp] theorem Group.modWave_state (gr : Group) (w : Nat) (h : Wave → Wave) : (gr.modWave w h).state = gr.state := rfl
@[simp] theorem Group.modWave_sp (gr : Group) (w : Nat) (h : Wave → Wave) : (gr.modWave w h).sp = gr.sp := rfl
@[simp] theorem Group.modWave_wb (gr : Group) (w : Nat) (h : Wave → Wave) : (gr.modWave w h).wb = gr.wb := rfl
@[simp] theorem Group.modWave_ab (gr : Group) (w : Nat) (h : Wave → Wave) : (gr.modWave w h).ab = gr.ab := rfl
@[simp] theorem Group.modWave_cb (gr : Group) (w : Nat) (h : Wave → Wave) : (gr.modWave w h).cb = gr.cb := rfl
@[simp] theorem Group.modWave_marks (gr : Group) (w : Nat) (h : Wave → Wave) : (gr.modWave w h).marks = gr.marks := rfl
@[simp] theorem Group.modWave_handles (gr : Group) (w : Nat) (h : Wave → Wave) : (gr.modWave w h).handles = gr.handles := rfl
@[simp] theorem Group.modWave_bufacl (gr : Group) (w : Nat) (h : Wave → Wave) : (gr.modWave w h).bufacl = gr.bufacl := rfl
@[simp] theorem Group.modWave_bufreq (gr : Group) (w : Nat) (h : Wave → Wave) : (gr.modWave w h).bufreq = gr.bufreq := rfl
@[simp] theorem Group.modWave_bufBy (gr : Group) (w : Nat) (h : Wave → Wave) : (gr.modWave w h).bufBy = gr.bufBy := rfl
@[simp] theorem Group.modWave_uninitcount (gr : Group) (w : Nat) (h : Wave → Wave) : (gr.modWave w h).uninitcount = gr.uninitcount := rfl
@[simp] theorem Group.modWave_uninitaddr (gr : Group) (w : Nat) (h : Wave → Wave) : (gr.modWave w h).uninitaddr = gr.uninitaddr := rfl
@[simp] theorem Group.modWave_ringdesc (gr : Group) (w : Nat) (h : Wave → Wave) : (gr.modWave w h).ringdesc = gr.ringdesc := rfl
@[simp] theorem Group.modWave_tlfault (gr : Group) (w : Nat) (h : Wave → Wave) : (gr.modWave w h).tlfault = gr.tlfault := rfl
@[simp] theorem Group.modWave_qfault (gr : Group) (w : Nat) (h : Wave → Wave) : (gr.modWave w h).qfault = gr.qfault := rfl
@[simp] theorem Group.modWave_bind (gr : Group) (w : Nat) (h : Wave → Wave) : (gr.modWave w h).bind = gr.bind := rfl
@[simp] theorem Group.modWave_queues (gr : Group) (w : Nat) (h : Wave → Wave) : (gr.modWave w h).queues = gr.queues := rfl
@[simp] theorem Group.modWave_saving (gr : Group) (w : Nat) (h : Wave → Wave) : (gr.modWave w h).saving = gr.saving := rfl
@[simp] theorem Group.modWave_powerSave (gr : Group) (w : Nat) (h : Wave → Wave) : (gr.modWave w h).powerSave = gr.powerSave := rfl
@[simp] theorem Group.modWave_eligible (gr : Group) (w : Nat) (h : Wave → Wave) : (gr.modWave w h).eligible = gr.eligible := rfl
@[simp] theorem Group.modWave_offCore (gr : Group) (w : Nat) (h : Wave → Wave) : (gr.modWave w h).offCore = gr.offCore := rfl
@[simp] theorem Group.modWave_triggered (gr : Group) (w : Nat) (h : Wave → Wave) : (gr.modWave w h).triggered = gr.triggered := rfl
@[simp] theorem Group.modWave_cause (gr : Group) (w : Nat) (h : Wave → Wave) : (gr.modWave w h).cause = gr.cause := rfl

-- Wave ----------------------------------------------------------------------------------------------------------------

@[simp] theorem Wave.modEnt_slot (wv : Wave) (e : Nat) (h : Entity → Entity) : (wv.modEnt e h).slot = wv.slot := rfl
@[simp] theorem Wave.modEnt_role (wv : Wave) (e : Nat) (h : Entity → Entity) : (wv.modEnt e h).role = wv.role := rfl
@[simp] theorem Wave.modEnt_blocks (wv : Wave) (e : Nat) (h : Entity → Entity) : (wv.modEnt e h).blocks = wv.blocks := rfl
@[simp] theorem Wave.modEnt_v (wv : Wave) (e : Nat) (h : Entity → Entity) : (wv.modEnt e h).v = wv.v := rfl
@[simp] theorem Wave.modEnt_s (wv : Wave) (e : Nat) (h : Entity → Entity) : (wv.modEnt e h).s = wv.s := rfl
@[simp] theorem Wave.modEnt_p (wv : Wave) (e : Nat) (h : Entity → Entity) : (wv.modEnt e h).p = wv.p := rfl
@[simp] theorem Wave.modEnt_b (wv : Wave) (e : Nat) (h : Entity → Entity) : (wv.modEnt e h).b = wv.b := rfl
@[simp] theorem Wave.modEnt_f (wv : Wave) (e : Nat) (h : Entity → Entity) : (wv.modEnt e h).f = wv.f := rfl
@[simp] theorem Wave.modEnt_cstamp (wv : Wave) (e : Nat) (h : Entity → Entity) : (wv.modEnt e h).cstamp = wv.cstamp := rfl
@[simp] theorem Wave.modEnt_fpstatus (wv : Wave) (e : Nat) (h : Entity → Entity) : (wv.modEnt e h).fpstatus = wv.fpstatus := rfl
@[simp] theorem Wave.modEnt_cause (wv : Wave) (e : Nat) (h : Entity → Entity) : (wv.modEnt e h).cause = wv.cause := rfl
@[simp] theorem Wave.modEnt_faultaddr (wv : Wave) (e : Nat) (h : Entity → Entity) : (wv.modEnt e h).faultaddr = wv.faultaddr := rfl
@[simp] theorem Wave.modEnt_lanemask (wv : Wave) (e : Nat) (h : Entity → Entity) : (wv.modEnt e h).lanemask = wv.lanemask := rfl
@[simp] theorem Wave.modEnt_sysstatus (wv : Wave) (e : Nat) (h : Entity → Entity) : (wv.modEnt e h).sysstatus = wv.sysstatus := rfl
@[simp] theorem Wave.modEnt_trapbase (wv : Wave) (e : Nat) (h : Entity → Entity) : (wv.modEnt e h).trapbase = wv.trapbase := rfl
@[simp] theorem Wave.modEnt_trappos (wv : Wave) (e : Nat) (h : Entity → Entity) : (wv.modEnt e h).trappos = wv.trappos := rfl
@[simp] theorem Wave.modEnt_seen (wv : Wave) (e : Nat) (h : Entity → Entity) : (wv.modEnt e h).seen = wv.seen := rfl
@[simp] theorem Wave.modEnt_stored (wv : Wave) (e : Nat) (h : Entity → Entity) : (wv.modEnt e h).stored = wv.stored := rfl
@[simp] theorem Wave.modEnt_sq (wv : Wave) (e : Nat) (h : Entity → Entity) : (wv.modEnt e h).sq = wv.sq := rfl
@[simp] theorem Wave.modEnt_late (wv : Wave) (e : Nat) (h : Entity → Entity) : (wv.modEnt e h).late = wv.late := rfl
@[simp] theorem Wave.modEnt_ops (wv : Wave) (e : Nat) (h : Entity → Entity) : (wv.modEnt e h).ops = wv.ops := rfl
@[simp] theorem Wave.modEnt_region (wv : Wave) (e : Nat) (h : Entity → Entity) : (wv.modEnt e h).region = wv.region := rfl
@[simp] theorem Wave.modEnt_nextEnt (wv : Wave) (e : Nat) (h : Entity → Entity) : (wv.modEnt e h).nextEnt = wv.nextEnt := rfl
@[simp] theorem Wave.modEnt_nextPair (wv : Wave) (e : Nat) (h : Entity → Entity) : (wv.modEnt e h).nextPair = wv.nextPair := rfl
@[simp] theorem Wave.modEnt_sRace (wv : Wave) (e : Nat) (h : Entity → Entity) : (wv.modEnt e h).sRace = wv.sRace := rfl
@[simp] theorem Wave.modEnt_retired (wv : Wave) (e : Nat) (h : Entity → Entity) : (wv.modEnt e h).retired = wv.retired := rfl
@[simp] theorem Wave.modEnt_quantum (wv : Wave) (e : Nat) (h : Entity → Entity) : (wv.modEnt e h).quantum = wv.quantum := rfl
@[simp] theorem Wave.modEnt_resumed (wv : Wave) (e : Nat) (h : Entity → Entity) : (wv.modEnt e h).resumed = wv.resumed := rfl
@[simp] theorem Wave.modEnt_bad (wv : Wave) (e : Nat) (h : Entity → Entity) : (wv.modEnt e h).bad = wv.bad := rfl
@[simp] theorem Wave.modOp_slot (wv : Wave) (k : Nat) (h : LongOp → LongOp) : (wv.modOp k h).slot = wv.slot := rfl
@[simp] theorem Wave.modOp_role (wv : Wave) (k : Nat) (h : LongOp → LongOp) : (wv.modOp k h).role = wv.role := rfl
@[simp] theorem Wave.modOp_blocks (wv : Wave) (k : Nat) (h : LongOp → LongOp) : (wv.modOp k h).blocks = wv.blocks := rfl
@[simp] theorem Wave.modOp_v (wv : Wave) (k : Nat) (h : LongOp → LongOp) : (wv.modOp k h).v = wv.v := rfl
@[simp] theorem Wave.modOp_s (wv : Wave) (k : Nat) (h : LongOp → LongOp) : (wv.modOp k h).s = wv.s := rfl
@[simp] theorem Wave.modOp_p (wv : Wave) (k : Nat) (h : LongOp → LongOp) : (wv.modOp k h).p = wv.p := rfl
@[simp] theorem Wave.modOp_b (wv : Wave) (k : Nat) (h : LongOp → LongOp) : (wv.modOp k h).b = wv.b := rfl
@[simp] theorem Wave.modOp_f (wv : Wave) (k : Nat) (h : LongOp → LongOp) : (wv.modOp k h).f = wv.f := rfl
@[simp] theorem Wave.modOp_cstamp (wv : Wave) (k : Nat) (h : LongOp → LongOp) : (wv.modOp k h).cstamp = wv.cstamp := rfl
@[simp] theorem Wave.modOp_fpstatus (wv : Wave) (k : Nat) (h : LongOp → LongOp) : (wv.modOp k h).fpstatus = wv.fpstatus := rfl
@[simp] theorem Wave.modOp_cause (wv : Wave) (k : Nat) (h : LongOp → LongOp) : (wv.modOp k h).cause = wv.cause := rfl
@[simp] theorem Wave.modOp_faultaddr (wv : Wave) (k : Nat) (h : LongOp → LongOp) : (wv.modOp k h).faultaddr = wv.faultaddr := rfl
@[simp] theorem Wave.modOp_lanemask (wv : Wave) (k : Nat) (h : LongOp → LongOp) : (wv.modOp k h).lanemask = wv.lanemask := rfl
@[simp] theorem Wave.modOp_sysstatus (wv : Wave) (k : Nat) (h : LongOp → LongOp) : (wv.modOp k h).sysstatus = wv.sysstatus := rfl
@[simp] theorem Wave.modOp_trapbase (wv : Wave) (k : Nat) (h : LongOp → LongOp) : (wv.modOp k h).trapbase = wv.trapbase := rfl
@[simp] theorem Wave.modOp_trappos (wv : Wave) (k : Nat) (h : LongOp → LongOp) : (wv.modOp k h).trappos = wv.trappos := rfl
@[simp] theorem Wave.modOp_seen (wv : Wave) (k : Nat) (h : LongOp → LongOp) : (wv.modOp k h).seen = wv.seen := rfl
@[simp] theorem Wave.modOp_stored (wv : Wave) (k : Nat) (h : LongOp → LongOp) : (wv.modOp k h).stored = wv.stored := rfl
@[simp] theorem Wave.modOp_sq (wv : Wave) (k : Nat) (h : LongOp → LongOp) : (wv.modOp k h).sq = wv.sq := rfl
@[simp] theorem Wave.modOp_late (wv : Wave) (k : Nat) (h : LongOp → LongOp) : (wv.modOp k h).late = wv.late := rfl
@[simp] theorem Wave.modOp_region (wv : Wave) (k : Nat) (h : LongOp → LongOp) : (wv.modOp k h).region = wv.region := rfl
@[simp] theorem Wave.modOp_ents (wv : Wave) (k : Nat) (h : LongOp → LongOp) : (wv.modOp k h).ents = wv.ents := rfl
@[simp] theorem Wave.modOp_nextEnt (wv : Wave) (k : Nat) (h : LongOp → LongOp) : (wv.modOp k h).nextEnt = wv.nextEnt := rfl
@[simp] theorem Wave.modOp_nextPair (wv : Wave) (k : Nat) (h : LongOp → LongOp) : (wv.modOp k h).nextPair = wv.nextPair := rfl
@[simp] theorem Wave.modOp_sRace (wv : Wave) (k : Nat) (h : LongOp → LongOp) : (wv.modOp k h).sRace = wv.sRace := rfl
@[simp] theorem Wave.modOp_retired (wv : Wave) (k : Nat) (h : LongOp → LongOp) : (wv.modOp k h).retired = wv.retired := rfl
@[simp] theorem Wave.modOp_quantum (wv : Wave) (k : Nat) (h : LongOp → LongOp) : (wv.modOp k h).quantum = wv.quantum := rfl
@[simp] theorem Wave.modOp_resumed (wv : Wave) (k : Nat) (h : LongOp → LongOp) : (wv.modOp k h).resumed = wv.resumed := rfl
@[simp] theorem Wave.modOp_bad (wv : Wave) (k : Nat) (h : LongOp → LongOp) : (wv.modOp k h).bad = wv.bad := rfl
@[simp] theorem Wave.narrow_slot (wv : Wave) (e : Nat) : (wv.narrow e).slot = wv.slot := rfl
@[simp] theorem Wave.narrow_role (wv : Wave) (e : Nat) : (wv.narrow e).role = wv.role := rfl
@[simp] theorem Wave.narrow_blocks (wv : Wave) (e : Nat) : (wv.narrow e).blocks = wv.blocks := rfl
@[simp] theorem Wave.narrow_v (wv : Wave) (e : Nat) : (wv.narrow e).v = wv.v := rfl
@[simp] theorem Wave.narrow_s (wv : Wave) (e : Nat) : (wv.narrow e).s = wv.s := rfl
@[simp] theorem Wave.narrow_p (wv : Wave) (e : Nat) : (wv.narrow e).p = wv.p := rfl
@[simp] theorem Wave.narrow_b (wv : Wave) (e : Nat) : (wv.narrow e).b = wv.b := rfl
@[simp] theorem Wave.narrow_f (wv : Wave) (e : Nat) : (wv.narrow e).f = wv.f := rfl
@[simp] theorem Wave.narrow_cstamp (wv : Wave) (e : Nat) : (wv.narrow e).cstamp = wv.cstamp := rfl
@[simp] theorem Wave.narrow_fpstatus (wv : Wave) (e : Nat) : (wv.narrow e).fpstatus = wv.fpstatus := rfl
@[simp] theorem Wave.narrow_cause (wv : Wave) (e : Nat) : (wv.narrow e).cause = wv.cause := rfl
@[simp] theorem Wave.narrow_faultaddr (wv : Wave) (e : Nat) : (wv.narrow e).faultaddr = wv.faultaddr := rfl
@[simp] theorem Wave.narrow_lanemask (wv : Wave) (e : Nat) : (wv.narrow e).lanemask = wv.lanemask := rfl
@[simp] theorem Wave.narrow_sysstatus (wv : Wave) (e : Nat) : (wv.narrow e).sysstatus = wv.sysstatus := rfl
@[simp] theorem Wave.narrow_trapbase (wv : Wave) (e : Nat) : (wv.narrow e).trapbase = wv.trapbase := rfl
@[simp] theorem Wave.narrow_trappos (wv : Wave) (e : Nat) : (wv.narrow e).trappos = wv.trappos := rfl
@[simp] theorem Wave.narrow_seen (wv : Wave) (e : Nat) : (wv.narrow e).seen = wv.seen := rfl
@[simp] theorem Wave.narrow_stored (wv : Wave) (e : Nat) : (wv.narrow e).stored = wv.stored := rfl
@[simp] theorem Wave.narrow_sq (wv : Wave) (e : Nat) : (wv.narrow e).sq = wv.sq := rfl
@[simp] theorem Wave.narrow_late (wv : Wave) (e : Nat) : (wv.narrow e).late = wv.late := rfl
@[simp] theorem Wave.narrow_region (wv : Wave) (e : Nat) : (wv.narrow e).region = wv.region := rfl
@[simp] theorem Wave.narrow_ents (wv : Wave) (e : Nat) : (wv.narrow e).ents = wv.ents := rfl
@[simp] theorem Wave.narrow_nextEnt (wv : Wave) (e : Nat) : (wv.narrow e).nextEnt = wv.nextEnt := rfl
@[simp] theorem Wave.narrow_nextPair (wv : Wave) (e : Nat) : (wv.narrow e).nextPair = wv.nextPair := rfl
@[simp] theorem Wave.narrow_sRace (wv : Wave) (e : Nat) : (wv.narrow e).sRace = wv.sRace := rfl
@[simp] theorem Wave.narrow_retired (wv : Wave) (e : Nat) : (wv.narrow e).retired = wv.retired := rfl
@[simp] theorem Wave.narrow_quantum (wv : Wave) (e : Nat) : (wv.narrow e).quantum = wv.quantum := rfl
@[simp] theorem Wave.narrow_resumed (wv : Wave) (e : Nat) : (wv.narrow e).resumed = wv.resumed := rfl
@[simp] theorem Wave.narrow_bad (wv : Wave) (e : Nat) : (wv.narrow e).bad = wv.bad := rfl
@[simp] theorem Wave.noteWrite_slot (wv : Wave) (keys : List Nat) (act : Mask) : (wv.noteWrite keys act).slot = wv.slot := rfl
@[simp] theorem Wave.noteWrite_role (wv : Wave) (keys : List Nat) (act : Mask) : (wv.noteWrite keys act).role = wv.role := rfl
@[simp] theorem Wave.noteWrite_blocks (wv : Wave) (keys : List Nat) (act : Mask) : (wv.noteWrite keys act).blocks = wv.blocks := rfl
@[simp] theorem Wave.noteWrite_v (wv : Wave) (keys : List Nat) (act : Mask) : (wv.noteWrite keys act).v = wv.v := rfl
@[simp] theorem Wave.noteWrite_s (wv : Wave) (keys : List Nat) (act : Mask) : (wv.noteWrite keys act).s = wv.s := rfl
@[simp] theorem Wave.noteWrite_p (wv : Wave) (keys : List Nat) (act : Mask) : (wv.noteWrite keys act).p = wv.p := rfl
@[simp] theorem Wave.noteWrite_b (wv : Wave) (keys : List Nat) (act : Mask) : (wv.noteWrite keys act).b = wv.b := rfl
@[simp] theorem Wave.noteWrite_f (wv : Wave) (keys : List Nat) (act : Mask) : (wv.noteWrite keys act).f = wv.f := rfl
@[simp] theorem Wave.noteWrite_cstamp (wv : Wave) (keys : List Nat) (act : Mask) : (wv.noteWrite keys act).cstamp = wv.cstamp := rfl
@[simp] theorem Wave.noteWrite_fpstatus (wv : Wave) (keys : List Nat) (act : Mask) : (wv.noteWrite keys act).fpstatus = wv.fpstatus := rfl
@[simp] theorem Wave.noteWrite_cause (wv : Wave) (keys : List Nat) (act : Mask) : (wv.noteWrite keys act).cause = wv.cause := rfl
@[simp] theorem Wave.noteWrite_faultaddr (wv : Wave) (keys : List Nat) (act : Mask) : (wv.noteWrite keys act).faultaddr = wv.faultaddr := rfl
@[simp] theorem Wave.noteWrite_lanemask (wv : Wave) (keys : List Nat) (act : Mask) : (wv.noteWrite keys act).lanemask = wv.lanemask := rfl
@[simp] theorem Wave.noteWrite_sysstatus (wv : Wave) (keys : List Nat) (act : Mask) : (wv.noteWrite keys act).sysstatus = wv.sysstatus := rfl
@[simp] theorem Wave.noteWrite_trapbase (wv : Wave) (keys : List Nat) (act : Mask) : (wv.noteWrite keys act).trapbase = wv.trapbase := rfl
@[simp] theorem Wave.noteWrite_trappos (wv : Wave) (keys : List Nat) (act : Mask) : (wv.noteWrite keys act).trappos = wv.trappos := rfl
@[simp] theorem Wave.noteWrite_seen (wv : Wave) (keys : List Nat) (act : Mask) : (wv.noteWrite keys act).seen = wv.seen := rfl
@[simp] theorem Wave.noteWrite_stored (wv : Wave) (keys : List Nat) (act : Mask) : (wv.noteWrite keys act).stored = wv.stored := rfl
@[simp] theorem Wave.noteWrite_sq (wv : Wave) (keys : List Nat) (act : Mask) : (wv.noteWrite keys act).sq = wv.sq := rfl
@[simp] theorem Wave.noteWrite_late (wv : Wave) (keys : List Nat) (act : Mask) : (wv.noteWrite keys act).late = wv.late := rfl
@[simp] theorem Wave.noteWrite_region (wv : Wave) (keys : List Nat) (act : Mask) : (wv.noteWrite keys act).region = wv.region := rfl
@[simp] theorem Wave.noteWrite_ents (wv : Wave) (keys : List Nat) (act : Mask) : (wv.noteWrite keys act).ents = wv.ents := rfl
@[simp] theorem Wave.noteWrite_nextEnt (wv : Wave) (keys : List Nat) (act : Mask) : (wv.noteWrite keys act).nextEnt = wv.nextEnt := rfl
@[simp] theorem Wave.noteWrite_nextPair (wv : Wave) (keys : List Nat) (act : Mask) : (wv.noteWrite keys act).nextPair = wv.nextPair := rfl
@[simp] theorem Wave.noteWrite_sRace (wv : Wave) (keys : List Nat) (act : Mask) : (wv.noteWrite keys act).sRace = wv.sRace := rfl
@[simp] theorem Wave.noteWrite_retired (wv : Wave) (keys : List Nat) (act : Mask) : (wv.noteWrite keys act).retired = wv.retired := rfl
@[simp] theorem Wave.noteWrite_quantum (wv : Wave) (keys : List Nat) (act : Mask) : (wv.noteWrite keys act).quantum = wv.quantum := rfl
@[simp] theorem Wave.noteWrite_resumed (wv : Wave) (keys : List Nat) (act : Mask) : (wv.noteWrite keys act).resumed = wv.resumed := rfl
@[simp] theorem Wave.noteWrite_bad (wv : Wave) (keys : List Nat) (act : Mask) : (wv.noteWrite keys act).bad = wv.bad := rfl
@[simp] theorem Wave.setLanes_slot (wv : Wave) (r : Nat) (act : Mask) (h : Nat → Lane) : (wv.setLanes r act h).slot = wv.slot := rfl
@[simp] theorem Wave.setLanes_role (wv : Wave) (r : Nat) (act : Mask) (h : Nat → Lane) : (wv.setLanes r act h).role = wv.role := rfl
@[simp] theorem Wave.setLanes_blocks (wv : Wave) (r : Nat) (act : Mask) (h : Nat → Lane) : (wv.setLanes r act h).blocks = wv.blocks := rfl
@[simp] theorem Wave.setLanes_s (wv : Wave) (r : Nat) (act : Mask) (h : Nat → Lane) : (wv.setLanes r act h).s = wv.s := rfl
@[simp] theorem Wave.setLanes_p (wv : Wave) (r : Nat) (act : Mask) (h : Nat → Lane) : (wv.setLanes r act h).p = wv.p := rfl
@[simp] theorem Wave.setLanes_b (wv : Wave) (r : Nat) (act : Mask) (h : Nat → Lane) : (wv.setLanes r act h).b = wv.b := rfl
@[simp] theorem Wave.setLanes_f (wv : Wave) (r : Nat) (act : Mask) (h : Nat → Lane) : (wv.setLanes r act h).f = wv.f := rfl
@[simp] theorem Wave.setLanes_cstamp (wv : Wave) (r : Nat) (act : Mask) (h : Nat → Lane) : (wv.setLanes r act h).cstamp = wv.cstamp := rfl
@[simp] theorem Wave.setLanes_fpstatus (wv : Wave) (r : Nat) (act : Mask) (h : Nat → Lane) : (wv.setLanes r act h).fpstatus = wv.fpstatus := rfl
@[simp] theorem Wave.setLanes_cause (wv : Wave) (r : Nat) (act : Mask) (h : Nat → Lane) : (wv.setLanes r act h).cause = wv.cause := rfl
@[simp] theorem Wave.setLanes_faultaddr (wv : Wave) (r : Nat) (act : Mask) (h : Nat → Lane) : (wv.setLanes r act h).faultaddr = wv.faultaddr := rfl
@[simp] theorem Wave.setLanes_lanemask (wv : Wave) (r : Nat) (act : Mask) (h : Nat → Lane) : (wv.setLanes r act h).lanemask = wv.lanemask := rfl
@[simp] theorem Wave.setLanes_sysstatus (wv : Wave) (r : Nat) (act : Mask) (h : Nat → Lane) : (wv.setLanes r act h).sysstatus = wv.sysstatus := rfl
@[simp] theorem Wave.setLanes_trapbase (wv : Wave) (r : Nat) (act : Mask) (h : Nat → Lane) : (wv.setLanes r act h).trapbase = wv.trapbase := rfl
@[simp] theorem Wave.setLanes_trappos (wv : Wave) (r : Nat) (act : Mask) (h : Nat → Lane) : (wv.setLanes r act h).trappos = wv.trappos := rfl
@[simp] theorem Wave.setLanes_seen (wv : Wave) (r : Nat) (act : Mask) (h : Nat → Lane) : (wv.setLanes r act h).seen = wv.seen := rfl
@[simp] theorem Wave.setLanes_stored (wv : Wave) (r : Nat) (act : Mask) (h : Nat → Lane) : (wv.setLanes r act h).stored = wv.stored := rfl
@[simp] theorem Wave.setLanes_sq (wv : Wave) (r : Nat) (act : Mask) (h : Nat → Lane) : (wv.setLanes r act h).sq = wv.sq := rfl
@[simp] theorem Wave.setLanes_late (wv : Wave) (r : Nat) (act : Mask) (h : Nat → Lane) : (wv.setLanes r act h).late = wv.late := rfl
@[simp] theorem Wave.setLanes_ops (wv : Wave) (r : Nat) (act : Mask) (h : Nat → Lane) : (wv.setLanes r act h).ops = wv.ops := rfl
@[simp] theorem Wave.setLanes_region (wv : Wave) (r : Nat) (act : Mask) (h : Nat → Lane) : (wv.setLanes r act h).region = wv.region := rfl
@[simp] theorem Wave.setLanes_ents (wv : Wave) (r : Nat) (act : Mask) (h : Nat → Lane) : (wv.setLanes r act h).ents = wv.ents := rfl
@[simp] theorem Wave.setLanes_nextEnt (wv : Wave) (r : Nat) (act : Mask) (h : Nat → Lane) : (wv.setLanes r act h).nextEnt = wv.nextEnt := rfl
@[simp] theorem Wave.setLanes_nextPair (wv : Wave) (r : Nat) (act : Mask) (h : Nat → Lane) : (wv.setLanes r act h).nextPair = wv.nextPair := rfl
@[simp] theorem Wave.setLanes_sRace (wv : Wave) (r : Nat) (act : Mask) (h : Nat → Lane) : (wv.setLanes r act h).sRace = wv.sRace := rfl
@[simp] theorem Wave.setLanes_retired (wv : Wave) (r : Nat) (act : Mask) (h : Nat → Lane) : (wv.setLanes r act h).retired = wv.retired := rfl
@[simp] theorem Wave.setLanes_quantum (wv : Wave) (r : Nat) (act : Mask) (h : Nat → Lane) : (wv.setLanes r act h).quantum = wv.quantum := rfl
@[simp] theorem Wave.setLanes_resumed (wv : Wave) (r : Nat) (act : Mask) (h : Nat → Lane) : (wv.setLanes r act h).resumed = wv.resumed := rfl
@[simp] theorem Wave.setLanes_bad (wv : Wave) (r : Nat) (act : Mask) (h : Nat → Lane) : (wv.setLanes r act h).bad = wv.bad := rfl
@[simp] theorem Wave.setS_slot (wv : Wave) (n : Nat) (x : Word) : (wv.setS n x).slot = wv.slot := rfl
@[simp] theorem Wave.setS_role (wv : Wave) (n : Nat) (x : Word) : (wv.setS n x).role = wv.role := rfl
@[simp] theorem Wave.setS_blocks (wv : Wave) (n : Nat) (x : Word) : (wv.setS n x).blocks = wv.blocks := rfl
@[simp] theorem Wave.setS_v (wv : Wave) (n : Nat) (x : Word) : (wv.setS n x).v = wv.v := rfl
@[simp] theorem Wave.setS_p (wv : Wave) (n : Nat) (x : Word) : (wv.setS n x).p = wv.p := rfl
@[simp] theorem Wave.setS_b (wv : Wave) (n : Nat) (x : Word) : (wv.setS n x).b = wv.b := rfl
@[simp] theorem Wave.setS_f (wv : Wave) (n : Nat) (x : Word) : (wv.setS n x).f = wv.f := rfl
@[simp] theorem Wave.setS_cstamp (wv : Wave) (n : Nat) (x : Word) : (wv.setS n x).cstamp = wv.cstamp := rfl
@[simp] theorem Wave.setS_fpstatus (wv : Wave) (n : Nat) (x : Word) : (wv.setS n x).fpstatus = wv.fpstatus := rfl
@[simp] theorem Wave.setS_cause (wv : Wave) (n : Nat) (x : Word) : (wv.setS n x).cause = wv.cause := rfl
@[simp] theorem Wave.setS_faultaddr (wv : Wave) (n : Nat) (x : Word) : (wv.setS n x).faultaddr = wv.faultaddr := rfl
@[simp] theorem Wave.setS_lanemask (wv : Wave) (n : Nat) (x : Word) : (wv.setS n x).lanemask = wv.lanemask := rfl
@[simp] theorem Wave.setS_sysstatus (wv : Wave) (n : Nat) (x : Word) : (wv.setS n x).sysstatus = wv.sysstatus := rfl
@[simp] theorem Wave.setS_trapbase (wv : Wave) (n : Nat) (x : Word) : (wv.setS n x).trapbase = wv.trapbase := rfl
@[simp] theorem Wave.setS_trappos (wv : Wave) (n : Nat) (x : Word) : (wv.setS n x).trappos = wv.trappos := rfl
@[simp] theorem Wave.setS_seen (wv : Wave) (n : Nat) (x : Word) : (wv.setS n x).seen = wv.seen := rfl
@[simp] theorem Wave.setS_stored (wv : Wave) (n : Nat) (x : Word) : (wv.setS n x).stored = wv.stored := rfl
@[simp] theorem Wave.setS_sq (wv : Wave) (n : Nat) (x : Word) : (wv.setS n x).sq = wv.sq := rfl
@[simp] theorem Wave.setS_late (wv : Wave) (n : Nat) (x : Word) : (wv.setS n x).late = wv.late := rfl
@[simp] theorem Wave.setS_ops (wv : Wave) (n : Nat) (x : Word) : (wv.setS n x).ops = wv.ops := rfl
@[simp] theorem Wave.setS_region (wv : Wave) (n : Nat) (x : Word) : (wv.setS n x).region = wv.region := rfl
@[simp] theorem Wave.setS_ents (wv : Wave) (n : Nat) (x : Word) : (wv.setS n x).ents = wv.ents := rfl
@[simp] theorem Wave.setS_nextEnt (wv : Wave) (n : Nat) (x : Word) : (wv.setS n x).nextEnt = wv.nextEnt := rfl
@[simp] theorem Wave.setS_nextPair (wv : Wave) (n : Nat) (x : Word) : (wv.setS n x).nextPair = wv.nextPair := rfl
@[simp] theorem Wave.setS_sRace (wv : Wave) (n : Nat) (x : Word) : (wv.setS n x).sRace = wv.sRace := rfl
@[simp] theorem Wave.setS_retired (wv : Wave) (n : Nat) (x : Word) : (wv.setS n x).retired = wv.retired := rfl
@[simp] theorem Wave.setS_quantum (wv : Wave) (n : Nat) (x : Word) : (wv.setS n x).quantum = wv.quantum := rfl
@[simp] theorem Wave.setS_resumed (wv : Wave) (n : Nat) (x : Word) : (wv.setS n x).resumed = wv.resumed := rfl
@[simp] theorem Wave.setS_bad (wv : Wave) (n : Nat) (x : Word) : (wv.setS n x).bad = wv.bad := rfl
@[simp] theorem Wave.setP_slot (wv : Wave) (p : BitVec 3) (act vals : Mask) : (wv.setP p act vals).slot = wv.slot := by
  unfold Wave.setP; split <;> rfl
@[simp] theorem Wave.setP_role (wv : Wave) (p : BitVec 3) (act vals : Mask) : (wv.setP p act vals).role = wv.role := by
  unfold Wave.setP; split <;> rfl
@[simp] theorem Wave.setP_blocks (wv : Wave) (p : BitVec 3) (act vals : Mask) : (wv.setP p act vals).blocks = wv.blocks := by
  unfold Wave.setP; split <;> rfl
@[simp] theorem Wave.setP_v (wv : Wave) (p : BitVec 3) (act vals : Mask) : (wv.setP p act vals).v = wv.v := by
  unfold Wave.setP; split <;> rfl
@[simp] theorem Wave.setP_s (wv : Wave) (p : BitVec 3) (act vals : Mask) : (wv.setP p act vals).s = wv.s := by
  unfold Wave.setP; split <;> rfl
@[simp] theorem Wave.setP_b (wv : Wave) (p : BitVec 3) (act vals : Mask) : (wv.setP p act vals).b = wv.b := by
  unfold Wave.setP; split <;> rfl
@[simp] theorem Wave.setP_f (wv : Wave) (p : BitVec 3) (act vals : Mask) : (wv.setP p act vals).f = wv.f := by
  unfold Wave.setP; split <;> rfl
@[simp] theorem Wave.setP_cstamp (wv : Wave) (p : BitVec 3) (act vals : Mask) : (wv.setP p act vals).cstamp = wv.cstamp := by
  unfold Wave.setP; split <;> rfl
@[simp] theorem Wave.setP_fpstatus (wv : Wave) (p : BitVec 3) (act vals : Mask) : (wv.setP p act vals).fpstatus = wv.fpstatus := by
  unfold Wave.setP; split <;> rfl
@[simp] theorem Wave.setP_cause (wv : Wave) (p : BitVec 3) (act vals : Mask) : (wv.setP p act vals).cause = wv.cause := by
  unfold Wave.setP; split <;> rfl
@[simp] theorem Wave.setP_faultaddr (wv : Wave) (p : BitVec 3) (act vals : Mask) : (wv.setP p act vals).faultaddr = wv.faultaddr := by
  unfold Wave.setP; split <;> rfl
@[simp] theorem Wave.setP_lanemask (wv : Wave) (p : BitVec 3) (act vals : Mask) : (wv.setP p act vals).lanemask = wv.lanemask := by
  unfold Wave.setP; split <;> rfl
@[simp] theorem Wave.setP_sysstatus (wv : Wave) (p : BitVec 3) (act vals : Mask) : (wv.setP p act vals).sysstatus = wv.sysstatus := by
  unfold Wave.setP; split <;> rfl
@[simp] theorem Wave.setP_trapbase (wv : Wave) (p : BitVec 3) (act vals : Mask) : (wv.setP p act vals).trapbase = wv.trapbase := by
  unfold Wave.setP; split <;> rfl
@[simp] theorem Wave.setP_trappos (wv : Wave) (p : BitVec 3) (act vals : Mask) : (wv.setP p act vals).trappos = wv.trappos := by
  unfold Wave.setP; split <;> rfl
@[simp] theorem Wave.setP_seen (wv : Wave) (p : BitVec 3) (act vals : Mask) : (wv.setP p act vals).seen = wv.seen := by
  unfold Wave.setP; split <;> rfl
@[simp] theorem Wave.setP_stored (wv : Wave) (p : BitVec 3) (act vals : Mask) : (wv.setP p act vals).stored = wv.stored := by
  unfold Wave.setP; split <;> rfl
@[simp] theorem Wave.setP_sq (wv : Wave) (p : BitVec 3) (act vals : Mask) : (wv.setP p act vals).sq = wv.sq := by
  unfold Wave.setP; split <;> rfl
@[simp] theorem Wave.setP_late (wv : Wave) (p : BitVec 3) (act vals : Mask) : (wv.setP p act vals).late = wv.late := by
  unfold Wave.setP; split <;> rfl
@[simp] theorem Wave.setP_ops (wv : Wave) (p : BitVec 3) (act vals : Mask) : (wv.setP p act vals).ops = wv.ops := by
  unfold Wave.setP; split <;> rfl
@[simp] theorem Wave.setP_region (wv : Wave) (p : BitVec 3) (act vals : Mask) : (wv.setP p act vals).region = wv.region := by
  unfold Wave.setP; split <;> rfl
@[simp] theorem Wave.setP_ents (wv : Wave) (p : BitVec 3) (act vals : Mask) : (wv.setP p act vals).ents = wv.ents := by
  unfold Wave.setP; split <;> rfl
@[simp] theorem Wave.setP_nextEnt (wv : Wave) (p : BitVec 3) (act vals : Mask) : (wv.setP p act vals).nextEnt = wv.nextEnt := by
  unfold Wave.setP; split <;> rfl
@[simp] theorem Wave.setP_nextPair (wv : Wave) (p : BitVec 3) (act vals : Mask) : (wv.setP p act vals).nextPair = wv.nextPair := by
  unfold Wave.setP; split <;> rfl
@[simp] theorem Wave.setP_sRace (wv : Wave) (p : BitVec 3) (act vals : Mask) : (wv.setP p act vals).sRace = wv.sRace := by
  unfold Wave.setP; split <;> rfl
@[simp] theorem Wave.setP_retired (wv : Wave) (p : BitVec 3) (act vals : Mask) : (wv.setP p act vals).retired = wv.retired := by
  unfold Wave.setP; split <;> rfl
@[simp] theorem Wave.setP_quantum (wv : Wave) (p : BitVec 3) (act vals : Mask) : (wv.setP p act vals).quantum = wv.quantum := by
  unfold Wave.setP; split <;> rfl
@[simp] theorem Wave.setP_resumed (wv : Wave) (p : BitVec 3) (act vals : Mask) : (wv.setP p act vals).resumed = wv.resumed := by
  unfold Wave.setP; split <;> rfl
@[simp] theorem Wave.setP_bad (wv : Wave) (p : BitVec 3) (act vals : Mask) : (wv.setP p act vals).bad = wv.bad := by
  unfold Wave.setP; split <;> rfl
@[simp] theorem Wave.putP_slot (wv : Wave) (p : BitVec 3) (act vals : Mask) : (wv.putP p act vals).slot = wv.slot := by
  unfold Wave.putP; split <;> simp
@[simp] theorem Wave.putP_role (wv : Wave) (p : BitVec 3) (act vals : Mask) : (wv.putP p act vals).role = wv.role := by
  unfold Wave.putP; split <;> simp
@[simp] theorem Wave.putP_blocks (wv : Wave) (p : BitVec 3) (act vals : Mask) : (wv.putP p act vals).blocks = wv.blocks := by
  unfold Wave.putP; split <;> simp
@[simp] theorem Wave.putP_v (wv : Wave) (p : BitVec 3) (act vals : Mask) : (wv.putP p act vals).v = wv.v := by
  unfold Wave.putP; split <;> simp
@[simp] theorem Wave.putP_s (wv : Wave) (p : BitVec 3) (act vals : Mask) : (wv.putP p act vals).s = wv.s := by
  unfold Wave.putP; split <;> simp
@[simp] theorem Wave.putP_b (wv : Wave) (p : BitVec 3) (act vals : Mask) : (wv.putP p act vals).b = wv.b := by
  unfold Wave.putP; split <;> simp
@[simp] theorem Wave.putP_f (wv : Wave) (p : BitVec 3) (act vals : Mask) : (wv.putP p act vals).f = wv.f := by
  unfold Wave.putP; split <;> simp
@[simp] theorem Wave.putP_cstamp (wv : Wave) (p : BitVec 3) (act vals : Mask) : (wv.putP p act vals).cstamp = wv.cstamp := by
  unfold Wave.putP; split <;> simp
@[simp] theorem Wave.putP_fpstatus (wv : Wave) (p : BitVec 3) (act vals : Mask) : (wv.putP p act vals).fpstatus = wv.fpstatus := by
  unfold Wave.putP; split <;> simp
@[simp] theorem Wave.putP_cause (wv : Wave) (p : BitVec 3) (act vals : Mask) : (wv.putP p act vals).cause = wv.cause := by
  unfold Wave.putP; split <;> simp
@[simp] theorem Wave.putP_faultaddr (wv : Wave) (p : BitVec 3) (act vals : Mask) : (wv.putP p act vals).faultaddr = wv.faultaddr := by
  unfold Wave.putP; split <;> simp
@[simp] theorem Wave.putP_lanemask (wv : Wave) (p : BitVec 3) (act vals : Mask) : (wv.putP p act vals).lanemask = wv.lanemask := by
  unfold Wave.putP; split <;> simp
@[simp] theorem Wave.putP_sysstatus (wv : Wave) (p : BitVec 3) (act vals : Mask) : (wv.putP p act vals).sysstatus = wv.sysstatus := by
  unfold Wave.putP; split <;> simp
@[simp] theorem Wave.putP_trapbase (wv : Wave) (p : BitVec 3) (act vals : Mask) : (wv.putP p act vals).trapbase = wv.trapbase := by
  unfold Wave.putP; split <;> simp
@[simp] theorem Wave.putP_trappos (wv : Wave) (p : BitVec 3) (act vals : Mask) : (wv.putP p act vals).trappos = wv.trappos := by
  unfold Wave.putP; split <;> simp
@[simp] theorem Wave.putP_seen (wv : Wave) (p : BitVec 3) (act vals : Mask) : (wv.putP p act vals).seen = wv.seen := by
  unfold Wave.putP; split <;> simp
@[simp] theorem Wave.putP_stored (wv : Wave) (p : BitVec 3) (act vals : Mask) : (wv.putP p act vals).stored = wv.stored := by
  unfold Wave.putP; split <;> simp
@[simp] theorem Wave.putP_sq (wv : Wave) (p : BitVec 3) (act vals : Mask) : (wv.putP p act vals).sq = wv.sq := by
  unfold Wave.putP; split <;> simp
@[simp] theorem Wave.putP_late (wv : Wave) (p : BitVec 3) (act vals : Mask) : (wv.putP p act vals).late = wv.late := by
  unfold Wave.putP; split <;> simp
@[simp] theorem Wave.putP_region (wv : Wave) (p : BitVec 3) (act vals : Mask) : (wv.putP p act vals).region = wv.region := by
  unfold Wave.putP; split <;> simp
@[simp] theorem Wave.putP_ents (wv : Wave) (p : BitVec 3) (act vals : Mask) : (wv.putP p act vals).ents = wv.ents := by
  unfold Wave.putP; split <;> simp
@[simp] theorem Wave.putP_nextEnt (wv : Wave) (p : BitVec 3) (act vals : Mask) : (wv.putP p act vals).nextEnt = wv.nextEnt := by
  unfold Wave.putP; split <;> simp
@[simp] theorem Wave.putP_nextPair (wv : Wave) (p : BitVec 3) (act vals : Mask) : (wv.putP p act vals).nextPair = wv.nextPair := by
  unfold Wave.putP; split <;> simp
@[simp] theorem Wave.putP_sRace (wv : Wave) (p : BitVec 3) (act vals : Mask) : (wv.putP p act vals).sRace = wv.sRace := by
  unfold Wave.putP; split <;> simp
@[simp] theorem Wave.putP_retired (wv : Wave) (p : BitVec 3) (act vals : Mask) : (wv.putP p act vals).retired = wv.retired := by
  unfold Wave.putP; split <;> simp
@[simp] theorem Wave.putP_quantum (wv : Wave) (p : BitVec 3) (act vals : Mask) : (wv.putP p act vals).quantum = wv.quantum := by
  unfold Wave.putP; split <;> simp
@[simp] theorem Wave.putP_resumed (wv : Wave) (p : BitVec 3) (act vals : Mask) : (wv.putP p act vals).resumed = wv.resumed := by
  unfold Wave.putP; split <;> simp
@[simp] theorem Wave.putP_bad (wv : Wave) (p : BitVec 3) (act vals : Mask) : (wv.putP p act vals).bad = wv.bad := by
  unfold Wave.putP; split <;> simp
@[simp] theorem Wave.mergeStamp_slot (wv : Wave) (x : Option Stamp) : (wv.mergeStamp x).slot = wv.slot := by
  cases x <;> rfl
@[simp] theorem Wave.mergeStamp_role (wv : Wave) (x : Option Stamp) : (wv.mergeStamp x).role = wv.role := by
  cases x <;> rfl
@[simp] theorem Wave.mergeStamp_blocks (wv : Wave) (x : Option Stamp) : (wv.mergeStamp x).blocks = wv.blocks := by
  cases x <;> rfl
@[simp] theorem Wave.mergeStamp_v (wv : Wave) (x : Option Stamp) : (wv.mergeStamp x).v = wv.v := by
  cases x <;> rfl
@[simp] theorem Wave.mergeStamp_s (wv : Wave) (x : Option Stamp) : (wv.mergeStamp x).s = wv.s := by
  cases x <;> rfl
@[simp] theorem Wave.mergeStamp_p (wv : Wave) (x : Option Stamp) : (wv.mergeStamp x).p = wv.p := by
  cases x <;> rfl
@[simp] theorem Wave.mergeStamp_b (wv : Wave) (x : Option Stamp) : (wv.mergeStamp x).b = wv.b := by
  cases x <;> rfl
@[simp] theorem Wave.mergeStamp_f (wv : Wave) (x : Option Stamp) : (wv.mergeStamp x).f = wv.f := by
  cases x <;> rfl
@[simp] theorem Wave.mergeStamp_fpstatus (wv : Wave) (x : Option Stamp) : (wv.mergeStamp x).fpstatus = wv.fpstatus := by
  cases x <;> rfl
@[simp] theorem Wave.mergeStamp_cause (wv : Wave) (x : Option Stamp) : (wv.mergeStamp x).cause = wv.cause := by
  cases x <;> rfl
@[simp] theorem Wave.mergeStamp_faultaddr (wv : Wave) (x : Option Stamp) : (wv.mergeStamp x).faultaddr = wv.faultaddr := by
  cases x <;> rfl
@[simp] theorem Wave.mergeStamp_lanemask (wv : Wave) (x : Option Stamp) : (wv.mergeStamp x).lanemask = wv.lanemask := by
  cases x <;> rfl
@[simp] theorem Wave.mergeStamp_sysstatus (wv : Wave) (x : Option Stamp) : (wv.mergeStamp x).sysstatus = wv.sysstatus := by
  cases x <;> rfl
@[simp] theorem Wave.mergeStamp_trapbase (wv : Wave) (x : Option Stamp) : (wv.mergeStamp x).trapbase = wv.trapbase := by
  cases x <;> rfl
@[simp] theorem Wave.mergeStamp_trappos (wv : Wave) (x : Option Stamp) : (wv.mergeStamp x).trappos = wv.trappos := by
  cases x <;> rfl
@[simp] theorem Wave.mergeStamp_seen (wv : Wave) (x : Option Stamp) : (wv.mergeStamp x).seen = wv.seen := by
  cases x <;> rfl
@[simp] theorem Wave.mergeStamp_stored (wv : Wave) (x : Option Stamp) : (wv.mergeStamp x).stored = wv.stored := by
  cases x <;> rfl
@[simp] theorem Wave.mergeStamp_sq (wv : Wave) (x : Option Stamp) : (wv.mergeStamp x).sq = wv.sq := by
  cases x <;> rfl
@[simp] theorem Wave.mergeStamp_late (wv : Wave) (x : Option Stamp) : (wv.mergeStamp x).late = wv.late := by
  cases x <;> rfl
@[simp] theorem Wave.mergeStamp_ops (wv : Wave) (x : Option Stamp) : (wv.mergeStamp x).ops = wv.ops := by
  cases x <;> rfl
@[simp] theorem Wave.mergeStamp_region (wv : Wave) (x : Option Stamp) : (wv.mergeStamp x).region = wv.region := by
  cases x <;> rfl
@[simp] theorem Wave.mergeStamp_ents (wv : Wave) (x : Option Stamp) : (wv.mergeStamp x).ents = wv.ents := by
  cases x <;> rfl
@[simp] theorem Wave.mergeStamp_nextEnt (wv : Wave) (x : Option Stamp) : (wv.mergeStamp x).nextEnt = wv.nextEnt := by
  cases x <;> rfl
@[simp] theorem Wave.mergeStamp_nextPair (wv : Wave) (x : Option Stamp) : (wv.mergeStamp x).nextPair = wv.nextPair := by
  cases x <;> rfl
@[simp] theorem Wave.mergeStamp_sRace (wv : Wave) (x : Option Stamp) : (wv.mergeStamp x).sRace = wv.sRace := by
  cases x <;> rfl
@[simp] theorem Wave.mergeStamp_retired (wv : Wave) (x : Option Stamp) : (wv.mergeStamp x).retired = wv.retired := by
  cases x <;> rfl
@[simp] theorem Wave.mergeStamp_quantum (wv : Wave) (x : Option Stamp) : (wv.mergeStamp x).quantum = wv.quantum := by
  cases x <;> rfl
@[simp] theorem Wave.mergeStamp_resumed (wv : Wave) (x : Option Stamp) : (wv.mergeStamp x).resumed = wv.resumed := by
  cases x <;> rfl
@[simp] theorem Wave.mergeStamp_bad (wv : Wave) (x : Option Stamp) : (wv.mergeStamp x).bad = wv.bad := by
  cases x <;> rfl
@[simp] theorem Wave.acquire_slot (wv : Wave)  : (wv.acquire).slot = wv.slot := by
  simp [Wave.acquire]
@[simp] theorem Wave.acquire_role (wv : Wave)  : (wv.acquire).role = wv.role := by
  simp [Wave.acquire]
@[simp] theorem Wave.acquire_blocks (wv : Wave)  : (wv.acquire).blocks = wv.blocks := by
  simp [Wave.acquire]
@[simp] theorem Wave.acquire_v (wv : Wave)  : (wv.acquire).v = wv.v := by
  simp [Wave.acquire]
@[simp] theorem Wave.acquire_s (wv : Wave)  : (wv.acquire).s = wv.s := by
  simp [Wave.acquire]
@[simp] theorem Wave.acquire_p (wv : Wave)  : (wv.acquire).p = wv.p := by
  simp [Wave.acquire]
@[simp] theorem Wave.acquire_b (wv : Wave)  : (wv.acquire).b = wv.b := by
  simp [Wave.acquire]
@[simp] theorem Wave.acquire_f (wv : Wave)  : (wv.acquire).f = wv.f := by
  simp [Wave.acquire]
@[simp] theorem Wave.acquire_fpstatus (wv : Wave)  : (wv.acquire).fpstatus = wv.fpstatus := by
  simp [Wave.acquire]
@[simp] theorem Wave.acquire_cause (wv : Wave)  : (wv.acquire).cause = wv.cause := by
  simp [Wave.acquire]
@[simp] theorem Wave.acquire_faultaddr (wv : Wave)  : (wv.acquire).faultaddr = wv.faultaddr := by
  simp [Wave.acquire]
@[simp] theorem Wave.acquire_lanemask (wv : Wave)  : (wv.acquire).lanemask = wv.lanemask := by
  simp [Wave.acquire]
@[simp] theorem Wave.acquire_sysstatus (wv : Wave)  : (wv.acquire).sysstatus = wv.sysstatus := by
  simp [Wave.acquire]
@[simp] theorem Wave.acquire_trapbase (wv : Wave)  : (wv.acquire).trapbase = wv.trapbase := by
  simp [Wave.acquire]
@[simp] theorem Wave.acquire_trappos (wv : Wave)  : (wv.acquire).trappos = wv.trappos := by
  simp [Wave.acquire]
@[simp] theorem Wave.acquire_seen (wv : Wave)  : (wv.acquire).seen = wv.seen := by
  simp [Wave.acquire]
@[simp] theorem Wave.acquire_stored (wv : Wave)  : (wv.acquire).stored = wv.stored := by
  simp [Wave.acquire]
@[simp] theorem Wave.acquire_sq (wv : Wave)  : (wv.acquire).sq = wv.sq := by
  simp [Wave.acquire]
@[simp] theorem Wave.acquire_late (wv : Wave)  : (wv.acquire).late = wv.late := by
  simp [Wave.acquire]
@[simp] theorem Wave.acquire_ops (wv : Wave)  : (wv.acquire).ops = wv.ops := by
  simp [Wave.acquire]
@[simp] theorem Wave.acquire_region (wv : Wave)  : (wv.acquire).region = wv.region := by
  simp [Wave.acquire]
@[simp] theorem Wave.acquire_ents (wv : Wave)  : (wv.acquire).ents = wv.ents := by
  simp [Wave.acquire]
@[simp] theorem Wave.acquire_nextEnt (wv : Wave)  : (wv.acquire).nextEnt = wv.nextEnt := by
  simp [Wave.acquire]
@[simp] theorem Wave.acquire_nextPair (wv : Wave)  : (wv.acquire).nextPair = wv.nextPair := by
  simp [Wave.acquire]
@[simp] theorem Wave.acquire_sRace (wv : Wave)  : (wv.acquire).sRace = wv.sRace := by
  simp [Wave.acquire]
@[simp] theorem Wave.acquire_retired (wv : Wave)  : (wv.acquire).retired = wv.retired := by
  simp [Wave.acquire]
@[simp] theorem Wave.acquire_quantum (wv : Wave)  : (wv.acquire).quantum = wv.quantum := by
  simp [Wave.acquire]
@[simp] theorem Wave.acquire_resumed (wv : Wave)  : (wv.acquire).resumed = wv.resumed := by
  simp [Wave.acquire]
@[simp] theorem Wave.acquire_bad (wv : Wave)  : (wv.acquire).bad = wv.bad := by
  simp [Wave.acquire]
@[simp] theorem Wave.releaseStamps_slot (wv : Wave)  : (wv.releaseStamps).slot = wv.slot := by
  simp [Wave.releaseStamps]
@[simp] theorem Wave.releaseStamps_role (wv : Wave)  : (wv.releaseStamps).role = wv.role := by
  simp [Wave.releaseStamps]
@[simp] theorem Wave.releaseStamps_blocks (wv : Wave)  : (wv.releaseStamps).blocks = wv.blocks := by
  simp [Wave.releaseStamps]
@[simp] theorem Wave.releaseStamps_v (wv : Wave)  : (wv.releaseStamps).v = wv.v := by
  simp [Wave.releaseStamps]
@[simp] theorem Wave.releaseStamps_s (wv : Wave)  : (wv.releaseStamps).s = wv.s := by
  simp [Wave.releaseStamps]
@[simp] theorem Wave.releaseStamps_p (wv : Wave)  : (wv.releaseStamps).p = wv.p := by
  simp [Wave.releaseStamps]
@[simp] theorem Wave.releaseStamps_b (wv : Wave)  : (wv.releaseStamps).b = wv.b := by
  simp [Wave.releaseStamps]
@[simp] theorem Wave.releaseStamps_f (wv : Wave)  : (wv.releaseStamps).f = wv.f := by
  simp [Wave.releaseStamps]
@[simp] theorem Wave.releaseStamps_fpstatus (wv : Wave)  : (wv.releaseStamps).fpstatus = wv.fpstatus := by
  simp [Wave.releaseStamps]
@[simp] theorem Wave.releaseStamps_cause (wv : Wave)  : (wv.releaseStamps).cause = wv.cause := by
  simp [Wave.releaseStamps]
@[simp] theorem Wave.releaseStamps_faultaddr (wv : Wave)  : (wv.releaseStamps).faultaddr = wv.faultaddr := by
  simp [Wave.releaseStamps]
@[simp] theorem Wave.releaseStamps_lanemask (wv : Wave)  : (wv.releaseStamps).lanemask = wv.lanemask := by
  simp [Wave.releaseStamps]
@[simp] theorem Wave.releaseStamps_sysstatus (wv : Wave)  : (wv.releaseStamps).sysstatus = wv.sysstatus := by
  simp [Wave.releaseStamps]
@[simp] theorem Wave.releaseStamps_trapbase (wv : Wave)  : (wv.releaseStamps).trapbase = wv.trapbase := by
  simp [Wave.releaseStamps]
@[simp] theorem Wave.releaseStamps_trappos (wv : Wave)  : (wv.releaseStamps).trappos = wv.trappos := by
  simp [Wave.releaseStamps]
@[simp] theorem Wave.releaseStamps_seen (wv : Wave)  : (wv.releaseStamps).seen = wv.seen := by
  simp [Wave.releaseStamps]
@[simp] theorem Wave.releaseStamps_stored (wv : Wave)  : (wv.releaseStamps).stored = wv.stored := by
  simp [Wave.releaseStamps]
@[simp] theorem Wave.releaseStamps_sq (wv : Wave)  : (wv.releaseStamps).sq = wv.sq := by
  simp [Wave.releaseStamps]
@[simp] theorem Wave.releaseStamps_late (wv : Wave)  : (wv.releaseStamps).late = wv.late := by
  simp [Wave.releaseStamps]
@[simp] theorem Wave.releaseStamps_ops (wv : Wave)  : (wv.releaseStamps).ops = wv.ops := by
  simp [Wave.releaseStamps]
@[simp] theorem Wave.releaseStamps_region (wv : Wave)  : (wv.releaseStamps).region = wv.region := by
  simp [Wave.releaseStamps]
@[simp] theorem Wave.releaseStamps_ents (wv : Wave)  : (wv.releaseStamps).ents = wv.ents := by
  simp [Wave.releaseStamps]
@[simp] theorem Wave.releaseStamps_nextEnt (wv : Wave)  : (wv.releaseStamps).nextEnt = wv.nextEnt := by
  simp [Wave.releaseStamps]
@[simp] theorem Wave.releaseStamps_nextPair (wv : Wave)  : (wv.releaseStamps).nextPair = wv.nextPair := by
  simp [Wave.releaseStamps]
@[simp] theorem Wave.releaseStamps_sRace (wv : Wave)  : (wv.releaseStamps).sRace = wv.sRace := by
  simp [Wave.releaseStamps]
@[simp] theorem Wave.releaseStamps_retired (wv : Wave)  : (wv.releaseStamps).retired = wv.retired := by
  simp [Wave.releaseStamps]
@[simp] theorem Wave.releaseStamps_quantum (wv : Wave)  : (wv.releaseStamps).quantum = wv.quantum := by
  simp [Wave.releaseStamps]
@[simp] theorem Wave.releaseStamps_resumed (wv : Wave)  : (wv.releaseStamps).resumed = wv.resumed := by
  simp [Wave.releaseStamps]
@[simp] theorem Wave.releaseStamps_bad (wv : Wave)  : (wv.releaseStamps).bad = wv.bad := by
  simp [Wave.releaseStamps]
@[simp] theorem Wave.flagUp_slot (wv : Wave) (k : Option Nat) : (wv.flagUp k).slot = wv.slot := by
  cases k <;> rfl
@[simp] theorem Wave.flagUp_role (wv : Wave) (k : Option Nat) : (wv.flagUp k).role = wv.role := by
  cases k <;> rfl
@[simp] theorem Wave.flagUp_blocks (wv : Wave) (k : Option Nat) : (wv.flagUp k).blocks = wv.blocks := by
  cases k <;> rfl
@[simp] theorem Wave.flagUp_v (wv : Wave) (k : Option Nat) : (wv.flagUp k).v = wv.v := by
  cases k <;> rfl
@[simp] theorem Wave.flagUp_s (wv : Wave) (k : Option Nat) : (wv.flagUp k).s = wv.s := by
  cases k <;> rfl
@[simp] theorem Wave.flagUp_p (wv : Wave) (k : Option Nat) : (wv.flagUp k).p = wv.p := by
  cases k <;> rfl
@[simp] theorem Wave.flagUp_b (wv : Wave) (k : Option Nat) : (wv.flagUp k).b = wv.b := by
  cases k <;> rfl
@[simp] theorem Wave.flagUp_cstamp (wv : Wave) (k : Option Nat) : (wv.flagUp k).cstamp = wv.cstamp := by
  cases k <;> rfl
@[simp] theorem Wave.flagUp_fpstatus (wv : Wave) (k : Option Nat) : (wv.flagUp k).fpstatus = wv.fpstatus := by
  cases k <;> rfl
@[simp] theorem Wave.flagUp_cause (wv : Wave) (k : Option Nat) : (wv.flagUp k).cause = wv.cause := by
  cases k <;> rfl
@[simp] theorem Wave.flagUp_faultaddr (wv : Wave) (k : Option Nat) : (wv.flagUp k).faultaddr = wv.faultaddr := by
  cases k <;> rfl
@[simp] theorem Wave.flagUp_lanemask (wv : Wave) (k : Option Nat) : (wv.flagUp k).lanemask = wv.lanemask := by
  cases k <;> rfl
@[simp] theorem Wave.flagUp_sysstatus (wv : Wave) (k : Option Nat) : (wv.flagUp k).sysstatus = wv.sysstatus := by
  cases k <;> rfl
@[simp] theorem Wave.flagUp_trapbase (wv : Wave) (k : Option Nat) : (wv.flagUp k).trapbase = wv.trapbase := by
  cases k <;> rfl
@[simp] theorem Wave.flagUp_trappos (wv : Wave) (k : Option Nat) : (wv.flagUp k).trappos = wv.trappos := by
  cases k <;> rfl
@[simp] theorem Wave.flagUp_seen (wv : Wave) (k : Option Nat) : (wv.flagUp k).seen = wv.seen := by
  cases k <;> rfl
@[simp] theorem Wave.flagUp_stored (wv : Wave) (k : Option Nat) : (wv.flagUp k).stored = wv.stored := by
  cases k <;> rfl
@[simp] theorem Wave.flagUp_sq (wv : Wave) (k : Option Nat) : (wv.flagUp k).sq = wv.sq := by
  cases k <;> rfl
@[simp] theorem Wave.flagUp_late (wv : Wave) (k : Option Nat) : (wv.flagUp k).late = wv.late := by
  cases k <;> rfl
@[simp] theorem Wave.flagUp_ops (wv : Wave) (k : Option Nat) : (wv.flagUp k).ops = wv.ops := by
  cases k <;> rfl
@[simp] theorem Wave.flagUp_region (wv : Wave) (k : Option Nat) : (wv.flagUp k).region = wv.region := by
  cases k <;> rfl
@[simp] theorem Wave.flagUp_ents (wv : Wave) (k : Option Nat) : (wv.flagUp k).ents = wv.ents := by
  cases k <;> rfl
@[simp] theorem Wave.flagUp_nextEnt (wv : Wave) (k : Option Nat) : (wv.flagUp k).nextEnt = wv.nextEnt := by
  cases k <;> rfl
@[simp] theorem Wave.flagUp_nextPair (wv : Wave) (k : Option Nat) : (wv.flagUp k).nextPair = wv.nextPair := by
  cases k <;> rfl
@[simp] theorem Wave.flagUp_sRace (wv : Wave) (k : Option Nat) : (wv.flagUp k).sRace = wv.sRace := by
  cases k <;> rfl
@[simp] theorem Wave.flagUp_retired (wv : Wave) (k : Option Nat) : (wv.flagUp k).retired = wv.retired := by
  cases k <;> rfl
@[simp] theorem Wave.flagUp_quantum (wv : Wave) (k : Option Nat) : (wv.flagUp k).quantum = wv.quantum := by
  cases k <;> rfl
@[simp] theorem Wave.flagUp_resumed (wv : Wave) (k : Option Nat) : (wv.flagUp k).resumed = wv.resumed := by
  cases k <;> rfl
@[simp] theorem Wave.flagUp_bad (wv : Wave) (k : Option Nat) : (wv.flagUp k).bad = wv.bad := by
  cases k <;> rfl
@[simp] theorem Wave.flagDown_slot (wv : Wave) (k : Option Nat) : (wv.flagDown k).slot = wv.slot := by
  cases k <;> rfl
@[simp] theorem Wave.flagDown_role (wv : Wave) (k : Option Nat) : (wv.flagDown k).role = wv.role := by
  cases k <;> rfl
@[simp] theorem Wave.flagDown_blocks (wv : Wave) (k : Option Nat) : (wv.flagDown k).blocks = wv.blocks := by
  cases k <;> rfl
@[simp] theorem Wave.flagDown_v (wv : Wave) (k : Option Nat) : (wv.flagDown k).v = wv.v := by
  cases k <;> rfl
@[simp] theorem Wave.flagDown_s (wv : Wave) (k : Option Nat) : (wv.flagDown k).s = wv.s := by
  cases k <;> rfl
@[simp] theorem Wave.flagDown_p (wv : Wave) (k : Option Nat) : (wv.flagDown k).p = wv.p := by
  cases k <;> rfl
@[simp] theorem Wave.flagDown_b (wv : Wave) (k : Option Nat) : (wv.flagDown k).b = wv.b := by
  cases k <;> rfl
@[simp] theorem Wave.flagDown_cstamp (wv : Wave) (k : Option Nat) : (wv.flagDown k).cstamp = wv.cstamp := by
  cases k <;> rfl
@[simp] theorem Wave.flagDown_fpstatus (wv : Wave) (k : Option Nat) : (wv.flagDown k).fpstatus = wv.fpstatus := by
  cases k <;> rfl
@[simp] theorem Wave.flagDown_cause (wv : Wave) (k : Option Nat) : (wv.flagDown k).cause = wv.cause := by
  cases k <;> rfl
@[simp] theorem Wave.flagDown_faultaddr (wv : Wave) (k : Option Nat) : (wv.flagDown k).faultaddr = wv.faultaddr := by
  cases k <;> rfl
@[simp] theorem Wave.flagDown_lanemask (wv : Wave) (k : Option Nat) : (wv.flagDown k).lanemask = wv.lanemask := by
  cases k <;> rfl
@[simp] theorem Wave.flagDown_sysstatus (wv : Wave) (k : Option Nat) : (wv.flagDown k).sysstatus = wv.sysstatus := by
  cases k <;> rfl
@[simp] theorem Wave.flagDown_trapbase (wv : Wave) (k : Option Nat) : (wv.flagDown k).trapbase = wv.trapbase := by
  cases k <;> rfl
@[simp] theorem Wave.flagDown_trappos (wv : Wave) (k : Option Nat) : (wv.flagDown k).trappos = wv.trappos := by
  cases k <;> rfl
@[simp] theorem Wave.flagDown_seen (wv : Wave) (k : Option Nat) : (wv.flagDown k).seen = wv.seen := by
  cases k <;> rfl
@[simp] theorem Wave.flagDown_stored (wv : Wave) (k : Option Nat) : (wv.flagDown k).stored = wv.stored := by
  cases k <;> rfl
@[simp] theorem Wave.flagDown_sq (wv : Wave) (k : Option Nat) : (wv.flagDown k).sq = wv.sq := by
  cases k <;> rfl
@[simp] theorem Wave.flagDown_late (wv : Wave) (k : Option Nat) : (wv.flagDown k).late = wv.late := by
  cases k <;> rfl
@[simp] theorem Wave.flagDown_ops (wv : Wave) (k : Option Nat) : (wv.flagDown k).ops = wv.ops := by
  cases k <;> rfl
@[simp] theorem Wave.flagDown_region (wv : Wave) (k : Option Nat) : (wv.flagDown k).region = wv.region := by
  cases k <;> rfl
@[simp] theorem Wave.flagDown_ents (wv : Wave) (k : Option Nat) : (wv.flagDown k).ents = wv.ents := by
  cases k <;> rfl
@[simp] theorem Wave.flagDown_nextEnt (wv : Wave) (k : Option Nat) : (wv.flagDown k).nextEnt = wv.nextEnt := by
  cases k <;> rfl
@[simp] theorem Wave.flagDown_nextPair (wv : Wave) (k : Option Nat) : (wv.flagDown k).nextPair = wv.nextPair := by
  cases k <;> rfl
@[simp] theorem Wave.flagDown_sRace (wv : Wave) (k : Option Nat) : (wv.flagDown k).sRace = wv.sRace := by
  cases k <;> rfl
@[simp] theorem Wave.flagDown_retired (wv : Wave) (k : Option Nat) : (wv.flagDown k).retired = wv.retired := by
  cases k <;> rfl
@[simp] theorem Wave.flagDown_quantum (wv : Wave) (k : Option Nat) : (wv.flagDown k).quantum = wv.quantum := by
  cases k <;> rfl
@[simp] theorem Wave.flagDown_resumed (wv : Wave) (k : Option Nat) : (wv.flagDown k).resumed = wv.resumed := by
  cases k <;> rfl
@[simp] theorem Wave.flagDown_bad (wv : Wave) (k : Option Nat) : (wv.flagDown k).bad = wv.bad := by
  cases k <;> rfl

-- Entity --------------------------------------------------------------------------------------------------------------

@[simp] theorem Entity.wake_frag (e : Entity)  : (e.wake).frag = e.frag := rfl
@[simp] theorem Entity.wake_mask (e : Entity)  : (e.wake).mask = e.mask := rfl
@[simp] theorem Entity.wake_hdr (e : Entity)  : (e.wake).hdr = e.hdr := rfl
@[simp] theorem Entity.wake_idx (e : Entity)  : (e.wake).idx = e.idx := rfl
@[simp] theorem Entity.wake_clause (e : Entity)  : (e.wake).clause = e.clause := rfl
@[simp] theorem Entity.wake_pipe (e : Entity)  : (e.wake).pipe = e.pipe := rfl
@[simp] theorem Entity.wake_fault (e : Entity)  : (e.wake).fault = e.fault := rfl
@[simp] theorem Entity.wake_recs (e : Entity)  : (e.wake).recs = e.recs := rfl
@[simp] theorem Entity.wake_entry (e : Entity)  : (e.wake).entry = e.entry := rfl
@[simp] theorem Entity.wake_passed (e : Entity)  : (e.wake).passed = e.passed := rfl
@[simp] theorem Entity.wake_marked (e : Entity)  : (e.wake).marked = e.marked := rfl
@[simp] theorem Entity.wake_skip (e : Entity)  : (e.wake).skip = e.skip := rfl
@[simp] theorem Entity.wake_stage (e : Entity)  : (e.wake).stage = e.stage := rfl
@[simp] theorem Entity.wake_replay (e : Entity)  : (e.wake).replay = e.replay := rfl
@[simp] theorem Entity.wake_stopped (e : Entity)  : (e.wake).stopped = e.stopped := rfl
@[simp] theorem Entity.wake_continued (e : Entity)  : (e.wake).continued = e.continued := rfl
@[simp] theorem Entity.wake_answer (e : Entity)  : (e.wake).answer = e.answer := rfl
@[simp] theorem Entity.wake_waiting (e : Entity)  : (e.wake).waiting = e.waiting := rfl
@[simp] theorem Entity.takeEntry_frag (e : Entity)  : (e.takeEntry).frag = e.frag := by
  unfold Entity.takeEntry; split <;> rfl
@[simp] theorem Entity.takeEntry_mask (e : Entity)  : (e.takeEntry).mask = e.mask := by
  unfold Entity.takeEntry; split <;> rfl
@[simp] theorem Entity.takeEntry_hdr (e : Entity)  : (e.takeEntry).hdr = e.hdr := by
  unfold Entity.takeEntry; split <;> rfl
@[simp] theorem Entity.takeEntry_idx (e : Entity)  : (e.takeEntry).idx = e.idx := by
  unfold Entity.takeEntry; split <;> rfl
@[simp] theorem Entity.takeEntry_clause (e : Entity)  : (e.takeEntry).clause = e.clause := by
  unfold Entity.takeEntry; split <;> rfl
@[simp] theorem Entity.takeEntry_pipe (e : Entity)  : (e.takeEntry).pipe = e.pipe := by
  unfold Entity.takeEntry; split <;> rfl
@[simp] theorem Entity.takeEntry_park (e : Entity)  : (e.takeEntry).park = e.park := by
  unfold Entity.takeEntry; split <;> rfl
@[simp] theorem Entity.takeEntry_fault (e : Entity)  : (e.takeEntry).fault = e.fault := by
  unfold Entity.takeEntry; split <;> rfl
@[simp] theorem Entity.takeEntry_recs (e : Entity)  : (e.takeEntry).recs = e.recs := by
  unfold Entity.takeEntry; split <;> rfl
@[simp] theorem Entity.takeEntry_passed (e : Entity)  : (e.takeEntry).passed = e.passed := by
  unfold Entity.takeEntry; split <;> rfl
@[simp] theorem Entity.takeEntry_marked (e : Entity)  : (e.takeEntry).marked = e.marked := by
  unfold Entity.takeEntry; split <;> rfl
@[simp] theorem Entity.takeEntry_skip (e : Entity)  : (e.takeEntry).skip = e.skip := by
  unfold Entity.takeEntry; split <;> rfl
@[simp] theorem Entity.takeEntry_stage (e : Entity)  : (e.takeEntry).stage = e.stage := by
  unfold Entity.takeEntry; split <;> rfl
@[simp] theorem Entity.takeEntry_replay (e : Entity)  : (e.takeEntry).replay = e.replay := by
  unfold Entity.takeEntry; split <;> rfl
@[simp] theorem Entity.takeEntry_stopped (e : Entity)  : (e.takeEntry).stopped = e.stopped := by
  unfold Entity.takeEntry; split <;> rfl
@[simp] theorem Entity.takeEntry_continued (e : Entity)  : (e.takeEntry).continued = e.continued := by
  unfold Entity.takeEntry; split <;> rfl
@[simp] theorem Entity.takeEntry_answer (e : Entity)  : (e.takeEntry).answer = e.answer := by
  unfold Entity.takeEntry; split <;> rfl
@[simp] theorem Entity.takeEntry_waiting (e : Entity)  : (e.takeEntry).waiting = e.waiting := by
  unfold Entity.takeEntry; split <;> rfl

end Sys2Proof.Machine
end

