-- ==== Sys2Proof/Laws/Table.lean ====
section
/-! SUPPORT. Tables: what is found after an update, and that every update keeps the keys rising; memory: that every
operation over it keeps its canonical form, and what a byte reads as after a write. -/

namespace Sys2Proof

variable {α : Type}

-- Finding after an update --------------------------------------------------------------------------------------------------

@[simp] theorem Table.find_insert_self (t : Table α) (n : Nat) (x : α) : Table.find (Table.insert t n x) n = some x := by
  induction t with
  | nil => simp [Table.insert, Table.find]
  | cons p t ih =>
    simp only [Table.insert]
    split
    · simp [Table.find]
    · split
      · simp [Table.find]
      · rename_i h1 h2
        simp [Table.find, h1, ih]

theorem Table.find_insert_ne (t : Table α) (n m : Nat) (x : α) (h : m ≠ n) :
    Table.find (Table.insert t n x) m = Table.find t m := by
  induction t with
  | nil => simp [Table.insert, Table.find, Ne.symm h]
  | cons p t ih =>
    simp only [Table.insert]
    split
    · rename_i h1
      subst h1
      simp [Table.find, Ne.symm h]
    · split
      · simp [Table.find, Ne.symm h]
      · simp only [Table.find, ih]

@[simp] theorem Table.find_erase_self (t : Table α) (n : Nat) : Table.find (Table.erase t n) n = none := by
  induction t with
  | nil => rfl
  | cons p t ih =>
    simp only [Table.erase]
    split
    · exact ih
    · rename_i h1; simp [Table.find, h1, ih]

theorem Table.find_erase_ne (t : Table α) (n m : Nat) (h : m ≠ n) : Table.find (Table.erase t n) m = Table.find t m := by
  induction t with
  | nil => rfl
  | cons p t ih =>
    simp only [Table.erase]
    split
    · rename_i h1
      subst h1
      simp [Table.find, Ne.symm h, ih]
    · simp only [Table.find, ih]

/-- What a key reads as after a write. -/
theorem Table.read_write [DecidableEq α] (t : Table α) (n m : Nat) (x d : α) :
    Table.read (Table.write t n x d) m d = if m = n then x else Table.read t m d := by
  unfold Table.write Table.read
  split
  · rename_i hx
    split
    · rename_i hm; subst hm; simp [hx]
    · rename_i hm; rw [Table.find_erase_ne t n m hm]
  · split
    · rename_i hm; subst hm; simp
    · rename_i hm; rw [Table.find_insert_ne t n m x hm]

@[simp] theorem Table.find_modify_self (t : Table α) (n : Nat) (f : α → α) :
    Table.find (Table.modify t n f) n = (Table.find t n).map f := by
  unfold Table.modify
  split <;> simp_all

theorem Table.find_modify_ne (t : Table α) (n m : Nat) (f : α → α) (h : m ≠ n) :
    Table.find (Table.modify t n f) m = Table.find t m := by
  unfold Table.modify
  split
  · exact Table.find_insert_ne t n m _ h
  · rfl

@[simp] theorem Table.find_mapValues (t : Table α) (f : Nat → α → α) (n : Nat) :
    Table.find (Table.mapValues t f) n = (Table.find t n).map (f n) := by
  induction t with
  | nil => rfl
  | cons p t ih =>
    simp only [Table.mapValues, List.map_cons, Table.find] at ih ⊢
    split
    · rename_i h; subst h; rfl
    · exact ih

-- Rising keys ---------------------------------------------------------------------------------------------------------------

/-- Every listed key is above a bound. -/
def Table.above (t : Table α) (n : Nat) : Prop := ∀ e ∈ t, n < e.1

theorem Table.rising_cons (k : Nat) (x : α) (t : Table α) :
    Table.rising ((k, x) :: t) = true ↔ Table.above t k ∧ Table.rising t = true := by
  induction t generalizing k x with
  | nil => simp [Table.rising, Table.above]
  | cons p t ih =>
    obtain ⟨k', y⟩ := p
    have h := ih k' y
    simp only [Table.rising, Bool.and_eq_true, decide_eq_true_eq, Table.above, List.mem_cons, forall_eq_or_imp] at h ⊢
    constructor
    · rintro ⟨a, b⟩
      refine ⟨⟨a, fun e he => ?_⟩, b⟩
      have := (h.mp b).1 e he
      omega
    · rintro ⟨⟨a, -⟩, b⟩
      exact ⟨a, b⟩

theorem Table.mem_insert (t : Table α) (n : Nat) (x : α) (e : Nat × α) (h : e ∈ Table.insert t n x) : e = (n, x) ∨ e ∈ t := by
  induction t with
  | nil => simp [Table.insert] at h; exact .inl h
  | cons p t ih =>
    simp only [Table.insert] at h
    split at h
    · rcases List.mem_cons.mp h with h | h
      · exact .inl h
      · exact .inr (List.mem_cons_of_mem _ h)
    · split at h
      · rcases List.mem_cons.mp h with h | h
        · exact .inl h
        · exact .inr h
      · rcases List.mem_cons.mp h with h | h
        · subst h; exact .inr List.mem_cons_self
        · rcases ih h with h | h
          · exact .inl h
          · exact .inr (List.mem_cons_of_mem _ h)

theorem Table.mem_erase (t : Table α) (n : Nat) (e : Nat × α) (h : e ∈ Table.erase t n) : e ∈ t := by
  induction t with
  | nil => simp [Table.erase] at h
  | cons p t ih =>
    simp only [Table.erase] at h
    split at h
    · exact List.mem_cons_of_mem _ (ih h)
    · rcases List.mem_cons.mp h with h | h
      · subst h; exact List.mem_cons_self
      · exact List.mem_cons_of_mem _ (ih h)

theorem Table.rising_insert (t : Table α) (n : Nat) (x : α) (h : Table.rising t = true) : Table.rising (Table.insert t n x) = true := by
  induction t with
  | nil => simp [Table.insert, Table.rising]
  | cons p t ih =>
    obtain ⟨k, y⟩ := p
    have hc := (Table.rising_cons k y t).mp h
    simp only [Table.insert]
    split
    · rename_i h1; subst h1; exact (Table.rising_cons _ _ _).mpr hc
    · split
      · refine (Table.rising_cons _ _ _).mpr ⟨fun e he => ?_, h⟩
        rcases List.mem_cons.mp he with he | he
        · subst he; assumption
        · have := hc.1 e he; omega
      · refine (Table.rising_cons _ _ _).mpr ⟨fun e he => ?_, ih hc.2⟩
        rcases Table.mem_insert t n x e he with he | he
        · subst he; show k < n; omega
        · exact hc.1 e he

theorem Table.rising_erase (t : Table α) (n : Nat) (h : Table.rising t = true) : Table.rising (Table.erase t n) = true := by
  induction t with
  | nil => rfl
  | cons p t ih =>
    obtain ⟨k, y⟩ := p
    have hc := (Table.rising_cons k y t).mp h
    simp only [Table.erase]
    split
    · exact ih hc.2
    · exact (Table.rising_cons _ _ _).mpr ⟨fun e he => hc.1 e (Table.mem_erase t n e he), ih hc.2⟩

theorem Table.rising_drop (t : Table α) (p : Nat → α → Bool) (h : Table.rising t = true) : Table.rising (Table.drop t p) = true := by
  induction t with
  | nil => rfl
  | cons q t ih =>
    obtain ⟨k, y⟩ := q
    have hc := (Table.rising_cons k y t).mp h
    simp only [Table.drop, List.filter_cons] at ih ⊢
    split
    · exact (Table.rising_cons _ _ _).mpr ⟨fun e he => hc.1 e (List.mem_filter.mp he).1, ih hc.2⟩
    · exact ih hc.2

theorem Table.rising_mapValues (t : Table α) (f : Nat → α → α) (h : Table.rising t = true) :
    Table.rising (Table.mapValues t f) = true := by
  induction t with
  | nil => rfl
  | cons q t ih =>
    obtain ⟨k, y⟩ := q
    have hc := (Table.rising_cons k y t).mp h
    refine (Table.rising_cons k (f k y) _).mpr ⟨fun e he => ?_, ih hc.2⟩
    obtain ⟨e', he', rfl⟩ := List.mem_map.mp he
    exact hc.1 e' he'

theorem Table.rising_write [DecidableEq α] (t : Table α) (n : Nat) (x d : α) (h : Table.rising t = true) :
    Table.rising (Table.write t n x d) = true := by
  unfold Table.write
  split
  · exact Table.rising_erase t n h
  · exact Table.rising_insert t n x h

theorem Table.noDefault_write [DecidableEq α] (t : Table α) (n : Nat) (x d : α) (h : Table.noDefault t (fun _ => d) = true) :
    Table.noDefault (Table.write t n x d) (fun _ => d) = true := by
  simp only [Table.noDefault, List.all_eq_true, decide_eq_true_eq] at h ⊢
  intro e he
  unfold Table.write at he
  split at he
  · exact h e (Table.mem_erase t n e he)
  · rcases Table.mem_insert t n x e he with he | he
    · subst he; assumption
    · exact h e he

theorem Table.noDefault_drop [DecidableEq α] (t : Table α) (p : Nat → α → Bool) (d : Nat → α) (h : Table.noDefault t d = true) :
    Table.noDefault (Table.drop t p) d = true := by
  simp only [Table.noDefault, List.all_eq_true, Table.drop] at h ⊢
  exact fun e he => h e (List.mem_filter.mp he).1

end Sys2Proof

namespace Sys2Proof.Machine

open Sys2Proof

-- Memory --------------------------------------------------------------------------------------------------------------------

theorem Memory.wf_iff (m : Table Byte) :
    Memory.wf m = true ↔ Table.rising m = true ∧ Table.noDefault m (fun _ => unlistedByte) = true := by
  simp [Memory.wf]

/-- Memory that lists nothing is in its canonical form. -/
theorem Memory.wf_nil : Memory.wf [] = true := rfl

/-- Writing a byte keeps the canonical form. -/
theorem Memory.wf_writeByte (m : Table Byte) (a : Nat) (b : Byte) (h : Memory.wf m = true) : Memory.wf (writeByte m a b) = true := by
  rw [Memory.wf_iff] at h ⊢
  exact ⟨Table.rising_write m a b _ h.1, Table.noDefault_write m a b _ h.2⟩

/-- Writing bytes keeps the canonical form. -/
theorem Memory.wf_writeBytes (m : Table Byte) (a : Nat) (l : List Byte) (h : Memory.wf m = true) :
    Memory.wf (writeBytes m a l) = true := by
  induction l generalizing m a with
  | nil => exact h
  | cons b t ih => exact ih _ _ (Memory.wf_writeByte m a b h)

/-- Dropping entries keeps the canonical form. -/
theorem Memory.wf_drop (m : Table Byte) (p : Nat → Byte → Bool) (h : Memory.wf m = true) : Memory.wf (Table.drop m p) = true := by
  rw [Memory.wf_iff] at h ⊢
  exact ⟨Table.rising_drop m p h.1, Table.noDefault_drop m p _ h.2⟩

/-- Several writes keep the canonical form. -/
theorem Memory.wf_writes (m : Table Byte) (ws : List (Nat × List Byte)) (h : Memory.wf m = true) :
    Memory.wf (ws.foldl (fun m w => writeBytes m w.1 w.2) m) = true := by
  induction ws generalizing m with
  | nil => exact h
  | cons w t ih => exact ih _ (Memory.wf_writeBytes m w.1 w.2 h)

/-- What an address reads as after a byte is written. -/
theorem Memory.read_writeByte (m : Table Byte) (a a' : Nat) (b : Byte) :
    Table.read (writeByte m a b) a' unlistedByte = if a' = a then b else Table.read m a' unlistedByte :=
  Table.read_write m a a' b _

/-- What an address reads as after bytes are written in ascending order: inside them the byte of its place, elsewhere what
it read as before. -/
theorem Memory.read_writeBytes (m : Table Byte) (a a' : Nat) (l : List Byte) :
    Table.read (writeBytes m a l) a' unlistedByte
      = if a ≤ a' ∧ a' < a + l.length then l.getD (a' - a) 0 else Table.read m a' unlistedByte := by
  induction l generalizing m a with
  | nil => rw [if_neg (by simp only [List.length_nil]; omega)]; rfl
  | cons b t ih =>
    rw [writeBytes, ih, Memory.read_writeByte]
    simp only [List.length_cons]
    by_cases h1 : a' = a
    · subst h1
      have h2 : ¬ (a' + 1 ≤ a' ∧ a' < a' + 1 + t.length) := by omega
      rw [if_neg h2]
      simp
    · by_cases h2 : a + 1 ≤ a' ∧ a' < a + 1 + t.length
      · have h3 : a ≤ a' ∧ a' < a + (t.length + 1) := by omega
        have h4 : a' - a = (a' - (a + 1)) + 1 := by omega
        rw [if_pos h2, if_pos h3, h4]
        rfl
      · have h3 : ¬ (a ≤ a' ∧ a' < a + (t.length + 1)) := by omega
        rw [if_neg h2, if_neg h3, if_neg h1]

end Sys2Proof.Machine
end

