-- ==== Sys2Proof/Laws/Access.lean ====
section
/-! SUPPORT. Groups, waves and entities: what is found after a change of one, and what the view of the instruction at hand
says of the state; registers: what a read gives after a write. -/

namespace Sys2Proof.Machine

open Sys2Proof

-- Finding after a change ------------------------------------------------------------------------------------------------------

@[simp] theorem State.group?_modGroup (s : State) (g : Nat) (f : Group → Group) : (s.modGroup g f).group? g = (s.group? g).map f := by
  simp [State.modGroup, State.group?]

theorem State.group?_modGroup_ne (s : State) (g g' : Nat) (f : Group → Group) (h : g' ≠ g) :
    (s.modGroup g f).group? g' = s.group? g' := by
  simp [State.modGroup, State.group?, Table.find_modify_ne _ _ _ _ h]

@[simp] theorem State.wave?_modWave (s : State) (g w : Nat) (f : Wave → Wave) : (s.modWave g w f).wave? g w = (s.wave? g w).map f := by
  simp only [State.modWave, State.wave?, State.group?_modGroup]
  cases s.group? g with
  | none => rfl
  | some gr => simp [Group.modWave]

theorem State.wave?_modWave_ne (s : State) (g w w' : Nat) (f : Wave → Wave) (h : w' ≠ w) :
    (s.modWave g w f).wave? g w' = s.wave? g w' := by
  simp only [State.modWave, State.wave?, State.group?_modGroup]
  cases s.group? g with
  | none => rfl
  | some gr => simp [Group.modWave, Ne.symm h]

theorem State.wave?_modGroup_ne (s : State) (g g' w : Nat) (f : Group → Group) (h : g' ≠ g) :
    (s.modGroup g f).wave? g' w = s.wave? g' w := by
  simp only [State.wave?, State.group?_modGroup_ne s g g' f h]

theorem State.wave?_modWave_of_ne (s : State) (g g' w w' : Nat) (f : Wave → Wave) (h : g' ≠ g) :
    (s.modWave g w f).wave? g' w' = s.wave? g' w' := State.wave?_modGroup_ne s g g' w' _ h

-- The view of the instruction at hand -------------------------------------------------------------------------------------------

/-- What a view says of its state. -/
theorem State.view?_spec {s : State} {v : View} (h : s.view? = some v) :
    v.a = s.actor ∧ s.group? v.a.g = some v.gr ∧ v.gr.waves[v.a.w]? = some v.wv ∧ s.wave? v.a.g v.a.w = some v.wv ∧
      Table.find v.wv.ents v.a.e = some v.en ∧ v.en.clause = some v.cl := by
  unfold State.view? at h
  match hg : s.group? s.actor.g with
  | none => simp [hg] at h
  | some gr =>
    match hw : gr.waves[s.actor.w]? with
    | none => simp [hg, hw] at h
    | some wv =>
      match he : Table.find wv.ents s.actor.e with
      | none => simp [hg, hw, he] at h
      | some en =>
        simp only [hg, hw, he, Option.map_eq_some_iff] at h
        obtain ⟨cl, hc, rfl⟩ := h
        exact ⟨rfl, hg, hw, by simp [State.wave?, hg, hw], he, hc⟩

theorem Table.modify_const {α : Type} (t : Table α) (n : Nat) (f : α → α) (x : α) (h : Table.find t n = some x) :
    Table.modify t n f = Table.modify t n fun _ => f x := by
  simp [Table.modify, h]

/-- Changing the wave of the instruction at hand puts the changed wave in its place. -/
theorem State.modWave_withWave {s : State} {v : View} (h : s.view? = some v) (f : Wave → Wave) :
    s.modWave v.a.g v.a.w f = s.withWave v (f v.wv) := by
  obtain ⟨-, hg, hw, -⟩ := State.view?_spec h
  have hf : Table.find s.groups v.a.g = some v.gr := hg
  have : v.gr.modWave v.a.w f = v.gr.modWave v.a.w fun _ => f v.wv := by
    simp only [Group.modWave, Group.mk.injEq, true_and, and_true]
    obtain ⟨hlt, hat⟩ := List.getElem?_eq_some_iff.1 hw
    rw [List.modify_eq_take_cons_drop hlt, List.modify_eq_take_cons_drop hlt, hat]
  simp only [State.withWave, State.modWave, State.modGroup]
  rw [Table.modify_const _ _ _ _ hf, Table.modify_const s.groups v.a.g (fun gr => gr.modWave v.a.w fun _ => f v.wv) v.gr hf]
  simp only [this]

theorem Table.insert_insert {α : Type} (t : Table α) (n : Nat) (x y : α) :
    Table.insert (Table.insert t n x) n y = Table.insert t n y := by
  induction t with
  | nil => simp [Table.insert]
  | cons p t ih =>
    simp only [Table.insert]
    split
    · simp [Table.insert]
    · split
      · simp [Table.insert]
      · rename_i h1 h2; simp [Table.insert, h1, h2, ih]

/-- Changing the wave put in place of that of the instruction at hand. -/
theorem State.withWave_modWave {s : State} {v : View} (h : s.view? = some v) (wv : Wave) (f : Wave → Wave) :
    (s.withWave v wv).modWave v.a.g v.a.w f = s.withWave v (f wv) := by
  obtain ⟨-, hg, hw, -⟩ := State.view?_spec h
  have hf : Table.find s.groups v.a.g = some v.gr := hg
  simp only [State.withWave, State.modWave, State.modGroup, Table.modify, hf, Table.find_insert_self, Table.insert_insert]
  congr 2
  simp only [Group.modWave, Group.mk.injEq, true_and, and_true]
  refine List.ext_getElem? fun i => ?_
  simp only [List.getElem?_modify]
  by_cases hi : v.a.w = i
  · subst hi; simp [hw]
  · simp [hi]

@[simp] theorem State.withWave_wave {s : State} {v : View} (h : s.view? = some v) (wv : Wave) :
    (s.withWave v wv).wave? v.a.g v.a.w = some wv := by
  obtain ⟨-, -, -, hw, -⟩ := State.view?_spec h
  simp [State.withWave, hw]

-- Registers ---------------------------------------------------------------------------------------------------------------------

/-- A v-register in a thread after a write of one in some threads (R40). -/
theorem Wave.vLane_setLanes (wv : Wave) (r k t : Nat) (act : Mask) (f : Nat → Lane) (ht : t < 64) :
    (wv.setLanes r act f).vLane k t = if act.getLsbD t && k == r then f t else wv.vLane k t := by
  simp only [Wave.vLane, Wave.setLanes, Table.read_write, Bool.and_eq_true, beq_iff_eq]
  by_cases hk : k = r
  · subst hk
    simp only [if_true, and_true]
    rw [List.getD_eq_getElem?_getD, List.getElem?_map, List.getElem?_range ht]
    simp
  · simp [hk]

/-- An s-register after a write of one. -/
theorem Wave.sReg_setS (wv : Wave) (n k : Nat) (x : Word) : (wv.setS n x).sReg k = if k = n then x else wv.sReg k := by
  simp [Wave.sReg, Wave.setS, Table.read_write]

@[simp] theorem Wave.vLane_noteWrite (wv : Wave) (keys : List Nat) (act : Mask) (k t : Nat) :
    (wv.noteWrite keys act).vLane k t = wv.vLane k t := rfl

@[simp] theorem Wave.sReg_noteWrite (wv : Wave) (keys : List Nat) (act : Mask) (k : Nat) :
    (wv.noteWrite keys act).sReg k = wv.sReg k := rfl

/-- A predicate after a write of one (R40): p7 keeps reading true in every thread. -/
theorem Wave.pReg_setP (wv : Wave) (p q : BitVec 3) (act vals : Mask) :
    (wv.setP p act vals).pReg q = if q = p ∧ p ≠ 7 then (wv.pReg p &&& ~~~act) ||| (vals &&& act) else wv.pReg q := by
  unfold Wave.setP
  by_cases hp : p = 7
  · simp [hp]
  · by_cases hq : q = 7
    · have : ¬ q = p := fun e => hp (e ▸ hq)
      simp [hq, Wave.pReg]
      intro e; exact absurd e.symm hp
    · simp only [hp, if_false, Wave.pReg, hq, Table.read_write]
      by_cases e : q = p
      · subst e; simp; intro h; exact absurd h hq
      · have : ¬ q.toNat = p.toNat := fun h => e (BitVec.eq_of_toNat_eq h)
        simp [e, this]

theorem Wave.pReg_putP (wv : Wave) (p q : BitVec 3) (act vals : Mask) :
    (wv.putP p act vals).pReg q = if q = p ∧ p ≠ 7 then (wv.pReg p &&& ~~~act) ||| (vals &&& act) else wv.pReg q := by
  unfold Wave.putP
  split
  · rw [Wave.pReg_setP]; rfl
  · rw [Wave.pReg_setP]

end Sys2Proof.Machine
end

