-- ==== Sys2Proof/Laws/Checks.lean ====
section
/-! SUPPORT. The shared checks: what an instruction does that passes them. -/

namespace Sys2Proof.Machine

open Sys2Proof

/-- An instruction that passes its checks has its effect. -/
theorem instr_acts {m : Meta} {s : State} {v : View} (h : Acts m s v) (effect : View → Mask → State) :
    instr m s effect = .next (effect v (v.acting m)) := by
  have h1 : m.vregs.any (16 * v.wv.blocks ≤ ·) = false := by
    simp only [List.any_eq_false, decide_eq_true_eq, Nat.not_le]
    exact h.regs
  have h2 : (m.drains && v.wv.inFlight v.a.e) = false := by
    cases hd : m.drains <;> simp [h.drained, hd]
  have h3 : (v.wv.region.isSome && !m.inRegion) = false := by
    rcases h.region with hr | hr <;> simp [hr]
  have h4 : (m.sys && !s.sysPriv v.gr.ctx) = false := by
    cases hd : m.sys <;> simp [h.priv, hd]
  have h6 : (m.long.bind flagIndex).any (fun f => decide (15 ≤ v.wv.pending f)) = false := by
    cases hl : m.long with
    | none => rfl
    | some f =>
      cases hf : flagIndex f with
      | none => simp [hf]
      | some k => simpa [hf] using h.room f k hl hf
  have h5 : ¬ (m.ends = true ∧ s.det v.gr = true ∧ v.wv.quantum ≠ .granted v.a.e) := fun ⟨a, b, c⟩ => c (h.boundary a b)
  unfold instr
  rw [h.view]
  simp only [h1, h.place, h2, h.acting, h3, h4, h6, Bool.not_true, Bool.false_eq_true, ite_false]
  split
  · rename_i x
    simp only [Bool.and_eq_true, decide_eq_true_eq, ne_eq] at x
    exact absurd ⟨x.1.1, x.1.2, x.2⟩ h5
  · rfl

end Sys2Proof.Machine
end

