-- ==== Sys2Proof/Laws/Retire.lean ====
section
/-! SUPPORT. What retiring the instruction at hand does, once for all: where its entity stands, and what of its wave may
change; and the same for issuing a long-latency instruction. -/

namespace Sys2Proof.Machine

open Sys2Proof

/-- Retiring an instruction that changes its wave by `f` puts the changed and stepped wave in place. -/
theorem State.retireWith_eq {s : State} {v : View} (h : s.view? = some v) (f : Wave → Wave) :
    s.retireWith v f =
      s.withWave v ((f v.wv).step (s.det v.gr) (s.quantumOf v.gr) v.a.e fun e => e.advance v.cl 1) := by
  have hd : ∀ x, (s.withWave v x).det v.gr = s.det v.gr := fun _ => rfl
  have hq : ∀ x, (s.withWave v x).quantumOf v.gr = s.quantumOf v.gr := fun _ => rfl
  simp only [State.retireWith, State.retire, State.modWave_withWave h, State.withWave_modWave h, hd, hq]

theorem State.retire_eq {s : State} {v : View} (h : s.view? = some v) (n : Nat) :
    s.retire v n = s.withWave v (v.wv.step (s.det v.gr) (s.quantumOf v.gr) v.a.e fun e => e.advance v.cl n) := by
  simp only [State.retire, State.modWave_withWave h]

theorem State.retireTo_eq {s : State} {v : View} (h : s.view? = some v) (hdr : Word) :
    s.retireTo v hdr = s.withWave v (v.wv.step (s.det v.gr) (s.quantumOf v.gr) v.a.e fun e => e.jump hdr) := by
  simp only [State.retireTo, State.modWave_withWave h]

@[simp] theorem Wave.modEnt_find (wv : Wave) (e : Nat) (f : Entity → Entity) :
    Table.find (wv.modEnt e f).ents e = (Table.find wv.ents e).map f := by
  simp [Wave.modEnt]

theorem Wave.modEnt_find_ne (wv : Wave) (e k : Nat) (f : Entity → Entity) (h : k ≠ e) :
    Table.find (wv.modEnt e f).ents k = Table.find wv.ents k := by
  simp [Wave.modEnt, Table.find_modify_ne _ _ _ _ h]

/-- The counting of a retired instruction changes only the quantum's account and the entity's pipe. -/
theorem Wave.countRetired_frame (wv : Wave) (det : Bool) (q e : Nat) :
    wv.countRetired det q e = { wv with
      ents := (wv.countRetired det q e).ents
      retired := (wv.countRetired det q e).retired
      quantum := (wv.countRetired det q e).quantum } := by
  unfold Wave.countRetired
  split
  · rfl
  · simp only
    split
    · split <;> rfl
    · rfl

theorem Wave.countRetired_self (wv : Wave) (det : Bool) (q e : Nat) (x : Entity) (h : Table.find wv.ents e = some x) :
    ∃ p, Table.find (wv.countRetired det q e).ents e = some { x with pipe := p } := by
  unfold Wave.countRetired
  split
  · exact ⟨x.pipe, h⟩
  · simp only
    split
    · split
      · exact ⟨none, by simp [h]⟩
      · exact ⟨x.pipe, h⟩
    · exact ⟨none, by simp [h]⟩

theorem Wave.countRetired_others (wv : Wave) (det : Bool) (q e k : Nat) (h : k ≠ e) :
    Table.find (wv.countRetired det q e).ents k = Table.find wv.ents k := by
  unfold Wave.countRetired
  split
  · rfl
  · simp only
    split
    · split
      · simp [Wave.modEnt_find_ne _ _ _ _ h]
      · rfl
    · simp [Wave.modEnt_find_ne _ _ _ _ h]

/-- A stepped wave is the wave but for its entities, windows and quantum's account. -/
theorem Wave.step_frame (wv : Wave) (det : Bool) (q e : Nat) (f : Entity → Entity) :
    wv.step det q e f = { wv with
      ents := (wv.step det q e f).ents
      ops := (wv.step det q e f).ops
      retired := (wv.step det q e f).retired
      quantum := (wv.step det q e f).quantum } := by
  unfold Wave.step
  rw [Wave.countRetired_frame]
  rfl

theorem Wave.step_self (wv : Wave) (det : Bool) (q e : Nat) (f : Entity → Entity) (x : Entity) (h : Table.find wv.ents e = some x) :
    ∃ p, Table.find (wv.step det q e f).ents e = some { f x with pipe := p } :=
  Wave.countRetired_self _ det q e (f x) (by simp [Wave.modEnt_find, Wave.narrow, h])

theorem Wave.step_others (wv : Wave) (det : Bool) (q e k : Nat) (f : Entity → Entity) (h : k ≠ e) :
    Table.find (wv.step det q e f).ents k = Table.find wv.ents k := by
  unfold Wave.step
  rw [Wave.countRetired_others _ _ _ _ _ h, Wave.modEnt_find_ne _ _ _ _ h]
  rfl

theorem Wave.step_ops (wv : Wave) (det : Bool) (q e : Nat) (f : Entity → Entity) :
    (wv.step det q e f).ops = (wv.narrow e).ops := by
  unfold Wave.step
  rw [Wave.countRetired_frame]
  rfl

theorem sameOps_refl (a : Wave) : sameOps a a := rfl

theorem sameOps_trans {a b c : Wave} (h : sameOps a b) (h' : sameOps b c) : sameOps a c := Eq.trans h' h

theorem sameOps_of_ops {a b : Wave} (h : b.ops = a.ops) : sameOps a b := by simp [sameOps, h]

theorem sameOps_narrow (wv : Wave) (e : Nat) : sameOps wv (wv.narrow e) := by
  simp only [sameOps, Wave.narrow, Table.mapValues, List.map_map]
  refine List.map_congr_left fun o _ => ?_
  simp only [Function.comp]
  split <;> rfl

theorem LongOp.note_same (o : LongOp) (keys : List Nat) (note : LongOp → Nat → LongOp)
    (h : ∀ x k, (note x k).ent = x.ent ∧ (note x k).mask = x.mask ∧ (note x k).fl = x.fl ∧ (note x k).body = x.body) :
    (keys.foldl note o).ent = o.ent ∧ (keys.foldl note o).mask = o.mask ∧ (keys.foldl note o).fl = o.fl ∧ (keys.foldl note o).body = o.body := by
  induction keys generalizing o with
  | nil => exact ⟨rfl, rfl, rfl, rfl⟩
  | cons k t ih =>
    obtain ⟨a, b, c, d⟩ := ih (note o k)
    obtain ⟨a', b', c', d'⟩ := h o k
    exact ⟨a.trans a', b.trans b', c.trans c', d.trans d'⟩

theorem sameOps_noteWrite (wv : Wave) (keys : List Nat) (act : Mask) : sameOps wv (wv.noteWrite keys act) := by
  simp only [sameOps, Wave.noteWrite, Table.mapValues, List.map_map]
  refine List.map_congr_left fun o _ => ?_
  simp only [Function.comp]
  obtain ⟨a, b, c, d⟩ := LongOp.note_same o.2 keys (fun o k =>
    if o.body.dests.contains k then { o with clob := Table.write o.clob k (Table.read o.clob k 0 ||| act) 0 } else o)
    (by intro x k; split <;> simp)
  simp only [a, b, c, d]

theorem sameOps_step (wv : Wave) (det : Bool) (q e : Nat) (f : Entity → Entity) : sameOps wv (wv.step det q e f) := by
  have := sameOps_narrow wv e
  simpa only [sameOps, Wave.step_ops] using this

theorem Entity.takeEntry_hdr_idx (e : Entity) : (e.takeEntry.hdr, e.takeEntry.idx) = (e.hdr, e.idx) := by simp

/-- Where an entity stands after it has advanced. -/
theorem Entity.advance_spec (v : View) (n : Nat) :
    let e := v.en.advance v.cl n
    (e.hdr, e.idx) = v.after n ∧ e.mask = v.en.mask ∧ e.recs = v.en.recs ∧ e.park = v.en.park ∧ e.frag = v.en.frag ∧
      e.fault = none ∧ e.stage = 0 := by
  simp only [Entity.advance, View.after, View.nextHdr, Entity.takeEntry_idx]
  split <;> simp

/-- Retiring by `n` slots moves the entity there and no other. -/
theorem Wave.step_moved {s : State} {v : View} (h : s.view? = some v) (wv : Wave) (hw : wv.ents = v.wv.ents) (det : Bool) (q n : Nat) :
    Moved v (v.after n) (wv.step det q v.a.e fun e => e.advance v.cl n) := by
  obtain ⟨-, -, -, -, he, -⟩ := State.view?_spec h
  refine ⟨?_, fun k hk => ?_⟩
  · obtain ⟨p, hp⟩ := Wave.step_self wv det q v.a.e (fun e => e.advance v.cl n) v.en (by rw [hw]; exact he)
    obtain ⟨a, b, c, d, e, f, g⟩ := Entity.advance_spec v n
    exact ⟨_, hp, a, b, c, d, e, f, g⟩
  · rw [Wave.step_others _ _ _ _ _ _ hk, hw]

/-- What retiring an instruction that writes nothing does. -/
theorem State.retire_plain {s : State} {v : View} (h : s.view? = some v) (n : Nat) :
    ∃ wv, s.retire v n = s.withWave v wv ∧ Plain v (v.after n) wv :=
  ⟨_, State.retire_eq h n, Wave.step_moved h v.wv rfl _ _ n, sameOps_step _ _ _ _ _, Wave.step_frame _ _ _ _ _⟩

theorem Wave.pending_flagUp (wv : Wave) (x : Option Nat) (k : Nat) :
    (wv.flagUp x).pending k = if x = some k then wv.pending k + 1 else wv.pending k := by
  cases x with
  | none => simp [Wave.flagUp]
  | some n =>
    simp only [Wave.flagUp, Wave.pending, Table.read_write, Option.some.injEq]
    by_cases h : k = n
    · subst h; simp
    · simp [h, Ne.symm h]

/-- What issuing a long-latency instruction does: the number is used, and the wave has issued it. -/
theorem State.issueLong_spec {s : State} {v : View} (h : s.view? = some v) (f : Flag) (act : Mask) (uni : Bool) (body : OpBody)
    (ready : Bool) (refused : List Denied) :
    ∃ wv, s.issueLong v f act uni body ready refused = s.numbered.withWave v wv
      ∧ Issued v s.nextId f act uni (fun o => o.body = body ∧ o.ready = ready ∧ o.refused = refused) wv := by
  have h' : s.numbered.view? = some v := h
  have hs : ({ s with nextId := s.nextId + 1 } : State) = s.numbered := rfl
  have hp : Plain v (v.after 1) (v.wv.step (s.det v.gr) (s.quantumOf v.gr) v.a.e fun e => e.advance v.cl 1) :=
    ⟨Wave.step_moved h v.wv rfl _ _ 1, sameOps_step _ _ _ _ _, Wave.step_frame _ _ _ _ _⟩
  have ho : (v.wv.step (s.det v.gr) (s.quantumOf v.gr) v.a.e fun e => e.advance v.cl 1).ops = (v.wv.narrow v.a.e).ops :=
    Wave.step_ops _ _ _ _ _
  have hr : s.numbered.retire v 1 = s.numbered.withWave v (v.wv.step (s.det v.gr) (s.quantumOf v.gr) v.a.e fun e => e.advance v.cl 1) :=
    State.retire_eq h' 1
  generalize v.wv.step (s.det v.gr) (s.quantumOf v.gr) v.a.e (fun e => e.advance v.cl 1) = wv at hp ho hr
  unfold State.issueLong
  simp only [hs, hr, State.withWave_modWave h']
  refine ⟨_, rfl, ⟨?_, ?_, ?_⟩, ?_, ?_⟩
  · exact ⟨_, Table.find_insert_self _ _ _, rfl, rfl, rfl, rfl, rfl, rfl, rfl, rfl, rfl, rfl⟩
  · intro k hk
    rw [Table.find_insert_ne _ _ _ _ hk, ho]
    unfold Wave.narrow
    simp only [Table.find_mapValues]
    cases Table.find v.wv.ops k with
    | none => rfl
    | some o => simp only [Option.map_some]; split <;> rfl
  · intro k
    have : ∀ x : Table LongOp, ({ (wv.flagUp (flagIndex f)) with ops := x } : Wave).pending k = (wv.flagUp (flagIndex f)).pending k := fun _ => rfl
    rw [this, Wave.pending_flagUp, hp.frame]
    rfl
  · have e : (wv.flagUp (flagIndex f)).ents = wv.ents := by simp
    obtain ⟨a, b⟩ := hp.moved
    constructor
    · simpa only [e] using a
    · simpa only [e] using b
  · have hf := hp.frame
    generalize flagIndex f = x
    cases x with
    | none =>
      simp only [Wave.flagUp]
      rw [hf]
    | some n =>
      simp only [Wave.flagUp]
      rw [hf]

end Sys2Proof.Machine
end

