-- ==== Sys2Proof/Laws/Alu.lean ====
section
/-! SUPPORT. What writing a register operand does, and what the shared form of the class-0 instructions does. -/

namespace Sys2Proof.Machine

open Sys2Proof

/-- The flags of a list of results: each that one of them raises. -/
theorem orFlags_bit (l : List (Word × Flags)) (k : Nat) : (orFlags l).getLsbD k = true ↔ ∃ p ∈ l, p.2.getLsbD k = true := by
  have : ∀ a : Flags, (l.foldl (fun a p => a ||| p.2) a).getLsbD k = true ↔ a.getLsbD k = true ∨ ∃ p ∈ l, p.2.getLsbD k = true := by
    induction l with
    | nil => simp
    | cons p t ih => intro a; simp [ih, or_assoc]
  simpa [orFlags] using this 0

/-- The flags of an instruction are those of the threads that compute (R94). -/
theorem perThread_flags (d : Reg) (act : Mask) (f : Nat → Word × Flags) (k : Nat) :
    (orFlags (perThread d act f)).getLsbD k = true ↔ ∃ t, Computes d act t ∧ (f t).2.getLsbD k = true := by
  rw [orFlags_bit]
  unfold perThread Computes
  cases d.isS with
  | true => simp
  | false =>
    simp only [Bool.false_eq_true, if_false, List.mem_map, List.mem_range]
    constructor
    · rintro ⟨p, ⟨t, ht, rfl⟩, h⟩
      split at h
      · exact ⟨t, ⟨ht, by assumption⟩, h⟩
      · simp at h
    · rintro ⟨t, ⟨ht, ha⟩, h⟩
      exact ⟨_, ⟨t, ht, rfl⟩, by simpa [ha] using h⟩

/-- Writing a register operand writes it and no other, and leaves the rest of the wave. -/
theorem writeReg_spec (wv : Wave) (tick e : Nat) (d : Reg) (wide : Bool) (act : Mask) (f : Nat → Word) (g : Nat → Word)
    (hv : d.isS = false → ∀ t, t < 64 → act.getLsbD t = true → f t = g t) (hs : d.isS = true → f 0 = g (lowest act)) :
    Wrote wv (wv.writeReg tick e d wide act f) d wide act g ∧ sameOps wv (wv.writeReg tick e d wide act f)
    ∧ (wv.writeReg tick e d wide act f).ents = wv.ents ∧
    wv.writeReg tick e d wide act f = { wv with
      v := (wv.writeReg tick e d wide act f).v
      s := (wv.writeReg tick e d wide act f).s
      sRace := (wv.writeReg tick e d wide act f).sRace
      ops := (wv.writeReg tick e d wide act f).ops } := by
  cases d with
  | v n =>
    simp only [Wave.writeReg, Wave.writeV]
    refine ⟨?_, ?_, ?_, ?_⟩
    · refine ⟨by cases wide <;> rfl, fun k t ht => ?_⟩
      cases wide with
      | true =>
        simp only [if_true, Wave.vLane_setLanes _ _ _ _ _ _ ht, Wave.vLane_noteWrite, Bool.and_true]
        by_cases ha : act.getLsbD t
        · simp only [ha, Bool.true_and, beq_iff_eq, hv rfl t ht ha]
          by_cases h1 : k = n.toNat + 1
          · have : ¬ k = n.toNat := by omega
            simp [h1]
          · simp [h1]
        · simp [ha]
      | false =>
        simp only [Bool.false_eq_true, if_false, Wave.vLane_setLanes _ _ _ _ _ _ ht, Wave.vLane_noteWrite, Bool.and_false, Bool.false_and]
        by_cases ha : act.getLsbD t
        · simp [ha, hv rfl t ht ha]
        · simp [ha]
    · cases wide <;> exact sameOps_noteWrite _ _ _
    · cases wide <;> rfl
    · cases wide <;> rfl
  | s n =>
    have h := hs rfl
    simp only [Wave.writeReg, Wave.writeS]
    by_cases hl : wv.ents.length ≤ 1
    · have hl' : (wv.noteWrite [256 + n.toNat] (BitVec.allOnes 64)).ents.length ≤ 1 := hl
      simp only [hl', if_true]
      refine ⟨⟨rfl, fun k hk => ?_, .inl ?_⟩, sameOps_noteWrite _ _ _, rfl, rfl⟩
      · simp [Wave.sReg_setS, hk]
      · simp [Wave.sReg_setS, h]
    · have hl' : ¬ (wv.noteWrite [256 + n.toNat] (BitVec.allOnes 64)).ents.length ≤ 1 := hl
      simp only [hl', if_false]
      split <;> (try split) <;> first
        | exact ⟨⟨rfl, fun k hk => by show (Wave.setS _ _ _).sReg k = _; simp [Wave.sReg_setS, hk],
            .inl (by show (Wave.setS _ _ _).sReg n.toNat = _; simp [Wave.sReg_setS, h])⟩, sameOps_noteWrite _ _ _, rfl, rfl⟩
        | exact ⟨⟨rfl, fun k hk => rfl, .inr ⟨by omega, rfl⟩⟩, sameOps_noteWrite _ _ _, rfl, rfl⟩

/-- What the shared form of class 0 does where its checks pass. -/
theorem aluFixed_spec (g : Guard) (d : Reg) (wide : Bool) (vregs : List Nat) (s : State) (v : View) (f : View → Nat → Word × Flags)
    (hA : Acts (plainMeta g (!d.isS) vregs) s v) :
    ∃ wv, aluFixed g d wide vregs s f = .next (s.withWave v wv)
      ∧ Wrote v.wv wv d wide (v.acting (plainMeta g (!d.isS) vregs)) (fun t => (f v t).1)
      ∧ Raised v.wv wv (Computes d (v.acting (plainMeta g (!d.isS) vregs))) (fun t => (f v t).2)
      ∧ Moved v (v.after 1) wv ∧ sameOps v.wv wv
      ∧ wv = { v.wv with
          v := wv.v
          s := wv.s
          fpstatus := wv.fpstatus
          sRace := wv.sRace
          ents := wv.ents
          ops := wv.ops
          retired := wv.retired
          quantum := wv.quantum } := by
  unfold aluFixed
  rw [show ({ guard := g, lane := !d.isS, vregs := vregs, inRegion := true } : Meta) = plainMeta g (!d.isS) vregs from rfl, instr_acts hA]
  simp only [State.retireWith_eq hA.view]
  generalize hact : v.acting (plainMeta g (!d.isS) vregs) = act
  obtain ⟨hW, hO, hE, hF⟩ := writeReg_spec v.wv s.tick v.a.e d wide act (fun t => ((perThread d act (f v)).getD t (0,0)).1) (fun t => (f v t).1)
    (by
      intro hd t ht ha
      unfold perThread
      simp [hd, ht, ha])
    (by intro hd; simp [perThread, hd])
  generalize v.wv.writeReg s.tick v.a.e d wide act (fun t => ((perThread d act (f v)).getD t (0,0)).1) = x at hW hO hE hF
  have hF' : ∃ a b c d, x = { v.wv with v := a, s := b, sRace := c, ops := d } := ⟨_, _, _, _, hF⟩
  clear hF
  obtain ⟨a, b, c, o, rfl⟩ := hF'
  refine ⟨_, rfl, ?_, ?_, ?_, ?_, ?_⟩
  · unfold Wrote at hW ⊢
    cases d with
    | v n =>
      simp only [Wave.vLane] at hW ⊢
      rw [Wave.step_frame]
      exact hW
    | s n =>
      simp only [Wave.sReg] at hW ⊢
      rw [Wave.step_frame]
      exact hW
  · intro k
    rw [Wave.step_frame, ← perThread_flags]
    simp [Wave.raise]
  · refine Wave.step_moved hA.view (Wave.raise _ _) ?_ _ _ _
    rfl
  · refine sameOps_trans ?_ (sameOps_step (Wave.raise _ _) _ _ _ _)
    exact hO
  · rw [Wave.step_frame]
    rfl

/-- What the shared long-latency form of class 0 does where its checks pass. -/
theorem aluLong_spec (g : Guard) (fg : Flag) (ty : Ty) (d : Reg) (vregs : List Nat) (s : State) (v : View) (f : View → Nat → Word × Flags)
    (hA : Acts { plainMeta g (!d.isS) vregs with long := some fg } s v) :
    ∃ wv vals fl, aluLong g fg ty d vregs s f = .next (s.numbered.withWave v wv)
      ∧ Issued v s.nextId fg (v.acting { plainMeta g (!d.isS) vregs with long := some fg }) d.isS (fun o => o.body = .alu d ty vals fl ∧ o.ready = true ∧ o.refused = []) wv
      ∧ (∀ t, Computes d (v.acting { plainMeta g (!d.isS) vregs with long := some fg }) t → vals.getD (if d.isS then 0 else t) 0 = (f v t).1)
      ∧ (∀ b, fl.getLsbD b = true ↔ ∃ t, Computes d (v.acting { plainMeta g (!d.isS) vregs with long := some fg }) t ∧ (f v t).2.getLsbD b = true) := by
  unfold aluLong
  rw [show ({ guard := g, lane := !d.isS, vregs := vregs, inRegion := true, long := some fg } : Meta) = { plainMeta g (!d.isS) vregs with long := some fg } from rfl, instr_acts hA]
  generalize v.acting { plainMeta g (!d.isS) vregs with long := some fg } = act
  obtain ⟨wv, h1, h2⟩ := State.issueLong_spec hA.view fg act d.isS (.alu d ty ((perThread d act (f v)).map (·.1)) (orFlags (perThread d act (f v)))) true []
  refine ⟨wv, _, _, congrArg _ h1, h2, ?_, fun b => perThread_flags d act (f v) b⟩
  intro t ht
  unfold perThread Computes at *
  cases hd : d.isS with
  | true => simp [hd] at ht ⊢; rw [ht]
  | false =>
    simp only [hd, Bool.false_eq_true, if_false] at ht ⊢
    simp [ht.1, ht.2]

/-- The threads of a mask. -/
theorem threads_mem (act : Mask) (t : Nat) : t ∈ threads act ↔ t < 64 ∧ act.getLsbD t = true := by
  simp [threads]

/-- Writing a predicate leaves the rest of the wave. -/
theorem putP_shape (wv : Wave) (p : BitVec 3) (act vals : Mask) :
    (∃ a o, wv.putP p act vals = { wv with p := a, ops := o }) ∧ sameOps wv (wv.putP p act vals) := by
  unfold Wave.putP Wave.setP
  split <;> split <;> first
  | exact ⟨⟨_, _, rfl⟩, sameOps_refl _⟩
  | exact ⟨⟨_, _, rfl⟩, sameOps_noteWrite _ _ _⟩

/-- Writing a predicate writes it in its threads and no other. -/
theorem putP_written (wv : Wave) (p : BitVec 3) (act vals : Mask) (val : Nat → Bool)
    (hv : ∀ t, t < 64 → act.getLsbD t = true → vals.getLsbD t = val t) : PredWritten wv (wv.putP p act vals) p act val := by
  intro q t ht
  rw [Wave.pReg_putP]
  by_cases h : q = p
  · subst h
    by_cases h7 : q = 7
    · simp [h7]
    · have h8 : ¬ q = 7#3 := h7
      have hb := hv t ht
      by_cases ha : act.getLsbD t
      · have hc := hb ha
        simp only [BitVec.getLsbD_eq_getElem ht] at ha hc ⊢
        simp [h8, ha, hc]
      · simp only [BitVec.getLsbD_eq_getElem ht] at ha ⊢
        simp [h8, ha]
  · simp [h]

/-- Retiring an instruction that writes a predicate and raises flags. -/
theorem predStep (s : State) (v : View) (hv : s.view? = some v) (pd : BitVec 3) (thr vals : Mask) (fl : Flags) (val : Nat → Bool)
    (who : Nat → Prop) (flf : Nat → Flags)
    (h1 : ∀ t, t < 64 → thr.getLsbD t = true → vals.getLsbD t = val t)
    (h2 : ∀ k, fl.getLsbD k = true ↔ ∃ t, who t ∧ (flf t).getLsbD k = true) :
    ∃ wv, s.retireWith v (fun wv => (wv.putP pd thr vals).raise fl) = s.withWave v wv
      ∧ PredWritten v.wv wv pd thr val
      ∧ Raised v.wv wv who flf
      ∧ Moved v (v.after 1) wv ∧ sameOps v.wv wv
      ∧ wv = { v.wv with
          p := wv.p
          fpstatus := wv.fpstatus
          ents := wv.ents
          ops := wv.ops
          retired := wv.retired
          quantum := wv.quantum } := by
  rw [State.retireWith_eq hv]
  obtain ⟨⟨a, o, he⟩, hO⟩ := putP_shape v.wv pd thr vals
  have hW := putP_written v.wv pd thr vals val h1
  refine ⟨_, rfl, ?_, ?_, ?_, ?_, ?_⟩
  · intro q t ht
    rw [← hW q t ht]
    unfold Wave.pReg
    rw [Wave.step_frame]
    rfl
  · intro k
    rw [Wave.step_frame, ← h2]
    simp [Wave.raise]
  · refine Wave.step_moved hv (Wave.raise _ _) ?_ _ _ _
    rw [he]
    rfl
  · refine sameOps_trans ?_ (sameOps_step (Wave.raise _ _) _ _ _ _)
    exact hO
  · rw [Wave.step_frame, he]
    rfl

/-- Raising no flag. -/
theorem raise_zero (wv : Wave) : wv.raise 0 = wv := by simp [Wave.raise]

/-- The flags of a list of threads. -/
theorem foldFlags (l : List Nat) (f : Nat → Flags) (k : Nat) (a : Flags) :
    ((l.map fun t => (t, f t)).foldl (fun x r => x ||| r.2) a).getLsbD k = true ↔ a.getLsbD k = true ∨ ∃ t ∈ l, (f t).getLsbD k = true := by
  induction l generalizing a with
  | nil => simp
  | cons t l ih => simp [ih, or_assoc]

/-- The mask of a list of threads. -/
theorem maskOf_bit (l : List Nat) (t : Nat) (ht : t < 64) : (maskOf l).getLsbD t = true ↔ t ∈ l := by
  have : ∀ a : Mask, (l.foldl (fun m t => m ||| oneMask t) a).getLsbD t = true ↔ a.getLsbD t = true ∨ t ∈ l := by
    induction l with
    | nil => simp
    | cons x l ih =>
      intro a
      rw [List.foldl_cons, ih]
      simp only [BitVec.getLsbD_or, Bool.or_eq_true, List.mem_cons, or_assoc, oneMask]
      have : (BitVec.twoPow 64 x).getLsbD t = true ↔ t = x := by
        simp [ht]; try omega
      rw [this]
  simpa [maskOf] using this 0

/-- What the shared form of the predicate instructions does where its checks pass. -/
theorem predOp_spec (g : Guard) (pd : BitVec 3) (s : State) (v : View) (f : Wave → Mask) (val : Wave → Mask → Nat → Bool)
    (hA : Acts (plainMeta g true []) s v)
    (h : ∀ t, t < 64 → (v.acting (plainMeta g true [])).getLsbD t = true → (f v.wv).getLsbD t = val v.wv (v.acting (plainMeta g true [])) t) :
    ∃ wv, predOp g pd s f = .next (s.withWave v wv)
      ∧ PredWritten v.wv wv pd (v.acting (plainMeta g true [])) (val v.wv (v.acting (plainMeta g true [])))
      ∧ Raised v.wv wv (fun t => t < 64 ∧ (v.acting (plainMeta g true [])).getLsbD t = true) (fun _ => 0)
      ∧ Moved v (v.after 1) wv ∧ sameOps v.wv wv
      ∧ wv = { v.wv with
          p := wv.p
          fpstatus := wv.fpstatus
          ents := wv.ents
          ops := wv.ops
          retired := wv.retired
          quantum := wv.quantum } := by
  unfold predOp
  rw [show ({ guard := g, lane := true, inRegion := true } : Meta) = plainMeta g true [] from rfl, instr_acts hA]
  obtain ⟨wv, h1, h2⟩ := predStep s v hA.view pd (v.acting (plainMeta g true [])) (f v.wv) 0 _ (fun t => t < 64 ∧ (v.acting (plainMeta g true [])).getLsbD t = true) (fun _ => 0) h (by simp)
  simp only [raise_zero] at h1
  exact ⟨wv, congrArg _ h1, h2⟩

/-- A mask lies within another. -/
theorem and_eq_self_iff (a b : Mask) : (b &&& a = a) ↔ ∀ k, k < 64 → a.getLsbD k = true → b.getLsbD k = true := by
  constructor
  · intro h k hk ha
    have := congrArg (fun x => x.getLsbD k) h
    simp only [BitVec.getLsbD_and, ha, Bool.and_true] at this
    exact this
  · intro h
    apply BitVec.eq_of_getLsbD_eq
    intro k hk
    simp only [BitVec.getLsbD_and]
    cases ha : a.getLsbD k with
    | false => simp
    | true => simp [h k hk ha]

/-- Two masks meet. -/
theorem and_ne_zero_iff (a b : Mask) : (b &&& a ≠ 0) ↔ ∃ k, k < 64 ∧ a.getLsbD k = true ∧ b.getLsbD k = true := by
  constructor
  · intro h
    refine Classical.byContradiction fun hn => ?_
    apply h
    apply BitVec.eq_of_getLsbD_eq
    intro k hk
    simp only [BitVec.getLsbD_and]
    cases hb : b.getLsbD k <;> cases ha : a.getLsbD k <;> simp
    exact hn ⟨k, hk, ha, hb⟩
  · rintro ⟨k, hk, ha, hb⟩ h
    have := congrArg (fun x => x.getLsbD k) h
    simp [ha, hb] at this

end Sys2Proof.Machine
end

