-- ==== Sys2Proof/Laws/Within.lean ====
section
/-! SUPPORT. How far the shared operations of an instruction reach: one lemma each that says all an operation can change. -/

namespace Sys2Proof.Machine

open Sys2Proof

variable {g w : Nat}

/-- What of a stack's history an instruction's issue may not touch. -/
def Stack.kept (st : Stack) : List WheyRec × Nat × Nat × Stamp × Stamp × Nat × Nat := (st.log, st.base, st.next, st.h, st.hRound, st.whey, st.rind)

/-- An operation that leaves stacks and cores alone. -/
theorem Within.keeps {s t : State}
    (h : t = { s with
      groups := t.groups
      reqs := t.reqs
      nextId := t.nextId
      tlb := t.tlb
      l1 := t.l1
      fabric := t.fabric })
    (hn : s.nextId ≤ t.nextId) (hw : ∀ a b, a ≠ g ∨ b ≠ w → t.wave? a b = s.wave? a b) : Within s g w t := by
  have hs : t.stackTable = s.stackTable := by rw [h]
  have hc : t.cores = s.cores := by rw [h]
  refine ⟨?_, fun k => ?_, fun k => ?_, hn, hw⟩
  · conv => lhs; rw [h]
    rw [hs, hc]
    rw [h]
  · simp only [State.stack, hs]
  · simp only [State.coreOf, hc]

theorem Within.refl (s : State) : Within s g w s := .keeps rfl (Nat.le_refl _) fun _ _ _ => rfl

theorem Within.trans {s t u : State} (h : Within s g w t) (h' : Within t g w u) : Within s g w u := by
  refine ⟨?_, fun k => (h'.history k).trans (h.history k), fun k => (h'.deques k).trans (h.deques k), Nat.le_trans h.numbers h'.numbers,
    fun a b c => (h'.waves a b c).trans (h.waves a b c)⟩
  rw [h'.frame, h.frame]

theorem Within.foldl {α : Type} (l : List α) (f : State → α → State) (h : ∀ s x, Within s g w (f s x)) (s : State) :
    Within s g w (l.foldl f s) :=
  List.foldlRecOn (motive := Within s g w) l f (Within.refl s) fun t ht x _ => ht.trans (h t x)

theorem Within.modWave (s : State) (f : Wave → Wave) : Within s g w (s.modWave g w f) := by
  refine .keeps rfl (Nat.le_refl _) fun a b h => ?_
  by_cases ha : a = g
  · subst ha
    rcases h with h | h
    · exact absurd rfl h
    · exact State.wave?_modWave_ne s a w b f h
  · exact State.wave?_modWave_of_ne s g a w b f ha

theorem Within.withWave (s : State) (v : View) (wv : Wave) : Within s v.a.g v.a.w (s.withWave v wv) := Within.modWave s _

/-- Changing a group without its waves. -/
theorem Within.modGroup (s : State) (f : Group → Group) (hf : ∀ gr, (f gr).waves = gr.waves) : Within s g w (s.modGroup g f) := by
  refine .keeps rfl (Nat.le_refl _) fun a b _ => ?_
  by_cases ha : a = g
  · subst ha
    simp only [State.wave?, State.group?_modGroup]
    cases s.group? a with
    | none => rfl
    | some gr => simp [hf]
  · exact State.wave?_modGroup_ne s g a b f ha

theorem Within.addReq (s : State) (r : Req) : Within s g w (s.addReq r) := .keeps rfl (Nat.le_succ _) fun _ _ _ => rfl

theorem Within.send (s : State) (m : BitVec 8) (b : Payload) : Within s g w (s.send m b) := .keeps rfl (Nat.le_refl _) fun _ _ _ => rfl

theorem Within.nextSeq (s : State) (core : Nat) : Within s g w (s.nextSeq core).2 := by
  refine ⟨rfl, fun _ => rfl, fun k => ?_, Nat.le_refl _, fun _ _ _ => rfl⟩
  simp only [State.nextSeq, State.coreOf, State.modCore, Table.read_write]
  split
  · rename_i h; subst h; rfl
  · rfl

theorem Within.reqs (s : State) (r : Table Req) : Within s g w { s with reqs := r } := .keeps rfl (Nat.le_refl _) fun _ _ _ => rfl

/-- A stack's counts may change, its history may not. -/
theorem Within.modStack (s : State) (k : Nat) (f : Stack → Stack) (hf : ∀ st, (f st).kept = st.kept) : Within s g w (s.modStack k f) := by
  refine ⟨rfl, fun n => ?_, fun _ => rfl, Nat.le_refl _, fun _ _ _ => rfl⟩
  show Stack.kept ((s.modStack k f).stack n) = Stack.kept (s.stack n)
  simp only [State.stack, State.modStack, Table.read_write]
  split
  · rename_i h; subst h; exact hf _
  · rfl

theorem Within.flips (s : State) (f : Table Byte) : Within s g w { s with flips := f } :=
  ⟨rfl, fun _ => rfl, fun _ => rfl, Nat.le_refl _, fun _ _ _ => rfl⟩

theorem Stack.endPeriod_kept (st : Stack) : st.endPeriod.kept = st.kept := by
  unfold Stack.endPeriod
  split <;> rfl

theorem Within.countRequest (s : State) (base : Nat) : Within s g w (s.countRequest base) := by
  unfold State.countRequest
  exact Within.modStack _ _ _ fun st => Stack.endPeriod_kept _

theorem Within.repairRange (s : State) (a n : Nat) : Within s g w (s.repairRange a n) := by
  unfold State.repairRange
  split
  · exact Within.refl s
  · split
    · exact Within.foldl _ _ (fun s a => Within.flips s _) s
    · exact Within.flips s _

/-- A read of memory counts what it meets and repairs what it can (R159). -/
theorem Within.readItem (s : State) (a n : Nat) : Within s g w (s.readItem a n).2 := by
  unfold State.readItem State.countCorrected State.countUncorrectable
  split
  · exact (Within.repairRange s a n).trans (Within.modStack _ _ (fun k => { k with corrected := satUp k.corrected }) fun _ => rfl)
  · exact Within.refl s
  · exact Within.modStack s _ (fun k => { k with uncorrectable := satUp k.uncorrectable }) fun _ => rfl

theorem Within.cacheLeaf (s : State) (core : Nat) (ctx : BitVec 12) (va e : Word) : Within s g w (s.cacheLeaf core ctx va e) :=
  .keeps rfl (Nat.le_refl _) fun _ _ _ => rfl

/-- A walk reads tables and may keep its answer (R319, R321). -/
theorem Within.walked (s : State) (core : Nat) (ctx : BitVec 12) (va : Word) : Within s g w (s.walked core ctx va) := by
  unfold State.walked
  have h := fun l => Within.foldl (g := g) (w := w) l
    (fun (s : State) d => ((s.readItem (dpaLocal d) 8).2).countRequest (s.granOf (dpaLocal d)))
    (fun s d => (Within.readItem s _ _).trans (Within.countRequest _ _)) s
  simp only
  split
  · exact (h _).trans (Within.cacheLeaf _ _ _ _ _)
  · exact h _

theorem Within.transmit (s : State) (tag : Nat) (r : Req) : Within s g w (s.transmit tag r) := by
  unfold State.transmit
  split
  · simp only
    split
    · exact (Within.reqs _ _).trans (Within.send _ _ _)
    · exact (Within.reqs _ _).trans (Within.send _ _ _)
    · exact (Within.reqs _ _).trans (Within.send _ _ _)
    · exact (Within.reqs _ _).trans (Within.send _ _ _)
    · exact (((Within.reqs _ _).trans (Within.nextSeq _ _)).trans (Within.send _ _ _)).trans (Within.reqs _ _)
  · exact Within.refl s

theorem Within.trySend (s : State) (tag : Nat) : Within s g w (s.trySend tag) := by
  unfold State.trySend
  split
  · simp only
    split
    · exact Within.refl s
    · exact Within.transmit s _ _
  · exact Within.refl s

theorem Within.sendAway (s : State) (m : Nat) (r : Req) (its : List ReqItem) : Within s g w (s.sendAway m r its) :=
  (Within.addReq s _).trans (Within.trySend _ _)

theorem Within.sendFar (s : State) (r : Req) (far : List ReqItem) : Within s g w (s.sendFar r far) := by
  unfold State.sendFar
  split
  · exact Within.foldl _ _ (fun s i => Within.sendAway s _ _ _) s
  · exact Within.foldl _ _ (fun s m => Within.sendAway s _ _ _) s

theorem Within.sendItems (s : State) (r : Req) (its : List ReqItem) : Within s g w (s.sendItems r its) := by
  unfold State.sendItems
  simp only
  exact (Within.foldl _ _ (fun s b => Within.addReq _ _) s).trans (Within.sendFar _ _ _)

theorem Within.modOp (s : State) (k : Nat) (f : LongOp → LongOp) : Within s g w (s.modOp g w k f) := Within.modWave s _

theorem Within.modEnt (s : State) (e : Nat) (f : Entity → Entity) : Within s g w (s.modEnt ⟨g, w, e⟩ f) := Within.modWave s _

theorem Within.modEnt' (s : State) (a : Actor) (f : Entity → Entity) : Within s a.g a.w (s.modEnt a f) := Within.modWave s _

/-- Reading what is left of a local load changes the load and what the wave has seen, and notes an uninitialised read (R185, R199). -/
theorem Within.readLocal (s : State) (id : Nat) : Within s g w (s.readLocal g w id) := by
  unfold State.readLocal
  split
  · split
    · simp only
      split
      · split
        · exact Within.refl s
        · have h := fun (f : LongOp → LongOp) (k : Wave → Wave) => (Within.modOp s id f).trans (Within.modWave (g := g) (w := w) _ k)
          split
          · split
            · exact (h _ _).trans (Within.modGroup _ _ fun _ => rfl)
            · exact h _ _
          · exact h _ _
      · exact Within.refl s
    · exact Within.refl s
  · exact Within.refl s

theorem Within.readLocals (s : State) (n : Nat) : Within s g w (s.readLocals g w n) := by
  unfold State.readLocals
  split
  · refine Within.foldl _ _ (fun s p => ?_) s
    split
    · exact Within.readLocal _ _
    · exact Within.refl _
  · exact Within.refl s

theorem Group.setBuf_waves (gr : Group) (sp : Space) (b : Buf) : (gr.setBuf sp b).waves = gr.waves := by
  cases sp <;> rfl

/-- What no round of a fold changes, the fold leaves as it was. -/
theorem List.foldl_keeps {σ ι κ : Type} (part : σ → κ) (todo : List ι) (step : σ → ι → σ) (keeps : ∀ s i, part (step s i) = part s) (s : σ) :
    part (todo.foldl step s) = part s :=
  List.foldlRecOn (motive := fun t => part t = part s) todo step rfl fun t ht i _ => (keeps t i).trans ht

theorem Group.clearErrors_waves (gr : Group) (off n : Nat) : (gr.clearErrors off n).waves = gr.waves := by
  unfold Group.clearErrors
  refine List.foldl_keeps (fun gr : Group => gr.waves) _ _ (fun gr p => ?_) gr
  split <;> rfl

theorem Group.storeLocal_waves (gr : Group) (sp : Space) (off : Nat) (data : List Byte) : (gr.storeLocal sp off data).waves = gr.waves := by
  unfold Group.storeLocal
  simp only
  split
  · rw [Group.clearErrors_waves, Group.setBuf_waves]
  · rw [Group.setBuf_waves]

theorem Within.performLocal (s : State) (n : Nat) (e : SqEntry) : Within s g w (s.performLocal g w n e) := by
  refine (Within.readLocals s n).trans (Within.modGroup _ _ fun gr => ?_)
  exact List.foldl_keeps (fun gr : Group => gr.waves) _ _ (fun gr i => (Group.setBuf_waves _ _ _).trans (Group.storeLocal_waves _ _ _ _)) gr

theorem Within.flushLate (s : State) (fuel : Nat) : Within s g w (s.flushLate g w fuel) := by
  induction fuel generalizing s with
  | zero => exact Within.refl s
  | succ k ih =>
    unfold State.flushLate
    split
    · split
      · split
        · exact Within.refl s
        · exact ((Within.modWave s _).trans (Within.performLocal _ _ _)).trans (ih _)
      · exact Within.refl s
    · exact Within.refl s

theorem Within.fresh (s : State) : Within s g w s.fresh.2 := .keeps rfl (Nat.le_succ _) fun _ _ _ => rfl

theorem Within.releaseEntry (s : State) (e : SqEntry) : Within s g w (s.releaseEntry g w e) := by
  unfold State.releaseEntry
  split
  · split
    · exact Within.sendItems _ _ _
    · exact ((Within.fresh s).trans (Within.modWave _ _)).trans (Within.flushLate _ _)
  · exact Within.refl s

/-- Closing the wave's idempotent region reaches no further than its stores do (R233, R302, R303). -/
theorem Within.closeRegion (s : State) : Within s g w (s.closeRegion g w) := by
  unfold State.closeRegion
  split
  · exact Within.refl s
  · exact ((Within.modWave s _).trans (Within.foldl _ _ (fun s e => Within.releaseEntry s e) _)).trans (Within.modWave _ _)

theorem Within.close (s : State) (v : View) : Within s v.a.g v.a.w (s.close v) := by
  unfold State.close
  split
  · exact Within.refl s
  · exact Within.closeRegion s

theorem Within.dropL1 (s : State) (core : Nat) : Within s g w (s.dropL1 core) := .keeps rfl (Nat.le_refl _) fun _ _ _ => rfl

theorem Within.acquireAt (s : State) (v : View) (sc : Scope) (x : Option Stamp) : Within s v.a.g v.a.w (s.acquireAt v sc x) := by
  unfold State.acquireAt
  simp only
  split
  · exact (Within.modWave _ _).trans (Within.dropL1 _ _)
  · exact Within.modWave _ _

theorem Within.keepLeaves (s : State) (gr : Group) (win : Window) (c : Access) (ls : List (LaneOp × List Piece)) :
    Within s g w (s.keepLeaves gr win c ls) := by
  unfold State.keepLeaves
  split
  · exact Within.refl s
  · refine Within.foldl _ _ (fun s l => ?_) s
    split
    · exact Within.refl s
    · exact Within.foldl _ _ (fun s p => Within.walked s _ _ _) s

theorem Within.retire (s : State) (v : View) (n : Nat) : Within s v.a.g v.a.w (s.retire v n) := Within.modWave s _

theorem Within.retireTo (s : State) (v : View) (h : Word) : Within s v.a.g v.a.w (s.retireTo v h) := Within.modWave s _

theorem Within.retireWith (s : State) (v : View) (f : Wave → Wave) : Within s v.a.g v.a.w (s.retireWith v f) :=
  (Within.modWave s _).trans (Within.modWave _ _)

theorem Within.retireClose (s : State) (v : View) (f : Wave → Wave) : Within s v.a.g v.a.w (s.retireClose v f) :=
  (Within.retireWith s v f).trans (Within.close _ v)

theorem Within.numbered (s : State) : Within s g w { s with nextId := s.nextId + 1 } := .keeps rfl (Nat.le_succ _) fun _ _ _ => rfl

theorem Within.issueLong (s : State) (v : View) (f : Flag) (act : Mask) (uni : Bool) (body : OpBody) (ready : Bool) (ds : List Denied) :
    Within s v.a.g v.a.w (s.issueLong v f act uni body ready ds) :=
  ((Within.numbered s).trans (Within.retire _ v 1)).trans (Within.modWave _ _)

end Sys2Proof.Machine
end

