-- ==== Sys2Proof/Laws/Calm.lean ====
section
/-! SUPPORT. What closing a region, releasing stores and sending requests leave of the wave itself: its registers, flags, forwarding
region, the place of every entity and the instructions in flight. -/

namespace Sys2Proof.Machine

open Sys2Proof

/-- Where an entity stands. -/
def Entity.stand (e : Entity) : Word × Nat × Mask × List Record × Option Park × Option Clause := (e.hdr, e.idx, e.mask, e.recs, e.park, e.clause)

/-- One wave is the other but for its late stores, its region entries and what its loads have read and seen. -/
structure Calm (a b : Wave) : Prop where
  regs : SameRegs a b
  f : b.f = a.f
  region : b.region = a.region
  stored : b.stored = a.stored
  blocks : b.blocks = a.blocks
  quantum : b.quantum = a.quantum
  retired : b.retired = a.retired
  sq : b.sq = a.sq
  ents : ∀ k, (Table.find b.ents k).map Entity.stand = (Table.find a.ents k).map Entity.stand
  ops : ∀ k, (Table.find b.ops k).map (fun o => (o.ent, o.hdr, o.idx, o.fl, o.window, o.mask)) =
    (Table.find a.ops k).map fun o => (o.ent, o.hdr, o.idx, o.fl, o.window, o.mask)

theorem SameRegs.refl (a : Wave) : SameRegs a a where
  general := ⟨rfl, rfl, rfl, rfl⟩
  cstamp := rfl
  special := by and_intros <;> rfl

theorem SameRegs.trans {a b c : Wave} (h : SameRegs a b) (h' : SameRegs b c) : SameRegs a c where
  general := by simpa only [h.general] using h'.general
  cstamp := h'.cstamp.trans h.cstamp
  special := by simpa only [h.special] using h'.special

/-- A wave with other tables of entities and instructions, other late stores, another stamp seen and another mark of a resumption is calm where the tables agree on
where the entities stand and what is in flight. -/
theorem Calm.tables (a : Wave) (ents : Table Entity) (ops : Table LongOp) (late : List (Nat × SqEntry)) (seen : Option Stamp) (resumed : Bool)
    (he : ∀ k, (Table.find ents k).map Entity.stand = (Table.find a.ents k).map Entity.stand)
    (ho : ∀ k, (Table.find ops k).map (fun o => (o.ent, o.hdr, o.idx, o.fl, o.window, o.mask)) =
      (Table.find a.ops k).map fun o => (o.ent, o.hdr, o.idx, o.fl, o.window, o.mask)) :
    Calm a { a with
      ents := ents
      ops := ops
      late := late
      seen := seen
      resumed := resumed } where
  regs := { SameRegs.refl a with }
  f := rfl
  region := rfl
  stored := rfl
  blocks := rfl
  quantum := rfl
  retired := rfl
  sq := rfl
  ents := he
  ops := ho

theorem Calm.refl (a : Wave) : Calm a a := Calm.tables a a.ents a.ops a.late a.seen a.resumed (fun _ => rfl) fun _ => rfl

theorem Calm.trans {a b c : Wave} (h : Calm a b) (h' : Calm b c) : Calm a c :=
  ⟨h.regs.trans h'.regs, h'.f.trans h.f, h'.region.trans h.region, h'.stored.trans h.stored,
    h'.blocks.trans h.blocks, h'.quantum.trans h.quantum, h'.retired.trans h.retired,
    h'.sq.trans h.sq, fun k => (h'.ents k).trans (h.ents k),
    fun k => (h'.ops k).trans (h.ops k)⟩

/-- The wave of a state is there after an operation, and calm. -/
def CalmAt (s : State) (g w : Nat) (t : State) : Prop := ∀ wv, s.wave? g w = some wv → ∃ wv', t.wave? g w = some wv' ∧ Calm wv wv'

variable {g w : Nat}

theorem CalmAt.refl (s : State) : CalmAt s g w s := fun wv h => ⟨wv, h, Calm.refl wv⟩

theorem CalmAt.trans {s t u : State} (h : CalmAt s g w t) (h' : CalmAt t g w u) : CalmAt s g w u := by
  intro wv hw
  obtain ⟨a, ha, hc⟩ := h wv hw
  obtain ⟨b, hb, hd⟩ := h' a ha
  exact ⟨b, hb, hc.trans hd⟩

theorem CalmAt.same {s t : State} (h : t.wave? g w = s.wave? g w) : CalmAt s g w t := fun wv hw => ⟨wv, h.trans hw, Calm.refl wv⟩

theorem CalmAt.foldl {α : Type} (l : List α) (f : State → α → State) (h : ∀ s x, CalmAt s g w (f s x)) (s : State) :
    CalmAt s g w (l.foldl f s) :=
  List.foldlRecOn (motive := CalmAt s g w) l f (CalmAt.refl s) fun t ht x _ => ht.trans (h t x)

theorem CalmAt.modWave (s : State) (f : Wave → Wave) (h : ∀ wv, Calm wv (f wv)) : CalmAt s g w (s.modWave g w f) := by
  intro wv hw
  exact ⟨f wv, by simp [hw], h wv⟩

theorem CalmAt.modGroup (s : State) (f : Group → Group) (hf : ∀ gr, (f gr).waves = gr.waves) : CalmAt s g w (s.modGroup g f) := by
  refine CalmAt.same ?_
  simp only [State.wave?, State.group?_modGroup]
  cases s.group? g with
  | none => rfl
  | some gr => simp [hf]

theorem State.wave?_groups {s t : State} (h : t.groups = s.groups) : t.wave? g w = s.wave? g w := by
  simp [State.wave?, State.group?, h]

theorem State.trySend_groups (s : State) (tag : Nat) : (s.trySend tag).groups = s.groups := by
  unfold State.trySend
  split
  · rename_i r _
    have h : (s.transmit tag r).groups = s.groups := by
      unfold State.transmit
      split
      · cases r.kind <;> rfl
      · rfl
    simp only
    split
    · rfl
    · exact h
  · rfl

theorem State.sendAway_groups (s : State) (m : Nat) (r : Req) (its : List ReqItem) : (s.sendAway m r its).groups = s.groups :=
  State.trySend_groups _ _

theorem State.sendItems_groups (s : State) (r : Req) (its : List ReqItem) : (s.sendItems r its).groups = s.groups := by
  unfold State.sendItems State.sendFar
  simp only
  split
  · rw [List.foldl_keeps (fun s : State => s.groups) _ _ fun s i => State.sendAway_groups s _ r _]
    refine List.foldl_keeps (fun s : State => s.groups) _ _ (fun s b => ?_) s
    rfl
  · rw [List.foldl_keeps (fun s : State => s.groups) _ _ fun s m => State.sendAway_groups s m r _]
    refine List.foldl_keeps (fun s : State => s.groups) _ _ (fun s b => ?_) s
    rfl

theorem CalmAt.sendItems (s : State) (r : Req) (its : List ReqItem) : CalmAt s g w (s.sendItems r its) :=
  CalmAt.same (State.wave?_groups (State.sendItems_groups s r its))

theorem Calm.modOp (wv : Wave) (k : Nat) (f : LongOp → LongOp)
    (hf : ∀ o, Table.find wv.ops k = some o →
      ((f o).ent, (f o).hdr, (f o).idx, (f o).fl, (f o).window, (f o).mask) = (o.ent, o.hdr, o.idx, o.fl, o.window, o.mask)) :
    Calm wv (wv.modOp k f) := by
  refine Calm.tables wv wv.ents (Table.modify wv.ops k f) wv.late wv.seen wv.resumed (fun _ => rfl) fun n => ?_
  by_cases h : n = k
  · subst h
    rw [Table.find_modify_self]
    cases ho : Table.find wv.ops n with
    | none => rfl
    | some o => simpa using hf o ho
  · rw [Table.find_modify_ne _ _ _ _ h]

/-- What reading local pieces leaves of an instruction in flight. -/
theorem Group.readPieces_same (gr : Group) (warn : Bool) (sp : Space) (o : LongOp) (ps : List Piece) :
    let o' := gr.readPieces warn sp o ps
    (o'.ent, o'.hdr, o'.idx, o'.fl, o'.window, o'.mask) = (o.ent, o.hdr, o.idx, o.fl, o.window, o.mask) := by
  unfold Group.readPieces
  simp only
  refine List.foldl_keeps (fun o : LongOp => (o.ent, o.hdr, o.idx, o.fl, o.window, o.mask)) _ _ (fun o p => ?_) o
  split <;> rfl

theorem Calm.seen (wv : Wave) (x : Option Stamp) : Calm wv { wv with seen := x } :=
  Calm.tables wv wv.ents wv.ops wv.late x wv.resumed (fun _ => rfl) fun _ => rfl

theorem CalmAt.readLocal (s : State) (id : Nat) : CalmAt s g w (s.readLocal g w id) := by
  unfold State.readLocal
  split
  · rename_i gr wv hg hw
    split
    · rename_i o ho
      simp only
      split
      · rename_i sp d ty p ps hb
        split
        · exact CalmAt.refl s
        · have key : CalmAt s g w (s.modOp g w id fun _ =>
              gr.readPieces (s.warns gr) sp { o with body := .load sp d ty [] } (p :: ps)) := by
            intro wv' hw'
            obtain rfl : wv = wv' := Option.some.inj (hw.symm.trans hw')
            refine ⟨_, by simp only [State.modOp, State.wave?_modWave, hw]; rfl, Calm.modOp wv id _ ?_⟩
            intro o' ho'
            obtain rfl : o = o' := Option.some.inj (ho.symm.trans ho')
            exact Group.readPieces_same gr _ sp { o with body := .load sp d ty [] } (p :: ps)
          have key' := fun (x : Wave → Option Stamp) => key.trans (CalmAt.modWave _ (fun wv => { wv with seen := x wv }) fun wv => Calm.seen wv _)
          split
          · split
            · exact (key' _).trans (CalmAt.modGroup _ _ fun _ => rfl)
            · exact key' _
          · exact key' _
      · exact CalmAt.refl s
    · exact CalmAt.refl s
  · exact CalmAt.refl s

theorem CalmAt.readLocals (s : State) (n : Nat) : CalmAt s g w (s.readLocals g w n) := by
  unfold State.readLocals
  split
  · refine CalmAt.foldl _ _ (fun s p => ?_) s
    split
    · exact CalmAt.readLocal _ _
    · exact CalmAt.refl _
  · exact CalmAt.refl s

theorem CalmAt.performLocal (s : State) (n : Nat) (e : SqEntry) : CalmAt s g w (s.performLocal g w n e) := by
  refine (CalmAt.readLocals s n).trans (CalmAt.modGroup _ _ fun gr => ?_)
  exact List.foldl_keeps (fun gr : Group => gr.waves) _ _ (fun gr i => (Group.setBuf_waves _ _ _).trans (Group.storeLocal_waves _ _ _ _)) gr

theorem Calm.late (wv : Wave) (late : List (Nat × SqEntry)) : Calm wv { wv with late := late } :=
  Calm.tables wv wv.ents wv.ops late wv.seen wv.resumed (fun _ => rfl) fun _ => rfl

theorem CalmAt.flushLate (s : State) (fuel : Nat) : CalmAt s g w (s.flushLate g w fuel) := by
  induction fuel generalizing s with
  | zero => exact CalmAt.refl s
  | succ k ih =>
    unfold State.flushLate
    split
    · split
      · split
        · exact CalmAt.refl s
        · exact ((CalmAt.modWave s _ fun wv => Calm.late wv _).trans (CalmAt.performLocal _ _ _)).trans (ih _)
      · exact CalmAt.refl s
    · exact CalmAt.refl s

theorem CalmAt.releaseEntry (s : State) (e : SqEntry) : CalmAt s g w (s.releaseEntry g w e) := by
  unfold State.releaseEntry
  split
  · split
    · exact CalmAt.sendItems _ _ _
    · refine ((CalmAt.same rfl : CalmAt s g w s.fresh.2).trans (CalmAt.modWave _ _ fun wv => Calm.late wv _)).trans (CalmAt.flushLate _ _)
  · exact CalmAt.refl s

theorem Calm.newEntries (wv : Wave) : Calm wv wv.newEntries := by
  refine Calm.tables wv wv.newEntries.ents wv.newEntries.ops wv.late wv.seen false (fun k => ?_) fun k => ?_
  · simp only [Wave.newEntries, Table.find_mapValues]
    cases Table.find wv.ents k <;> rfl
  · simp only [Wave.newEntries, Table.find_mapValues]
    cases Table.find wv.ops k <;> rfl

/-- Closing the wave's idempotent region empties its queue and leaves its registers, flags, entities and instructions in flight
(R302, R303). -/
theorem State.closeRegion_calm (s : State) (wv : Wave) (h : s.wave? g w = some wv) :
    ∃ wv', (s.closeRegion g w).wave? g w = some wv' ∧ Calm { wv with sq := [] } wv' := by
  unfold State.closeRegion
  rw [h]
  simp only
  have h1 : (s.modWave g w fun wv => { wv with sq := [] }).wave? g w = some { wv with sq := [] } := by simp [h]
  exact ((CalmAt.foldl _ _ (fun s e => CalmAt.releaseEntry s e) _).trans (CalmAt.modWave _ _ Calm.newEntries)) _ h1

/-- The close of a commit-class instruction: nothing in a forwarding region or a running quantum. -/
theorem State.close_calm (s : State) (v : View) (wv : Wave) (h : s.wave? v.a.g v.a.w = some wv) :
    ∃ wv', (s.close v).wave? v.a.g v.a.w = some wv' ∧ (Calm wv wv' ∨ Calm { wv with sq := [] } wv')
      ∧ ((v.wv.region.isSome || s.det v.gr && v.wv.quantum == .running) = false → Calm { wv with sq := [] } wv') := by
  unfold State.close
  split
  · rename_i hc
    exact ⟨wv, h, .inl (Calm.refl wv), fun hn => absurd hc (by simp [hn])⟩
  · obtain ⟨wv', h1, h2⟩ := State.closeRegion_calm s wv h
    exact ⟨wv', h1, .inr h2, fun _ => h2⟩

theorem State.repairRange_groups (s : State) (a n : Nat) : (s.repairRange a n).groups = s.groups := by
  unfold State.repairRange
  split
  · rfl
  · split
    · exact List.foldl_keeps (fun s : State => s.groups) _ State.repairWord (fun _ _ => rfl) s
    · rfl

theorem State.readItem_groups (s : State) (a n : Nat) : (s.readItem a n).2.groups = s.groups := by
  unfold State.readItem
  split
  · exact State.repairRange_groups s a n
  · rfl
  · rfl

theorem State.walked_groups (s : State) (core : Nat) (ctx : BitVec 12) (va : Word) : (s.walked core ctx va).groups = s.groups := by
  unfold State.walked
  have h := fun l => List.foldl_keeps (fun s : State => s.groups) l
    (fun (s : State) d => ((s.readItem (dpaLocal d) 8).2).countRequest (s.granOf (dpaLocal d))) (fun s d => State.readItem_groups s _ _) s
  simp only
  split
  · exact h _
  · exact h _

theorem State.keepLeaves_groups (s : State) (gr : Group) (win : Window) (c : Access) (ls : List (LaneOp × List Piece)) :
    (s.keepLeaves gr win c ls).groups = s.groups := by
  unfold State.keepLeaves
  split
  · rfl
  · refine List.foldl_keeps (fun s : State => s.groups) _ _ (fun s l => ?_) s
    split
    · rfl
    · exact List.foldl_keeps (fun s : State => s.groups) _ _ (fun s p => State.walked_groups s _ _ _) s

/-- A calm wave whose entity at hand advances. -/
theorem Calm.advanced {v : View} {wv1 : Wave} (hc : Calm v.wv wv1) (he : Table.find v.wv.ents v.a.e = some v.en) (det : Bool) (q n : Nat) :
    Advanced v (v.after n) (wv1.step det q v.a.e fun e => e.advance v.cl n) := by
  have h1 := hc.ents v.a.e
  rw [he] at h1
  cases hx : Table.find wv1.ents v.a.e with
  | none => simp [hx] at h1
  | some x =>
    rw [hx] at h1
    simp only [Option.map_some, Entity.stand, Option.some.injEq, Prod.mk.injEq] at h1
    obtain ⟨a1, a2, a3, a4, a5, a6⟩ := h1
    refine ⟨?_, fun k hk => ?_⟩
    · obtain ⟨p, hp⟩ := Wave.step_self wv1 det q v.a.e (fun e => e.advance v.cl n) x hx
      refine ⟨_, hp, ?_⟩
      simp only [Entity.advance, View.after, View.nextHdr, Entity.takeEntry_idx, a2]
      split <;> simp [a1, a3, a4, a5]
    · rw [Wave.step_others _ _ _ _ _ _ hk]
      have := hc.ents k
      cases h2 : Table.find wv1.ents k <;> cases h3 : Table.find v.wv.ents k <;> simp [h2, h3, Entity.stand] at this ⊢
      obtain ⟨b1, b2, b3, b4, b5, b6⟩ := this
      exact ⟨b1, b2, b3, b4, b5⟩

/-- Issuing from a state whose wave is calm since the view was taken. -/
theorem State.issueLong_calm (s1 : State) (v : View) (wv1 : Wave) (h1 : s1.wave? v.a.g v.a.w = some wv1) (hc : Calm { v.wv with sq := wv1.sq } wv1)
    (he : Table.find v.wv.ents v.a.e = some v.en) (f : Flag) (act : Mask) (uni : Bool) (body : OpBody) (ready : Bool) (ds : List Denied) :
    ∃ wv, (s1.issueLong v f act uni body ready ds).wave? v.a.g v.a.w = some wv
      ∧ Flying v s1.nextId f act uni (fun o => o.body = body ∧ o.ready = ready ∧ o.refused = ds) wv
      ∧ Advanced v (v.after 1) wv ∧ SameRegs v.wv wv ∧ wv.sq = wv1.sq ∧ wv.region = v.wv.region := by
  unfold State.issueLong State.retire
  simp only [State.wave?_modWave]
  have h2 : ({ s1 with nextId := s1.nextId + 1 } : State).wave? v.a.g v.a.w = some wv1 := h1
  rw [h2]
  generalize ({ s1 with nextId := s1.nextId + 1 } : State).det v.gr = d
  generalize ({ s1 with nextId := s1.nextId + 1 } : State).quantumOf v.gr = q
  have hA : Advanced v (v.after 1) (wv1.step d q v.a.e fun e => e.advance v.cl 1) := by
    have := Calm.advanced (v := { v with wv := { v.wv with sq := wv1.sq } }) hc he d q 1
    exact ⟨this.self, this.others⟩
  have ho := Wave.step_ops wv1 d q v.a.e fun e => e.advance v.cl 1
  have hf := Wave.step_frame wv1 d q v.a.e fun e => e.advance v.cl 1
  simp only [Option.map_some]
  generalize wv1.step d q v.a.e (fun e => e.advance v.cl 1) = x at hA ho hf
  refine ⟨_, rfl, ⟨?_, ?_, ?_⟩, ?_, ?_, ?_, ?_⟩
  · exact ⟨_, Table.find_insert_self _ _ _, rfl, rfl, rfl, rfl, rfl, rfl, rfl, rfl, rfl, rfl⟩
  · intro k hk
    simp only
    rw [Table.find_insert_ne _ _ _ _ hk, ho]
    simp only [Wave.narrow, Table.find_mapValues]
    have := hc.ops k
    cases h3 : Table.find wv1.ops k <;> cases h4 : Table.find v.wv.ops k <;> simp [h3, h4] at this ⊢
    split <;> simp [this]
  · intro k
    have e1 : ∀ y : Table LongOp, ({ (x.flagUp (flagIndex f)) with ops := y } : Wave).pending k = (x.flagUp (flagIndex f)).pending k := fun _ => rfl
    rw [e1, Wave.pending_flagUp]
    have e2 : x.pending k = v.wv.pending k := by
      simp only [Wave.pending]
      rw [hf]
      simp only
      rw [hc.f]
    rw [e2]
  · exact ⟨by simpa using hA.self, by simpa using hA.others⟩
  · have hr := hc.regs
    refine SameRegs.trans (b := wv1) ⟨hr.general, hr.cstamp, hr.special⟩ ?_
    constructor
    · simp; rw [hf]; simp
    · simp; rw [hf]
    · simp; rw [hf]; simp
  · simp; rw [hf]
  · simp; rw [hf]; simp; exact hc.region

end Sys2Proof.Machine
end

