-- ==== Sys2Proof/Laws/Faults.lean ====
section
/-! SUPPORT. Taking a fault, said once for every instruction that takes one: what the wave, the entity and memory hold after it, and
what delivering a record, aborting regions and ending a group change. -/

namespace Sys2Proof.Machine

open Sys2Proof

/-- A delivery to the mailbox changes the mailbox, host memory and the raised vectors, and nothing else of the machine. -/
theorem State.record_frame (s : State) (k : RecordKind) (c : Cause) (ctx : BitVec 12) (core slot : Nat) (w1 : Word) :
    s.record k c ctx core slot w1 = { s with
      mbx := (s.record k c ctx core slot w1).mbx
      hostMem := (s.record k c ctx core slot w1).hostMem
      msix := (s.record k c ctx core slot w1).msix } := by
  unfold State.record
  dsimp only
  split
  · rfl
  · split <;> rfl

/-- Of the waves only forwarding regions have changed, and memory has not: all that an abort does to them before its delivery (R251). -/
structure RegionsOnly (s t : State) : Prop where
  memory : t.mem = s.mem
  waves : ∀ g w wv, s.wave? g w = some wv → ∃ r, t.wave? g w = some { wv with region := r }

/-- A state differs from itself in no more than regions. -/
theorem RegionsOnly.refl (s : State) : RegionsOnly s s := ⟨rfl, fun _ _ wv h => ⟨wv.region, h⟩⟩

/-- Two changes of regions only, one after the other, are one. -/
theorem RegionsOnly.trans {s t u : State} (h : RegionsOnly s t) (h' : RegionsOnly t u) : RegionsOnly s u := by
  refine ⟨h'.memory.trans h.memory, fun g w wv hw => ?_⟩
  obtain ⟨r, hr⟩ := h.waves g w wv hw
  obtain ⟨r', hr'⟩ := h'.waves g w _ hr
  exact ⟨r', hr'⟩

/-- A fold changes regions only where each of its steps does. -/
theorem RegionsOnly.foldl {α : Type} (l : List α) (f : State → α → State) (h : ∀ s x, RegionsOnly s (f s x)) (s : State) :
    RegionsOnly s (l.foldl f s) :=
  l.foldlRecOn f (motive := RegionsOnly s) (RegionsOnly.refl s) fun t ht x _ => ht.trans (h t x)

/-- Any wave after one wave has been changed. -/
theorem State.wave?_modWave_all (s : State) (g w g' w' : Nat) (f : Wave → Wave) :
    (s.modWave g w f).wave? g' w' = if g' = g ∧ w' = w then (s.wave? g' w').map f else s.wave? g' w' := by
  by_cases hg : g' = g
  · by_cases hw : w' = w
    · subst hg; subst hw; simp
    · subst hg; simp [hw, State.wave?_modWave_ne _ _ _ _ _ hw]
  · simp [hg, State.wave?_modWave_of_ne _ _ _ _ _ _ hg]

/-- Removing one forwarding slot changes regions only. -/
theorem RegionsOnly.removeSlot (s : State) (k : Nat) (word : Word) : RegionsOnly s (s.removeSlot k word) := by
  unfold State.removeSlot
  split
  · exact RegionsOnly.refl s
  · rename_i x _
    refine ⟨rfl, fun g w wv h => ?_⟩
    have h' : ∀ a b c d, (State.broadcast { s with slots := a, reqs := b } c d).wave? g w = some wv := fun _ _ _ _ => h
    simp only [State.wave?_modWave_all, h']
    split
    · exact ⟨_, rfl⟩
    · exact ⟨wv.region, rfl⟩

/-- An abort, with all those it cascades to, changes regions only (R251). -/
theorem RegionsOnly.abort (s : State) (k : Nat) (word : Word) (n : Nat) : RegionsOnly s (s.abort k word n) := by
  induction n generalizing s k word with
  | zero => exact RegionsOnly.refl s
  | succ n ih => exact (RegionsOnly.removeSlot s k word).trans (RegionsOnly.foldl _ _ (fun s j => ih s j _) _)

/-- A wave of a group that has been changed. -/
theorem State.wave?_modGroup (s : State) (g w : Nat) (f : Group → Group) :
    (s.modGroup g f).wave? g w = (s.group? g).bind fun gr => (f gr).waves[w]? := by
  simp only [State.wave?, State.group?_modGroup]
  cases s.group? g <;> rfl

/-- A replay trigger that falls away leaves every wave (R359). -/
theorem State.wave?_untrigger (s : State) (a : Actor) (g w : Nat) : (s.untrigger a).wave? g w = s.wave? g w := by
  unfold State.untrigger
  by_cases h : g = a.g
  · subst h
    rw [State.wave?_modGroup]
    unfold State.wave?
    cases s.group? a.g <;> rfl
  · unfold State.wave?
    rw [State.group?_modGroup_ne _ _ _ _ h]

/-- A context save left behind unmarks groups only (R360). -/
theorem RegionsOnly.leaveSave (s : State) (o : LongOp) : RegionsOnly s (s.leaveSave o) := by
  unfold State.leaveSave
  split
  · refine ⟨rfl, fun g w wv h => ⟨wv.region, ?_⟩⟩
    unfold State.wave? State.group? at h ⊢
    rw [Table.find_mapValues]
    cases hg : Table.find s.groups g with
    | none => simp [hg] at h
    | some gr =>
      simp only [hg, Option.bind_some, Option.map_some] at h ⊢
      split <;> exact h
  · exact RegionsOnly.refl s

/-- Ending a group leaves each of its waves without entities and with the registers it had, and memory as it was (R360). -/
theorem State.endGroup_spec (s : State) (g : Nat) (c : Cause) :
    (s.endGroup g c).mem = s.mem
      ∧ ∀ w wv, s.wave? g w = some wv → (s.endGroup g c).wave? g w = some wv.gone := by
  unfold State.endGroup
  split
  · rename_i h
    exact ⟨rfl, fun w wv hw => by simp [State.wave?, h] at hw⟩
  · rename_i gr hg
    have hr : RegionsOnly s (gr.waves.foldl (fun s wv => match wv.region with
      | some r => if r.aborted.isNone then s.abortRegion r.slot 0 Cause.xrCascade else s
      | none => s) s) := by
      refine RegionsOnly.foldl _ _ (fun s wv => ?_) s
      split
      · split
        · exact RegionsOnly.abort _ _ _ _
        · exact RegionsOnly.refl s
      · exact RegionsOnly.refl s
    generalize gr.waves.foldl (fun s wv => match wv.region with
      | some r => if r.aborted.isNone then s.abortRegion r.slot 0 Cause.xrCascade else s
      | none => s) s = t₀ at hr
    replace hr := hr.trans (RegionsOnly.foldl gr.waves (fun s wv => wv.ops.foldl (fun s o => s.leaveSave o.2) s)
      (fun s wv => RegionsOnly.foldl wv.ops _ (fun s o => RegionsOnly.leaveSave s o.2) s) t₀)
    obtain ⟨t, ht⟩ : ∃ t, t = gr.waves.foldl (fun s wv => wv.ops.foldl (fun s o => s.leaveSave o.2) s) t₀ := ⟨_, rfl⟩
    rw [← ht] at hr
    have hb : (t.blame g c).mem = t.mem ∧ ∀ w, (t.blame g c).wave? g w = t.wave? g w := by
      unfold State.blame
      split
      · exact ⟨rfl, fun _ => rfl⟩
      · rename_i gr' hg'
        refine ⟨rfl, fun w => ?_⟩
        have hf : Table.find t.groups g = some gr' := hg'
        simp [State.wave?, State.group?, State.modGroup, hf]
    subst ht
    refine ⟨?_, fun w wv hw => ?_⟩
    · exact hb.1.trans hr.memory
    · obtain ⟨r, hw'⟩ := hr.waves g w wv hw
      rw [← hb.2] at hw'
      dsimp only
      rw [State.wave?_modGroup]
      have : ∀ (t : State) a b d, State.group? { t with reqs := a, cmds := b, xbegQueue := d } g = t.group? g := fun _ _ _ _ => rfl
      rw [this]
      unfold State.wave? at hw'
      cases hx : ((gr.waves.foldl (fun s wv => wv.ops.foldl (fun s o => s.leaveSave o.2) s) t₀).blame g c).group? g with
      | none => simp [hx] at hw'
      | some gr' =>
        simp only [hx] at hw'
        have hw2 : gr'.waves[w]? = some { wv with region := r } := hw'
        simp only [Option.bind_some, List.getElem?_map, hw2, Option.map_some]
        rfl

/-- Taking a fault of the instruction at hand (R358 to R361). -/
theorem State.takeFault_spec {s : State} {v : View} (h : s.view? = some v) (c : Cause) (addr : Word) (lanes : Mask) :
    Faulted s v c addr lanes (s.takeFault v.a c addr lanes none) := by
  obtain ⟨-, hg, -, hw, he, -⟩ := State.view?_spec h
  unfold State.takeFault
  simp only [hg, hw]
  generalize hs1 : (s.modWave v.a.g v.a.w fun wv => { wv with
      cause := c.setWidth 64, faultaddr := addr, lanemask := lanes, resumed := false
      quantum := if s.det v.gr then .ended else wv.quantum }) = s1
  have hw1 : s1.wave? v.a.g v.a.w = some { v.wv with
      cause := c.setWidth 64, faultaddr := addr, lanemask := lanes, resumed := false
      quantum := if s.det v.gr then .ended else v.wv.quantum } := by rw [← hs1]; simp [hw]
  have hm1 : s1.mem = s.mem := by rw [← hs1]; rfl
  have hr1 : ∀ ctx, s1.reaches ctx = s.reaches ctx := by intro ctx; rw [← hs1]; rfl
  have ht : s1.tick = s.tick := by rw [← hs1]; rfl
  clear hs1
  rw [ht]
  generalize hs2 : (s1.modEnt v.a fun e => e.parkAt ⟨c, addr, lanes, none, s.tick⟩).untrigger v.a = s2
  obtain ⟨wv2, hw2, hx⟩ : ∃ wv2, s2.wave? v.a.g v.a.w = some wv2 ∧ wv2 = ({ v.wv with
      cause := c.setWidth 64, faultaddr := addr, lanemask := lanes, resumed := false
      quantum := if s.det v.gr then .ended else v.wv.quantum } : Wave).modEnt v.a.e (fun e => e.parkAt ⟨c, addr, lanes, none, s.tick⟩) := by
    rw [← hs2]; rw [State.wave?_untrigger]; unfold State.modEnt; simp [hw1]
  have hm2 : s2.mem = s1.mem := by rw [← hs2]; rfl
  have hr2 : ∀ ctx, s2.reaches ctx = s1.reaches ctx := by intro ctx; rw [← hs2]; rfl
  clear hs2
  generalize hs3 : s2.record .waveFault c v.gr.ctx v.gr.core v.wv.slot addr = s3
  have hfr := State.record_frame s2 .waveFault c v.gr.ctx v.gr.core v.wv.slot addr
  rw [hs3] at hfr
  have hw3 : s3.wave? v.a.g v.a.w = some wv2 := by rw [hfr]; exact hw2
  have hm3 : s3.mem = s.mem := by rw [hfr]; exact hm2.trans hm1
  have hr3 : s3.reaches v.gr.ctx = s.reaches v.gr.ctx := by rw [hfr]; exact (hr2 _).trans (hr1 _)
  rw [hr3]
  have hent : Table.find wv2.ents v.a.e = some (v.en.parkAt ⟨c, addr, lanes, none, s.tick⟩) := by
    rw [hx]; simp [he]
  cases hc : Cause.replayable c || s.reaches v.gr.ctx with
  | true =>
    simp only [if_true]
    refine ⟨⟨wv2, hw3, ?_, ?_, ?_, ?_, ?_, ?_, ?_, ?_, ?_⟩, hm3⟩
    all_goals first | (rw [hx]; rfl) | skip
    · intro _; exact ⟨_, hent, rfl, rfl, rfl, rfl⟩
    · intro h; simp [hc] at h
  | false =>
    obtain ⟨a, b⟩ := State.endGroup_spec s3 v.a.g c
    refine ⟨⟨_, b _ _ hw3, ?_, ?_, ?_, ?_, ?_, ?_, ?_, ?_, ?_⟩, a.trans hm3⟩
    all_goals first | (rw [hx]; rfl) | skip
    · intro h; simp [hc] at h
    · intro _; rfl

/-- The same for a fault reported at the instruction's own address. -/
theorem State.faultHere_spec {s : State} {v : View} (h : s.view? = some v) (lane : Bool) (c : Cause) :
    Faulted s v c v.addr (if lane then v.en.mask else oneMask (lowest v.en.mask)) (s.faultHere v lane c) :=
  State.takeFault_spec h _ _ _

end Sys2Proof.Machine
end

