-- ==== Sys2Proof/Laws/Forms.lean ====
section
/-! SUPPORT. Every instruction form is its checks and an effect, so what the checks do holds of each form. -/

namespace Sys2Proof.Machine

open Sys2Proof

theorem exec_vadd_checks (g sat ty d a b) (s : State) (m : Meta) (h : checks (.vadd g sat ty d a b) = some m) : ∃ eff, exec (.vadd g sat ty d a b) s = instr m s eff := by
  cases h; unfold exec; dsimp only; unfold execVadd aluTwo aluFixed; exact ⟨_, rfl⟩

theorem exec_vaddImm_checks (g ty d a imm) (s : State) (m : Meta) (h : checks (.vaddImm g ty d a imm) = some m) : ∃ eff, exec (.vaddImm g ty d a imm) s = instr m s eff := by
  cases h; unfold exec; dsimp only; unfold execVaddImm aluImm aluFixed; exact ⟨_, rfl⟩

theorem exec_vsub_checks (g sat ty d a b) (s : State) (m : Meta) (h : checks (.vsub g sat ty d a b) = some m) : ∃ eff, exec (.vsub g sat ty d a b) s = instr m s eff := by
  cases h; unfold exec; dsimp only; unfold execVsub aluTwo aluFixed; exact ⟨_, rfl⟩

theorem exec_vsubImm_checks (g ty d a imm) (s : State) (m : Meta) (h : checks (.vsubImm g ty d a imm) = some m) : ∃ eff, exec (.vsubImm g ty d a imm) s = instr m s eff := by
  cases h; unfold exec; dsimp only; unfold execVsubImm aluImm aluFixed; exact ⟨_, rfl⟩

theorem exec_vmul_checks (g mode ty d a b) (s : State) (m : Meta) (h : checks (.vmul g mode ty d a b) = some m) : ∃ eff, exec (.vmul g mode ty d a b) s = instr m s eff := by
  cases h; unfold exec; dsimp only; unfold execVmul aluFixed; exact ⟨_, rfl⟩

theorem exec_vmulImm_checks (g ty d a imm) (s : State) (m : Meta) (h : checks (.vmulImm g ty d a imm) = some m) : ∃ eff, exec (.vmulImm g ty d a imm) s = instr m s eff := by
  cases h; unfold exec; dsimp only; unfold execVmulImm aluImm aluFixed; exact ⟨_, rfl⟩

theorem exec_vmin_checks (g ty d a b) (s : State) (m : Meta) (h : checks (.vmin g ty d a b) = some m) : ∃ eff, exec (.vmin g ty d a b) s = instr m s eff := by
  cases h; unfold exec; dsimp only; unfold execVmin aluTwo aluFixed; exact ⟨_, rfl⟩

theorem exec_vminImm_checks (g ty d a imm) (s : State) (m : Meta) (h : checks (.vminImm g ty d a imm) = some m) : ∃ eff, exec (.vminImm g ty d a imm) s = instr m s eff := by
  cases h; unfold exec; dsimp only; unfold execVminImm aluImm aluFixed; exact ⟨_, rfl⟩

theorem exec_vmax_checks (g ty d a b) (s : State) (m : Meta) (h : checks (.vmax g ty d a b) = some m) : ∃ eff, exec (.vmax g ty d a b) s = instr m s eff := by
  cases h; unfold exec; dsimp only; unfold execVmax aluTwo aluFixed; exact ⟨_, rfl⟩

theorem exec_vmaxImm_checks (g ty d a imm) (s : State) (m : Meta) (h : checks (.vmaxImm g ty d a imm) = some m) : ∃ eff, exec (.vmaxImm g ty d a imm) s = instr m s eff := by
  cases h; unfold exec; dsimp only; unfold execVmaxImm aluImm aluFixed; exact ⟨_, rfl⟩

theorem exec_vfma_checks (g ty d a b c) (s : State) (m : Meta) (h : checks (.vfma g ty d a b c) = some m) : ∃ eff, exec (.vfma g ty d a b c) s = instr m s eff := by
  cases h; unfold exec; dsimp only; unfold execVfma aluFixed; exact ⟨_, rfl⟩

theorem exec_vdiv_checks (g f ty d a b) (s : State) (m : Meta) (h : checks (.vdiv g f ty d a b) = some m) : ∃ eff, exec (.vdiv g f ty d a b) s = instr m s eff := by
  cases h; unfold exec; dsimp only; unfold execVdiv aluLong; exact ⟨_, rfl⟩

theorem exec_vsqrt_checks (g f ty d a) (s : State) (m : Meta) (h : checks (.vsqrt g f ty d a) = some m) : ∃ eff, exec (.vsqrt g f ty d a) s = instr m s eff := by
  cases h; unfold exec; dsimp only; unfold execVsqrt aluLong; exact ⟨_, rfl⟩

theorem exec_vsfRcp_checks (g f d a) (s : State) (m : Meta) (h : checks (.vsfRcp g f d a) = some m) : ∃ eff, exec (.vsfRcp g f d a) s = instr m s eff := by
  cases h; unfold exec; dsimp only; unfold execVsfRcp special aluLong; exact ⟨_, rfl⟩

theorem exec_vsfRsqrt_checks (g f d a) (s : State) (m : Meta) (h : checks (.vsfRsqrt g f d a) = some m) : ∃ eff, exec (.vsfRsqrt g f d a) s = instr m s eff := by
  cases h; unfold exec; dsimp only; unfold execVsfRsqrt special aluLong; exact ⟨_, rfl⟩

theorem exec_vsfExp2_checks (g f d a) (s : State) (m : Meta) (h : checks (.vsfExp2 g f d a) = some m) : ∃ eff, exec (.vsfExp2 g f d a) s = instr m s eff := by
  cases h; unfold exec; dsimp only; unfold execVsfExp2 special aluLong; exact ⟨_, rfl⟩

theorem exec_vsfLog2_checks (g f d a) (s : State) (m : Meta) (h : checks (.vsfLog2 g f d a) = some m) : ∃ eff, exec (.vsfLog2 g f d a) s = instr m s eff := by
  cases h; unfold exec; dsimp only; unfold execVsfLog2 special aluLong; exact ⟨_, rfl⟩

theorem exec_vsfSinpi_checks (g f d a) (s : State) (m : Meta) (h : checks (.vsfSinpi g f d a) = some m) : ∃ eff, exec (.vsfSinpi g f d a) s = instr m s eff := by
  cases h; unfold exec; dsimp only; unfold execVsfSinpi special aluLong; exact ⟨_, rfl⟩

theorem exec_vsfCospi_checks (g f d a) (s : State) (m : Meta) (h : checks (.vsfCospi g f d a) = some m) : ∃ eff, exec (.vsfCospi g f d a) s = instr m s eff := by
  cases h; unfold exec; dsimp only; unfold execVsfCospi special aluLong; exact ⟨_, rfl⟩

theorem exec_vsfTanh_checks (g f d a) (s : State) (m : Meta) (h : checks (.vsfTanh g f d a) = some m) : ∃ eff, exec (.vsfTanh g f d a) s = instr m s eff := by
  cases h; unfold exec; dsimp only; unfold execVsfTanh special aluLong; exact ⟨_, rfl⟩

theorem exec_vcvt_checks (g sat rm dty sty d a) (s : State) (m : Meta) (h : checks (.vcvt g sat rm dty sty d a) = some m) : ∃ eff, exec (.vcvt g sat rm dty sty d a) s = instr m s eff := by
  cases h; unfold exec; dsimp only; unfold execVcvt aluFixed; exact ⟨_, rfl⟩

theorem exec_vand_checks (g ty d a b) (s : State) (m : Meta) (h : checks (.vand g ty d a b) = some m) : ∃ eff, exec (.vand g ty d a b) s = instr m s eff := by
  cases h; unfold exec; dsimp only; unfold execVand aluTwo aluFixed; exact ⟨_, rfl⟩

theorem exec_vandImm_checks (g ty d a imm) (s : State) (m : Meta) (h : checks (.vandImm g ty d a imm) = some m) : ∃ eff, exec (.vandImm g ty d a imm) s = instr m s eff := by
  cases h; unfold exec; dsimp only; unfold execVandImm aluImm aluFixed; exact ⟨_, rfl⟩

theorem exec_vor_checks (g ty d a b) (s : State) (m : Meta) (h : checks (.vor g ty d a b) = some m) : ∃ eff, exec (.vor g ty d a b) s = instr m s eff := by
  cases h; unfold exec; dsimp only; unfold execVor aluTwo aluFixed; exact ⟨_, rfl⟩

theorem exec_vorImm_checks (g ty d a imm) (s : State) (m : Meta) (h : checks (.vorImm g ty d a imm) = some m) : ∃ eff, exec (.vorImm g ty d a imm) s = instr m s eff := by
  cases h; unfold exec; dsimp only; unfold execVorImm aluImm aluFixed; exact ⟨_, rfl⟩

theorem exec_vxor_checks (g ty d a b) (s : State) (m : Meta) (h : checks (.vxor g ty d a b) = some m) : ∃ eff, exec (.vxor g ty d a b) s = instr m s eff := by
  cases h; unfold exec; dsimp only; unfold execVxor aluTwo aluFixed; exact ⟨_, rfl⟩

theorem exec_vxorImm_checks (g ty d a imm) (s : State) (m : Meta) (h : checks (.vxorImm g ty d a imm) = some m) : ∃ eff, exec (.vxorImm g ty d a imm) s = instr m s eff := by
  cases h; unfold exec; dsimp only; unfold execVxorImm aluImm aluFixed; exact ⟨_, rfl⟩

theorem exec_vshl_checks (g ty d a b) (s : State) (m : Meta) (h : checks (.vshl g ty d a b) = some m) : ∃ eff, exec (.vshl g ty d a b) s = instr m s eff := by
  cases h; unfold exec; dsimp only; unfold execVshl aluFixed; exact ⟨_, rfl⟩

theorem exec_vshlImm_checks (g ty d a imm) (s : State) (m : Meta) (h : checks (.vshlImm g ty d a imm) = some m) : ∃ eff, exec (.vshlImm g ty d a imm) s = instr m s eff := by
  cases h; unfold exec; dsimp only; unfold execVshlImm aluOne aluFixed; exact ⟨_, rfl⟩

theorem exec_vshr_checks (g ty d a b) (s : State) (m : Meta) (h : checks (.vshr g ty d a b) = some m) : ∃ eff, exec (.vshr g ty d a b) s = instr m s eff := by
  cases h; unfold exec; dsimp only; unfold execVshr aluFixed; exact ⟨_, rfl⟩

theorem exec_vshrImm_checks (g ty d a imm) (s : State) (m : Meta) (h : checks (.vshrImm g ty d a imm) = some m) : ∃ eff, exec (.vshrImm g ty d a imm) s = instr m s eff := by
  cases h; unfold exec; dsimp only; unfold execVshrImm aluOne aluFixed; exact ⟨_, rfl⟩

theorem exec_vbitPopc_checks (g ty d a) (s : State) (m : Meta) (h : checks (.vbitPopc g ty d a) = some m) : ∃ eff, exec (.vbitPopc g ty d a) s = instr m s eff := by
  cases h; unfold exec; dsimp only; unfold execVbitPopc aluOne aluFixed; exact ⟨_, rfl⟩

theorem exec_vbitClz_checks (g ty d a) (s : State) (m : Meta) (h : checks (.vbitClz g ty d a) = some m) : ∃ eff, exec (.vbitClz g ty d a) s = instr m s eff := by
  cases h; unfold exec; dsimp only; unfold execVbitClz aluOne aluFixed; exact ⟨_, rfl⟩

theorem exec_vbitCtz_checks (g ty d a) (s : State) (m : Meta) (h : checks (.vbitCtz g ty d a) = some m) : ∃ eff, exec (.vbitCtz g ty d a) s = instr m s eff := by
  cases h; unfold exec; dsimp only; unfold execVbitCtz aluOne aluFixed; exact ⟨_, rfl⟩

theorem exec_vbitRev_checks (g ty d a) (s : State) (m : Meta) (h : checks (.vbitRev g ty d a) = some m) : ∃ eff, exec (.vbitRev g ty d a) s = instr m s eff := by
  cases h; unfold exec; dsimp only; unfold execVbitRev aluOne aluFixed; exact ⟨_, rfl⟩

theorem exec_vsel_checks (g ty d a b pk) (s : State) (m : Meta) (h : checks (.vsel g ty d a b pk) = some m) : ∃ eff, exec (.vsel g ty d a b pk) s = instr m s eff := by
  cases h; unfold exec; dsimp only; unfold execVsel aluFixed; exact ⟨_, rfl⟩

theorem exec_vcmp_checks (g uni cond ty pd a b) (s : State) (m : Meta) (h : checks (.vcmp g uni cond ty pd a b) = some m) : ∃ eff, exec (.vcmp g uni cond ty pd a b) s = instr m s eff := by
  cases h; unfold exec; dsimp only; unfold execVcmp; exact ⟨_, rfl⟩

theorem exec_vpredAnd_checks (g pd pa pb) (s : State) (m : Meta) (h : checks (.vpredAnd g pd pa pb) = some m) : ∃ eff, exec (.vpredAnd g pd pa pb) s = instr m s eff := by
  cases h; unfold exec; dsimp only; unfold execVpredAnd predOp; exact ⟨_, rfl⟩

theorem exec_vpredOr_checks (g pd pa pb) (s : State) (m : Meta) (h : checks (.vpredOr g pd pa pb) = some m) : ∃ eff, exec (.vpredOr g pd pa pb) s = instr m s eff := by
  cases h; unfold exec; dsimp only; unfold execVpredOr predOp; exact ⟨_, rfl⟩

theorem exec_vpredXor_checks (g pd pa pb) (s : State) (m : Meta) (h : checks (.vpredXor g pd pa pb) = some m) : ∃ eff, exec (.vpredXor g pd pa pb) s = instr m s eff := by
  cases h; unfold exec; dsimp only; unfold execVpredXor predOp; exact ⟨_, rfl⟩

theorem exec_vpredNot_checks (g pd pa) (s : State) (m : Meta) (h : checks (.vpredNot g pd pa) = some m) : ∃ eff, exec (.vpredNot g pd pa) s = instr m s eff := by
  cases h; unfold exec; dsimp only; unfold execVpredNot predOp; exact ⟨_, rfl⟩

theorem exec_vpredMov_checks (g pd pa) (s : State) (m : Meta) (h : checks (.vpredMov g pd pa) = some m) : ∃ eff, exec (.vpredMov g pd pa) s = instr m s eff := by
  cases h; unfold exec; dsimp only; unfold execVpredMov predOp; exact ⟨_, rfl⟩

theorem exec_vmov_checks (g ty d a) (s : State) (m : Meta) (h : checks (.vmov g ty d a) = some m) : ∃ eff, exec (.vmov g ty d a) s = instr m s eff := by
  cases h; unfold exec; dsimp only; unfold execVmov aluOne aluFixed; exact ⟨_, rfl⟩

theorem exec_vmovImm_checks (g ty d imm) (s : State) (m : Meta) (h : checks (.vmovImm g ty d imm) = some m) : ∃ eff, exec (.vmovImm g ty d imm) s = instr m s eff := by
  cases h; unfold exec; dsimp only; unfold execVmovImm aluFixed; exact ⟨_, rfl⟩

theorem exec_shflIdx_checks (g z rel ty d a b) (s : State) (m : Meta) (h : checks (.shflIdx g z rel ty d a b) = some m) : ∃ eff, exec (.shflIdx g z rel ty d a b) s = instr m s eff := by
  cases h; unfold exec; dsimp only; unfold execShflIdx shuffle; exact ⟨_, rfl⟩

theorem exec_shflRel_checks (g z rel ty d a b) (s : State) (m : Meta) (h : checks (.shflRel g z rel ty d a b) = some m) : ∃ eff, exec (.shflRel g z rel ty d a b) s = instr m s eff := by
  cases h; unfold exec; dsimp only; unfold execShflRel shuffle; exact ⟨_, rfl⟩

theorem exec_scan_checks (g op excl ty d a) (s : State) (m : Meta) (h : checks (.scan g op excl ty d a) = some m) : ∃ eff, exec (.scan g op excl ty d a) s = instr m s eff := by
  cases h; unfold exec; dsimp only; unfold execScan; exact ⟨_, rfl⟩

theorem exec_lred_checks (g op ty d a) (s : State) (m : Meta) (h : checks (.lred g op ty d a) = some m) : ∃ eff, exec (.lred g op ty d a) s = instr m s eff := by
  cases h; unfold exec; dsimp only; unfold execLred; exact ⟨_, rfl⟩

theorem exec_voteAll_checks (g pd pa) (s : State) (m : Meta) (h : checks (.voteAll g pd pa) = some m) : ∃ eff, exec (.voteAll g pd pa) s = instr m s eff := by
  cases h; unfold exec; dsimp only; unfold execVoteAll; exact ⟨_, rfl⟩

theorem exec_voteAny_checks (g pd pa) (s : State) (m : Meta) (h : checks (.voteAny g pd pa) = some m) : ∃ eff, exec (.voteAny g pd pa) s = instr m s eff := by
  cases h; unfold exec; dsimp only; unfold execVoteAny; exact ⟨_, rfl⟩

theorem exec_voteBallot_checks (g d pa k) (s : State) (m : Meta) (h : checks (.voteBallot g d pa k) = some m) : ∃ eff, exec (.voteBallot g d pa k) s = instr m s eff := by
  cases h; unfold exec; dsimp only; unfold execVoteBallot; exact ⟨_, rfl⟩

theorem exec_ld_checks (g f space ty d win off) (s : State) (m : Meta) (h : checks (.ld g f space ty d win off) = some m) : ∃ eff, exec (.ld g f space ty d win off) s = instr m s eff := by
  cases h; unfold exec; dsimp only; unfold execLd; exact ⟨_, rfl⟩

theorem exec_st_checks (g space ty win off a) (s : State) (m : Meta) (h : checks (.st g space ty win off a) = some m) : ∃ eff, exec (.st g space ty win off a) s = instr m s eff := by
  cases h; unfold exec; dsimp only; unfold execSt; exact ⟨_, rfl⟩

theorem exec_ldAsof_checks (g f ty d win off t) (s : State) (m : Meta) (h : checks (.ldAsof g f ty d win off t) = some m) : ∃ eff, exec (.ldAsof g f ty d win off t) s = instr m s eff := by
  cases h; unfold exec; dsimp only; unfold execLdAsof; exact ⟨_, rfl⟩

theorem exec_atomG_checks (g f op sc prm ty d a win off) (s : State) (m : Meta) (h : checks (.atomG g f op sc prm ty d a win off) = some m) : ∃ eff, exec (.atomG g f op sc prm ty d a win off) s = instr m s eff := by
  cases h; unfold exec; dsimp only; unfold execAtomG atomic; exact ⟨_, rfl⟩

theorem exec_atomSp_checks (g f op sc prm ty d a off) (s : State) (m : Meta) (h : checks (.atomSp g f op sc prm ty d a off) = some m) : ∃ eff, exec (.atomSp g f op sc prm ty d a off) s = instr m s eff := by
  cases h; unfold exec; dsimp only; unfold execAtomSp atomic; exact ⟨_, rfl⟩

theorem exec_atomnG_checks (g f op sc ty a win off) (s : State) (m : Meta) (h : checks (.atomnG g f op sc ty a win off) = some m) : ∃ eff, exec (.atomnG g f op sc ty a win off) s = instr m s eff := by
  cases h; unfold exec; dsimp only; unfold execAtomnG atomic; exact ⟨_, rfl⟩

theorem exec_atomnSp_checks (g f op sc ty a off) (s : State) (m : Meta) (h : checks (.atomnSp g f op sc ty a off) = some m) : ∃ eff, exec (.atomnSp g f op sc ty a off) s = instr m s eff := by
  cases h; unfold exec; dsimp only; unfold execAtomnSp atomic; exact ⟨_, rfl⟩

theorem exec_fenceAcq_checks (g sc prm) (s : State) (m : Meta) (h : checks (.fenceAcq g sc prm) = some m) : ∃ eff, exec (.fenceAcq g sc prm) s = instr m s eff := by
  cases h; unfold exec; dsimp only; unfold execFenceAcq; exact ⟨_, rfl⟩

theorem exec_fenceRel_checks (g sc) (s : State) (m : Meta) (h : checks (.fenceRel g sc) = some m) : ∃ eff, exec (.fenceRel g sc) s = instr m s eff := by
  cases h; unfold exec; dsimp only; unfold execFenceRel; exact ⟨_, rfl⟩

theorem exec_fenceAr_checks (g sc prm) (s : State) (m : Meta) (h : checks (.fenceAr g sc prm) = some m) : ∃ eff, exec (.fenceAr g sc prm) s = instr m s eff := by
  cases h; unfold exec; dsimp only; unfold execFenceAr; exact ⟨_, rfl⟩

theorem exec_win_checks (g bd sa limit) (s : State) (m : Meta) (h : checks (.win g bd sa limit) = some m) : ∃ eff, exec (.win g bd sa limit) s = instr m s eff := by
  cases h; unfold exec; dsimp only; unfold execWin setWindow; exact ⟨_, rfl⟩

theorem exec_winReg_checks (g bd sa sb) (s : State) (m : Meta) (h : checks (.winReg g bd sa sb) = some m) : ∃ eff, exec (.winReg g bd sa sb) s = instr m s eff := by
  cases h; unfold exec; dsimp only; unfold execWinReg setWindow; exact ⟨_, rfl⟩

theorem exec_stmpGet_checks (g sd) (s : State) (m : Meta) (h : checks (.stmpGet g sd) = some m) : ∃ eff, exec (.stmpGet g sd) s = instr m s eff := by
  cases h; unfold exec; dsimp only; unfold execStmpGet; exact ⟨_, rfl⟩

theorem exec_stmpHold_checks (g sd sa) (s : State) (m : Meta) (h : checks (.stmpHold g sd sa) = some m) : ∃ eff, exec (.stmpHold g sd sa) s = instr m s eff := by
  cases h; unfold exec; dsimp only; unfold execStmpHold; exact ⟨_, rfl⟩

theorem exec_stmpHoldDm_checks (g sd sa sc) (s : State) (m : Meta) (h : checks (.stmpHoldDm g sd sa sc) = some m) : ∃ eff, exec (.stmpHoldDm g sd sa sc) s = instr m s eff := by
  cases h; unfold exec; dsimp only; unfold execStmpHoldDm; exact ⟨_, rfl⟩

theorem exec_stmpDrop_checks (g sa) (s : State) (m : Meta) (h : checks (.stmpDrop g sa) = some m) : ∃ eff, exec (.stmpDrop g sa) s = instr m s eff := by
  cases h; unfold exec; dsimp only; unfold execStmpDrop; exact ⟨_, rfl⟩

theorem exec_xbeg_checks (smask vmask sc fallback) (s : State) (m : Meta) (h : checks (.xbeg smask vmask sc fallback) = some m) : ∃ eff, exec (.xbeg smask vmask sc fallback) s = instr m s eff := by
  cases h; unfold exec; dsimp only; unfold execXbeg; exact ⟨_, rfl⟩

theorem exec_xend_checks (g fl) (s : State) (m : Meta) (h : checks (.xend g fl) = some m) : ∃ eff, exec (.xend g fl) s = instr m s eff := by
  cases h; unfold exec; dsimp only; unfold execXend; exact ⟨_, rfl⟩

theorem exec_xabt_checks (g sa) (s : State) (m : Meta) (h : checks (.xabt g sa) = some m) : ∃ eff, exec (.xabt g sa) s = instr m s eff := by
  cases h; unfold exec; dsimp only; unfold execXabt; exact ⟨_, rfl⟩

theorem exec_xstat_checks (g sd) (s : State) (m : Meta) (h : checks (.xstat g sd) = some m) : ∃ eff, exec (.xstat g sd) s = instr m s eff := by
  cases h; unfold exec; dsimp only; unfold execXstat; exact ⟨_, rfl⟩

theorem exec_hset_checks (g hd idx) (s : State) (m : Meta) (h : checks (.hset g hd idx) = some m) : ∃ eff, exec (.hset g hd idx) s = instr m s eff := by
  cases h; unfold exec; dsimp only; unfold execHset; exact ⟨_, rfl⟩

theorem exec_hget_checks (g hd idx) (s : State) (m : Meta) (h : checks (.hget g hd idx) = some m) : ∃ eff, exec (.hget g hd idx) s = instr m s eff := by
  cases h; unfold exec; dsimp only; unfold execHget; exact ⟨_, rfl⟩

theorem exec_mma_checks (g f hc ha hw) (s : State) (m : Meta) (h : checks (.mma g f hc ha hw) = some m) : ∃ eff, exec (.mma g f hc ha hw) s = instr m s eff := by
  cases h; unfold exec; dsimp only; unfold execMma product; exact ⟨_, rfl⟩

theorem exec_mmaInit_checks (g f hc ha hw) (s : State) (m : Meta) (h : checks (.mmaInit g f hc ha hw) = some m) : ∃ eff, exec (.mmaInit g f hc ha hw) s = instr m s eff := by
  cases h; unfold exec; dsimp only; unfold execMmaInit product; exact ⟨_, rfl⟩

theorem exec_mmaTern_checks (g f hc ha hw) (s : State) (m : Meta) (h : checks (.mmaTern g f hc ha hw) = some m) : ∃ eff, exec (.mmaTern g f hc ha hw) s = instr m s eff := by
  cases h; unfold exec; dsimp only; unfold execMmaTern product; exact ⟨_, rfl⟩

theorem exec_mmaTernInit_checks (g f hc ha hw) (s : State) (m : Meta) (h : checks (.mmaTernInit g f hc ha hw) = some m) : ∃ eff, exec (.mmaTernInit g f hc ha hw) s = instr m s eff := by
  cases h; unfold exec; dsimp only; unfold execMmaTernInit product; exact ⟨_, rfl⟩

theorem exec_mmaWh_checks (g f hc ha hw) (s : State) (m : Meta) (h : checks (.mmaWh g f hc ha hw) = some m) : ∃ eff, exec (.mmaWh g f hc ha hw) s = instr m s eff := by
  cases h; unfold exec; dsimp only; unfold execMmaWh product; exact ⟨_, rfl⟩

theorem exec_mmaWhInit_checks (g f hc ha hw) (s : State) (m : Meta) (h : checks (.mmaWhInit g f hc ha hw) = some m) : ∃ eff, exec (.mmaWhInit g f hc ha hw) s = instr m s eff := by
  cases h; unfold exec; dsimp only; unfold execMmaWhInit product; exact ⟨_, rfl⟩

theorem exec_tcopy_checks (g f tr rb mc hd ha bar) (s : State) (m : Meta) (h : checks (.tcopy g f tr rb mc hd ha bar) = some m) : ∃ eff, exec (.tcopy g f tr rb mc hd ha bar) s = instr m s eff := by
  cases h; unfold exec; dsimp only; unfold execTcopy; exact ⟨_, rfl⟩

theorem exec_tgather_checks (g f hd ha hx bar) (s : State) (m : Meta) (h : checks (.tgather g f hd ha hx bar) = some m) : ∃ eff, exec (.tgather g f hd ha hx bar) s = instr m s eff := by
  cases h; unfold exec; dsimp only; unfold execTgather gatherScatter; exact ⟨_, rfl⟩

theorem exec_tscatter_checks (g f hd ha hx bar) (s : State) (m : Meta) (h : checks (.tscatter g f hd ha hx bar) = some m) : ∃ eff, exec (.tscatter g f hd ha hx bar) s = instr m s eff := by
  cases h; unfold exec; dsimp only; unfold execTscatter gatherScatter; exact ⟨_, rfl⟩

theorem exec_taskPush_checks (g f sa) (s : State) (m : Meta) (h : checks (.taskPush g f sa) = some m) : ∃ eff, exec (.taskPush g f sa) s = instr m s eff := by
  cases h; unfold exec; dsimp only; unfold execTaskPush; exact ⟨_, rfl⟩

theorem exec_taskPushWave_checks (g f sa sb) (s : State) (m : Meta) (h : checks (.taskPushWave g f sa sb) = some m) : ∃ eff, exec (.taskPushWave g f sa sb) s = instr m s eff := by
  cases h; unfold exec; dsimp only; unfold execTaskPushWave; exact ⟨_, rfl⟩

theorem exec_br_checks (g off) (s : State) (m : Meta) (h : checks (.br g off) = some m) : ∃ eff, exec (.br g off) s = instr m s eff := by
  cases h; unfold exec; dsimp only; unfold execBr; exact ⟨_, rfl⟩

theorem exec_brc_checks (pn neg off tok) (s : State) (m : Meta) (h : checks (.brc pn neg off tok) = some m) : ∃ eff, exec (.brc pn neg off tok) s = instr m s eff := by
  cases h; unfold exec; dsimp only; unfold execBrc; exact ⟨_, rfl⟩

theorem exec_join_checks (s : State) (m : Meta) (h : checks .join = some m) : ∃ eff, exec .join s = instr m s eff := by
  cases h; unfold exec; dsimp only; unfold execJoin; exact ⟨_, rfl⟩

theorem exec_exit_checks (g) (s : State) (m : Meta) (h : checks (.exit g) = some m) : ∃ eff, exec (.exit g) s = instr m s eff := by
  cases h; unfold exec; dsimp only; unfold execExit; exact ⟨_, rfl⟩

theorem exec_launch_checks (g f sd sa) (s : State) (m : Meta) (h : checks (.launch g f sd sa) = some m) : ∃ eff, exec (.launch g f sd sa) s = instr m s eff := by
  cases h; unfold exec; dsimp only; unfold execLaunch; exact ⟨_, rfl⟩

theorem exec_rgn_checks (smask vmask) (s : State) (m : Meta) (h : checks (.rgn smask vmask) = some m) : ∃ eff, exec (.rgn smask vmask) s = instr m s eff := by
  cases h; unfold exec; dsimp only; unfold execRgn; exact ⟨_, rfl⟩

theorem exec_barInit_checks (g idx n) (s : State) (m : Meta) (h : checks (.barInit g idx n) = some m) : ∃ eff, exec (.barInit g idx n) s = instr m s eff := by
  cases h; unfold exec; dsimp only; unfold execBarInit; exact ⟨_, rfl⟩

theorem exec_barInitBytes_checks (g idx n) (s : State) (m : Meta) (h : checks (.barInitBytes g idx n) = some m) : ∃ eff, exec (.barInitBytes g idx n) s = instr m s eff := by
  cases h; unfold exec; dsimp only; unfold execBarInitBytes; exact ⟨_, rfl⟩

theorem exec_barExpect_checks (g idx n) (s : State) (m : Meta) (h : checks (.barExpect g idx n) = some m) : ∃ eff, exec (.barExpect g idx n) s = instr m s eff := by
  cases h; unfold exec; dsimp only; unfold execBarExpect; exact ⟨_, rfl⟩

theorem exec_barArrive_checks (g idx n) (s : State) (m : Meta) (h : checks (.barArrive g idx n) = some m) : ∃ eff, exec (.barArrive g idx n) s = instr m s eff := by
  cases h; unfold exec; dsimp only; unfold execBarArrive; exact ⟨_, rfl⟩

theorem exec_barWait_checks (g idx p) (s : State) (m : Meta) (h : checks (.barWait g idx p) = some m) : ∃ eff, exec (.barWait g idx p) s = instr m s eff := by
  cases h; unfold exec; dsimp only; unfold execBarWait; exact ⟨_, rfl⟩

theorem exec_barArw_checks (g idx n) (s : State) (m : Meta) (h : checks (.barArw g idx n) = some m) : ∃ eff, exec (.barArw g idx n) s = instr m s eff := by
  cases h; unfold exec; dsimp only; unfold execBarArw; exact ⟨_, rfl⟩

theorem exec_tlwait_checks (g tl sc n) (s : State) (m : Meta) (h : checks (.tlwait g tl sc n) = some m) : ∃ eff, exec (.tlwait g tl sc n) s = instr m s eff := by
  cases h; unfold exec; dsimp only; unfold execTlwait; exact ⟨_, rfl⟩

theorem exec_tlread_checks (g sd tl) (s : State) (m : Meta) (h : checks (.tlread g sd tl) = some m) : ∃ eff, exec (.tlread g sd tl) s = instr m s eff := by
  cases h; unfold exec; dsimp only; unfold execTlread; exact ⟨_, rfl⟩

theorem exec_dqPush_checks (g f sa) (s : State) (m : Meta) (h : checks (.dqPush g f sa) = some m) : ∃ eff, exec (.dqPush g f sa) s = instr m s eff := by
  cases h; unfold exec; dsimp only; unfold execDqPush; exact ⟨_, rfl⟩

theorem exec_dqPop_checks (g f sd) (s : State) (m : Meta) (h : checks (.dqPop g f sd) = some m) : ∃ eff, exec (.dqPop g f sd) s = instr m s eff := by
  cases h; unfold exec; dsimp only; unfold execDqPop; exact ⟨_, rfl⟩

theorem exec_dqSteal_checks (g f sd sa) (s : State) (m : Meta) (h : checks (.dqSteal g f sd sa) = some m) : ∃ eff, exec (.dqSteal g f sd sa) s = instr m s eff := by
  cases h; unfold exec; dsimp only; unfold execDqSteal; exact ⟨_, rfl⟩

theorem exec_msgSend_checks (g f sd sa sb) (s : State) (m : Meta) (h : checks (.msgSend g f sd sa sb) = some m) : ∃ eff, exec (.msgSend g f sd sa sb) s = instr m s eff := by
  cases h; unfold exec; dsimp only; unfold execMsgSend; exact ⟨_, rfl⟩

theorem exec_ringWait_checks (g sd sa) (s : State) (m : Meta) (h : checks (.ringWait g sd sa) = some m) : ∃ eff, exec (.ringWait g sd sa) s = instr m s eff := by
  cases h; unfold exec; dsimp only; unfold execRingWait; exact ⟨_, rfl⟩

theorem exec_ringTake_checks (g sd sa) (s : State) (m : Meta) (h : checks (.ringTake g sd sa) = some m) : ∃ eff, exec (.ringTake g sd sa) s = instr m s eff := by
  cases h; unfold exec; dsimp only; unfold execRingTake; exact ⟨_, rfl⟩

theorem exec_yield_checks (g) (s : State) (m : Meta) (h : checks (.yield g) = some m) : ∃ eff, exec (.yield g) s = instr m s eff := by
  cases h; unfold exec; dsimp only; unfold execYield; exact ⟨_, rfl⟩

theorem exec_qend_checks (g) (s : State) (m : Meta) (h : checks (.qend g) = some m) : ∃ eff, exec (.qend g) s = instr m s eff := by
  cases h; unfold exec; dsimp only; unfold execQend; exact ⟨_, rfl⟩

theorem exec_sysRd_checks (g sd reg) (s : State) (m : Meta) (h : checks (.sysRd g sd reg) = some m) : ∃ eff, exec (.sysRd g sd reg) s = instr m s eff := by
  cases h; unfold exec; dsimp only; unfold execSysRd; exact ⟨_, rfl⟩

theorem exec_sysWr_checks (g reg sa) (s : State) (m : Meta) (h : checks (.sysWr g reg sa) = some m) : ∃ eff, exec (.sysWr g reg sa) s = instr m s eff := by
  cases h; unfold exec; dsimp only; unfold execSysWr; exact ⟨_, rfl⟩

theorem exec_cstampWrite_checks (g sa) (s : State) (m : Meta) (h : checks (.cstampWrite g sa) = some m) : ∃ eff, exec (.cstampWrite g sa) s = instr m s eff := by
  cases h; unfold exec; dsimp only; unfold execCstampWrite; exact ⟨_, rfl⟩

theorem exec_bufreqWrite_checks (g sa) (s : State) (m : Meta) (h : checks (.bufreqWrite g sa) = some m) : ∃ eff, exec (.bufreqWrite g sa) s = instr m s eff := by
  cases h; unfold exec; dsimp only; unfold execBufreqWrite; exact ⟨_, rfl⟩

theorem exec_ringdescWrite_checks (g k sa) (s : State) (m : Meta) (h : checks (.ringdescWrite g k sa) = some m) : ∃ eff, exec (.ringdescWrite g k sa) s = instr m s eff := by
  cases h; unfold exec; dsimp only; unfold execRingdescWrite; exact ⟨_, rfl⟩

theorem exec_turnrptRead_checks (g sd n) (s : State) (m : Meta) (h : checks (.turnrptRead g sd n) = some m) : ∃ eff, exec (.turnrptRead g sd n) s = instr m s eff := by
  cases h; unfold exec; dsimp only; unfold execTurnrptRead; exact ⟨_, rfl⟩

theorem exec_trap_checks (g n) (s : State) (m : Meta) (h : checks (.trap g n) = some m) : ∃ eff, exec (.trap g n) s = instr m s eff := by
  cases h; unfold exec; dsimp only; unfold execTrap; exact ⟨_, rfl⟩

theorem exec_tret_checks (g) (s : State) (m : Meta) (h : checks (.tret g) = some m) : ∃ eff, exec (.tret g) s = instr m s eff := by
  cases h; unfold exec; dsimp only; unfold execTret; exact ⟨_, rfl⟩

theorem exec_tlset_checks (g tl v) (s : State) (m : Meta) (h : checks (.tlset g tl v) = some m) : ∃ eff, exec (.tlset g tl v) s = instr m s eff := by
  cases h; unfold exec; dsimp only; unfold execTlset; exact ⟨_, rfl⟩

theorem exec_sysCtxsave_checks (g f sd sa) (s : State) (m : Meta) (h : checks (.sysCtxsave g f sd sa) = some m) : ∃ eff, exec (.sysCtxsave g f sd sa) s = instr m s eff := by
  cases h; unfold exec; dsimp only; unfold execSysCtxsave; exact ⟨_, rfl⟩

theorem exec_sysCtxload_checks (g f sd sa) (s : State) (m : Meta) (h : checks (.sysCtxload g f sd sa) = some m) : ∃ eff, exec (.sysCtxload g f sd sa) s = instr m s eff := by
  cases h; unfold exec; dsimp only; unfold execSysCtxload; exact ⟨_, rfl⟩

theorem exec_sysHadv_checks (g sa sb) (s : State) (m : Meta) (h : checks (.sysHadv g sa sb) = some m) : ∃ eff, exec (.sysHadv g sa sb) s = instr m s eff := by
  cases h; unfold exec; dsimp only; unfold execSysHadv; exact ⟨_, rfl⟩

theorem exec_sysWsize_checks (g sa sb) (s : State) (m : Meta) (h : checks (.sysWsize g sa sb) = some m) : ∃ eff, exec (.sysWsize g sa sb) s = instr m s eff := by
  cases h; unfold exec; dsimp only; unfold execSysWsize; exact ⟨_, rfl⟩

theorem exec_sysHrevoke_checks (g sa sb) (s : State) (m : Meta) (h : checks (.sysHrevoke g sa sb) = some m) : ∃ eff, exec (.sysHrevoke g sa sb) s = instr m s eff := by
  cases h; unfold exec; dsimp only; unfold execSysHrevoke; exact ⟨_, rfl⟩

theorem exec_sysPgattr_checks (g f sa sb) (s : State) (m : Meta) (h : checks (.sysPgattr g f sa sb) = some m) : ∃ eff, exec (.sysPgattr g f sa sb) s = instr m s eff := by
  cases h; unfold exec; dsimp only; unfold execSysPgattr; exact ⟨_, rfl⟩

theorem exec_sysTlbinv_checks (g f sa sb) (s : State) (m : Meta) (h : checks (.sysTlbinv g f sa sb) = some m) : ∃ eff, exec (.sysTlbinv g f sa sb) s = instr m s eff := by
  cases h; unfold exec; dsimp only; unfold execSysTlbinv; exact ⟨_, rfl⟩

theorem exec_sysWininv_checks (g f sa sb) (s : State) (m : Meta) (h : checks (.sysWininv g f sa sb) = some m) : ∃ eff, exec (.sysWininv g f sa sb) s = instr m s eff := by
  cases h; unfold exec; dsimp only; unfold execSysWininv; exact ⟨_, rfl⟩

theorem exec_sysL1inv_checks (g f) (s : State) (m : Meta) (h : checks (.sysL1inv g f) = some m) : ∃ eff, exec (.sysL1inv g f) s = instr m s eff := by
  cases h; unfold exec; dsimp only; unfold execSysL1inv; exact ⟨_, rfl⟩

theorem exec_sysL1wb_checks (g f) (s : State) (m : Meta) (h : checks (.sysL1wb g f) = some m) : ∃ eff, exec (.sysL1wb g f) s = instr m s eff := by
  cases h; unfold exec; dsimp only; unfold execSysL1wb; exact ⟨_, rfl⟩

theorem exec_sysSlwb_checks (g f sa sb) (s : State) (m : Meta) (h : checks (.sysSlwb g f sa sb) = some m) : ∃ eff, exec (.sysSlwb g f sa sb) s = instr m s eff := by
  cases h; unfold exec; dsimp only; unfold execSysSlwb; exact ⟨_, rfl⟩

theorem exec_sysSlinv_checks (g f sa sb) (s : State) (m : Meta) (h : checks (.sysSlinv g f sa sb) = some m) : ∃ eff, exec (.sysSlinv g f sa sb) s = instr m s eff := by
  cases h; unfold exec; dsimp only; unfold execSysSlinv; exact ⟨_, rfl⟩

theorem exec_sysBrk_checks (g n) (s : State) (m : Meta) (h : checks (.sysBrk g n) = some m) : ∃ eff, exec (.sysBrk g n) s = instr m s eff := by
  cases h; unfold exec; dsimp only; unfold execSysBrk; exact ⟨_, rfl⟩

theorem exec_sysDbgrd_checks (g sd) (s : State) (m : Meta) (h : checks (.sysDbgrd g sd) = some m) : ∃ eff, exec (.sysDbgrd g sd) s = instr m s eff := by
  cases h; unfold exec; dsimp only; unfold execSysDbgrd; exact ⟨_, rfl⟩

theorem exec_sysDgrd_checks (g sd sa) (s : State) (m : Meta) (h : checks (.sysDgrd g sd sa) = some m) : ∃ eff, exec (.sysDgrd g sd sa) s = instr m s eff := by
  cases h; unfold exec; dsimp only; unfold execSysDgrd; exact ⟨_, rfl⟩

/-- An instruction form is its checks and an effect. -/
theorem exec_checks (i : Instr) (s : State) (m : Meta) (h : checks i = some m) : ∃ eff, exec i s = instr m s eff := by
  cases i with
  | vadd g sat ty d a b => exact exec_vadd_checks _ _ _ _ _ _ s m h
  | vaddImm g ty d a imm => exact exec_vaddImm_checks _ _ _ _ _ s m h
  | vsub g sat ty d a b => exact exec_vsub_checks _ _ _ _ _ _ s m h
  | vsubImm g ty d a imm => exact exec_vsubImm_checks _ _ _ _ _ s m h
  | vmul g mode ty d a b => exact exec_vmul_checks _ _ _ _ _ _ s m h
  | vmulImm g ty d a imm => exact exec_vmulImm_checks _ _ _ _ _ s m h
  | vmin g ty d a b => exact exec_vmin_checks _ _ _ _ _ s m h
  | vminImm g ty d a imm => exact exec_vminImm_checks _ _ _ _ _ s m h
  | vmax g ty d a b => exact exec_vmax_checks _ _ _ _ _ s m h
  | vmaxImm g ty d a imm => exact exec_vmaxImm_checks _ _ _ _ _ s m h
  | vfma g ty d a b c => exact exec_vfma_checks _ _ _ _ _ _ s m h
  | vdiv g f ty d a b => exact exec_vdiv_checks _ _ _ _ _ _ s m h
  | vsqrt g f ty d a => exact exec_vsqrt_checks _ _ _ _ _ s m h
  | vsfRcp g f d a => exact exec_vsfRcp_checks _ _ _ _ s m h
  | vsfRsqrt g f d a => exact exec_vsfRsqrt_checks _ _ _ _ s m h
  | vsfExp2 g f d a => exact exec_vsfExp2_checks _ _ _ _ s m h
  | vsfLog2 g f d a => exact exec_vsfLog2_checks _ _ _ _ s m h
  | vsfSinpi g f d a => exact exec_vsfSinpi_checks _ _ _ _ s m h
  | vsfCospi g f d a => exact exec_vsfCospi_checks _ _ _ _ s m h
  | vsfTanh g f d a => exact exec_vsfTanh_checks _ _ _ _ s m h
  | vcvt g sat rm dty sty d a => exact exec_vcvt_checks _ _ _ _ _ _ _ s m h
  | vand g ty d a b => exact exec_vand_checks _ _ _ _ _ s m h
  | vandImm g ty d a imm => exact exec_vandImm_checks _ _ _ _ _ s m h
  | vor g ty d a b => exact exec_vor_checks _ _ _ _ _ s m h
  | vorImm g ty d a imm => exact exec_vorImm_checks _ _ _ _ _ s m h
  | vxor g ty d a b => exact exec_vxor_checks _ _ _ _ _ s m h
  | vxorImm g ty d a imm => exact exec_vxorImm_checks _ _ _ _ _ s m h
  | vshl g ty d a b => exact exec_vshl_checks _ _ _ _ _ s m h
  | vshlImm g ty d a imm => exact exec_vshlImm_checks _ _ _ _ _ s m h
  | vshr g ty d a b => exact exec_vshr_checks _ _ _ _ _ s m h
  | vshrImm g ty d a imm => exact exec_vshrImm_checks _ _ _ _ _ s m h
  | vbitPopc g ty d a => exact exec_vbitPopc_checks _ _ _ _ s m h
  | vbitClz g ty d a => exact exec_vbitClz_checks _ _ _ _ s m h
  | vbitCtz g ty d a => exact exec_vbitCtz_checks _ _ _ _ s m h
  | vbitRev g ty d a => exact exec_vbitRev_checks _ _ _ _ s m h
  | vsel g ty d a b pk => exact exec_vsel_checks _ _ _ _ _ _ s m h
  | vcmp g uni cond ty pd a b => exact exec_vcmp_checks _ _ _ _ _ _ _ s m h
  | vpredAnd g pd pa pb => exact exec_vpredAnd_checks _ _ _ _ s m h
  | vpredOr g pd pa pb => exact exec_vpredOr_checks _ _ _ _ s m h
  | vpredXor g pd pa pb => exact exec_vpredXor_checks _ _ _ _ s m h
  | vpredNot g pd pa => exact exec_vpredNot_checks _ _ _ s m h
  | vpredMov g pd pa => exact exec_vpredMov_checks _ _ _ s m h
  | vmov g ty d a => exact exec_vmov_checks _ _ _ _ s m h
  | vmovImm g ty d imm => exact exec_vmovImm_checks _ _ _ _ s m h
  | shflIdx g z rel ty d a b => exact exec_shflIdx_checks _ _ _ _ _ _ _ s m h
  | shflRel g z rel ty d a b => exact exec_shflRel_checks _ _ _ _ _ _ _ s m h
  | scan g op excl ty d a => exact exec_scan_checks _ _ _ _ _ _ s m h
  | lred g op ty d a => exact exec_lred_checks _ _ _ _ _ s m h
  | voteAll g pd pa => exact exec_voteAll_checks _ _ _ s m h
  | voteAny g pd pa => exact exec_voteAny_checks _ _ _ s m h
  | voteBallot g d pa k => exact exec_voteBallot_checks _ _ _ _ s m h
  | ld g f space ty d win off => exact exec_ld_checks _ _ _ _ _ _ _ s m h
  | st g space ty win off a => exact exec_st_checks _ _ _ _ _ _ s m h
  | ldAsof g f ty d win off t => exact exec_ldAsof_checks _ _ _ _ _ _ _ s m h
  | atomG g f op sc prm ty d a win off => exact exec_atomG_checks _ _ _ _ _ _ _ _ _ _ s m h
  | atomSp g f op sc prm ty d a off => exact exec_atomSp_checks _ _ _ _ _ _ _ _ _ s m h
  | atomnG g f op sc ty a win off => exact exec_atomnG_checks _ _ _ _ _ _ _ _ s m h
  | atomnSp g f op sc ty a off => exact exec_atomnSp_checks _ _ _ _ _ _ _ s m h
  | fenceAcq g sc prm => exact exec_fenceAcq_checks _ _ _ s m h
  | fenceRel g sc => exact exec_fenceRel_checks _ _ s m h
  | fenceAr g sc prm => exact exec_fenceAr_checks _ _ _ s m h
  | win g bd sa limit => exact exec_win_checks _ _ _ _ s m h
  | winReg g bd sa sb => exact exec_winReg_checks _ _ _ _ s m h
  | stmpGet g sd => exact exec_stmpGet_checks _ _ s m h
  | stmpHold g sd sa => exact exec_stmpHold_checks _ _ _ s m h
  | stmpHoldDm g sd sa sc => exact exec_stmpHoldDm_checks _ _ _ _ s m h
  | stmpDrop g sa => exact exec_stmpDrop_checks _ _ s m h
  | xbeg smask vmask sc fallback => exact exec_xbeg_checks _ _ _ _ s m h
  | xend g fl => exact exec_xend_checks _ _ s m h
  | xabt g sa => exact exec_xabt_checks _ _ s m h
  | xstat g sd => exact exec_xstat_checks _ _ s m h
  | hset g hd idx => exact exec_hset_checks _ _ _ s m h
  | hget g hd idx => exact exec_hget_checks _ _ _ s m h
  | mma g f hc ha hw => exact exec_mma_checks _ _ _ _ _ s m h
  | mmaInit g f hc ha hw => exact exec_mmaInit_checks _ _ _ _ _ s m h
  | mmaTern g f hc ha hw => exact exec_mmaTern_checks _ _ _ _ _ s m h
  | mmaTernInit g f hc ha hw => exact exec_mmaTernInit_checks _ _ _ _ _ s m h
  | mmaWh g f hc ha hw => exact exec_mmaWh_checks _ _ _ _ _ s m h
  | mmaWhInit g f hc ha hw => exact exec_mmaWhInit_checks _ _ _ _ _ s m h
  | tcopy g f tr rb mc hd ha bar => exact exec_tcopy_checks _ _ _ _ _ _ _ _ s m h
  | tgather g f hd ha hx bar => exact exec_tgather_checks _ _ _ _ _ _ s m h
  | tscatter g f hd ha hx bar => exact exec_tscatter_checks _ _ _ _ _ _ s m h
  | taskPush g f sa => exact exec_taskPush_checks _ _ _ s m h
  | taskPushWave g f sa sb => exact exec_taskPushWave_checks _ _ _ _ s m h
  | br g off => exact exec_br_checks _ _ s m h
  | brc pn neg off tok => exact exec_brc_checks _ _ _ _ s m h
  | join => exact exec_join_checks s m h
  | exit g => exact exec_exit_checks _ s m h
  | launch g f sd sa => exact exec_launch_checks _ _ _ _ s m h
  | rgn smask vmask => exact exec_rgn_checks _ _ s m h
  | barInit g idx n => exact exec_barInit_checks _ _ _ s m h
  | barInitBytes g idx n => exact exec_barInitBytes_checks _ _ _ s m h
  | barExpect g idx n => exact exec_barExpect_checks _ _ _ s m h
  | barArrive g idx n => exact exec_barArrive_checks _ _ _ s m h
  | barWait g idx p => exact exec_barWait_checks _ _ _ s m h
  | barArw g idx n => exact exec_barArw_checks _ _ _ s m h
  | tlwait g tl sc n => exact exec_tlwait_checks _ _ _ _ s m h
  | tlread g sd tl => exact exec_tlread_checks _ _ _ s m h
  | dqPush g f sa => exact exec_dqPush_checks _ _ _ s m h
  | dqPop g f sd => exact exec_dqPop_checks _ _ _ s m h
  | dqSteal g f sd sa => exact exec_dqSteal_checks _ _ _ _ s m h
  | msgSend g f sd sa sb => exact exec_msgSend_checks _ _ _ _ _ s m h
  | ringWait g sd sa => exact exec_ringWait_checks _ _ _ s m h
  | ringTake g sd sa => exact exec_ringTake_checks _ _ _ s m h
  | yield g => exact exec_yield_checks _ s m h
  | qend g => exact exec_qend_checks _ s m h
  | sysRd g sd reg => exact exec_sysRd_checks _ _ _ s m h
  | sysWr g reg sa => exact exec_sysWr_checks _ _ _ s m h
  | cstampWrite g sa => exact exec_cstampWrite_checks _ _ s m h
  | bufreqWrite g sa => exact exec_bufreqWrite_checks _ _ s m h
  | ringdescWrite g k sa => exact exec_ringdescWrite_checks _ _ _ s m h
  | turnrptRead g sd n => exact exec_turnrptRead_checks _ _ _ s m h
  | trap g n => exact exec_trap_checks _ _ s m h
  | tret g => exact exec_tret_checks _ s m h
  | tlset g tl v => exact exec_tlset_checks _ _ _ s m h
  | sysCtxsave g f sd sa => exact exec_sysCtxsave_checks _ _ _ _ s m h
  | sysCtxload g f sd sa => exact exec_sysCtxload_checks _ _ _ _ s m h
  | sysHadv g sa sb => exact exec_sysHadv_checks _ _ _ s m h
  | sysWsize g sa sb => exact exec_sysWsize_checks _ _ _ s m h
  | sysHrevoke g sa sb => exact exec_sysHrevoke_checks _ _ _ s m h
  | sysPgattr g f sa sb => exact exec_sysPgattr_checks _ _ _ _ s m h
  | sysTlbinv g f sa sb => exact exec_sysTlbinv_checks _ _ _ _ s m h
  | sysWininv g f sa sb => exact exec_sysWininv_checks _ _ _ _ s m h
  | sysL1inv g f => exact exec_sysL1inv_checks _ _ s m h
  | sysL1wb g f => exact exec_sysL1wb_checks _ _ s m h
  | sysSlwb g f sa sb => exact exec_sysSlwb_checks _ _ _ _ s m h
  | sysSlinv g f sa sb => exact exec_sysSlinv_checks _ _ _ _ s m h
  | sysBrk g n => exact exec_sysBrk_checks _ _ s m h
  | sysDbgrd g sd => exact exec_sysDbgrd_checks _ _ s m h
  | sysDgrd g sd sa => exact exec_sysDgrd_checks _ _ _ s m h
  | _ => cases h

end Sys2Proof.Machine
end

