-- ==== Sys2Proof/Laws/PerInstr.lean ====
section
/-! SUPPORT. What holds of every instruction as syntax, one lemma for each constructor. -/

namespace Sys2Proof.Laws.Kinds

open Sys2Proof Sys2Proof.Machine

/-- An instruction with a word has the checks of an instruction form; an event of the module and a mailbox command have
neither. -/
def Statement (i : Instr) : Prop := (encodeFirst i).isSome = (checks i).isSome

theorem vadd {g sat ty d a b} : Statement (.vadd g sat ty d a b) := rfl

theorem vaddImm {g ty d a imm} : Statement (.vaddImm g ty d a imm) := rfl

theorem vsub {g sat ty d a b} : Statement (.vsub g sat ty d a b) := rfl

theorem vsubImm {g ty d a imm} : Statement (.vsubImm g ty d a imm) := rfl

theorem vmul {g mode ty d a b} : Statement (.vmul g mode ty d a b) := rfl

theorem vmulImm {g ty d a imm} : Statement (.vmulImm g ty d a imm) := rfl

theorem vmin {g ty d a b} : Statement (.vmin g ty d a b) := rfl

theorem vminImm {g ty d a imm} : Statement (.vminImm g ty d a imm) := rfl

theorem vmax {g ty d a b} : Statement (.vmax g ty d a b) := rfl

theorem vmaxImm {g ty d a imm} : Statement (.vmaxImm g ty d a imm) := rfl

theorem vfma {g ty d a b c} : Statement (.vfma g ty d a b c) := rfl

theorem vdiv {g f ty d a b} : Statement (.vdiv g f ty d a b) := rfl

theorem vsqrt {g f ty d a} : Statement (.vsqrt g f ty d a) := rfl

theorem vsfRcp {g f d a} : Statement (.vsfRcp g f d a) := rfl

theorem vsfRsqrt {g f d a} : Statement (.vsfRsqrt g f d a) := rfl

theorem vsfExp2 {g f d a} : Statement (.vsfExp2 g f d a) := rfl

theorem vsfLog2 {g f d a} : Statement (.vsfLog2 g f d a) := rfl

theorem vsfSinpi {g f d a} : Statement (.vsfSinpi g f d a) := rfl

theorem vsfCospi {g f d a} : Statement (.vsfCospi g f d a) := rfl

theorem vsfTanh {g f d a} : Statement (.vsfTanh g f d a) := rfl

theorem vcvt {g sat rm dty sty d a} : Statement (.vcvt g sat rm dty sty d a) := rfl

theorem vand {g ty d a b} : Statement (.vand g ty d a b) := rfl

theorem vandImm {g ty d a imm} : Statement (.vandImm g ty d a imm) := rfl

theorem vor {g ty d a b} : Statement (.vor g ty d a b) := rfl

theorem vorImm {g ty d a imm} : Statement (.vorImm g ty d a imm) := rfl

theorem vxor {g ty d a b} : Statement (.vxor g ty d a b) := rfl

theorem vxorImm {g ty d a imm} : Statement (.vxorImm g ty d a imm) := rfl

theorem vshl {g ty d a b} : Statement (.vshl g ty d a b) := rfl

theorem vshlImm {g ty d a imm} : Statement (.vshlImm g ty d a imm) := rfl

theorem vshr {g ty d a b} : Statement (.vshr g ty d a b) := rfl

theorem vshrImm {g ty d a imm} : Statement (.vshrImm g ty d a imm) := rfl

theorem vbitPopc {g ty d a} : Statement (.vbitPopc g ty d a) := rfl

theorem vbitClz {g ty d a} : Statement (.vbitClz g ty d a) := rfl

theorem vbitCtz {g ty d a} : Statement (.vbitCtz g ty d a) := rfl

theorem vbitRev {g ty d a} : Statement (.vbitRev g ty d a) := rfl

theorem vsel {g ty d a b pk} : Statement (.vsel g ty d a b pk) := rfl

theorem vcmp {g uni cond ty pd a b} : Statement (.vcmp g uni cond ty pd a b) := by cases b <;> rfl

theorem vpredAnd {g pd pa pb} : Statement (.vpredAnd g pd pa pb) := rfl

theorem vpredOr {g pd pa pb} : Statement (.vpredOr g pd pa pb) := rfl

theorem vpredXor {g pd pa pb} : Statement (.vpredXor g pd pa pb) := rfl

theorem vpredNot {g pd pa} : Statement (.vpredNot g pd pa) := rfl

theorem vpredMov {g pd pa} : Statement (.vpredMov g pd pa) := rfl

theorem vmov {g ty d a} : Statement (.vmov g ty d a) := rfl

theorem vmovImm {g ty d imm} : Statement (.vmovImm g ty d imm) := rfl

theorem shflIdx {g z rel ty d a b} : Statement (.shflIdx g z rel ty d a b) := rfl

theorem shflRel {g z rel ty d a b} : Statement (.shflRel g z rel ty d a b) := rfl

theorem scan {g op excl ty d a} : Statement (.scan g op excl ty d a) := rfl

theorem lred {g op ty d a} : Statement (.lred g op ty d a) := rfl

theorem voteAll {g pd pa} : Statement (.voteAll g pd pa) := rfl

theorem voteAny {g pd pa} : Statement (.voteAny g pd pa) := rfl

theorem voteBallot {g d pa k} : Statement (.voteBallot g d pa k) := rfl

theorem ld {g f space ty d win off} : Statement (.ld g f space ty d win off) := rfl

theorem st {g space ty win off a} : Statement (.st g space ty win off a) := rfl

theorem ldAsof {g f ty d win off t} : Statement (.ldAsof g f ty d win off t) := rfl

theorem atomG {g f op sc prm ty d a win off} : Statement (.atomG g f op sc prm ty d a win off) := rfl

theorem atomSp {g f op sc prm ty d a off} : Statement (.atomSp g f op sc prm ty d a off) := rfl

theorem atomnG {g f op sc ty a win off} : Statement (.atomnG g f op sc ty a win off) := rfl

theorem atomnSp {g f op sc ty a off} : Statement (.atomnSp g f op sc ty a off) := rfl

theorem fenceAcq {g sc prm} : Statement (.fenceAcq g sc prm) := rfl

theorem fenceRel {g sc} : Statement (.fenceRel g sc) := rfl

theorem fenceAr {g sc prm} : Statement (.fenceAr g sc prm) := rfl

theorem win {g bd sa limit} : Statement (.win g bd sa limit) := rfl

theorem winReg {g bd sa sb} : Statement (.winReg g bd sa sb) := rfl

theorem stmpGet {g sd} : Statement (.stmpGet g sd) := rfl

theorem stmpHold {g sd sa} : Statement (.stmpHold g sd sa) := rfl

theorem stmpHoldDm {g sd sa sc} : Statement (.stmpHoldDm g sd sa sc) := rfl

theorem stmpDrop {g sa} : Statement (.stmpDrop g sa) := rfl

theorem xbeg {smask vmask sc fallback} : Statement (.xbeg smask vmask sc fallback) := rfl

theorem xend {g fl} : Statement (.xend g fl) := rfl

theorem xabt {g sa} : Statement (.xabt g sa) := rfl

theorem xstat {g sd} : Statement (.xstat g sd) := rfl

theorem hset {g hd idx} : Statement (.hset g hd idx) := rfl

theorem hget {g hd idx} : Statement (.hget g hd idx) := rfl

theorem mma {g f hc ha hw} : Statement (.mma g f hc ha hw) := rfl

theorem mmaInit {g f hc ha hw} : Statement (.mmaInit g f hc ha hw) := rfl

theorem mmaTern {g f hc ha hw} : Statement (.mmaTern g f hc ha hw) := rfl

theorem mmaTernInit {g f hc ha hw} : Statement (.mmaTernInit g f hc ha hw) := rfl

theorem mmaWh {g f hc ha hw} : Statement (.mmaWh g f hc ha hw) := rfl

theorem mmaWhInit {g f hc ha hw} : Statement (.mmaWhInit g f hc ha hw) := rfl

theorem tcopy {g f tr rb mc hd ha bar} : Statement (.tcopy g f tr rb mc hd ha bar) := rfl

theorem tgather {g f hd ha hx bar} : Statement (.tgather g f hd ha hx bar) := rfl

theorem tscatter {g f hd ha hx bar} : Statement (.tscatter g f hd ha hx bar) := rfl

theorem taskPush {g f sa} : Statement (.taskPush g f sa) := rfl

theorem taskPushWave {g f sa sb} : Statement (.taskPushWave g f sa sb) := rfl

theorem br {g off} : Statement (.br g off) := rfl

theorem brc {pn neg off tok} : Statement (.brc pn neg off tok) := rfl

theorem join : Statement .join := rfl

theorem exit {g} : Statement (.exit g) := rfl

theorem launch {g f sd sa} : Statement (.launch g f sd sa) := rfl

theorem rgn {smask vmask} : Statement (.rgn smask vmask) := rfl

theorem barInit {g idx n} : Statement (.barInit g idx n) := rfl

theorem barInitBytes {g idx n} : Statement (.barInitBytes g idx n) := rfl

theorem barExpect {g idx n} : Statement (.barExpect g idx n) := rfl

theorem barArrive {g idx n} : Statement (.barArrive g idx n) := rfl

theorem barWait {g idx p} : Statement (.barWait g idx p) := rfl

theorem barArw {g idx n} : Statement (.barArw g idx n) := rfl

theorem tlwait {g tl sc n} : Statement (.tlwait g tl sc n) := rfl

theorem tlread {g sd tl} : Statement (.tlread g sd tl) := rfl

theorem dqPush {g f sa} : Statement (.dqPush g f sa) := rfl

theorem dqPop {g f sd} : Statement (.dqPop g f sd) := rfl

theorem dqSteal {g f sd sa} : Statement (.dqSteal g f sd sa) := rfl

theorem msgSend {g f sd sa sb} : Statement (.msgSend g f sd sa sb) := rfl

theorem ringWait {g sd sa} : Statement (.ringWait g sd sa) := rfl

theorem ringTake {g sd sa} : Statement (.ringTake g sd sa) := rfl

theorem yield {g} : Statement (.yield g) := rfl

theorem qend {g} : Statement (.qend g) := rfl

theorem sysRd {g sd reg} : Statement (.sysRd g sd reg) := rfl

theorem sysWr {g reg sa} : Statement (.sysWr g reg sa) := rfl

theorem cstampWrite {g sa} : Statement (.cstampWrite g sa) := rfl

theorem bufreqWrite {g sa} : Statement (.bufreqWrite g sa) := rfl

theorem ringdescWrite {g k sa} : Statement (.ringdescWrite g k sa) := rfl

theorem turnrptRead {g sd n} : Statement (.turnrptRead g sd n) := rfl

theorem trap {g n} : Statement (.trap g n) := rfl

theorem tret {g} : Statement (.tret g) := rfl

theorem tlset {g tl v} : Statement (.tlset g tl v) := rfl

theorem sysCtxsave {g f sd sa} : Statement (.sysCtxsave g f sd sa) := rfl

theorem sysCtxload {g f sd sa} : Statement (.sysCtxload g f sd sa) := rfl

theorem sysHadv {g sa sb} : Statement (.sysHadv g sa sb) := rfl

theorem sysWsize {g sa sb} : Statement (.sysWsize g sa sb) := rfl

theorem sysHrevoke {g sa sb} : Statement (.sysHrevoke g sa sb) := rfl

theorem sysPgattr {g f sa sb} : Statement (.sysPgattr g f sa sb) := rfl

theorem sysTlbinv {g f sa sb} : Statement (.sysTlbinv g f sa sb) := rfl

theorem sysWininv {g f sa sb} : Statement (.sysWininv g f sa sb) := rfl

theorem sysL1inv {g f} : Statement (.sysL1inv g f) := rfl

theorem sysL1wb {g f} : Statement (.sysL1wb g f) := rfl

theorem sysSlwb {g f sa sb} : Statement (.sysSlwb g f sa sb) := rfl

theorem sysSlinv {g f sa sb} : Statement (.sysSlinv g f sa sb) := rfl

theorem sysBrk {g n} : Statement (.sysBrk g n) := rfl

theorem sysDbgrd {g sd} : Statement (.sysDbgrd g sd) := rfl

theorem sysDgrd {g sd sa} : Statement (.sysDgrd g sd sa) := rfl

theorem selection {core} : Statement (.selection core) := rfl

theorem longLatencyCompletion {g w op} : Statement (.longLatencyCompletion g w op) := rfl

theorem sliceLoadRequest {req} : Statement (.sliceLoadRequest req) := rfl

theorem sliceCommit {req} : Statement (.sliceCommit req) := rfl

theorem sliceAtomic {req} : Statement (.sliceAtomic req) := rfl

theorem contentionDecay {gran} : Statement (.contentionDecay gran) := rfl

theorem asofRead {req} : Statement (.asofRead req) := rfl

theorem heldRequestRelease {req} : Statement (.heldRequestRelease req) := rfl

theorem wheyRetry {h} : Statement (.wheyRetry h) := rfl

theorem holdRevocation {stack} : Statement (.holdRevocation stack) := rfl

theorem horizonLagReclaim {stack} : Statement (.horizonLagReclaim stack) := rfl

theorem ageSweep {slice} : Statement (.ageSweep slice) := rfl

theorem regionAccess {req} : Statement (.regionAccess req) := rfl

theorem abortDelivery {g w} : Statement (.abortDelivery g w) := rfl

theorem xbegServe : Statement .xbegServe := rfl

theorem regionCommit {slot} : Statement (.regionCommit slot) := rfl

theorem roundClose : Statement .roundClose := rfl

theorem landing {cmd piece} : Statement (.landing cmd piece) := rfl

theorem matrixKstep {cmd} : Statement (.matrixKstep cmd) := rfl

theorem engineCommandCompletion {cmd} : Statement (.engineCommandCompletion cmd) := rfl

theorem copyPageResume {cmd} : Statement (.copyPageResume cmd) := rfl

theorem fmtAbsentEmulation {cmd piece} : Statement (.fmtAbsentEmulation cmd piece) := rfl

theorem matrixTaskStart {task} : Statement (.matrixTaskStart task) := rfl

theorem waveTaskPlace {task} : Statement (.waveTaskPlace task) := rfl

theorem taskDone {task} : Statement (.taskDone task) := rfl

theorem taskNoArea {die} : Statement (.taskNoArea die) := rfl

theorem msgDeliver {g w op} : Statement (.msgDeliver g w op) := rfl

theorem bufreqGrant {core space} : Statement (.bufreqGrant core space) := rfl

theorem dispatchBatch : Statement .dispatchBatch := rfl

theorem groupPlacement {die} : Statement (.groupPlacement die) := rfl

theorem groupFreed {g} : Statement (.groupFreed g) := rfl

theorem quantumBoundary {launch} : Statement (.quantumBoundary launch) := rfl

theorem faultReplay {a} : Statement (.faultReplay a) := rfl

theorem causeRecordDrain : Statement .causeRecordDrain := rfl

theorem turnerPeriodEnd {stack} : Statement (.turnerPeriodEnd stack) := rfl

theorem turnerMigration {stack} : Statement (.turnerMigration stack) := rfl

theorem launchCmd {e} : Statement (.launchCmd e) := rfl

theorem collective {e} : Statement (.collective e) := rfl

theorem power {e} : Statement (.power e) := rfl

theorem resync {e} : Statement (.resync e) := rfl

theorem contextEnd {e} : Statement (.contextEnd e) := rfl

theorem unknownMailboxCommand {e} : Statement (.unknownMailboxCommand e) := rfl

theorem sqtail {v} : Statement (.sqtail v) := rfl

theorem cqhead {v} : Statement (.cqhead v) := rfl

theorem mbxctlEnable : Statement .mbxctlEnable := rfl

theorem mbxctlDrain : Statement .mbxctlDrain := rfl

theorem mailboxRegisterWrite {bar4 off v} : Statement (.mailboxRegisterWrite bar4 off v) := rfl

theorem fwgo {v} : Statement (.fwgo v) := rfl

theorem dbgreq {v token} : Statement (.dbgreq v token) := rfl

theorem hostRead {addr n} : Statement (.hostRead addr n) := rfl

theorem hostWrite {addr data} : Statement (.hostWrite addr data) := rfl

theorem getVersion : Statement .getVersion := rfl

theorem getCapabilities : Statement .getCapabilities := rfl

theorem negotiateAlgorithms {sig hash kex aead} : Statement (.negotiateAlgorithms sig hash kex aead) := rfl

theorem getDigests : Statement .getDigests := rfl

theorem getCertificate {slot off len} : Statement (.getCertificate slot off len) := rfl

theorem challenge {slot nonce} : Statement (.challenge slot nonce) := rfl

theorem getMeasurements {idx nonce} : Statement (.getMeasurements idx nonce) := rfl

theorem keyExchange {exchange} : Statement (.keyExchange exchange) := rfl

theorem finish {verify} : Statement (.finish verify) := rfl

theorem keyUpdate : Statement .keyUpdate := rfl

theorem endSession : Statement .endSession := rfl

theorem spdmUnsupported {code} : Statement (.spdmUnsupported code) := rfl

theorem flitReceive {f} : Statement (.flitReceive f) := rfl

theorem flitRetransmit {dst} : Statement (.flitRetransmit dst) := rfl

theorem portFail {port} : Statement (.portFail port) := rfl

theorem thermalTrip : Statement .thermalTrip := rfl

theorem machineFault : Statement .machineFault := rfl

theorem warmReset : Statement .warmReset := rfl

theorem coldReset : Statement .coldReset := rfl

theorem resetComplete {mode} : Statement (.resetComplete mode) := rfl

theorem debugAccess {r} : Statement (.debugAccess r) := rfl

theorem domainConfiguration {index routes} : Statement (.domainConfiguration index routes) := rfl

theorem provisioning : Statement .provisioning := rfl

theorem fabricLinkTrained {port} : Statement (.fabricLinkTrained port) := rfl

theorem backInvalidationResponse {line} : Statement (.backInvalidationResponse line) := rfl

end Sys2Proof.Laws.Kinds
end

