-- ==== Sys2Proof/Tests/Slice0.lean ====
section
/-! SUPPORT. Tests: words written out from the manual's encodings, ill-formed terms, single steps on a small state with results worked
out by hand, and for each statement with hypotheses a state and operands that meet them. -/

namespace Sys2Proof.Tests

open Sys2Proof Sys2Proof.Machine

-- One theorem at a time: side by side they would hold a thread each.
set_option Elab.async false

-- A small state -----------------------------------------------------------------------------------------------------------------

/-- Unguarded. -/
def g7 : Guard := ⟨7, false⟩

/-- Flag f0 with lookahead 2. -/
def f0 : Flag := ⟨2, 0⟩

/-- An entity with threads 0 to 3 at the only slot of a clause. -/
def ent : Entity := { mask := 0xF, hdr := 0x10000, clause := some ⟨0, 1⟩, pipe := some 0 }

/-- A wave with that entity. -/
def wave : Wave := { slot := 0, role := 0, blocks := 16, ents := [(0, ent)] }

/-- A group of that wave with a page of scratchpad. -/
def group : Group := { pnum := 1, lin := 0, launch := 1, ctx := 1, core := 0, sp := { size := 4096 }, waves := [wave] }

/-- A module with a group, and its first entity at hand. -/
def world (gr : Group) : State :=
  { State.reset with
    resetting := false
    ctxs := [(1, { root := 0, sys := true, dbg := false })]
    launches := [(1, { ctx := 1, block := List.replicate 32 0 })]
    groups := [(1, gr)]
    actor := ⟨1, 0, 0⟩
    nextId := 10 }

/-- The module with that wave changed. -/
def world' (f : Wave → Wave) : State := world { group with waves := [f wave] }

/-- The module with s-registers set. -/
def regs (l : Table Word) : State := world' fun wv => { wv with s := l }

/-- The module with the entity at hand and nothing in flight. -/
def base : State := world group

/-- The entity at hand, with its wave and group. -/
def view (s : State) : View := s.view?.getD ⟨⟨0, 0, 0⟩, group, wave, ent, ⟨0, 1⟩⟩

/-- The checks of a form. -/
def metaOf (i : Instr) : Meta := (checks i).getD { guard := g7, lane := false }

/-- The conditions of `Acts`, computed. -/
def acts (m : Meta) (s : State) (v : View) : Bool :=
  (v.acting m != 0 && m.place.ok v.cl v.en.idx && m.vregs.all fun n => n < 16 * v.wv.blocks)
    && (bif m.drains then !v.wv.inFlight v.a.e else true) && (bif m.inRegion then true else v.wv.region.isNone)
    && (bif m.sys then s.sysPriv v.gr.ctx else true) && (bif m.ends && s.det v.gr then v.wv.quantum == .granted v.a.e else true)
    && ((m.long.bind flagIndex).all fun k => v.wv.pending k < 15)

/-- The form reaches its effect at the state. -/
def reaches (i : Instr) (s : State) : Bool := (checks i).isSome && s.view?.isSome && acts (metaOf i) s (view s)

theorem acts_of {m : Meta} {s : State} {v : View} (hv : s.view? = some v) (h : acts m s v = true) : Acts m s v := by
  unfold acts at h
  constructor
  case view => exact hv
  case acting => exact fun h0 => by simp [h0] at h
  case place => revert h; cases m.place.ok v.cl v.en.idx <;> simp
  case regs => intro n hn; simp only [Bool.and_eq_true, List.all_eq_true, decide_eq_true_eq] at h; exact h.1.1.1.1.1.2 n hn
  case drained => intro hd; revert h; cases v.wv.inFlight v.a.e <;> simp [hd]
  case region =>
    cases hr : m.inRegion with
    | true => exact .inl rfl
    | false => revert h; cases v.wv.region <;> simp [hr]
  case priv => intro hp; revert h; cases s.sysPriv v.gr.ctx <;> simp [hp]
  case boundary => intro he hd; simp only [he, hd, Bool.and_eq_true] at h; exact beq_iff_eq.1 h.1.2
  case room => intro f k hf hk; simp only [hf, Option.bind_some, hk, Bool.and_eq_true] at h; simpa using h.2

/-- A form reaches its effect at a state: the premises that most statements begin with. -/
theorem reaches_of {i : Instr} {s : State} (h : reaches i s = true) : checks i = some (metaOf i) ∧ Acts (metaOf i) s (view s) := by
  simp only [reaches, Bool.and_eq_true, Option.isSome_iff_exists] at h
  obtain ⟨⟨⟨m, hm⟩, v, hv⟩, h3⟩ := h
  have e1 : metaOf i = m := by simp [metaOf, hm]
  have e2 : view s = v := by simp [view, hv]
  rw [e1, e2] at h3
  rw [e1, e2]
  exact ⟨hm, acts_of hv h3⟩

-- Premises of the statements ---------------------------------------------------------------------------------------------------------

theorem meets_LaneForms : ∃ i k m s v, laneForm i = some k ∧ checks i = some m ∧ Acts m s v :=
  ⟨.vadd g7 false .n32 (.v 4) (.v 5) (.s 1), _, _, base, _, rfl, reaches_of (by decide +kernel)⟩

theorem meets_LongForms : ∃ i k m s v, longForm i = some k ∧ checks i = some m ∧ Acts m s v :=
  ⟨.vdiv g7 f0 .n32 (.v 4) (.v 5) (.s 1), _, _, base, _, rfl, reaches_of (by decide +kernel)⟩

theorem meets_PredicateForms : ∃ i k m s v, predForm i = some k ∧ checks i = some m ∧ Acts m s v :=
  ⟨.vcmp g7 true .eq .n32 3 (.s 5) (.reg (.s 1)), _, _, base, _, rfl, reaches_of (by decide +kernel)⟩

/-- Every thread reads thread 3, the highest that is active. -/
theorem meets_Shuffles : ∃ i z ty d a m s v, shuffleForm i = some (z, ty, d, a) ∧ (checks i = some m ∧ Acts m s v)
    ∧ ∀ t, t < 64 → (v.acting m).getLsbD t = true → shuffleSource v s.tick i t ≠ .bad ∧ (z = true ∨ (shuffleSource v s.tick i t).active v = true) :=
  ⟨.shflIdx g7 false false .n32 4 5 (.imm 3), _, _, _, _, _, base, _, rfl, reaches_of (by decide +kernel), by decide +kernel⟩

/-- Thread 4 is in range and inactive. -/
theorem meets_Shuffles_inactive : ∃ i ty d a m s v, shuffleForm i = some (false, ty, d, a) ∧ (checks i = some m ∧ Acts m s v)
    ∧ ∃ t, t < 64 ∧ (v.acting m).getLsbD t = true ∧ (shuffleSource v s.tick i t).active v = false :=
  ⟨.shflIdx g7 false false .n32 4 5 (.imm 4), _, _, _, _, base, _, rfl, reaches_of (by decide +kernel), 0, by decide +kernel⟩

/-- Thread 64 is out of range. -/
theorem meets_Shuffles_outside : ∃ i ty d a m s v, shuffleForm i = some (false, ty, d, a) ∧ (checks i = some m ∧ Acts m s v)
    ∧ ∃ t, t < 64 ∧ (v.acting m).getLsbD t = true ∧ (shuffleSource v s.tick i t).active v = false :=
  ⟨.shflIdx g7 false false .n32 4 5 (.imm 64), _, _, _, _, base, _, rfl, reaches_of (by decide +kernel), 0, by decide +kernel⟩

theorem meets_CrossLane_lred : ∃ g op ty d a m s v, checks (.lred g op ty d a) = some m ∧ Acts m s v :=
  ⟨g7, .add, .s32, 4, 5, _, base, _, reaches_of (by decide +kernel)⟩

theorem meets_CrossLane_scan : ∃ g op excl ty d a m s v, checks (.scan g op excl ty d a) = some m ∧ Acts m s v :=
  ⟨g7, .max, true, .s32, 4, 5, _, base, _, reaches_of (by decide +kernel)⟩

theorem meets_CrossLane_ballot : ∃ g d pa k m s v, (checks (.voteBallot g d pa k) = some m ∧ Acts m s v) ∧ k = 0 :=
  ⟨g7, 4, 1, 0, _, base, _, reaches_of (by decide +kernel), rfl⟩

theorem meets_CrossLane_window : ∃ g d pa k m s v, (checks (.voteBallot g d pa k) = some m ∧ Acts m s v) ∧ k ≠ 0 :=
  ⟨g7, 4, 1, 1, _, base, _, reaches_of (by decide +kernel), by decide⟩

/-- A load of the scratchpad that no thread is refused. -/
theorem meets_LoadsIssue : ∃ i k m s v oks ds, loadForm i = some k ∧ (checks i = some m ∧ Acts m s v)
    ∧ v.planned s k.access (v.acting m) k.d.isS k.w k.off (fun _ => 0) (fun _ => 0) = (oks, ds) ∧ forbidden ds = false ∧ oks.length = 4
    ∧ ∀ l ∈ oks, coverOf v.wv.sq k.sp l.2 ≠ .some :=
  ⟨.ld g7 f0 .sp .n32 (.v 4) 0 (some (.v 5)), _, _, base, _, _, _, rfl, reaches_of (by decide +kernel), rfl, by decide +kernel, by decide +kernel,
    by decide +kernel⟩

/-- An as-of load, whose window is not set: every thread is refused. -/
theorem meets_LoadsIssue_asof : ∃ i k m s v oks ds, loadForm i = some k ∧ (checks i = some m ∧ Acts m s v)
    ∧ v.planned s k.access (v.acting m) k.d.isS k.w k.off (fun _ => 0) (fun _ => 0) = (oks, ds) ∧ forbidden ds = false ∧ k.asof.isSome = true :=
  ⟨.ldAsof g7 f0 .n32 (.v 4) 0 (some (.v 5)) 2, _, _, base, _, _, _, rfl, reaches_of (by decide +kernel), rfl, by decide +kernel, rfl⟩

theorem meets_Stores : ∃ (g : Guard) (k : StoreForm) (m : Meta) (s : State) (v : View) (oks : List (LaneOp × List Piece)),
    (checks (.st g k.sp k.ty k.w k.off k.a) = some m ∧ Acts m s v) ∧ v.wv.region = none ∧ s.queued v < 32
    ∧ v.planned s k.access (v.acting m) k.uni k.w k.off (fun t => v.src s.tick k.ty k.a t) (fun _ => 0) = (oks, []) :=
  ⟨g7, ⟨.sp, .n32, 0, some (.v 5), .v 4⟩, _, base, _, _, reaches_of (by decide +kernel), rfl, by decide +kernel, rfl⟩

/-- A store one byte beyond the allocation. -/
theorem meets_Stores_refused : ∃ (g : Guard) (k : StoreForm) (m : Meta) (s : State) (v : View) (oks : List (LaneOp × List Piece)) (e : Denied)
    (ds : List Denied), (checks (.st g k.sp k.ty k.w k.off k.a) = some m ∧ Acts m s v) ∧ v.wv.region = none ∧ s.queued v < 32
    ∧ v.planned s k.access (v.acting m) k.uni k.w k.off (fun t => v.src s.tick k.ty k.a t) (fun _ => 0) = (oks, e :: ds)
    ∧ forbidden (e :: ds) = false :=
  ⟨g7, ⟨.sp, .n32, 0, some (.s 1), .s 2⟩, _, regs [(1, 4093)], _, _, _, _, reaches_of (by decide +kernel), rfl, by decide +kernel, rfl,
    by decide +kernel⟩

theorem meets_AtomicsIssue : ∃ i k m s v oks ds, atomForm i = some k ∧ (checks i = some m ∧ Acts m s v)
    ∧ v.planned s k.access (v.acting m) k.uni k.w k.off (fun t => v.src s.tick k.ty k.a t) (k.cmp v s.tick) = (oks, ds) ∧ forbidden ds = false :=
  ⟨.atomSp g7 f0 .cas .gp false .n32 (.v 4) (.v 6) (some (.v 5)), _, _, base, _, _, _, rfl, reaches_of (by decide +kernel), rfl, by decide +kernel⟩

theorem settled_base : Settled base (view base) := ⟨rfl, rfl, by decide +kernel, by decide +kernel⟩

theorem meets_Fences_acq : ∃ g sc prm m s v, (checks (.fenceAcq g sc prm) = some m ∧ Acts m s v) ∧ v.wv.loadsInFlight v.a.e = false :=
  ⟨g7, .wh, true, _, base, _, reaches_of (by decide +kernel), by decide +kernel⟩

theorem meets_Fences_rel : ∃ g sc m s v, (checks (.fenceRel g sc) = some m ∧ Acts m s v) ∧ Settled s v :=
  ⟨g7, .dm, _, base, _, reaches_of (by decide +kernel), settled_base⟩

theorem meets_Fences_ar : ∃ g sc prm m s v, (checks (.fenceAr g sc prm) = some m ∧ Acts m s v) ∧ v.wv.loadsInFlight v.a.e = false ∧ Settled s v :=
  ⟨g7, .gp, false, _, base, _, reaches_of (by decide +kernel), by decide +kernel, settled_base⟩

theorem meets_Windows : ∃ g bd sa l m s v, checks (.win g bd sa l) = some m ∧ Acts m s v :=
  ⟨g7, 15, 2, 256, _, base, _, reaches_of (by decide +kernel)⟩

theorem meets_Windows_reg : ∃ g bd sa sb m s v, checks (.winReg g bd sa sb) = some m ∧ Acts m s v :=
  ⟨g7, 0, 2, 3, _, base, _, reaches_of (by decide +kernel)⟩

theorem meets_StampsAndHolds_get : ∃ g sd m s v, checks (.stmpGet g sd) = some m ∧ Acts m s v :=
  ⟨g7, 63, _, base, _, reaches_of (by decide +kernel)⟩

theorem meets_StampsAndHolds_hold : ∃ g sd sa k m s v, (checks (.stmpHold g sd sa) = some m ∧ Acts m s v) ∧ s.freeHold v.gr.ctx = some k
    ∧ s.holdRefused (v.sval s.tick sa) = none :=
  ⟨g7, 1, 2, _, _, base, _, reaches_of (by decide +kernel), rfl, by decide +kernel⟩

theorem meets_StampsAndHolds_dm : ∃ g sd sa sc k m s v, (checks (.stmpHoldDm g sd sa sc) = some m ∧ Acts m s v)
    ∧ (v.sval s.tick sc).setWidth 8 = s.fabric.index ∧ s.freeHold v.gr.ctx = some k ∧ s.holdRefused (v.sval s.tick sa) = none :=
  ⟨g7, 1, 2, 3, _, _, base, _, reaches_of (by decide +kernel), by decide +kernel, rfl, by decide +kernel⟩

/-- The last slot of the 16. -/
theorem meets_StampsAndHolds_drop : ∃ g sa k m s v, (checks (.stmpDrop g sa) = some m ∧ Acts m s v) ∧ k < 16
    ∧ v.sval s.tick sa = holdIdent s.fabric.index k :=
  ⟨g7, 1, 15, _, regs [(1, 0x1000F)], _, reaches_of (by decide +kernel), by decide, by decide +kernel⟩

/-- The first slot of a clause of three. -/
def early : State := world' fun wv => { wv with ents := [(0, { ent with clause := some ⟨1, 3⟩ })] }

theorem meets_RegionOpens : ∃ smask vmask sc fb m s v, (checks (.xbeg smask vmask sc fb) = some m ∧ Acts m s v) ∧ v.wv.ents.length ≤ 1
    ∧ v.wv.region = none ∧ Settled s v ∧ s.canBegin v.gr.core = true ∧ s.xbegQueue = [] :=
  ⟨0xFFFF, 0xFFFFFFFF, 1, 16, _, early, _, reaches_of (by decide +kernel), by decide +kernel, rfl, ⟨rfl, rfl, by decide +kernel, by decide +kernel⟩,
    by decide +kernel, rfl⟩

/-- The wave in a region that holds slot 255 of the Unit. -/
def inside : State :=
  { world' (fun wv => { wv with region := some ⟨255, [], [], [], [], 0, 0, 0xF, 0, 0x20000, [], 1, none, []⟩ }) with
    slots := [(255, { start := 1, core := 0, g := 1, w := 0 })] }

theorem meets_RegionEnds_xend : ∃ g fl m s v r x, (checks (.xend g fl) = some m ∧ Acts m s v) ∧ v.wv.ents.length ≤ 1 ∧ s.det v.gr = false
    ∧ v.wv.region = some r ∧ Table.find s.slots r.slot = some x :=
  ⟨g7, 0, _, inside, _, _, _, reaches_of (by decide +kernel), by decide +kernel, by decide +kernel, rfl, rfl⟩

theorem meets_RegionEnds_outside : ∃ g fl m s v, (checks (.xend g fl) = some m ∧ Acts m s v) ∧ v.wv.ents.length ≤ 1 ∧ s.det v.gr = false
    ∧ v.wv.region = none := ⟨g7, 15, _, base, _, reaches_of (by decide +kernel), by decide +kernel, by decide +kernel, rfl⟩

theorem meets_RegionEnds_xstat : ∃ g sd m s v r, (checks (.xstat g sd) = some m ∧ Acts m s v) ∧ v.wv.region = some r :=
  ⟨g7, 1, _, inside, _, _, reaches_of (by decide +kernel), rfl⟩

theorem meets_RegionEnds_xstat_outside : ∃ g sd m s v, (checks (.xstat g sd) = some m ∧ Acts m s v) ∧ v.wv.region = none :=
  ⟨g7, 1, _, base, _, reaches_of (by decide +kernel), rfl⟩

theorem meets_RegionEnds_xabt : ∃ g sa m s v, (checks (.xabt g sa) = some m ∧ Acts m s v) ∧ v.wv.region = none :=
  ⟨g7, 1, _, base, _, reaches_of (by decide +kernel), rfl⟩

theorem meets_RegionAborts : ∃ g sa m s v r x, (checks (.xabt g sa) = some m ∧ Acts m s v) ∧ v.wv.region = some r
    ∧ Table.find s.slots r.slot = some x ∧ x.g = v.a.g ∧ x.w = v.a.w :=
  ⟨g7, 1, _, inside, _, _, _, reaches_of (by decide +kernel), rfl, rfl, rfl, rfl⟩

/-- A dense record of a 16 by 16 tensor of `.n32` in the scratchpad at an offset: valid, space 1, format 6. -/
def rec16 (off : Word) : BitVec 256 := (0x40 : Word) ++ off ++ (0x0000001000000010 : Word) ++ (0x9300000000000000 : Word)

/-- The module with 32 bytes of scratchpad written from offset 4,064, the last that fit. -/
def written (r : BitVec 256) : State := world { group with sp := group.sp.write 4064 (toBytes r.toNat 32) }

/-- What the clause of `Handles` about `hset` asks before it looks at the bytes. -/
def HsetAsks (s : State) (P : View → Cover → Prop) : Prop :=
  ∃ g hd m v, (checks (.hset g hd 508) = some m ∧ Acts m s v) ∧ 4064 + 32 ≤ v.gr.sp.size ∧ P v (coverOf v.wv.sq .sp [⟨lowest v.en.mask, 0, 4064, 32⟩])

theorem meets_Handles : HsetAsks (written (rec16 0)) fun v c => c = .free ∧ v.wv.late = [] ∧ v.gr.spRefused false 4064 32 = none
    ∧ recOfBytes (v.gr.sp.read 4064 32) = rec16 0 ∧ recValid (rec16 0) = true ∧ (decodeRec (rec16 0)).isSome = true :=
  ⟨g7, 63, _, _, reaches_of (by decide +kernel), by and_intros <;> decide +kernel⟩

theorem meets_Handles_empty : HsetAsks (written 0) fun v c => c = .free ∧ v.wv.late = [] ∧ v.gr.spRefused false 4064 32 = none
    ∧ recOfBytes (v.gr.sp.read 4064 32) = 0 ∧ recValid 0 = false :=
  ⟨g7, 0, _, _, reaches_of (by decide +kernel), by and_intros <;> decide +kernel⟩

theorem meets_Handles_bad : HsetAsks (written 0x8000000000000000) fun v c => c = .free ∧ v.wv.late = [] ∧ v.gr.spRefused false 4064 32 = none
    ∧ recValid (recOfBytes (v.gr.sp.read 4064 32)) = true ∧ decodeRec (recOfBytes (v.gr.sp.read 4064 32)) = none :=
  ⟨g7, 0, _, _, reaches_of (by decide +kernel), by and_intros <;> decide +kernel⟩

/-- The module with a held store to the scratchpad. -/
def stored (off : Nat) (bs : List Byte) : State := world' fun wv => { wv with sq := [{ sp := .sp, items := [⟨0, off, bs⟩] }] }

theorem meets_Handles_held : HsetAsks (stored 4064 (toBytes (rec16 0).toNat 32)) fun _ c => ∃ bs, c = .full bs ∧ bs.length = 32 :=
  ⟨g7, 1, _, _, reaches_of (by decide +kernel), by decide +kernel, _, rfl, by decide +kernel⟩

/-- A held store of the record's last byte. -/
def partly : State :=
  world { group with
    sp := group.sp.write 4064 (toBytes (rec16 0).toNat 32)
    waves := [{ wave with sq := [{ sp := .sp, items := [⟨0, 4095, [0]⟩] }] }] }

theorem meets_Handles_part : HsetAsks partly fun v c => c = .some ∧ partly.det v.gr = false
    ∧ ∃ u x, u = partly.closeRegion v.a.g v.a.w ∧ u.view? = some x ∧ x.wv.late = [] ∧ x.gr.spRefused false 4064 32 = none :=
  ⟨g7, 1, _, _, reaches_of (by decide +kernel), by decide +kernel, by decide +kernel, by decide +kernel, _, _, rfl, (Option.some_get (by decide +kernel)).symm,
    by decide +kernel, by decide +kernel⟩

theorem meets_Handles_refused : HsetAsks base fun v c => c = .free ∧ v.wv.late = [] ∧ v.gr.spRefused false 4064 32 = some (uninitCause .sp, 4064) :=
  ⟨g7, 1, _, _, reaches_of (by decide +kernel), by decide +kernel, by decide +kernel, by decide +kernel, by decide +kernel⟩

/-- A released store of the wave is still to be performed. -/
theorem meets_Handles_late : HsetAsks (world' fun wv => { wv with late := [(3, { sp := .sp, items := [⟨0, 0, [1]⟩] })] }) fun v c => c = .free ∧ v.wv.late ≠ [] :=
  ⟨g7, 1, _, _, reaches_of (by decide +kernel), by decide +kernel, by decide +kernel, by decide +kernel⟩

theorem meets_Handles_hget : ∃ g hd idx m s v, (checks (.hget g hd idx) = some m ∧ Acts m s v) ∧ 8 * idx.toNat + 32 ≤ v.gr.sp.size
    ∧ s.queued v < 32 := ⟨g7, 5, 508, _, base, _, reaches_of (by decide +kernel), by decide +kernel, by decide +kernel⟩

theorem meets_EngineIssue : ∃ i k m s v, issueForm s v i = some k ∧ (checks i = some m ∧ Acts m s v) ∧ Settled s v
    ∧ s.queueLen v.a.g k.q < queueDepth k.q :=
  ⟨.taskPush g7 f0 1, _, _, base, view base, rfl, reaches_of (by decide +kernel), settled_base, by decide +kernel⟩

/-- The module with two tensors of the scratchpad in handles 0 and 1. -/
def tensors : State := world { group with handles := [(0, rec16 0), (1, rec16 2048)], bufacl := 0xFFF }

theorem meets_EngineIssue_copy : ∃ k m s v, issueForm s v (.tcopy g7 f0 false false false 0 1 none) = some k
    ∧ (checks (.tcopy g7 f0 false false false 0 1 none) = some m ∧ Acts m s v) ∧ Settled s v ∧ s.queueLen v.a.g k.q < queueDepth k.q :=
  ⟨_, _, tensors, view tensors, rfl, reaches_of (by decide +kernel), ⟨rfl, rfl, by decide +kernel, by decide +kernel⟩, by decide +kernel⟩

theorem meets_Branches_br : ∃ g off m s v, checks (.br g off) = some m ∧ Acts m s v :=
  ⟨g7, 0x800000, _, base, _, reaches_of (by decide +kernel)⟩

/-- The module with p1 true in some threads. -/
def preds (p : Mask) : State := world' fun wv => { wv with p := [(1, p)] }

theorem meets_Branches_none : ∃ pn neg off tok m s v, (checks (.brc pn neg off tok) = some m ∧ Acts m s v)
    ∧ v.en.mask &&& v.wv.guardMask ⟨pn, neg⟩ = 0 := ⟨1, false, 4, 4, _, preds 0x10, _, reaches_of (by decide +kernel), by decide +kernel⟩

theorem meets_Branches_all : ∃ pn neg off tok m s v, (checks (.brc pn neg off tok) = some m ∧ Acts m s v)
    ∧ v.en.mask &&& v.wv.guardMask ⟨pn, neg⟩ ≠ 0 ∧ v.en.mask &&& ~~~(v.en.mask &&& v.wv.guardMask ⟨pn, neg⟩) = 0 :=
  ⟨1, true, 4, 4, _, preds 0x10, _, reaches_of (by decide +kernel), by decide +kernel, by decide +kernel⟩

/-- Two threads on either side, 15 records. -/
theorem meets_Branches_split : ∃ pn neg off tok m s v, (checks (.brc pn neg off tok) = some m ∧ Acts m s v)
    ∧ popcount (v.en.mask &&& v.wv.guardMask ⟨pn, neg⟩) = popcount (v.en.mask &&& ~~~(v.en.mask &&& v.wv.guardMask ⟨pn, neg⟩))
    ∧ v.en.mask &&& v.wv.guardMask ⟨pn, neg⟩ ≠ 0 ∧ v.en.recs.length = 15 ∧ s.fragments v.gr.core < 64 ∧ Table.find v.wv.ents v.wv.nextEnt = none :=
  ⟨1, false, 4, 4, _, world' fun wv => { wv with p := [(1, 3)], ents := [(0, { ent with recs := List.replicate 15 { token := 0 } })] }, _,
    reaches_of (by decide +kernel), by and_intros <;> decide +kernel⟩

/-- Another wave of the core has all 64 fragments. -/
def crowded : State :=
  world { group with
    waves := [{ wave with p := [(1, 1)] }, { wave with slot := 1, ents := (List.range 64).map fun k => (k, { ent with frag := true }) }] }

theorem meets_Branches_serial : ∃ pn neg off tok m s v, (checks (.brc pn neg off tok) = some m ∧ Acts m s v)
    ∧ v.en.mask &&& v.wv.guardMask ⟨pn, neg⟩ ≠ 0 ∧ v.en.mask &&& ~~~(v.en.mask &&& v.wv.guardMask ⟨pn, neg⟩) ≠ 0
    ∧ v.en.recs.length < 16 ∧ 64 ≤ s.fragments v.gr.core :=
  ⟨1, false, 4, 4, _, crowded, _, reaches_of (by decide +kernel), by and_intros <;> decide +kernel⟩

theorem meets_Branches_depth : ∃ pn neg off tok m s v, (checks (.brc pn neg off tok) = some m ∧ Acts m s v)
    ∧ v.en.mask &&& v.wv.guardMask ⟨pn, neg⟩ ≠ 0 ∧ v.en.mask &&& ~~~(v.en.mask &&& v.wv.guardMask ⟨pn, neg⟩) ≠ 0 ∧ v.en.recs.length = 16 :=
  ⟨1, false, 4, 4, _, world' fun wv => { wv with p := [(1, 3)], ents := [(0, { ent with recs := List.replicate 16 { token := 0 } })] }, _,
    reaches_of (by decide +kernel), by decide +kernel, by decide +kernel, by decide +kernel⟩

/-- The entity at hand with records. -/
def recs (l : List Record) : State := world' fun wv => { wv with ents := [(0, { ent with recs := l })] }

theorem meets_JoinsAndExits_pass : ∃ m s v, (checks .join = some m ∧ Acts m s v) ∧ ∀ r ∈ v.en.recs, r.token ≠ v.en.hdr :=
  ⟨_, recs [{ token := 8 }], _, reaches_of (by decide +kernel), by decide +kernel⟩

theorem meets_JoinsAndExits_order : ∃ m s v r rest, (checks .join = some m ∧ Acts m s v) ∧ v.en.recs = r :: rest ∧ r.token ≠ v.en.hdr
    ∧ ∃ x ∈ rest, x.token = v.en.hdr :=
  ⟨_, recs [{ token := 8 }, { token := 0x10000 }], _, _, _, reaches_of (by decide +kernel), rfl, by decide +kernel, ⟨_, List.mem_singleton.mpr rfl, rfl⟩⟩

theorem meets_JoinsAndExits_serial : ∃ m s v r rest, (checks .join = some m ∧ Acts m s v) ∧ v.en.recs = r :: rest ∧ r.token = v.en.hdr ∧ r.pair = none
    ∧ r.second = false := ⟨_, recs [{ token := 0x10000, other := 0xF0, full := 0xFF }], _, _, _, reaches_of (by decide +kernel), rfl, rfl, rfl, rfl⟩

theorem meets_JoinsAndExits_second : ∃ m s v r rest, (checks .join = some m ∧ Acts m s v) ∧ v.en.recs = r :: rest ∧ r.token = v.en.hdr ∧ r.pair = none
    ∧ r.second = true := ⟨_, recs [{ token := 0x10000, full := 0xFF, second := true }], _, _, _, reaches_of (by decide +kernel), rfl, rfl, rfl, rfl⟩

/-- The entity at hand with a record of split 0, and another entity. -/
def pair (det : Bool) (e : Entity) : State :=
  world' fun wv => { wv with ents := [(0, { ent with recs := [{ pair := some 0, token := 0x10000, detached := det }] }), (1, e)] }

/-- The other side of split 0. -/
def partner : Entity := { ent with mask := 0xF0, recs := [{ pair := some 0, token := 0x10000 }] }

theorem meets_JoinsAndExits_first : ∃ m s v r rest p, (checks .join = some m ∧ Acts m s v) ∧ v.en.recs = r :: rest ∧ r.token = v.en.hdr
    ∧ r.pair = some p ∧ v.wv.waiting? v.a.e p = none ∧ v.wv.hasPartner v.a.e p = true :=
  ⟨_, pair false partner, _, _, _, _, reaches_of (by decide +kernel), rfl, rfl, rfl, rfl, by decide +kernel⟩

theorem meets_JoinsAndExits_alone : ∃ m s v r rest p, (checks .join = some m ∧ Acts m s v) ∧ v.en.recs = r :: rest ∧ r.token = v.en.hdr
    ∧ r.pair = some p ∧ v.wv.waiting? v.a.e p = none ∧ v.wv.hasPartner v.a.e p = false :=
  ⟨_, recs [{ pair := some 0, token := 0x10000 }], _, _, _, _, reaches_of (by decide +kernel), rfl, rfl, rfl, rfl, by decide +kernel⟩

theorem meets_JoinsAndExits_merge : ∃ m s v r rest p k x, (checks .join = some m ∧ Acts m s v) ∧ v.en.recs = r :: rest ∧ r.token = v.en.hdr
    ∧ r.pair = some p ∧ v.wv.waiting? v.a.e p = some k ∧ Table.find v.wv.ents k = some x ∧ x.fault = none ∧ r.detached = true :=
  ⟨_, pair true { partner with park := some (.join 0) }, _, _, _, _, _, _, reaches_of (by decide +kernel), rfl, rfl, rfl, rfl, rfl, rfl, rfl⟩

theorem meets_JoinsAndExits_merge_stay : ∃ m s v r rest p k x, (checks .join = some m ∧ Acts m s v) ∧ v.en.recs = r :: rest ∧ r.token = v.en.hdr
    ∧ r.pair = some p ∧ v.wv.waiting? v.a.e p = some k ∧ Table.find v.wv.ents k = some x ∧ x.fault = none ∧ r.detached = false :=
  ⟨_, pair false { partner with park := some (.join 0) }, _, _, _, _, _, _, reaches_of (by decide +kernel), rfl, rfl, rfl, rfl, rfl, rfl, rfl⟩

theorem meets_JoinsAndExits_faulted : ∃ m s v r rest p k x f, (checks .join = some m ∧ Acts m s v) ∧ v.en.recs = r :: rest ∧ r.token = v.en.hdr
    ∧ r.pair = some p ∧ v.wv.waiting? v.a.e p = some k ∧ Table.find v.wv.ents k = some x ∧ x.fault = some f :=
  ⟨_, pair false { partner with park := some (.join 0), fault := some ⟨1, 0, 0xF, none, 0⟩ }, _, _, _, _, _, _, _, reaches_of (by decide +kernel), rfl, rfl, rfl,
    rfl, rfl, rfl⟩

theorem meets_JoinsAndExits_exit : ∃ g m s v, (checks (.exit g) = some m ∧ Acts m s v) ∧ Settled s v ∧ v.en.recs = [] :=
  ⟨g7, _, base, _, reaches_of (by decide +kernel), settled_base, rfl⟩

theorem meets_JoinsAndExits_exit_serial : ∃ g m s v r rest, (checks (.exit g) = some m ∧ Acts m s v) ∧ Settled s v ∧ v.en.recs = r :: rest ∧ r.pair = none
    ∧ r.second = false ∧ r.other &&& ~~~v.en.mask ≠ 0 :=
  ⟨g7, _, recs [{ token := 0x10000, other := 0xF0, full := 0xFF }], view _, _, _, reaches_of (by decide +kernel),
    ⟨rfl, rfl, by decide +kernel, by decide +kernel⟩, rfl, rfl, rfl, by decide +kernel⟩

/-- The module with a deterministic launch whose wave may perform its quantum's last instruction. -/
def granted : State :=
  { world' (fun wv => { wv with quantum := .granted 0 }) with
    launches := [(1, { ctx := 1, block := 0x0002000000000000 :: List.replicate 31 0 })] }

theorem meets_Markers : ∃ smask vmask m s v, (checks (.rgn smask vmask) = some m ∧ Acts m s v) ∧ s.det v.gr = false :=
  ⟨4, 1, _, base, _, reaches_of (by decide +kernel), by decide +kernel⟩

theorem meets_Markers_det : ∃ smask vmask m s v, (checks (.rgn smask vmask) = some m ∧ Acts m s v) ∧ s.det v.gr = true :=
  ⟨4, 1, _, granted, _, reaches_of (by decide +kernel), by decide +kernel⟩

theorem meets_Markers_yield : ∃ g m s v, checks (.yield g) = some m ∧ Acts m s v := ⟨g7, _, base, _, reaches_of (by decide +kernel)⟩

theorem meets_Markers_qend : ∃ g m s v, (checks (.qend g) = some m ∧ Acts m s v) ∧ s.det v.gr = true :=
  ⟨g7, _, granted, _, reaches_of (by decide +kernel), by decide +kernel⟩

theorem released_of {s : State} {v : View} (h : ((s.close v).view?.map fun x => x.wv.late) = some []) : Released s v (s.close v) (view (s.close v)) := by
  obtain ⟨x, hx, hl⟩ := Option.map_eq_some_iff.mp h
  exact ⟨rfl, by simp [view, hx], by simp [view, hx, hl]⟩

/-- The wave holds a store of the scratchpad's first word. -/
def busy (s : State) : State := s.modWave 1 0 fun wv => { wv with sq := [{ sp := .sp, items := [⟨0, 0, [1, 2, 3, 4, 5, 6, 7, 8]⟩] }] }

/-- The module with a barrier word as the last word of its scratchpad. -/
def barWorld (w : Word) : State := world { group with sp := group.sp.setWord 4088 w }

theorem meets_BarrierSetup_init : ∃ g idx n m s u v x, (checks (.barInit g idx n) = some m ∧ Acts m s v) ∧ Released s v u x
    ∧ 8 * idx.toNat + 8 ≤ v.gr.sp.size ∧ 1 ≤ v.barArg s.tick n ∧ v.barArg s.tick n < 2 ^ 29 :=
  ⟨g7, 511, .imm 1, _, busy base, _, view _, _, reaches_of (by decide +kernel), released_of (by decide +kernel), by decide +kernel, by decide +kernel,
    by decide +kernel⟩

/-- The largest count. -/
theorem meets_BarrierSetup_bytes : ∃ g idx n m s u v x, (checks (.barInitBytes g idx n) = some m ∧ Acts m s v) ∧ Released s v u x
    ∧ 8 * idx.toNat + 8 ≤ v.gr.sp.size ∧ 1 ≤ v.barArg s.tick n ∧ v.barArg s.tick n = 2 ^ 29 - 1 :=
  ⟨g7, 511, .reg 1, _, regs [(1, 0x1FFFFFFF)], _, view _, _, reaches_of (by decide +kernel), released_of (by decide +kernel), by decide +kernel, by decide +kernel,
    by decide +kernel⟩

/-- Five bytes have arrived of eight: a count of two completes two phases and leaves one. -/
theorem meets_BarrierSetup_expect : ∃ g idx n m s u v x w flips left, (checks (.barExpect g idx n) = some m ∧ Acts m s v) ∧ Released s v u x
    ∧ v.en.park = none ∧ 8 * idx.toNat + 8 ≤ v.gr.sp.size ∧ 1 ≤ v.barArg s.tick n ∧ v.barArg s.tick n < 2 ^ 29
    ∧ WordStands s v x (8 * idx.toNat) w ∧ w.getLsbD 62 = true ∧ w.extractLsb' 0 3 = 0
    ∧ flips = (w.extractLsb' 3 29).toNat / v.barArg s.tick n ∧ left = (w.extractLsb' 3 29).toNat % v.barArg s.tick n ∧ flips = 2 ∧ left = 1 :=
  ⟨g7, 511, .imm 2, _, busy (barWorld (barWord false true false 8 5)), _, view _, _, barWord false true false 8 5, _, _, reaches_of (by decide +kernel),
    released_of (by decide +kernel), rfl, by decide +kernel, by decide +kernel, by decide +kernel, ⟨by decide +kernel, fun _ => by decide +kernel⟩,
    by decide +kernel, by decide +kernel, rfl, rfl, by decide +kernel, by decide +kernel⟩

/-- What `BarrierArrivals` asks, with the number of phases completed. -/
def ArrivalAsks (i : Instr) (k : Nat) (s : State) : Prop :=
  ∃ n idx m v w flips, barArrival i = some n ∧ barForm i = some idx ∧ (checks i = some m ∧ Acts m s v) ∧ Settled s v ∧ v.en.park = none
    ∧ 8 * idx.toNat + 8 ≤ v.gr.sp.size ∧ v.gr.sp.refuses (s.warns v.gr) .sp (8 * idx.toNat) 8 = none ∧ w = v.gr.sp.word (8 * idx.toNat)
    ∧ w.getLsbD 62 = false ∧ w.extractLsb' 0 3 = 0 ∧ (w.extractLsb' 32 29).toNat = v.barArg s.tick n ∧ v.barArg s.tick n ≠ 0
    ∧ flips = ((w.extractLsb' 3 29).toNat + 1) / v.barArg s.tick n ∧ flips = k

/-- The last arrival of two. -/
theorem meets_BarrierArrivals : ArrivalAsks (.barArrive g7 511 (.imm 2)) 1 (barWorld (barWord false false false 2 1)) :=
  ⟨.imm 2, 511, _, view _, _, _, rfl, rfl, reaches_of (by decide +kernel), ⟨rfl, rfl, by decide +kernel, by decide +kernel⟩, rfl, by decide +kernel,
    by decide +kernel, rfl, by decide +kernel, by decide +kernel, by decide +kernel, by decide +kernel, rfl, by decide +kernel⟩

/-- The first arrival of two. -/
theorem meets_BarrierArrivals_first : ArrivalAsks (.barArw g7 511 (.imm 2)) 0 (barWorld (barWord false false false 2 0)) :=
  ⟨.imm 2, 511, _, view _, _, _, rfl, rfl, reaches_of (by decide +kernel), ⟨rfl, rfl, by decide +kernel, by decide +kernel⟩, rfl, by decide +kernel,
    by decide +kernel, rfl, by decide +kernel, by decide +kernel, by decide +kernel, by decide +kernel, rfl, by decide +kernel⟩

/-- What `BarrierWaits` asks, with whether the phase that is asked for stands. -/
def WaitAsks (p : BarArg) (stands : Bool) (s : State) : Prop :=
  ∃ g idx m u v x w, (checks (.barWait g idx p) = some m ∧ Acts m s v) ∧ Released s v u x ∧ u.readsDone v.a u.nextId = true ∧ v.en.park = none
    ∧ 8 * idx.toNat + 8 ≤ v.gr.sp.size ∧ WordStands s v x (8 * idx.toNat) w ∧ w.extractLsb' 0 3 = 0 ∧ decide (w.getLsbD 63 = v.phaseArg s.tick p) = stands

theorem meets_BarrierWaits : WaitAsks (.imm 0) false (busy (barWorld (barWord true true false 2 0))) :=
  ⟨g7, 511, _, _, view _, _, barWord true true false 2 0, reaches_of (by decide +kernel), released_of (by decide +kernel), by decide +kernel, rfl, by decide +kernel,
    ⟨by decide +kernel, fun _ => by decide +kernel⟩, by decide +kernel, by decide +kernel⟩

theorem meets_BarrierWaits_stands : WaitAsks (.imm 1) true (busy (barWorld (barWord true true false 2 0))) :=
  ⟨g7, 511, _, _, view _, _, barWord true true false 2 0, reaches_of (by decide +kernel), released_of (by decide +kernel), by decide +kernel, rfl, by decide +kernel,
    ⟨by decide +kernel, fun _ => by decide +kernel⟩, by decide +kernel, by decide +kernel⟩

/-- What every clause of `BarrierFaults` asks. -/
def BarAsks (i : Instr) (s : State) (P : BitVec 16 → View → Word → Prop) : Prop :=
  ∃ idx m v w, barForm i = some idx ∧ (checks i = some m ∧ Acts m s v) ∧ Settled s v ∧ w = v.gr.sp.word (8 * idx.toNat) ∧ P idx v w

/-- The first word beyond the allocation. -/
theorem meets_BarrierFaults_bound : BarAsks (.barArrive g7 512 (.imm 2)) base fun idx v _ => v.gr.sp.size < 8 * idx.toNat + 8 :=
  ⟨512, _, view base, _, rfl, reaches_of (by decide +kernel), settled_base, rfl, by decide +kernel⟩

theorem meets_BarrierFaults_count : BarAsks (.barInit g7 511 (.imm 0)) base fun idx v _ =>
    8 * idx.toNat + 8 ≤ v.gr.sp.size ∧ v.barArg base.tick (.imm 0) = 0 :=
  ⟨511, _, view base, _, rfl, reaches_of (by decide +kernel), settled_base, rfl, by decide +kernel, by decide +kernel⟩

theorem meets_BarrierFaults_expect_count : BarAsks (.barExpect g7 512 (.reg 1)) (regs [(1, 0x20000000)]) fun _ v _ =>
    2 ^ 29 ≤ v.barArg 0 (.reg 1) :=
  ⟨512, _, view _, _, rfl, reaches_of (by decide +kernel), ⟨rfl, rfl, by decide +kernel, by decide +kernel⟩, rfl, by decide +kernel⟩

theorem meets_BarrierFaults_kind : BarAsks (.barArrive g7 511 (.imm 2)) (barWorld (barWord false true false 2 0)) fun idx v w =>
    8 * idx.toNat + 8 ≤ v.gr.sp.size ∧ v.gr.sp.refuses false .sp (8 * idx.toNat) 8 = none ∧ w.getLsbD 62 = true :=
  ⟨511, _, view _, _, rfl, reaches_of (by decide +kernel), ⟨rfl, rfl, by decide +kernel, by decide +kernel⟩, rfl, by decide +kernel, by decide +kernel,
    by decide +kernel⟩

theorem meets_BarrierFaults_arrival : BarAsks (.barArw g7 511 (.imm 3)) (barWorld (barWord false false false 2 0)) fun idx v w =>
    8 * idx.toNat + 8 ≤ v.gr.sp.size ∧ v.gr.sp.refuses false .sp (8 * idx.toNat) 8 = none ∧ w.getLsbD 62 = false ∧ w.extractLsb' 0 3 = 0
    ∧ (w.extractLsb' 32 29).toNat ≠ v.barArg 0 (.imm 3) :=
  ⟨511, _, view _, _, rfl, reaches_of (by decide +kernel), ⟨rfl, rfl, by decide +kernel, by decide +kernel⟩, rfl, by and_intros <;> decide +kernel⟩

theorem meets_BarrierFaults_expect_kind : BarAsks (.barExpect g7 511 (.imm 2)) (barWorld (barWord false false false 2 0)) fun idx v w =>
    barCountOk (v.barArg 0 (.imm 2)) = true ∧ 8 * idx.toNat + 8 ≤ v.gr.sp.size ∧ v.gr.sp.refuses false .sp (8 * idx.toNat) 8 = none ∧ w.getLsbD 62 = false :=
  ⟨511, _, view _, _, rfl, reaches_of (by decide +kernel), ⟨rfl, rfl, by decide +kernel, by decide +kernel⟩, rfl, by and_intros <;> decide +kernel⟩

theorem meets_BarrierFaults_wait : BarAsks (.barWait g7 511 (.imm 0)) (barWorld 1) fun idx v w =>
    8 * idx.toNat + 8 ≤ v.gr.sp.size ∧ v.gr.sp.refuses false .sp (8 * idx.toNat) 8 = none ∧ w.extractLsb' 0 3 ≠ 0 :=
  ⟨511, _, view _, _, rfl, reaches_of (by decide +kernel), ⟨rfl, rfl, by decide +kernel, by decide +kernel⟩, rfl, by decide +kernel, by decide +kernel,
    by decide +kernel⟩

/-- The word has never been written. -/
theorem meets_BarrierFaults_read : BarAsks (.barWait g7 511 (.imm 0)) base fun idx v _ =>
    8 * idx.toNat + 8 ≤ v.gr.sp.size ∧ v.gr.sp.refuses (base.warns v.gr) .sp (8 * idx.toNat) 8 = some (uninitCause .sp) :=
  ⟨511, _, view base, _, rfl, reaches_of (by decide +kernel), settled_base, rfl, by decide +kernel, by decide +kernel⟩

theorem meets_Timelines_tlread : ∃ g sd tl m s v, checks (.tlread g sd tl) = some m ∧ Acts m s v :=
  ⟨g7, 1, 7, _, base, _, reaches_of (by decide +kernel)⟩

theorem meets_Timelines_reached : ∃ g tl sc n m s v, (checks (.tlwait g tl sc n) = some m ∧ Acts m s v) ∧ v.en.park = none
    ∧ s.readsDone v.a s.nextId = true ∧ v.tlArg s.tick n = (v.gr.queue (v.gr.boundTo tl)).c :=
  ⟨g7, 0, .wh, .imm 0, _, busy base, view _, reaches_of (by decide +kernel), rfl, by decide +kernel, by decide +kernel⟩

theorem meets_Timelines_waits : ∃ g tl sc n m s v, (checks (.tlwait g tl sc n) = some m ∧ Acts m s v) ∧ v.en.park = none
    ∧ s.readsDone v.a s.nextId = true ∧ (v.gr.queue (v.gr.boundTo tl)).c < v.tlArg s.tick n :=
  ⟨g7, 0, .wh, .imm 1, _, base, _, reaches_of (by decide +kernel), rfl, by decide +kernel, by decide +kernel⟩

/-- A load of the entity is in flight. -/
theorem meets_Timelines_reads : ∃ g tl sc n m s v, (checks (.tlwait g tl sc n) = some m ∧ Acts m s v) ∧ v.en.park = none
    ∧ s.readsDone v.a s.nextId = false :=
  ⟨g7, 0, .wh, .imm 0, _, { world' (fun wv => { wv with ops := [(5, { ent := 0, hdr := 0x10000, idx := 0, fl := none, window := none, mask := 0xF, uni := false, body := .load .sp (.v 4) .n32 [⟨0, 0, 0, 4⟩], ready := true })] }) with reqs := [] },
    _, reaches_of (by decide +kernel), rfl, by decide +kernel⟩

theorem meets_Timelines_tlset : ∃ g tl n m s v q, (checks (.tlset g tl n) = some m ∧ Acts m s v) ∧ v.en.park = none
    ∧ q = v.gr.boundTo tl := ⟨g7, 3, .imm 5, _, busy base, view _, _, reaches_of (by decide +kernel), rfl, rfl⟩

theorem meets_LongWork : ∃ i f body ready m s v, waitForm s v i = some (f, body, ready) ∧ (checks i = some m ∧ Acts m s v) :=
  ⟨.sysSlwb g7 f0 1 2, _, _, _, _, regs [(1, 0xFFFFFFFC0), (2, 0x40)], view _, rfl, reaches_of (by decide +kernel)⟩

/-- The first core number that does not exist. -/
theorem meets_LongWork_badcore : ∃ g f sd sa m s v, (checks (.dqSteal g f sd sa) = some m ∧ Acts m s v) ∧ 256 ≤ (v.sval s.tick sa).toNat :=
  ⟨g7, f0, 1, 2, _, regs [(2, 256)], _, reaches_of (by decide +kernel), by decide +kernel⟩

theorem meets_LongWork_malformed : ∃ g f sa sb m s v, (checks (.sysPgattr g f sa sb) = some m ∧ Acts m s v)
    ∧ waitForm s v (.sysPgattr g f sa sb) = none := ⟨g7, f0, 1, 2, _, regs [(1, 0x8000)], _, reaches_of (by decide +kernel), by decide +kernel⟩

theorem meets_LongWork_malformed' : ∃ g f sa sb m s v, (checks (.sysSlinv g f sa sb) = some m ∧ Acts m s v)
    ∧ waitForm s v (.sysSlinv g f sa sb) = none := ⟨g7, f0, 1, 2, _, base, _, reaches_of (by decide +kernel), by decide +kernel⟩


/-- The module with a ring of two slots enabled as ring 7, its head and tail words, and stamp words. -/
def ringWorld (r : Nat) (head tail : Word) : State :=
  let gr := { group with
    ringdesc := [(7, 0x8000000000000000)]
    sp := (((group.sp.setWord 0 head).setWord 8 tail).setWord 192 5).setWord 200 6 }
  world { gr with waves := [{ wave with s := [(2, BitVec.ofNat 64 r)], sq := [{ sp := .sp, items := [⟨0, 4088, [1]⟩] }] }] }

/-- What every clause of `Rings` asks. -/
def RingAsks (i : Instr) (k : Nat) (s : State) (P : View → Prop) : Prop :=
  ∃ g sd sa m v, (i = .ringWait g sd sa ∨ i = .ringTake g sd sa) ∧ (checks i = some m ∧ Acts m s v) ∧ k = (v.sval s.tick sa).toNat ∧ P v

/-- The first ring number that does not exist. -/
theorem meets_Rings_off : RingAsks (.ringWait g7 1 2) 8 (ringWorld 8 0 0) fun _ => 8 ≤ 8 :=
  ⟨g7, 1, 2, _, view _, .inl rfl, reaches_of (by decide +kernel), by decide +kernel, Nat.le_refl 8⟩

theorem meets_Rings_disabled : RingAsks (.ringTake g7 1 2) 6 (ringWorld 6 0 0) fun v => v.gr.ring 6 = none :=
  ⟨g7, 1, 2, _, view _, .inr rfl, reaches_of (by decide +kernel), by decide +kernel, by decide +kernel⟩

/-- The ring's words lie beyond what a smaller request has left. -/
theorem meets_Rings_bound : RingAsks (.ringTake g7 1 2) 7 (world { group with ringdesc := [(7, 0x8000000000000200)], waves := [{ wave with s := [(2, 7)] }] }) fun v =>
    ∃ r, v.gr.ring 7 = some r ∧ v.gr.sp.size < r.base + 16 ∧ v.wv.late = [] ∧ ∀ j, j < 16 → queueByte v.wv.sq .sp (r.base + j) = none :=
  ⟨g7, 1, 2, _, view _, .inr rfl, reaches_of (by decide +kernel), by decide +kernel, _, rfl, by and_intros <;> decide +kernel⟩

/-- What the clause of `Rings` about a ring whose words can be read asks. -/
def RingStands (s : State) (h tail : Word) (v : View) (P : Ring → View → Prop) : Prop :=
  ∃ r u x, v.gr.ring 7 = some r ∧ r.base + 64 + r.slots * 72 ≤ v.gr.sp.size ∧ Released s v u x ∧ u.readsDone v.a u.nextId = true
    ∧ Stands v x r.base 16 (fun b => b.word r.base = h ∧ b.word (r.base + 8) = tail
      ∧ b.refuses (s.warns v.gr) .sp r.base 8 = none ∧ b.refuses (s.warns v.gr) .sp (r.base + 8) 8 = none) ∧ P r x

theorem meets_Rings_message : RingAsks (.ringTake g7 1 2) 7 (ringWorld 7 0xFFFFFFFFFFFFFFFF 0) fun v =>
    RingStands (ringWorld 7 0xFFFFFFFFFFFFFFFF 0) 0xFFFFFFFFFFFFFFFF 0 v fun r x => Stands v x (r.stampAt (0xFFFFFFFFFFFFFFFF : Word).toNat) 8
      (fun b => b.refuses ((ringWorld 7 0xFFFFFFFFFFFFFFFF 0).warns v.gr) .sp (r.stampAt (0xFFFFFFFFFFFFFFFF : Word).toNat) 8 = none) :=
  ⟨g7, 1, 2, _, view _, .inr rfl, reaches_of (by decide +kernel), by decide +kernel, _, _, _, rfl, by decide +kernel, released_of (by decide +kernel),
    by decide +kernel, ⟨by decide +kernel, fun _ => by decide +kernel⟩, by decide +kernel, fun _ => by decide +kernel⟩

theorem meets_Rings_empty : RingAsks (.ringWait g7 1 2) 7 (ringWorld 7 3 3) fun v => RingStands (ringWorld 7 3 3) 3 3 v fun _ _ => True :=
  ⟨g7, 1, 2, _, view _, .inl rfl, reaches_of (by decide +kernel), by decide +kernel, _, _, _, rfl, by decide +kernel, released_of (by decide +kernel),
    by decide +kernel, ⟨by decide +kernel, fun _ => by decide +kernel⟩, trivial⟩

/-- What every clause of `SystemReads` asks. -/
def ReadAsks (reg : BitVec 12) (s : State) (P : View → Prop) : Prop :=
  ∃ g sd m v, (Instr.sysRd g sd reg).wellFormed = true ∧ (checks (.sysRd g sd reg) = some m ∧ Acts m s v) ∧ P v

theorem meets_SystemReads_bad : ReadAsks 0x006 base fun _ => sysregPriv 0x006 = none :=
  ⟨g7, 63, _, _, by decide, reaches_of (by decide +kernel), by decide +kernel⟩

/-- The module where the context is not a system context. -/
def user : State := { base with ctxs := [(1, { root := 0, sys := false, dbg := false })] }

theorem meets_SystemReads_priv : ReadAsks 0x060 user fun v => (∃ w, sysregPriv 0x060 = some (true, w)) ∧ user.sysPriv v.gr.ctx = false :=
  ⟨g7, 63, _, _, by decide, reaches_of (by decide +kernel), ⟨_, rfl⟩, by decide +kernel⟩

theorem meets_SystemReads : ReadAsks 0x070 user fun v => ∃ r w, sysregPriv 0x070 = some (r, w) ∧ (r = true → user.sysPriv v.gr.ctx = true) :=
  ⟨g7, 63, _, _, by decide, reaches_of (by decide +kernel), _, _, rfl, by decide +kernel⟩

/-- Stamps of the stacks' horizons that lie in one window, across the end of the counts. -/
theorem meets_SystemReads_horizon : ∃ (s : State) (low : BitVec 50), ReadAsks 0x003 s (fun _ => True) ∧ (s.stack 15).hRound = mkStamp 5 0
    ∧ ∀ k, k < 16 → (count (s.stack k).hRound - low).toNat < 2 ^ 49 :=
  ⟨{ base with stackTable := [(15, { hRound := mkStamp 5 0 })] }, 0x3FFFFFFFFFFFF, ⟨g7, 63, _, _, by decide, reaches_of (by decide +kernel), trivial⟩,
    by decide +kernel, by decide +kernel⟩

/-- What every clause of `SystemWrites` asks. -/
def WriteAsks (reg : BitVec 12) (s : State) (P : View → Prop) : Prop :=
  ∃ g sa m v, (Instr.sysWr g reg sa).wellFormed = true ∧ (checks (.sysWr g reg sa) = some m ∧ Acts m s v) ∧ P v

theorem meets_SystemWrites_bad : WriteAsks 0xFFF base fun _ => sysregPriv 0xFFF = none :=
  ⟨g7, 63, _, _, by decide, reaches_of (by decide +kernel), by decide +kernel⟩

theorem meets_SystemWrites_priv : WriteAsks 0x06F user fun v => (∃ r, sysregPriv 0x06F = some (r, true)) ∧ user.sysPriv v.gr.ctx = false :=
  ⟨g7, 63, _, _, by decide, reaches_of (by decide +kernel), ⟨_, rfl⟩, by decide +kernel⟩

theorem meets_SystemWrites : WriteAsks 0x06F (busy base) fun v => ∃ r w, sysregPriv 0x06F = some (r, w) ∧ (w = true → (busy base).sysPriv v.gr.ctx = true) :=
  ⟨g7, 63, _, view _, by decide, reaches_of (by decide +kernel), _, _, rfl, by decide +kernel⟩

/-- A stamp 2^49 counts above that of the wave. -/
theorem meets_ConfigurationWrites_far : ∃ g sa m s v x, (checks (.cstampWrite g sa) = some m ∧ Acts m s v) ∧ x = v.sval s.tick sa
    ∧ stampCmp x v.wv.cstamp = .far := ⟨g7, 1, _, regs [(1, mkStamp (BitVec.ofNat 50 (2 ^ 49)) 0)], _, _, reaches_of (by decide +kernel), rfl, by decide +kernel⟩

theorem meets_ConfigurationWrites : ∃ g sa m s v x, (checks (.cstampWrite g sa) = some m ∧ Acts m s v) ∧ x = v.sval s.tick sa
    ∧ stampCmp x v.wv.cstamp ≠ .far :=
  ⟨g7, 1, _, regs [(1, mkStamp (BitVec.ofNat 50 (2 ^ 49 - 1)) 0)], _, _, reaches_of (by decide +kernel), rfl, by decide +kernel⟩

theorem meets_ConfigurationWrites_ring : ∃ g k sa m s v, checks (.ringdescWrite g k sa) = some m ∧ Acts m s v :=
  ⟨g7, 7, 1, _, base, _, reaches_of (by decide +kernel)⟩

theorem meets_ConfigurationWrites_report : ∃ g sd n m s v, checks (.turnrptRead g sd n) = some m ∧ Acts m s v :=
  ⟨g7, 1, 15, _, base, _, reaches_of (by decide +kernel)⟩

/-- What every clause of `ConfigurationWrites` about a buffer request asks of the request. -/
def BufAsks (x : Word) (s : State) (P : View → Space → Nat → Prop) : Prop :=
  ∃ g sa m v, (checks (.bufreqWrite g sa) = some m ∧ Acts m s v) ∧ Released s v (s.close v) (view (s.close v)) ∧ x = v.sval s.tick sa ∧ P v (bufSpace x) (x.extractLsb' 2 10).toNat

theorem meets_ConfigurationWrites_field : BufAsks 0x1000 (regs [(1, 0x1000)]) fun _ _ _ => (0x1000 : Word).extractLsb' 12 42 ≠ 0 :=
  ⟨g7, 1, _, view _, reaches_of (by decide +kernel), released_of (by decide +kernel), by decide +kernel, by decide⟩

/-- The request for the scratchpad that the group has. -/
theorem meets_ConfigurationWrites_same : BufAsks 4 (regs [(1, 4)]) fun v sp units =>
    (4 : Word).extractLsb' 12 42 = 0 ∧ 4096 * units ≤ (v.gr.buf sp).size ∧ 4096 * units = (v.gr.buf sp).size :=
  ⟨g7, 1, _, view _, reaches_of (by decide +kernel), released_of (by decide +kernel), by decide +kernel, by decide, by decide +kernel, by decide +kernel⟩

/-- The module with a copy of the group in a queue, which names the first bytes of its scratchpad. -/
def commanded (x : Word) : State :=
  { regs [(1, x)] with cmds := [(1, { g := 1, queue := 0, num := 1, epoch := 0, kind := .copy false false false, recs := [rec16 0, rec16 0] })] }

theorem meets_ConfigurationWrites_waits : BufAsks 0 (commanded 0) fun v sp units =>
    (0 : Word).extractLsb' 12 42 = 0 ∧ 4096 * units < (v.gr.buf sp).size ∧ (commanded 0).namedBeyond v.a.g sp (4096 * units) = true :=
  ⟨g7, 1, _, view _, reaches_of (by decide +kernel), released_of (by decide +kernel), by decide +kernel, by decide, by decide +kernel, by decide +kernel⟩

/-- One page more than the core has. -/
theorem meets_ConfigurationWrites_refused : BufAsks 0x204 (regs [(1, 0x204)]) fun v sp units =>
    (0x204 : Word).extractLsb' 12 42 = 0 ∧ (v.gr.buf sp).size < 4096 * units
    ∧ physical sp < (regs [(1, 0x204)]).held v.gr.core sp v.a.g + 4096 * units :=
  ⟨g7, 1, _, view _, reaches_of (by decide +kernel), released_of (by decide +kernel), by decide +kernel, by decide, by decide +kernel, by decide +kernel⟩

theorem meets_ConfigurationWrites_parks : BufAsks 0x200 (regs [(1, 0x200)]) fun v sp units =>
    (0x200 : Word).extractLsb' 12 42 = 0 ∧ (v.gr.buf sp).size < 4096 * units
    ∧ (regs [(1, 0x200)]).held v.gr.core sp v.a.g + 4096 * units ≤ physical sp :=
  ⟨g7, 1, _, view _, reaches_of (by decide +kernel), released_of (by decide +kernel), by decide +kernel, by decide, by decide +kernel, by decide +kernel⟩

theorem meets_Traps_state : ∃ g n m s v, (checks (.trap g n) = some m ∧ Acts m s v) ∧ n.toNat ≤ 4 ∧ v.wv.trapbase = 0 :=
  ⟨g7, 4, _, base, _, reaches_of (by decide +kernel), by decide, rfl⟩

/-- The wave with a handler table. -/
def handled (pos : Word) : State := world' fun wv => { wv with trapbase := 0x20000, trappos := pos }

theorem meets_Traps_taken : ∃ g n m s v, (checks (.trap g n) = some m ∧ Acts m s v) ∧ n.toNat ≤ 4 ∧ v.wv.trapbase ≠ 0
    ∧ v.wv.trappos.getLsbD 63 = false ∧ v.wv.ents.length ≤ 1 :=
  ⟨g7, 4, _, handled 0, _, reaches_of (by decide +kernel), by decide, by decide +kernel, by decide +kernel, by decide +kernel⟩

theorem meets_Traps_vector : ∃ g n m s v, (checks (.trap g n) = some m ∧ Acts m s v) ∧ 5 ≤ n.toNat :=
  ⟨g7, 5, _, base, _, reaches_of (by decide +kernel), by decide⟩

theorem meets_Traps_tret_state : ∃ g m s v, (checks (.tret g) = some m ∧ Acts m s v) ∧ v.wv.trappos.getLsbD 63 = false :=
  ⟨g7, _, handled 0, _, reaches_of (by decide +kernel), by decide +kernel⟩

theorem meets_Traps_tret : ∃ g m s v, (checks (.tret g) = some m ∧ Acts m s v) ∧ v.wv.trappos.getLsbD 63 = true ∧ v.wv.ents.length ≤ 1 :=
  ⟨g7, _, handled 0x8000000000010010, _, reaches_of (by decide +kernel), by decide +kernel, by decide +kernel⟩

theorem meets_Traps_place : ∃ (i : Instr) (g : Guard) (n : BitVec 6) (s : State) (v : View), (i = .trap g n ∨ i = .tret g) ∧ s.view? = some v ∧ v.en.idx + 1 ≠ v.cl.count :=
  ⟨.tret g7, g7, 0, early, _, .inr rfl, rfl, by decide +kernel⟩

/-- What every clause of `HistoryControls` asks. -/
def HistoryAsks (i : Instr) (s : State) (a b : Word) : Prop :=
  ∃ g sa sb m v, (i = .sysHadv g sa sb ∨ i = .sysWsize g sa sb ∨ i = .sysHrevoke g sa sb) ∧ (checks i = some m ∧ Acts m s v)
    ∧ a = v.sval s.tick sa ∧ b = v.sval s.tick sb

/-- A store is held as well. -/
theorem meets_HistoryControls_hadv : HistoryAsks (.sysHadv g7 1 2) (busy (regs [(2, 16)])) 0 16 :=
  ⟨g7, 1, 2, _, view _, .inl rfl, reaches_of (by decide +kernel), by decide +kernel, by decide +kernel⟩

theorem meets_HistoryControls_wsize : HistoryAsks (.sysWsize g7 1 2) (regs [(1, 0x300000000), (2, 15)]) (BitVec.ofNat 64 (12 * 2 ^ 30)) 15 :=
  ⟨g7, 1, 2, _, _, .inr (.inl rfl), reaches_of (by decide +kernel), by decide +kernel, by decide +kernel⟩

theorem meets_HistoryControls_hrevoke : HistoryAsks (.sysHrevoke g7 1 2) (regs [(1, 0x1000F), (2, 1)]) 0x1000F 1 :=
  ⟨g7, 1, 2, _, _, .inr (.inr rfl), reaches_of (by decide +kernel), by decide +kernel, by decide +kernel⟩

theorem meets_DebugReads_brk : ∃ g n m s v, checks (.sysBrk g n) = some m ∧ Acts m s v :=
  ⟨g7, 0xFFF, _, base, _, reaches_of (by decide +kernel)⟩

theorem meets_DebugReads_dbgrd : ∃ g sd m s v, checks (.sysDbgrd g sd) = some m ∧ Acts m s v :=
  ⟨g7, 1, _, base, _, reaches_of (by decide +kernel)⟩

theorem meets_DebugReads_field : ∃ g sd sa m s v a, (checks (.sysDgrd g sd sa) = some m ∧ Acts m s v) ∧ a = v.sval s.tick sa
    ∧ a.extractLsb' 12 52 ≠ 0 := ⟨g7, 1, 2, _, regs [(2, 0x1000)], _, _, reaches_of (by decide +kernel), rfl, by decide +kernel⟩

theorem meets_DebugReads_dgrd : ∃ g sd sa m s v a, (checks (.sysDgrd g sd sa) = some m ∧ Acts m s v) ∧ a = v.sval s.tick sa
    ∧ a.extractLsb' 12 52 = 0 := ⟨g7, 1, 2, _, regs [(2, 0xFFF)], _, _, reaches_of (by decide +kernel), rfl, by decide +kernel⟩

/-- Five waves of core 0: the first and the last can be selected, the last is marked; the others have pipes 0 to 2. -/
def selecting (m : Bool) : State :=
  let w (k : Nat) (e : Entity) : Wave := { wave with slot := k, ents := [(0, e)] }
  let idle : Entity := { ent with pipe := none }
  world { group with waves := [w 0 idle, w 1 ent, w 2 { ent with pipe := some 1 }, w 3 { ent with pipe := some 2 }, w 4 { idle with marked := m }] }

/-- What `Selections` asks of the state before damage and early closings, and of the one after. -/
def SelectAsks (s0 : State) (a : Actor) : Prop :=
  s0.placing = true ∧ ∃ s, s = (s0.endDamaged 0).closeEarly 0 ∧ (∀ b ∈ s.actorsOn 0, s.look b = s) ∧ (∀ q, q < 4 → (s.pipeTaken 0 q = false ↔ q = 3))
    ∧ (a ∈ s.actorsOn 0 ∧ (s.candidate a).isSome = true ∧ ((s.entity? a).map fun e => e.skip.getLsbD 3) = some false)
    ∧ ∀ b ∈ s.actorsOn 0, (s.candidate b).isSome = true → b ≠ a →
        if ((s.entity? a).map (·.marked)).getD false = ((s.entity? b).map (·.marked)).getD false then olderKey (s.ageKey a) (s.ageKey b) = true
        else ((s.entity? a).map (·.marked)).getD false = true

theorem meets_Selections_age : SelectAsks (selecting false) ⟨1, 0, 0⟩ :=
  ⟨by decide +kernel, _, rfl, by and_intros <;> decide +kernel⟩

theorem meets_Selections_marked : SelectAsks (selecting true) ⟨1, 4, 0⟩ :=
  ⟨by decide +kernel, _, rfl, by and_intros <;> decide +kernel⟩

theorem meets_Selections_once : ((((selecting true).endDamaged 0).closeEarly 0).actorsOn 0).Nodup := by decide +kernel

theorem meets_Selections_whole : ∀ q ∈ (selecting true).residents 0, ∀ wv ∈ q.2.waves, wv.bad = false ∧ wv.sq = [] := by decide +kernel

/-- An instruction in flight of the entity at hand. -/
def op (b : OpBody) : LongOp := { ent := 0, hdr := 0x10000, idx := 0, fl := some 0, window := some 1, mask := 0xF, uni := false, body := b, ready := true }

/-- The module with it in flight. -/
def flying (o : LongOp) : State := world' fun wv => { wv with ops := [(5, o)], f := [(0, 1)] }

/-- What every clause of `Completions` asks. -/
def DoneAsks (s : State) (P : Group → Wave → LongOp → Prop) : Prop :=
  ∃ gr wv o, s.group? 1 = some gr ∧ s.wave? 1 0 = some wv ∧ Table.find wv.ops 5 = some o ∧ o.faulted = false
    ∧ (o.blocked = false ∨ gr.state = .running) ∧ o.uncounted = false ∧ wv.late = [] ∧ o.clob = [] ∧ P gr wv o

theorem meets_Completions_alu : DoneAsks (flying (op (.alu (.v 255) .n32 [] 63))) fun _ _ o =>
    (∃ d ty vals fl, o.body = .alu d ty vals fl) ∧ o.refused = [] ∧ o.mask ≠ 0 :=
  ⟨_, _, _, rfl, rfl, rfl, rfl, .inl rfl, rfl, rfl, rfl, ⟨_, _, _, _, rfl⟩, rfl, by decide⟩

/-- The bytes of threads 0 to 3 have come. -/
def loaded : LongOp :=
  { op (.load .g (.v 4) .n32 []) with got := (List.range 16).map fun k => (8 * (k / 4) + k % 4, BitVec.ofNat 8 k) }

theorem meets_Completions_load : DoneAsks (flying loaded) fun _ wv o =>
    (∃ sp d, o.body = .load sp d .n32 []) ∧ o.refused = [] ∧ o.mask ≠ 0 ∧ (flying loaded).asksFor 1 0 5 = false ∧ wv.behindAcquire 5 o = false
    ∧ wv.behindLate 5 = false ∧ ∃ x : Nat → Word, ∀ t, t < 64 → o.mask.getLsbD t = true → o.gotWord (if o.uni then 0 else t) Ty.n32.bytes = some (x t) := by
  refine ⟨_, _, _, rfl, rfl, rfl, rfl, .inl rfl, rfl, rfl, rfl, ⟨_, _, rfl⟩, rfl, by decide, by decide +kernel, by decide +kernel, by decide +kernel,
    fun t => (loaded.gotWord t 4).getD 0, ?_⟩
  have h : ∀ t, t < 64 → loaded.mask.getLsbD t = true → (loaded.gotWord t 4).isSome = true := by decide +kernel
  intro t ht hm
  have := h t ht hm
  exact (Option.some_get this).symm.trans (by simp [Option.getD, Option.get]; split <;> simp_all)

theorem meets_Completions_refused : DoneAsks (flying { op (.load .g (.v 4) .n32 []) with refused := [⟨3, Cause.access Cause.kLoad Cause.rNotPresent, 0⟩] })
    fun _ wv o => (∃ sp d ty, o.body = .load sp d ty []) ∧ o.refused ≠ [] ∧ wv.behindAcquire 5 o = false ∧ wv.behindLate 5 = false
      ∧ (∃ e, Table.find wv.ents o.ent = some e ∧ e.fault = none) ∧ Cause.replayable o.denied.cause = true :=
  ⟨_, _, _, rfl, rfl, rfl, rfl, .inl rfl, rfl, rfl, rfl, ⟨_, _, _, rfl⟩, by decide, by decide +kernel, by decide +kernel, ⟨_, rfl, rfl⟩, by decide +kernel⟩

/-- The module with a deque entry and an instruction that takes it. -/
def dealt : State := { flying (op (.dqPop 63)) with cores := [(0, { deque := [⟨1, 0, true⟩], bottom := 1, dqLaunch := some 1 })] }

theorem meets_Completions_pop : DoneAsks dealt fun gr wv o => o.body = .dqPop 63 ∧ dealt.mayAcquire 1 0 5 wv o = true ∧ gr.core = 0 ∧ some 1 = some gr.launch :=
  ⟨_, _, _, rfl, rfl, rfl, rfl, .inl rfl, rfl, rfl, rfl, rfl, by decide +kernel, rfl, rfl⟩

theorem meets_Completions_steal : DoneAsks (flying (op (.dqSteal 1 255))) fun _ wv o => o.body = .dqSteal 1 255
    ∧ (flying (op (.dqSteal 1 255))).mayAcquire 1 0 5 wv o = true :=
  ⟨_, _, _, rfl, rfl, rfl, rfl, .inl rfl, rfl, rfl, rfl, rfl, by decide +kernel⟩

theorem meets_Completions_l1 : DoneAsks (flying (op (.l1 true))) fun _ _ o => ∃ drop, o.body = .l1 drop :=
  ⟨_, _, _, rfl, rfl, rfl, rfl, .inl rfl, rfl, rfl, rfl, _, rfl⟩

theorem meets_Completions_off : DoneAsks (flying (op .off)) fun _ _ o => o.body = .off := ⟨_, _, _, rfl, rfl, rfl, rfl, .inl rfl, rfl, rfl, rfl, rfl⟩

theorem meets_AbortDelivered : ∃ s wv r word, State.wave? s 1 0 = some wv ∧ wv.region = some r ∧ r.aborted = some word :=
  ⟨world' fun wv => { wv with region := some ⟨255, [], [], [], [], 0, 0, 0xF, 0, 0x20000, [], 1, some 1, []⟩ }, _, _, _, rfl, rfl, rfl⟩

/-- The entity at hand parked. -/
def parked (p : Park) (f : Option FaultInfo) : Group := { group with waves := [{ wave with ents := [(0, { ent with pipe := none, park := some p, fault := f })] }] }

theorem meets_Grants_replay : ∃ a s gr e f, State.group? s a.g = some gr ∧ gr.state = .running ∧ gr.saving = false
    ∧ gr.triggered.contains (a.w, a.e) = true ∧ s.det gr = false ∧ s.entity? a = some e ∧ e.park = some .fault ∧ e.fault = some f
    ∧ ∀ id wv, f.op = some id → s.wave? a.g a.w = some wv → wv.flagFull id = false :=
  ⟨⟨1, 0, 0⟩, world { parked .fault (some ⟨1, 0, 0xF, none, 0⟩) with triggered := [(0, 0)] }, _, _, _, rfl, rfl, rfl, by decide +kernel, by decide +kernel, rfl, rfl, rfl, nofun⟩

/-- The module with two groups that ask for scratchpad. -/
def asking (n m : Nat) : State :=
  { world (parked (.bufreq .sp n) none) with
    groups := [(1, parked (.bufreq .sp n) none), (2, { parked (.bufreq .sp m) none with pnum := 2 })] }

/-- What the clauses of `Grants` about requests ask. -/
def GrantAsks (s : State) (n : Nat) (P : List (Actor × Nat) → Prop) : Prop :=
  ∃ rest, s.requesters 0 .sp = (⟨1, 0, 0⟩, n) :: rest ∧ (∀ r ∈ s.requesters 0 .sp, s.shrinks .sp r = false) ∧ (s.group? 1).isSome = true
    ∧ (s.wave? 1 0).isSome = true ∧ (s.entity? ⟨1, 0, 0⟩).isSome = true ∧ P rest

/-- What is left beside the other group. -/
theorem meets_Grants_room : GrantAsks (asking 127 2) 127 fun _ => (asking 127 2).held 0 .sp 1 + 4096 * 127 ≤ physical .sp :=
  ⟨[(⟨2, 0, 0⟩, 2)], by decide +kernel, by decide +kernel, rfl, rfl, rfl, by decide +kernel⟩

theorem meets_Grants_refused : GrantAsks (asking 128 128) 128 fun _ => physical .sp < (asking 128 128).held 0 .sp 1 + 4096 * 128
    ∧ (asking 128 128).deadlocked 0 .sp = true ∧ ∃ b c, ((asking 128 128).growRequests 0).head? = some c ∧ ((asking 128 128).growRequests 0).getLast? = some b
      ∧ c.g ≠ b.g ∧ ((asking 128 128).entity? b).isSome = true :=
  ⟨[(⟨2, 0, 0⟩, 128)], by decide +kernel, by decide +kernel, rfl, rfl, rfl, by decide +kernel, by decide +kernel, ⟨2, 0, 0⟩, ⟨1, 0, 0⟩, by decide +kernel,
    by decide +kernel, by decide, rfl⟩

/-- The module with one request for a word of a granule, or of the last bytes of one. -/
def asked (k : ReqKind) (ag : Agent) (i : ReqItem) : State :=
  { flying (op (.load .g (.v 4) .n32 [])) with
    pages := [(0, { initialPage 0 with owner := 0x8000 })]
    reqs := [(1, { agent := ag, ctx := 1, launch := some 1, kind := k, gran := i.addr / 64 * 64, items := [i], carried := none })] }

/-- What every clause of `SliceReads` and `SliceWrites` asks. -/
def SliceAsks (s : State) (P : Req → Wave → Prop) : Prop :=
  ∃ r wv, s.turnOf 1 = some r ∧ r.slot = none ∧ s.barred r = false ∧ s.flips = [] ∧ s.wave? 1 0 = some wv ∧ P r wv

theorem meets_SliceReads_load : SliceAsks (asked .load (.op 1 0 5) ⟨3, 0, 60, 4, [], 0, 0, 0⟩) fun r wv =>
    r.kind = .load ∧ r.agent = .op 1 0 5 ∧ (Table.find wv.ops 5).isSome = true ∧ wv.region = none
      ∧ (asked .load (.op 1 0 5) ⟨3, 0, 60, 4, [], 0, 0, 0⟩).l1Bytes 0 + granSize ((asked .load (.op 1 0 5) ⟨3, 0, 60, 4, [], 0, 0, 0⟩).page (dpaPage r.gran)).gran ≤ 2 ^ 18 :=
  ⟨_, _, rfl, rfl, by decide +kernel, rfl, rfl, rfl, rfl, rfl, rfl, by decide +kernel⟩

/-- The module with an as-of read of a versioned page whose granule has a stamp and a kept version, at a stamp. -/
def dated (v : Bool) (T h stamp : Stamp) (log : List WheyRec) : State :=
  { asked (.asof T) (.op 1 0 5) ⟨3, 0, 60, 4, [], 0, 0, 0⟩ with
    pages := [(0, { initialPage 0 with v := v, owner := 0x8000 })]
    gstamps := [(0, stamp)]
    glinks := log.map fun y => (0, y.pos)
    stackTable := [(0, { whey := 4096, log := log, next := 96, h := h, hRound := h })] }

/-- What the clauses about as-of reads ask. -/
def AsofAsks (s : State) (T : Stamp) (v : Bool) (P : Prop) : Prop :=
  SliceAsks s fun r wv => r.kind = .asof T ∧ r.agent = .op 1 0 5 ∧ r.items.length = 1 ∧ r.carried = none ∧ (Table.find wv.ops 5).isSome = true
    ∧ (s.page (dpaPage r.gran)).v = v ∧ (v = true → ∀ d, countAbove (count T) (s.sliceCount (homeSlice r.gran)) = some d → d ≤ 2 ^ 40) ∧ P

theorem meets_SliceReads_unversioned : AsofAsks (dated false 0 0 0 []) 0 false True :=
  ⟨_, _, rfl, rfl, by decide +kernel, rfl, rfl, rfl, rfl, rfl, rfl, rfl, rfl, nofun, trivial⟩

/-- The module's count is 9. -/
def at9 (s : State) : State := { s with counts := [(0, 9)] }

theorem meets_SliceReads_reclaimed : AsofAsks (at9 (dated true 0x2000 0x2001 0 [])) 0x2000 true (stampCmp 0x2000 0x2001 = .lt) :=
  ⟨_, _, rfl, rfl, by decide +kernel, rfl, rfl, rfl, rfl, rfl, rfl, rfl, rfl, fun _ => by decide +kernel, by decide +kernel⟩

theorem meets_SliceReads_far : AsofAsks (at9 (dated true 0x2000 (0x2000 + mkStamp (BitVec.ofNat 50 (2 ^ 49)) 0) 0 [])) 0x2000 true
    (stampCmp 0x2000 (0x2000 + mkStamp (BitVec.ofNat 50 (2 ^ 49)) 0) = .far) :=
  ⟨_, _, rfl, rfl, by decide +kernel, rfl, rfl, rfl, rfl, rfl, rfl, rfl, rfl, fun _ => by decide +kernel, by decide +kernel⟩

/-- H itself, and the granule's own stamp. -/
theorem meets_SliceReads_current : AsofAsks (at9 (dated true 0x2000 0x2000 0x2000 [])) 0x2000 true
    (stampCmp 0x2000 0x2000 = .eq ∧ stampLe ((at9 (dated true 0x2000 0x2000 0x2000 [])).ownStamp 0) 0x2000 = true) :=
  ⟨_, _, rfl, rfl, by decide +kernel, rfl, rfl, rfl, rfl, rfl, rfl, rfl, rfl, fun _ => by decide +kernel, by decide +kernel, by decide +kernel⟩

/-- A kept version, superseded at a stamp. -/
def kept (old sup : Stamp) : WheyRec := { pos := 0, gran := 1, dpa := 0, old := old, sup := sup, link := none, data := List.replicate 64 7 }

theorem meets_SliceReads_kept : AsofAsks (at9 (dated true 0x2000 0 0x2001 [kept 0x2000 0x2001])) 0x2000 true
    (stampCmp 0x2000 0 = .gt ∧ stampLe ((at9 (dated true 0x2000 0 0x2001 [kept 0x2000 0x2001])).ownStamp 0) 0x2000 = false
      ∧ (kept 0x2000 0x2001).flips = [] ∧ stampLe (kept 0x2000 0x2001).old 0x2000 = true) :=
  ⟨_, _, rfl, rfl, by decide +kernel, rfl, rfl, rfl, rfl, rfl, rfl, rfl, rfl, fun _ => by decide +kernel, by and_intros <;> decide +kernel⟩

theorem meets_SliceReads_none : AsofAsks (at9 (dated true 0x2000 0 0x2001 [])) 0x2000 true
    (stampLe ((at9 (dated true 0x2000 0 0x2001 [])).ownStamp 0) 0x2000 = false ∧ Table.find (at9 (dated true 0x2000 0 0x2001 [])).glinks 0 = none) :=
  ⟨_, _, rfl, rfl, by decide +kernel, rfl, rfl, rfl, rfl, rfl, rfl, rfl, rfl, fun _ => by decide +kernel, by decide +kernel, rfl⟩

/-- The module with a released store of the last bytes of a granule. -/
def storing (v : Bool) : State :=
  { asked .store (.wave 1 0) ⟨3, 0, 60, 4, [1, 2, 3, 4], 0, 0, 0⟩ with
    pages := [(0, { initialPage 0 with v := v, owner := 0x8000 })]
    stackTable := [(0, { whey := 2 ^ 26 })] }

theorem meets_SliceWrites_store : SliceAsks (storing false) fun r _ => r.kind = .store ∧ r.agent = .wave 1 0 ∧ (storing false).snooping r.gran = false
    ∧ (storing false).onGranule r.gran = [] ∧ ((storing false).page (dpaPage r.gran)).v = false :=
  ⟨_, _, rfl, rfl, by decide +kernel, rfl, rfl, rfl, rfl, rfl, rfl, rfl⟩

theorem meets_SliceWrites_versioned : SliceAsks (storing true) fun r _ => r.kind = .store ∧ r.agent = .wave 1 0 ∧ (storing true).snooping r.gran = false
    ∧ (storing true).onGranule r.gran = [] ∧ (storing true).wheyRoom (dpaStack r.gran) (recordBytes ((storing true).page (dpaPage r.gran)).gran) none = true :=
  ⟨_, _, rfl, rfl, by decide +kernel, rfl, rfl, rfl, rfl, rfl, rfl, by decide +kernel⟩

theorem meets_SliceWrites_atomic : SliceAsks (asked (.atom .add .n32) (.op 1 0 5) ⟨3, 0, 60, 4, [], 1, 0, 0⟩) fun r wv => r.kind = .atom .add .n32
    ∧ r.agent = .op 1 0 5 ∧ r.items.length = 1 ∧ wv.region = none ∧ (Table.find wv.ops 5).isSome = true
    ∧ (asked (.atom .add .n32) (.op 1 0 5) ⟨3, 0, 60, 4, [], 1, 0, 0⟩).snooping r.gran = false
    ∧ (asked (.atom .add .n32) (.op 1 0 5) ⟨3, 0, 60, 4, [], 1, 0, 0⟩).onGranule r.gran = []
    ∧ ((asked (.atom .add .n32) (.op 1 0 5) ⟨3, 0, 60, 4, [], 1, 0, 0⟩).page (dpaPage r.gran)).v = false :=
  ⟨_, _, rfl, rfl, by decide +kernel, rfl, rfl, rfl, rfl, rfl, rfl, rfl, rfl, rfl, by decide +kernel⟩

theorem meets_SliceUpkeep_revoke : ∃ (k j : Nat) (s : State) (h : Hold), 2 ^ 16 ≤ (s.stack k).refused ∧ s.lowestHold = some (j, h) :=
  ⟨15, 16, { base with stackTable := [(15, { refused := 2 ^ 16 })], holds := [(16, ⟨0, 0⟩)] }, _, by decide +kernel, rfl⟩

/-- Stack 0 lags by 2^47. -/
def lagging (log : List WheyRec) (held : Bool) : State :=
  { base with
    counts := (List.range 64).map fun k => (k, BitVec.ofNat 50 (2 ^ 47))
    stackTable := [(0, { whey := 4096, log := log })]
    holds := if held then [(16, ⟨0, 0⟩)] else [] }

theorem meets_SliceUpkeep_reclaim : ∃ r rest, 2 ^ 47 ≤ (lagging [kept 0 0x2000] false).lag 0 ∧ ((lagging [kept 0 0x2000] false).stack 0).log = r :: rest
    ∧ (lagging [kept 0 0x2000] false).holdsAllow r.sup = true := ⟨_, _, by decide +kernel, rfl, by decide +kernel⟩

theorem meets_SliceUpkeep_pinned : ∃ r rest j h, 2 ^ 47 ≤ (lagging [kept 0 0x2000] true).lag 0 ∧ ((lagging [kept 0 0x2000] true).stack 0).log = r :: rest
    ∧ (lagging [kept 0 0x2000] true).holdsAllow r.sup = false ∧ (lagging [kept 0 0x2000] true).lowestHold = some (j, h) :=
  ⟨_, _, _, _, by decide +kernel, rfl, by decide +kernel, rfl⟩

theorem meets_SliceUpkeep_raise : 2 ^ 47 ≤ (lagging [] false).lag 0 ∧ ((lagging [] false).stack 0).log = []
    ∧ (lagging [] false).holdsAllow (mkStamp 1 ((lagging [] false).originOf 0)) = true := ⟨by decide +kernel, rfl, by decide +kernel⟩

theorem meets_SliceUpkeep_raise_held : ((lagging [] true).stack 0).log = [] ∧ (lagging [] true).holdsAllow (mkStamp 1 ((lagging [] true).originOf 0)) = false
    ∧ ∃ j h, (lagging [] true).lowestHold = some (j, h) := ⟨rfl, by decide +kernel, _, _, rfl⟩

theorem meets_SliceUpkeep_sweep : 2 ^ 47 ≤ ((lagging [] false).sliceCount 63).toNat ∧ homeSlice (15 * 2 ^ 40 + 1536) = 63 :=
  ⟨by decide +kernel, by decide +kernel⟩

/-- The module with a held store. -/
def holding (h : Held) : State :=
  { storing false with reqs := [(1, { agent := .wave 1 0, ctx := 1, launch := some 1, kind := .store, gran := 0, items := [⟨3, 0, 60, 4, [1, 2, 3, 4], 0, 0, 0⟩], carried := none, held := some h })] }

theorem meets_SliceUpkeep_behind : ∃ r s, s = { holding (.behind 255 1) with slots := [(255, { start := 1, core := 0, g := 1, w := 0 })] }
    ∧ Table.find s.reqs 1 = some r ∧ r.held = some (.behind 255 1) ∧ s.regionOver 255 1 = false := ⟨_, _, rfl, rfl, rfl, by decide +kernel⟩

/-- A later region has taken the slot. -/
theorem meets_SliceUpkeep_free : ∃ r s, s = { holding (.edge 255 1) with slots := [(255, { start := 2, core := 0, g := 1, w := 0 })] }
    ∧ Table.find s.reqs 1 = some r ∧ r.held = some (.edge 255 1) ∧ s.regionOver 255 1 = true ∧ r.slot = none ∧ r.kind = .store
    ∧ { s with reqs := Table.insert s.reqs 1 { r with held := none } }.turnOf 1 = some { r with held := none } :=
  ⟨_, _, rfl, rfl, rfl, by decide +kernel, rfl, rfl, rfl⟩

theorem meets_SliceUpkeep_waits : ∃ r, Table.find (holding (.whey 0 0)).reqs 1 = some r ∧ r.held = some (.whey 0 0) ∧ 0 = (holding (.whey 0 0)).round
    ∧ 0 = (holding (.whey 0 0)).freedAt (dpaStack r.gran) ∧ r.slot = none ∧ r.kind = .store := ⟨_, rfl, rfl, rfl, by decide +kernel, rfl, rfl⟩

theorem meets_SliceUpkeep_retry : ∃ r, Table.find (holding (.whey 1 0)).reqs 1 = some r ∧ r.held = some (.whey 1 0) ∧ 1 ≠ (holding (.whey 1 0)).round
    ∧ r.slot = none ∧ r.kind = .store
    ∧ { holding (.whey 1 0) with reqs := Table.insert (holding (.whey 1 0)).reqs 1 { r with held := none } }.turnOf 1 = some { r with held := none } :=
  ⟨_, rfl, rfl, by decide +kernel, rfl, rfl, rfl⟩

theorem meets_RegionEvents_serve : ∃ s a rest k wv e w, State.xbegQueue s = a :: rest ∧ s.runs a.g = true ∧ s.canBegin (s.coreOfGroup a.g) = true
    ∧ s.freeSlot = some k ∧ s.wave? a.g a.w = some wv ∧ s.entity? a = some e ∧ e.fault = none ∧ e.waiting = some w :=
  ⟨{ world' (fun wv => { wv with ents := [(0, { ent with waiting := some (0x10000, 2, 0, 0, 0x20000, 1) })] }) with xbegQueue := [⟨1, 0, 0⟩] },
    _, _, 0, _, _, _, rfl, by decide +kernel, by decide +kernel, by decide +kernel, rfl, rfl, rfl, rfl⟩

/-- The wave in a region with a request, and older regions. -/
def regional (k : ReqKind) (ag : Agent) (i : ReqItem) (l : List (Nat × Slot)) : State :=
  { asked k ag i with
    reqs := [(1, { agent := ag, ctx := 1, launch := some 1, kind := k, gran := i.addr / 64 * 64, items := [i], carried := none, slot := some 255 })]
    slots := l ++ [(255, { start := 2, core := 0, g := 1, w := 0 })] }

/-- What the clauses of `RegionEvents` about requests ask. -/
def RegionAsks (s : State) (P : Req → Prop) : Prop :=
  ∃ r x, s.turnOf 1 = some r ∧ r.slot = some 255 ∧ s.barred r = false ∧ Table.find s.slots 255 = some x ∧ s.entriesAt (homeSlice r.gran) < 4096 ∧ P r

theorem meets_RegionEvents_store : RegionAsks (regional .store (.wave 1 0) ⟨3, 0, 60, 4, [1, 2, 3, 4], 0, 0, 0⟩ []) fun r => r.kind = .store :=
  ⟨_, _, rfl, rfl, by decide +kernel, rfl, by decide +kernel, rfl⟩

theorem meets_RegionEvents_load : RegionAsks (regional .load (.op 1 0 5) ⟨3, 0, 60, 4, [], 0, 0, 0⟩ []) fun r => r.kind = .load ∧ r.agent = .op 1 0 5 :=
  ⟨_, _, rfl, rfl, by decide +kernel, rfl, by decide +kernel, rfl, rfl⟩

/-- An older region, three deep, that has written the granule. -/
def source : List (Nat × Slot) := [(0, { start := 1, core := 0, g := 2, w := 0, depth := 3, dir := [⟨0, false, true⟩], writes := [⟨0, 62, [9], false⟩] })]

theorem meets_RegionEvents_forward : RegionAsks (regional .load (.op 1 0 5) ⟨3, 0, 60, 4, [], 0, 0, 0⟩ source) fun r =>
    ((regional .load (.op 1 0 5) ⟨3, 0, 60, 4, [], 0, 0, 0⟩ source).onGranule r.gran).filter (· ≠ 255) = [0]
    ∧ (regional .load (.op 1 0 5) ⟨3, 0, 60, 4, [], 0, 0, 0⟩ source).wrote 0 r.gran = true ∧ older 1 2 = true
    ∧ (regional .load (.op 1 0 5) ⟨3, 0, 60, 4, [], 0, 0, 0⟩ source).reach 255 0 = false
    ∧ (regional .load (.op 1 0 5) ⟨3, 0, 60, 4, [], 0, 0, 0⟩ source).reach 255 255 = false
    ∧ 3 + 1 + (regional .load (.op 1 0 5) ⟨3, 0, 60, 4, [], 0, 0, 0⟩ source).height 255 5 ≤ 4 :=
  ⟨_, _, rfl, rfl, by decide +kernel, rfl, by and_intros <;> decide +kernel⟩

/-- A region of the wave that may commit, with two writes. -/
def ending : State :=
  { inside with slots := [(255, { start := 1, core := 0, g := 1, w := 0, dir := [⟨0, false, true⟩], writes := [⟨0, 60, [1, 2, 3, 4], false⟩, ⟨1, 63, [5], false⟩], ending := some 0 })] }

theorem meets_RegionEvents_commit : ∃ x gr wv, Table.find ending.slots 255 = some x ∧ x.state = .live ∧ ending.mayCommit 255 = true
    ∧ ending.group? x.g = some gr ∧ ending.wave? x.g x.w = some wv ∧ ending.flips = []
    ∧ (∀ r, wv.region = some r → ending.overtaken r = false) ∧ ending.inOrder x ((stampJoin (some wv.cstamp) (ending.lastOf x.g)).getD wv.cstamp) = true ∧ ending.regionSnoops x = false
    ∧ (∀ b ∈ x.written, ending.granOf b = b ∧ (ending.page (dpaPage b)).v = false)
    ∧ (∀ w ∈ x.writes, w.data ≠ [] ∧ ∃ b ∈ x.written, b ≤ w.addr ∧ w.addr + w.data.length ≤ b + granSize (ending.page (dpaPage b)).gran) :=
  ⟨_, _, _, rfl, rfl, by decide +kernel, rfl, rfl, rfl, fun r h => by cases h; decide +kernel, by and_intros <;> decide +kernel⟩

/-- The module as the only one of its domain, and with another. -/
theorem meets_RoundCloses : base.placed = none ∧ base.allClosed = true ∧ (∀ k, k < 64 → (base.sliceCount k).toNat < 2 ^ 48) ∧ base.others = []
    ∧ ∃ u l, u = base.placeRound ∧ u.roundOf = some l ∧ (∀ x ∈ l, x.2.count.toNat < 2 ^ 48) ∧ (∀ p ∈ base.launches, ∀ c, p.2.seedCount = some c → c.toNat < 2 ^ 48)
      ∧ base.launches.length < 2 ^ 47 ∧ Table.rising base.launches = true :=
  ⟨rfl, by decide +kernel, by decide +kernel, by decide +kernel, _, _, rfl, (Option.some_get (by decide +kernel)).symm, by decide +kernel,
    fun p h => by rw [List.mem_singleton.mp h]; nofun, by decide, by decide +kernel⟩

/-- A launch that a wave issued with a count before the round. -/
def seeded : State := { base with launches := [(1, { ctx := 1, block := [], seedCount := some (BitVec.ofNat 50 (2 ^ 48 - 1)) })] }

theorem meets_RoundCloses_launch : ∃ x l, Table.find seeded.launches 1 = some x ∧ x.stamp = none ∧ x.round ≤ seeded.round
    ∧ (seeded.launches.filter fun p => p.2.stamp.isNone && p.2.round ≤ seeded.round) = [(1, x)] ∧ seeded.placeRound.roundOf = some l
    ∧ ∀ c, x.seedCount = some c → c.toNat < 2 ^ 48 :=
  ⟨_, _, rfl, rfl, by decide +kernel, by decide +kernel, (Option.some_get (by decide +kernel)).symm, fun c h => by cases h; decide +kernel⟩

/-- A launch of the next round. -/
theorem meets_RoundCloses_later : ∃ (s : State) (x : Launch), Table.rising s.launches = true ∧ Table.find s.launches 1 = some x ∧ s.round < x.round :=
  ⟨{ base with launches := [(1, { ctx := 1, block := [], round := 1 })] }, _, by decide +kernel, rfl, by decide +kernel⟩

/-- The round before is still open on another module. -/
theorem meets_RoundCloses_unclosed : ∃ s : State, s.placed = none ∧ s.allClosed = false ∧ s.others.Nodup :=
  ⟨{ base with fabric := { routes := [(255, [0])] }, unclosed := [(255, 1)] }, rfl, by decide +kernel, by decide +kernel⟩

/-- A round that raises a stack's horizon alone. -/
theorem meets_RoundCloses_horizon : ∃ (s : State) (c : BitVec 50), s.placeRound.roundOf = some [(s.fabric.index.toNat, ⟨c, [(64 + 15, .horizon 15 8)]⟩)] :=
  ⟨{ base with bcasts := [(64 + 15, .horizon 15 8)] }, 0, by decide +kernel⟩

theorem meets_RoundCloses_waits : ∃ s u : State, s = { base with fabric := { routes := [(255, [0])] } } ∧ u = s.placeRound ∧ u.roundOf = none ∧ 255 ∈ s.others :=
  ⟨_, _, rfl, rfl, by decide +kernel, by decide +kernel⟩

/-- A command of the group. -/
def cmd (q : Nat) (k : CmdKind) (recs : List (BitVec 256)) : Cmd := { g := 1, queue := q, num := 1, epoch := 0, kind := k, recs := recs }

/-- The module with a copy in the scratchpad, of which the row that lies last is written. -/
def copying (c : Cmd) : State := { world { group with sp := group.sp.write 3968 (List.replicate 128 1) } with cmds := [(1, c)] }

/-- What the clause of `EngineEvents` about a landing asks, with what the pairing is. -/
def LandAsks (native : Bool) (s : State) (piece : Nat) : Prop :=
  ∃ j, s.job 1 = some j ∧ s.canLand 1 j piece = true ∧ j.c.kind = .copy false false false ∧ j.d.sp = .sp ∧ j.x.sp = .sp ∧ j.c.bar = none
    ∧ nativePair j.d.fmt j.x.fmt = native ∧ j.gr.holds j.d = true ∧ (∀ e ∈ j.elems piece, j.gr.sp.allValid (j.x.elemAt e.1 e.2) j.x.esize = true
      ∧ j.gr.sp.sound (j.x.elemAt e.1 e.2) j.x.esize = true)

theorem meets_EngineEvents_native : LandAsks true (copying (cmd 0 (.copy false false false) [rec16 0, rec16 3072])) 15 :=
  ⟨_, rfl, by decide +kernel, rfl, rfl, rfl, rfl, by decide +kernel, by decide +kernel, by decide +kernel⟩

/-- Dense records of 16 by 16, of `.e4m3` at 0 and of `.f64` in the upper half. -/
def narrowed : List (BitVec 256) :=
  [(0x40 : Word) ++ (0 : Word) ++ (0x0000001000000010 : Word) ++ (0x9800000000000000 : Word),
   (0x80 : Word) ++ (0x800 : Word) ++ (0x0000001000000010 : Word) ++ (0x9780000000000000 : Word)]

theorem meets_EngineEvents_absent : LandAsks false (copying (cmd 0 (.copy false false false) narrowed)) 15 :=
  ⟨_, rfl, by decide +kernel, rfl, rfl, rfl, rfl, by decide +kernel, by decide +kernel, by decide +kernel⟩

theorem meets_EngineEvents_resume : ∃ c, Table.find (copying { cmd 0 .gather [] with suspended := some 0, resume := true }).cmds 1 = some c ∧ c.resume = true :=
  ⟨_, rfl, rfl⟩

/-- A product of 2 by 32 and 32 by 2 of 4 planes into `.f32`, whose scales lie after the planes. -/
def factors : List (BitVec 256) :=
  [(0 : Word) ++ (0 : Word) ++ (0x0000000200000002 : Word) ++ (0xC700000000000000 : Word),
   (0x100 : Word) ++ (0 : Word) ++ (0x0000000200000020 : Word) ++ (0xB918000000000000 : Word),
   (0x100 : Word) ++ (0 : Word) ++ (0x0000002000000002 : Word) ++ (0xA918000000000000 : Word)]

/-- What the clauses of `EngineEvents` about a K-step ask. -/
def StepAsks (c : Cmd) (P : State → Product → Prop) : Prop :=
  ∃ p, (copying c).product? 1 = some p ∧ (copying c).mayStep 1 p = true ∧ P (copying c) p

theorem meets_EngineEvents_kstep : StepAsks { cmd qMatrix (.product false true 0 0 2 2) factors with begun := true } fun _ p =>
    p.c.begun = true ∧ (copying p.c).kheld p = false ∧ p.sound 0 = true ∧ p.c.progress = 0 ∧ 0 < p.total ∧ p.out.sp = .cb ∧ p.out.cols = p.nq :=
  ⟨_, rfl, by decide +kernel, rfl, by decide +kernel, by decide +kernel, rfl, by decide +kernel, rfl, rfl⟩

/-- The debugger holds core 0's engine in step 0. -/
theorem meets_EngineEvents_held : ∃ (s : State) (p : Product), s = { copying { cmd qMatrix (.product false true 0 0 2 2) factors with begun := true } with
      boot := { mode := 2 }, mbd := { attached := true, kholds := [(0, 0)] } }
    ∧ s.product? 1 = some p ∧ s.mayStep 1 p = true ∧ p.c.begun = true ∧ s.kheld p = true :=
  ⟨_, _, rfl, rfl, by decide +kernel, rfl, by decide +kernel⟩

theorem meets_EngineEvents_uninit : StepAsks (cmd qMatrix (.product false true 0 0 2 2) factors) fun s p =>
    p.c.begun = false ∧ p.valid = false ∧ s.warns p.gr = false ∧ p.c.queue = qMatrix :=
  ⟨_, rfl, by decide +kernel, rfl, by decide +kernel, by decide +kernel, rfl⟩

/-- The module with a finished product, by its number and the group's counter. -/
def multiplied (num c epoch : Nat) : State :=
  let gr := { group with
    waves := [{ wave with ops := [(5, op (.cmd 1))], f := [(0, 1)] }]
    queues := [(qMatrix, { next := 9, c := c, epoch := epoch })] }
  { world gr with cmds := [(1, { cmd qMatrix (.product false true 0 0 2 2) factors with num := num, op := some (0, 5), begun := true, finished := true })] }

/-- What the clause of `EngineEvents` about a completion asks. -/
def CompleteAsks (s : State) (P : Cmd → Group → Prop) : Prop :=
  ∃ k gr wv x, Table.find s.cmds 1 = some k ∧ (∃ tern init m0 n0 mq nq, k.kind = .product tern init m0 n0 mq nq) ∧ k.queue = qMatrix ∧ k.finished = true
    ∧ s.group? k.g = some gr ∧ k.op = some (0, 5) ∧ s.wave? k.g 0 = some wv ∧ Table.find wv.ops 5 = some x ∧ x.body = .cmd 1 ∧ s.mbx.flights = []
    ∧ (gr.queue qMatrix).ahead = [] ∧ P k gr

theorem meets_EngineEvents_next : CompleteAsks (multiplied 1 0 0) fun k gr => (gr.queue qMatrix).epoch = k.epoch ∧ k.num = (gr.queue qMatrix).c + 1 :=
  ⟨_, _, _, _, rfl, ⟨_, _, _, _, _, _, rfl⟩, by and_intros <;> rfl⟩

theorem meets_EngineEvents_ahead : CompleteAsks (multiplied 2 0 0) fun k gr => (gr.queue qMatrix).epoch = k.epoch ∧ (gr.queue qMatrix).c + 1 < k.num :=
  ⟨_, _, _, _, rfl, ⟨_, _, _, _, _, _, rfl⟩, by and_intros <;> first | rfl | decide +kernel⟩

theorem meets_EngineEvents_epoch : CompleteAsks (multiplied 1 0 1) fun k gr => (gr.queue qMatrix).epoch ≠ k.epoch :=
  ⟨_, _, _, _, rfl, ⟨_, _, _, _, _, _, rfl⟩, by and_intros <;> first | rfl | decide +kernel⟩

/-- A task of die 0 whose record lies at VA 0. -/
def task (w : Bool) (st : TaskState) : Task := { die := 0, ctx := 1, launch := 1, addr := 0, dpa := 0x50000, cstamp := 0, wave := w, state := st }

theorem meets_TaskEvents_area : ∃ s : State, s.hasArea 15 = false ∧ ∃ x, Table.find s.tasks 1 = some x ∧ x.wave = false ∧ x.die = 15 ∧ x.state = .ready :=
  ⟨{ base with tasks := [(1, { task false .ready with die := 15 })] }, by decide +kernel, _, rfl, rfl, rfl, rfl⟩

/-- The module with page tables that map VAs from 0 to device pages 5 and 6, a task there with its first words, and a group that serves matrix tasks. -/
def tasked (t : Task) (l : List Word) (x : Task) : State :=
  let w (m : Table Byte) (p : Nat × Word) : Table Byte := writeBytes m p.1 (toBytes p.2.toNat 8)
  { base with
    ctxs := [(1, { root := 1, sys := true, dbg := false })]
    launches := [(1, { ctx := 1, block := [0, 0, 0, 0, 0, 0, 0x800000000] ++ List.replicate 25 0 })]
    pages := [5, 6].map fun k => (k, { initialPage k with owner := 0x8000 })
    mem := (([(0x20000, 0x8000000000030000), (0x30000, 0x8000000000040000), (0x40000, 0xC780000000050000), (0x40008, 0xC780000000060000)] : List (Nat × Word))
      ++ l.zipIdx.map (fun (p : Word × Nat) => (0x50000 + 8 * p.2, p.1))).foldl w []
    tasks := [(1, t), (2, x)] }

/-- The leaf of the first device page that holds tasks. -/
def leaf5 : Word := 0xC780000000050000

/-- A walk gives it for an address, a cache of core 0 holds nothing else, and the access is allowed. -/
def mapped (s : State) (n : Need) (va : Word) : Bool :=
  canonical va && (Table.find s.tlb (tlbKey 0 1 va)).all (· == leaf5) && (Table.find s.tlb (tlbKey 256 1 va)).all (· == leaf5)
    && (s.leafWalk 1 va).toOption == some leaf5 && (s.pageRefuses 1 (leafDpa leaf5 va)).isNone && leafAllows leaf5 (s.sysPriv 1) n

/-- The state after such an address is translated, by the cache or by a walk. -/
def reached (s : State) (va : Word) (hit : Bool) : State :=
  ((if hit then [] else ((Table.find s.ctxs 1).map fun c => (s.walkReads c.root va).filter s.ours).getD []).foldl
    (fun s d => ((s.readItem (dpaLocal d) 8).2).countRequest (s.granOf (dpaLocal d))) s).cacheLeaf 0 1 va leaf5

theorem mapped_of {s : State} {n : Need} {va : Word} (h : mapped s n va = true) :
    s.translate 0 1 n va = .ok (leafDpa leaf5 va) ∧ ∃ hit, s.walked 0 1 va = reached s va hit := by
  have h6 : leafAllows leaf5 (s.sysPriv 1) n = true := by revert h; unfold mapped; cases leafAllows leaf5 (s.sysPriv 1) n <;> simp
  have h5 : s.pageRefuses 1 (leafDpa leaf5 va) = none := by revert h; unfold mapped; cases s.pageRefuses 1 (leafDpa leaf5 va) <;> simp
  have h1 : canonical va = true := by revert h; unfold mapped; cases canonical va <;> simp
  have h4 : ((s.leafWalk 1 va).toOption == some leaf5) = true := by
    revert h; unfold mapped; cases (s.leafWalk 1 va).toOption == some leaf5 <;> simp
  have h2 : (Table.find s.tlb (tlbKey 0 1 va)).all (· == leaf5) = true ∧ (Table.find s.tlb (tlbKey 256 1 va)).all (· == leaf5) = true := by
    simp only [mapped, Bool.and_eq_true] at h
    exact ⟨h.1.1.1.1.2, h.1.1.1.2⟩
  have hw : s.leafWalk 1 va = .ok leaf5 := by
    rw [beq_iff_eq] at h4; revert h4; cases s.leafWalk 1 va <;> simp [Except.toOption]
  have hl : s.leaf 0 1 va = .ok leaf5 := by
    simp only [State.leaf, State.cachedLeaf, Nat.zero_div, Nat.add_zero, h1, hw]
    have hany : ∀ (p : Bool) (o : Option Word), o.all (· == leaf5) = true → (match (match o with | some e => if p then some e else none | none => none) with
        | some e => Except.ok e
        | none => Except.ok leaf5 : Except Refused Word) = .ok leaf5 := by
      intro p o ho
      cases o with
      | none => rfl
      | some e => cases p <;> simp_all
    cases ha : Table.find s.tlb (tlbKey 0 1 va) with
    | some e => exact hany _ (some e) (by rw [← ha]; exact h2.1)
    | none =>
      cases hb : Table.find s.tlb (tlbKey 256 1 va) with
      | some e => exact hany _ (some e) (by rw [← hb]; exact h2.2)
      | none => rfl
  refine ⟨by simp only [State.translate, hl, bind, Except.bind, h5, h6, if_true], (s.cachedLeaf 0 1 va).isSome, ?_⟩
  simp only [State.walked, hl, reached, h1, Bool.not_true, Bool.false_or]
  rfl

/-- What reading at VA 0 gives. -/
def readOf (s : State) (t : Task) (n : Nat) : List Byte × State :=
  match s.taskRead t 0 n with
  | .ok bs s => (bs, s)
  | _ => ([], s)

theorem read_of {s : State} {t : Task} {n : Nat} (h : (readOf s t n).1 ≠ []) : s.taskRead t 0 n = .ok (readOf s t n).1 (readOf s t n).2 := by
  revert h
  unfold readOf
  cases s.taskRead t 0 n <;> simp

/-- The state after a task writes a word there, where nothing holds the write back. -/
def sends (u : State) (t : Task) (va w : Word) : Option State :=
  match u.sendWord (.task 1) 1 (some t.cstamp) (leafDpa leaf5 va) w with
  | .ok () s => some s
  | _ => none

/-- A word is written whether the cache serves its address or a walk. -/
theorem wrote_of {s : State} {t : Task} {va w : Word} (hd : t.die = 0) (hc : t.ctx = 1) (h : mapped s { r := true, w := true } va = true) (h6 : va.toNat % 8 = 0) :
    ∃ hit, ∀ s2, sends (reached s va hit) t va w = some s2 → s.taskWrite 1 t va w = .ok () s2 := by
  obtain ⟨ht, hit, hu⟩ := mapped_of h
  refine ⟨hit, fun s2 h2 => ?_⟩
  simp only [State.taskWrite, State.wordWrite, hd, hc, Nat.mul_zero, h6, ht, hu, ne_eq, not_true_eq_false, if_false]
  revert h2
  unfold sends
  cases (reached s va hit).sendWord (.task 1) 1 (some t.cstamp) (leafDpa leaf5 va) w <;> simp

/-- One write, either way. -/
def writesOnce (s : State) (t : Task) (va w : Word) : Bool :=
  mapped s { r := true, w := true } va && va.toNat % 8 == 0 && [true, false].all fun hit => (sends (reached s va hit) t va w).isSome

theorem once_of {s : State} {t : Task} {va w : Word} (hd : t.die = 0) (hc : t.ctx = 1) (h : writesOnce s t va w = true) : ∃ s2, s.taskWrite 1 t va w = .ok () s2 := by
  simp only [writesOnce, Bool.and_eq_true, beq_iff_eq, List.all_cons, List.all_nil, Bool.and_true] at h
  obtain ⟨hit, hw⟩ := wrote_of (w := w) hd hc h.1.1 h.1.2
  have hs : (sends (reached s va hit) t va w).isSome = true := by cases hit <;> simp [h.2]
  obtain ⟨s2, h2⟩ := Option.isSome_iff_exists.mp hs
  exact ⟨s2, hw s2 h2⟩

/-- Two writes, either way each. -/
def writesTwice (s : State) (t : Task) (a b : Word × Word) : Bool :=
  mapped s { r := true, w := true } a.1 && a.1.toNat % 8 == 0 && [true, false].all fun hit => ((sends (reached s a.1 hit) t a.1 a.2).map fun s => writesOnce s t b.1 b.2).getD false

theorem twice_of {s : State} {t : Task} {a b : Word × Word} (hd : t.die = 0) (hc : t.ctx = 1) (h : writesTwice s t a b = true) : ∃ s2, s.taskWrites 1 t [a, b] = .ok () s2 := by
  simp only [writesTwice, Bool.and_eq_true, beq_iff_eq, List.all_cons, List.all_nil, Bool.and_true] at h
  obtain ⟨hit, hw⟩ := wrote_of (w := a.2) hd hc h.1.1 h.1.2
  have hs : ((sends (reached s a.1 hit) t a.1 a.2).map fun s => writesOnce s t b.1 b.2).getD false = true := by cases hit <;> simp [h.2]
  cases hy : sends (reached s a.1 hit) t a.1 a.2 with
  | none => simp [hy] at hs
  | some u =>
    obtain ⟨s2, h2⟩ := once_of hd hc (by simpa [hy] using hs)
    exact ⟨s2, by simp only [State.taskWrites, Reach.andThen, hw u hy, h2]⟩

/-- A state like another but for the Turner's counts, the slices' counts and cached translations that are the one leaf. -/
def Like (s u : State) : Prop :=
  ∃ x y z, u = { s with stackTable := x, tlb := y, counts := z } ∧ (Table.find y (tlbKey 0 1 0)).all (· == leaf5) ∧ (Table.find y (tlbKey 256 1 0)).all (· == leaf5)

/-- What makes an access to the first device page go on alike in all such states. -/
def steady (s : State) (va : Word) : Bool :=
  s.flips.isEmpty && tlbKey 0 1 va == tlbKey 0 1 0 && tlbKey 256 1 va == tlbKey 256 1 0 && mapped s { r := true, w := true } va
    && s.ours (leafDpa leaf5 va)

theorem leafWalk_like {s : State} (h : s.flips = []) (x : Table Stack) (y : Table Word) (z : Table (BitVec 50)) (c : BitVec 12) (va : Word) :
    State.leafWalk { s with stackTable := x, tlb := y, counts := z } c va = s.leafWalk c va := by
  simp only [State.leafWalk, State.walk, State.readPte, State.readCoded, h, List.isEmpty_nil, if_true]
  rfl

theorem like_flips {s u : State} (h : s.flips = []) (hu : Like s u) : u.flips = [] := by
  obtain ⟨x, y, z, rfl, -⟩ := hu
  exact h

theorem counted_like {s u : State} (h : s.flips = []) (hu : Like s u) (a n b : Nat) : Like s ((u.readItem a n).2.countRequest b) := by
  rw [show (u.readItem a n).2 = u by simp [State.readItem, State.readCoded, like_flips h hu]]
  obtain ⟨x, y, z, rfl, hy⟩ := hu
  exact ⟨_, y, z, rfl, hy⟩

theorem cached_like {s u : State} (hu : Like s u) (va : Word) (hk : tlbKey 0 1 va = tlbKey 0 1 0) (hl : tlbKey 256 1 va = tlbKey 256 1 0) :
    Like s (u.cacheLeaf 0 1 va leaf5) := by
  obtain ⟨x, y, z, rfl, h0, h1⟩ := hu
  refine ⟨x, _, z, rfl, ?_, ?_⟩ <;> simp only [hk, hl, Nat.zero_div, Nat.add_zero]
  · rw [Table.find_insert_ne _ _ _ _ (by decide), Table.find_insert_self]; decide
  · rw [Table.find_insert_self]; decide

theorem reached_like {s u : State} (h : s.flips = []) (hu : Like s u) (va : Word) (hit : Bool) (hk : tlbKey 0 1 va = tlbKey 0 1 0) (hl : tlbKey 256 1 va = tlbKey 256 1 0) :
    Like s (reached u va hit) :=
  cached_like (List.foldlRecOn _ _ hu fun _ ht _ _ => counted_like h ht _ _ _) va hk hl

theorem mapped_like {s u : State} (h : s.flips = []) (hu : Like s u) {n : Need} {va : Word} (hk : tlbKey 0 1 va = tlbKey 0 1 0) (hl : tlbKey 256 1 va = tlbKey 256 1 0)
    (hm : mapped s n va = true) : mapped u n va = true := by
  obtain ⟨x, y, z, rfl, h0, h1⟩ := hu
  simp only [mapped, hk, hl, leafWalk_like h] at hm ⊢
  simp only [Bool.and_eq_true] at hm ⊢
  exact ⟨⟨⟨⟨⟨hm.1.1.1.1.1, h0⟩, h1⟩, hm.1.1.2⟩, hm.1.2⟩, hm.2⟩

theorem steady_of {s : State} {va : Word} (h : steady s va = true) : s.flips = [] ∧ tlbKey 0 1 va = tlbKey 0 1 0 ∧ tlbKey 256 1 va = tlbKey 256 1 0
    ∧ mapped s { r := true, w := true } va = true ∧ s.ours (leafDpa leaf5 va) = true := by
  simp only [steady, Bool.and_eq_true, beq_iff_eq, List.isEmpty_iff] at h
  simpa only [and_assoc] using h

theorem piece_like {s u : State} (hu : Like s u) {va : Word} (h : steady s va = true) (n : Nat) :
    ∃ w, u.readVaPiece 0 1 (some 0) va n = .ok (s.bytes (dpaLocal (leafDpa leaf5 va)) n, some (s.granOf (dpaLocal (leafDpa leaf5 va)))) w ∧ Like s w := by
  obtain ⟨hf, hk, hl, hm, ho⟩ := steady_of h
  have hr : mapped s { r := true } va = true := by
    revert hm; simp only [mapped, leafAllows]; simp +contextual
  obtain ⟨ht, hit, hw⟩ := mapped_of (mapped_like hf hu hk hl hr)
  have hx : Like s ((reached u va hit).merge (homeSlice (dpaLocal (leafDpa leaf5 va))) (some 0)) := by
    obtain ⟨x, y, z, e, hy⟩ := reached_like hf hu va hit hk hl
    rw [e]
    exact ⟨x, y, _, rfl, hy⟩
  have ho' : u.ours (leafDpa leaf5 va) = true := by
    obtain ⟨x, y, z, e, -⟩ := hu
    rw [e]; exact ho
  have hb : ((reached u va hit).merge (homeSlice (dpaLocal (leafDpa leaf5 va))) (some 0)).readItem (dpaLocal (leafDpa leaf5 va)) n
      = (some (s.bytes (dpaLocal (leafDpa leaf5 va)) n), (reached u va hit).merge (homeSlice (dpaLocal (leafDpa leaf5 va))) (some 0)) := by
    obtain ⟨x, y, z, e, -⟩ := hx
    rw [e]
    simp only [State.readItem, State.readCoded, hf, List.isEmpty_nil, if_true]
    rfl
  have hg : ((reached u va hit).merge (homeSlice (dpaLocal (leafDpa leaf5 va))) (some 0)).granOf (dpaLocal (leafDpa leaf5 va))
      = s.granOf (dpaLocal (leafDpa leaf5 va)) := by
    obtain ⟨x, y, z, e, -⟩ := hx
    rw [e]
    rfl
  exact ⟨_, by simp only [State.readVaPiece, ht, hw]; rw [if_pos ho', hb]; simp only [hg], hx⟩

theorem granule_like {s u : State} (hu : Like s u) (met g : Option Nat) : Like s (u.countGranule met g) := by
  cases g with
  | none => exact hu
  | some b =>
    simp only [State.countGranule]
    split
    · exact hu
    · obtain ⟨x, y, z, rfl, hy⟩ := hu
      exact ⟨_, y, z, rfl, hy⟩

theorem pieces_like {s : State} (va : Word) (ps : List (Nat × Nat)) (hp : ps.all (fun p => steady s (va + BitVec.ofNat 64 p.1)) = true) :
    ∀ u met, Like s u → ∃ w, u.readVaPieces 0 1 (some 0) va met ps
      = .ok (ps.flatMap fun p => s.bytes (dpaLocal (leafDpa leaf5 (va + BitVec.ofNat 64 p.1))) p.2) w ∧ Like s w := by
  induction ps with
  | nil => exact fun u _ hu => ⟨u, rfl, hu⟩
  | cons p ps ih =>
    intro u met hu
    simp only [List.all_cons, Bool.and_eq_true] at hp
    obtain ⟨w, hw, hl⟩ := piece_like hu hp.1 p.2
    obtain ⟨x, hx, hm⟩ := ih hp.2 _ (some (s.granOf (dpaLocal (leafDpa leaf5 (va + BitVec.ofNat 64 p.1))))) (granule_like hl met _)
    exact ⟨x, by simp only [State.readVaPieces, hw, Reach.andThen]; rw [hx]; simp only [List.flatMap_cons], hm⟩

/-- What a task reads at an address. -/
def textOf (s : State) (va : Word) (n : Nat) : List Byte :=
  (splitAccess va.toNat 0 n n).flatMap fun p => s.bytes (dpaLocal (leafDpa leaf5 (va + BitVec.ofNat 64 p.1))) p.2

/-- Every piece of it lies in the first device page. -/
def steadyAll (s : State) (va : Word) (n : Nat) : Bool := (splitAccess va.toNat 0 n n).all fun p => steady s (va + BitVec.ofNat 64 p.1)

theorem read_like {s u : State} {t : Task} (hd : t.die = 0) (hx : t.ctx = 1) (hc : t.cstamp = 0) (hu : Like s u) {va : Word} {n : Nat} (h : steadyAll s va n = true) :
    ∃ w, u.taskRead t va n = .ok (textOf s va n) w ∧ Like s w := by
  obtain ⟨w, h, hl⟩ := pieces_like va _ h u none hu
  exact ⟨w, by simpa [State.taskRead, State.readVa, textOf, hd, hx, hc] using h, hl⟩

/-- Nothing holds back a word that is written there. -/
def clear (s : State) (b : Nat) : Bool := !s.snooping b && (s.behindRegion b).isNone && !s.queuedOn b

/-- A word is written in all such states. -/
theorem write_like {s u : State} {t : Task} (hd : t.die = 0) (hx : t.ctx = 1) (hu : Like s u) {va : Word} (h : steady s va = true) (w : Word) (h8 : va.toNat % 8 = 0)
    (hb : clear s (s.granOf (dpaLocal (leafDpa leaf5 va))) = true) : ∃ s2, u.taskWrite 1 t va w = .ok () s2 := by
  obtain ⟨hf, hk, hl, hm, ho⟩ := steady_of h
  obtain ⟨ht, hit, hw⟩ := mapped_of (mapped_like hf hu hk hl hm)
  obtain ⟨x, y, z, e, -⟩ := reached_like hf hu va hit hk hl
  have h1 : (reached u va hit).ours (leafDpa leaf5 va) = true := by rw [e]; exact ho
  have h2 : (reached u va hit).granOf (dpaLocal (leafDpa leaf5 va)) = s.granOf (dpaLocal (leafDpa leaf5 va)) := by rw [e]; rfl
  have h3 : clear (reached u va hit) (s.granOf (dpaLocal (leafDpa leaf5 va))) = true := by rw [e]; exact hb
  simp only [clear, Bool.and_eq_true, Bool.not_eq_true', Option.isNone_iff_eq_none] at h3
  have h4 : ∃ s2, (reached u va hit).sendWord (.task 1) 1 (some t.cstamp) (leafDpa leaf5 va) w = .ok () s2 := by
    simp only [State.sendWord, h1, h2, h3.1.1, h3.1.2, h3.2, Bool.not_true, Option.isSome_none, Bool.or_self, Bool.false_eq_true, if_false]
    exact ⟨_, rfl⟩
  obtain ⟨s2, h4⟩ := h4
  exact ⟨s2, by simpa only [State.taskWrite, State.wordWrite, hd, hx, Nat.mul_zero, h8, ht, hw, ne_eq, not_true_eq_false, if_false] using h4⟩

/-- So a task reads its record and writes its word 0. -/
theorem reads_writes {s : State} {t : Task} (hd : t.die = 0) (hx : t.ctx = 1) (hc : t.cstamp = 0) (n : Nat) (f : List Byte → Word)
    (hp : steadyAll s 0 n = true) (ht : s.tlb = []) (h0 : steady s 0 = true) (hb : clear s (s.granOf (dpaLocal (leafDpa leaf5 0))) = true) :
    ∃ bs s1 s2, bs = textOf s 0 n ∧ Like s s1 ∧ s.taskRead t 0 n = .ok bs s1 ∧ s1.taskWrite 1 t 0 (f bs) = .ok () s2 := by
  have hs0 : Like s s := ⟨s.stackTable, s.tlb, s.counts, rfl, by rw [ht]; rfl, by rw [ht]; rfl⟩
  obtain ⟨s1, h, hl⟩ := read_like hd hx hc hs0 hp
  obtain ⟨s2, h2⟩ := write_like hd hx hl h0 (f _) rfl hb
  exact ⟨_, s1, s2, rfl, hl, h, h2⟩

theorem descs_like {s : State} {t : Task} (hd : t.die = 0) (hx : t.ctx = 1) (hc : t.cstamp = 0) (l : List Word) (h : l.all (fun va => steadyAll s va 32) = true) :
    ∀ u, Like s u → ∃ w, u.taskDescs t l = .ok (l.map fun va => recOfBytes (textOf s va 32)) w ∧ Like s w := by
  induction l with
  | nil => exact fun u hu => ⟨u, rfl, hu⟩
  | cons va l ih =>
    intro u hu
    simp only [List.all_cons, Bool.and_eq_true] at h
    obtain ⟨w, hw, hl⟩ := read_like hd hx hc hu h.1
    obtain ⟨y, hy, hm⟩ := ih h.2 w hl
    exact ⟨y, by simp only [State.taskDescs, hw, Reach.andThen]; rw [hy]; rfl, hm⟩

/-- The bytes at VA 0 that a task reads in one piece, and the state then. -/
def pieceOf (u : State) (n : Nat) : Option (List Byte × State) :=
  match (u.merge (homeSlice (dpaLocal (leafDpa leaf5 0))) (some 0)).readItem (dpaLocal (leafDpa leaf5 0)) n with
  | (some bs, t) => some (bs, t.countRequest (t.granOf (dpaLocal (leafDpa leaf5 0))))
  | _ => none

theorem piece_of {s : State} {t : Task} (hd : t.die = 0) (hx : t.ctx = 1) (hc : t.cstamp = 0) (h : mapped s { r := true } 0 = true) (ho : s.ours (leafDpa leaf5 0) = true) :
    ∃ hit, ∀ p, pieceOf (reached s 0 hit) 8 = some p → s.taskRead t 0 8 = .ok p.1 p.2 := by
  obtain ⟨ht, hit, hw⟩ := mapped_of h
  refine ⟨hit, fun p hp => ?_⟩
  have h8 : splitAccess (0 : Word).toNat 0 8 8 = [(0, 8)] := by decide +kernel
  have h0 : (0 : Word) + BitVec.ofNat 64 0 = 0 := rfl
  simp only [State.taskRead, State.readVa, hd, hx, hc, Nat.mul_zero, h8, State.readVaPieces, h0, State.readVaPiece, ht, hw]
  rw [if_pos ho]
  revert hp
  unfold pieceOf
  split
  · rename_i bs u hy
    rintro ⟨⟩
    simp only [hy, Reach.andThen, State.countGranule, List.append_nil]
    rfl
  · simp

/-- A task reads 8 bytes of its record, writes its word 0 and comes to a state that satisfies `P`, whatever the caches hold. -/
def startsAll (s : State) (t : Task) (f : List Byte → Word) (P : State → Bool) : Bool :=
  mapped s { r := true } 0 && s.ours (leafDpa leaf5 0) && [true, false].all fun hit =>
    match pieceOf (reached s 0 hit) 8 with
    | some (bs, s1) => mapped s1 { r := true, w := true } 0 && [true, false].all fun hit => ((sends (reached s1 0 hit) t 0 (f bs)).map P).getD false
    | none => false

theorem starts_of {s : State} {t : Task} {f : List Byte → Word} {P : State → Bool} (hd : t.die = 0) (hx : t.ctx = 1) (hc : t.cstamp = 0) (h : startsAll s t f P = true) :
    ∃ bs s1 s2, s.taskRead t 0 8 = .ok bs s1 ∧ s1.taskWrite 1 t 0 (f bs) = .ok () s2 ∧ P s2 = true := by
  simp only [startsAll, Bool.and_eq_true] at h
  obtain ⟨hit, hp⟩ := piece_of hd hx hc h.1.1 h.1.2
  have h2 := List.all_eq_true.mp h.2 hit (by cases hit <;> simp)
  cases e : pieceOf (reached s 0 hit) 8 with
  | none => rw [e] at h2; cases h2
  | some p =>
    rw [e] at h2
    simp only [Bool.and_eq_true] at h2
    obtain ⟨hit', hw⟩ := wrote_of (w := f p.1) hd hx h2.1 rfl
    have h3 := List.all_eq_true.mp h2.2 hit' (by cases hit' <;> simp)
    cases e' : sends (reached p.2 0 hit') t 0 (f p.1) with
    | none => rw [e'] at h3; cases h3
    | some s2 => rw [e'] at h3; exact ⟨p.1, p.2, s2, hp p e, hw s2 e', h3⟩

/-- A wave-task for the core 255. -/
def placed : State := tasked (task true .ready) [0, 0, 0, 255] (task true .ready)

theorem meets_TaskEvents_wave : ∃ bs s1 s2, placed.taskRead (task true .ready) 0 128 = .ok bs s1 ∧ (((wordsOf bs).getD 3 0).extractLsb' 0 16).toNat = 255
    ∧ (s1.coreOf 255).fullTo 1 = false ∧ s1.taskWrite 1 (task true .ready) 0 (tSetState ((wordsOf bs).getD 0 0) 3) = .ok () s2 := by
  obtain ⟨bs, s1, s2, rfl, hl, h, h2⟩ := reads_writes (s := placed) (t := task true .ready) rfl rfl rfl 128 (fun bs => tSetState ((wordsOf bs).getD 0 0) 3)
    (by decide +kernel) rfl (by decide +kernel) (by decide +kernel)
  refine ⟨_, s1, s2, h, by decide +kernel, ?_, h2⟩
  obtain ⟨x, y, z, rfl, -⟩ := hl
  exact (by decide +kernel : (placed.coreOf 255).fullTo 1 = false)

/-- A word of the record's last eight bytes is written. -/
theorem meets_TaskEvents_write : ∃ (d b : Nat) (va : Word), va.toNat % 8 = 0
    ∧ placed.translate (16 * (task true .ready).die) (task true .ready).ctx { r := true, w := true } va = .ok d ∧ placed.ours d = true ∧ placed.flips = []
    ∧ b = placed.granOf (dpaLocal d) ∧ placed.snooping b = false ∧ placed.onGranule b = [] ∧ placed.queuedOn b = false
    ∧ (placed.page (dpaPage b)).v = false ∧ dpaPage b = dpaPage (dpaLocal d) :=
  ⟨_, _, 120, by decide, (mapped_of (by decide +kernel)).1, by decide +kernel, rfl, rfl, by and_intros <;> decide +kernel⟩

/-- A matrix task of a die whose group serves tasks: its record names no descriptors. -/
def served : State := tasked (task false .ready) [] (task true .ready)

/-- The same task once its work has begun. -/
def begun : Task := { task false .ready with state := .running, core := some 0, work := some 11 }

/-- Its descriptors, all at VA 0, are none. -/
def descends (s2 : State) : Bool :=
  let u := s2.taskBegun 1 (task false .ready) 1 0
  !s2.taskAsks 1 && s2.nextId == 11 && Table.find u.tasks 1 == some begun && u.group? 1 == some group && u.engineFree 0 1 && steadyAll u 0 128
    && steadyAll u 0 32 && (Table.find u.tlb (tlbKey 0 1 0)).all (· == leaf5) && (Table.find u.tlb (tlbKey 256 1 0)).all (· == leaf5)
    && (List.range 6).all (fun k => (wordsOf (textOf u 0 128)).getD (3 + k) 0 == 0)
    && (planOf 1 group (taskCommand 1 (task false .ready)) begun ((wordsOf (textOf u 0 128)).getD 9 0) (List.replicate 6 (recOfBytes (textOf u 0 32)))).isNone

theorem meets_TaskEvents_matrix : ∃ g gr bs s1 s2 u y bs' s3 ds s4, served.taskHost (task false .ready) = some (g, gr)
    ∧ served.taskRead (task false .ready) 0 8 = .ok bs s1 ∧ s1.taskWrite 1 (task false .ready) 0 (tSetState (BitVec.ofNat 64 (ofBytes bs)) 3) = .ok () s2
    ∧ s2.taskAsks 1 = false ∧ u = s2.taskBegun 1 (task false .ready) g gr.core ∧ Table.find u.tasks 1 = some y ∧ u.group? g = some gr ∧ gr.state = .running
    ∧ gr.saving = false ∧ u.engineFree gr.core 1 = true ∧ y.refused = none ∧ u.taskRead y y.addr 128 = .ok bs' s3
    ∧ s3.taskDescs y ((List.range 6).map fun k => (wordsOf bs').getD (3 + k) 0) = .ok ds s4
    ∧ planOf g gr (taskCommand g (task false .ready)) y ((wordsOf bs').getD 9 0) ds = none := by
  obtain ⟨bs, s1, s2, h, h2, hp⟩ := starts_of (s := served) (t := task false .ready) (f := fun bs => tSetState (BitVec.ofNat 64 (ofBytes bs)) 3) (P := descends)
    rfl rfl rfl (by decide +kernel)
  simp only [descends, Bool.and_eq_true, beq_iff_eq, Bool.not_eq_true', Option.isNone_iff_eq_none] at hp
  obtain ⟨⟨⟨⟨⟨⟨⟨⟨⟨⟨h3, h4⟩, h5⟩, h6⟩, h7⟩, h8⟩, h9⟩, ha⟩, hb⟩, hc⟩, hd⟩ := hp
  have hu : Like (s2.taskBegun 1 (task false .ready) 1 0) (s2.taskBegun 1 (task false .ready) 1 0) := ⟨_, _, _, rfl, ha, hb⟩
  obtain ⟨s3, hr, hl⟩ := read_like (t := begun) rfl rfl rfl hu h8
  have he : ((List.range 6).map fun k => (wordsOf (textOf (s2.taskBegun 1 (task false .ready) 1 0) 0 128)).getD (3 + k) 0) = List.replicate 6 0 := by
    rw [List.all_eq_true] at hc
    exact (List.map_congr_left fun k hk => beq_iff_eq.mp (hc k hk)).trans (by decide)
  obtain ⟨s4, hs, -⟩ := descs_like (t := begun) rfl rfl rfl (List.replicate 6 0)
    (List.all_eq_true.mpr fun va hv => by rw [List.eq_of_mem_replicate hv]; exact h9) s3 hl
  rw [List.map_replicate] at hs
  refine ⟨1, group, bs, s1, s2, _, begun, _, s3, List.replicate 6 (recOfBytes (textOf (s2.taskBegun 1 (task false .ready) 1 0) 0 32)), s4, by decide +kernel, h, h2,
    h3, rfl, h5, h6, rfl, rfl, h7, rfl, hr, ?_, hd⟩
  rw [he]
  exact hs

/-- A task at work under a finished command. -/
def working : Task := { task false .running with work := some 7 }

/-- What it is once that is done. -/
def worked : Task := { working with state := .signalling, work := none, cstamp := stampMax working.cstamp 0 }

/-- The module with it and its command. -/
def atWork : State := { tasked working [] working with cmds := [(7, { cmd 9 (.copy false false false) [] with finished := true })] }

theorem meets_TaskEvents_done : ∃ c bs s1 s2, Table.find atWork.cmds 7 = some c ∧ c.finished = true ∧ c.err = none ∧ atWork.reqs = []
    ∧ worked = { working with state := .signalling, work := none, cstamp := stampMax working.cstamp c.stamp } ∧ working.cause = 0
    ∧ atWork.taskRead worked 0 8 = .ok bs s1 ∧ s1.taskWrites 1 worked [(0, tSetState (BitVec.ofNat 64 (ofBytes bs)) 4)] = .ok () s2 := by
  obtain ⟨bs, s1, s2, -, -, h, h2⟩ := reads_writes (s := atWork) (t := worked) rfl rfl rfl 8 (fun bs => tSetState (BitVec.ofNat 64 (ofBytes bs)) 4)
    (by decide +kernel) rfl (by decide +kernel) (by decide +kernel)
  exact ⟨_, bs, s1, s2, rfl, rfl, rfl, rfl, rfl, rfl, h, by simp only [State.taskWrites, Reach.andThen, h2]⟩

/-- A task that has signalled its one successor. -/
def told : State := tasked (task false .signalling) [0x100010] working

theorem meets_TaskEvents_signalled : ∃ bs s1 s2, told.taskAsks 1 = false ∧ (task false .signalling).sent = false ∧ (task false .signalling).refused = none
    ∧ told.taskRead (task false .signalling) 0 16 = .ok bs s1
    ∧ tCount ((wordsOf bs).getD 0 0) ≤ tIndex ((wordsOf bs).getD 0 0)
    ∧ s1.taskWrite 1 (task false .signalling) 0 (tSetState ((wordsOf bs).getD 0 0) 5) = .ok () s2 := by
  obtain ⟨bs, s1, s2, rfl, -, h, h2⟩ := reads_writes (s := told) (t := task false .signalling) rfl rfl rfl 16 (fun bs => tSetState ((wordsOf bs).getD 0 0) 5)
    (by decide +kernel) rfl (by decide +kernel) (by decide +kernel)
  exact ⟨_, s1, s2, by decide +kernel, rfl, rfl, h, by decide +kernel, h2⟩

/-- A task whose last write has been performed. -/
theorem meets_TaskEvents_ended : ∃ (s : State) (x : Task), Table.find s.tasks 1 = some x ∧ x.state = .ended ∧ x.refused = none ∧ s.taskAsks 1 = false :=
  ⟨tasked (task false .ended) [] working, _, rfl, rfl, rfl, by decide +kernel⟩

/-- A broken task. -/
def failed : State := tasked (task false .broken) [] working

theorem meets_TaskEvents_closed : ∃ bs s1 s2, failed.taskRead (task false .broken) 0 8 = .ok bs s1
    ∧ s1.taskWrites 1 (task false .broken) [(0, tSetState (BitVec.ofNat 64 (ofBytes bs)) 7), (0 + 120, (task false .broken).cause.setWidth 64)] = .ok () s2 := by
  obtain ⟨s2, h⟩ := twice_of (s := (readOf failed (task false .broken) 8).2) (t := task false .broken)
    (a := (0, tSetState (BitVec.ofNat 64 (ofBytes (readOf failed (task false .broken) 8).1)) 7)) (b := (0 + 120, (task false .broken).cause.setWidth 64)) rfl rfl
    (by decide +kernel)
  exact ⟨_, _, s2, read_of (by decide +kernel), h⟩

/-- A message of the group to its own ring 7, which has room for one more, by its launch's word 0. -/
def sending (w : Word) : State :=
  let gr := { group with
    ringdesc := [(7, 0x8000000000000000)]
    sp := (group.sp.setWord 0 0).setWord 8 1
    waves := [{ wave with ops := [(5, op (.msg 1 0x700000000 0 (some (List.replicate 64 7, 0)) false))], f := [(0, 1)] }] }
  { world gr with launches := [(1, { ctx := 1, block := [w, 0, 0, 0, 0, 0x100010001] ++ List.replicate 26 0, next := 1 })] }

/-- What the clauses of `TaskEvents` about a message ask. -/
def MessageAsks (s : State) (det : Bool) : Prop :=
  ∃ gr wv o r, s.group? 1 = some gr ∧ s.wave? 1 0 = some wv ∧ Table.find wv.ops 5 = some o ∧ o.ready = true
    ∧ o.body = .msg 1 0x700000000 0 (some (List.replicate 64 7, 0)) false ∧ o.uncounted = false ∧ wv.behindMessage 5 0x700000000 = false ∧ s.isQueued gr.launch 0 = false
    ∧ s.groupAt gr.launch 0 = some (1, gr) ∧ gr.state ≠ .draining ∧ gr.ring 7 = some r ∧ (gr.ringTail r - gr.ringHead r).toNat + 1 = r.slots
    ∧ wv.late = [] ∧ o.clob = [] ∧ s.det gr = det

theorem meets_TaskEvents_message : MessageAsks (sending 0) false :=
  ⟨_, _, _, _, rfl, rfl, rfl, rfl, rfl, rfl, by decide +kernel, by decide +kernel, by decide +kernel, by decide +kernel, rfl, by decide +kernel, rfl, rfl,
    by decide +kernel⟩

theorem meets_TaskEvents_message_det : MessageAsks (sending 0x0002000000000000) true :=
  ⟨_, _, _, _, rfl, rfl, rfl, rfl, rfl, rfl, by decide +kernel, by decide +kernel, by decide +kernel, by decide +kernel, rfl, by decide +kernel, rfl, rfl,
    by decide +kernel⟩

/-- A launch block of one group of one wave with one register block. -/
def block : List Word := [0x0110000000000000, 0x20000, 0, 0, 0, 0x100010001] ++ List.replicate 10 0 ++ [0x0001010000000000] ++ List.replicate 15 0

/-- A module with that launch alone. -/
def launched (l : Launch) : State := { base with launches := [(1, l)], groups := [], actor := ⟨0, 0, 0⟩ }

theorem meets_DispatchEvents_batch : ∃ id l d, (launched { ctx := 1, block := block, stamp := some 0 }).dispatching = true
    ∧ (launched { ctx := 1, block := block, stamp := some 0 }).resumable = [] ∧ (launched { ctx := 1, block := block, stamp := some 0 }).servedLaunch = some (id, l, d) :=
  ⟨1, { ctx := 1, block := block, stamp := some 0 }, 0, by decide +kernel, by decide +kernel, by decide +kernel⟩

theorem meets_DispatchEvents_resume : ∃ (s : State) (gr : Group) (rest : List (Nat × Nat)), s.dispatching = true ∧ s.resumable = (1, 0) :: rest ∧ s.group? 1 = some gr
    ∧ ∀ p ∈ s.groups, ∀ wv ∈ p.2.waves, ∀ o ∈ wv.ops, o.2.helps gr.pnum = none :=
  ⟨{ world { group with state := .swapped, eligible := some 0 } with launches := [(1, { ctx := 1, block := block, next := 1 })] }, _, [],
    by decide +kernel, by decide +kernel, rfl, by decide +kernel⟩

/-- A batch for the last die. -/
def batched : State := { launched { ctx := 1, block := block, stamp := some 0, next := 1 } with batches := [(1, 15, 0)] }

theorem meets_DispatchEvents_place : ∃ l, batched.dispatching = true ∧ batched.resumable = [] ∧ batched.detStarts = []
    ∧ batched.batches.find? (fun b => b.2.1 = 15) = some (1, 15, 0) ∧ Table.find batched.launches 1 = some l ∧ wheelSize (blk l.block 0) = 1
    ∧ ((List.range 16).map (16 * 15 + ·)).find? (fun k => batched.fits k (needsOf l.block) 1) = some 240 :=
  ⟨_, by decide +kernel, by decide +kernel, by decide +kernel, rfl, rfl, by decide +kernel, by decide +kernel⟩

/-- A group that has ended. -/
def ended (x : Nat) : State :=
  { world { group with state := .draining, waves := [{ wave with ents := [] }] } with
    launches := [(1, { ctx := 1, block := block.set 5 (0x100010000 + BitVec.ofNat 64 x), next := x, tag := some 5 })] }

theorem meets_DispatchEvents_freed : ∃ gr l, (ended 2).group? 1 = some gr ∧ gr.state = .draining ∧ (ended 2).draining 1 gr = false
    ∧ Table.find (ended 2).launches gr.launch = some l ∧ (∀ f ∈ (ended 2).mbx.flights, ∀ c, f.2 ≠ .contextEnd c) ∧ l.freed + 1 < groupsOf l.block :=
  ⟨_, _, rfl, rfl, by decide +kernel, rfl, nofun, by decide +kernel⟩

theorem meets_DispatchEvents_last : ∃ gr l tag, (ended 1).group? 1 = some gr ∧ gr.state = .draining ∧ (ended 1).draining 1 gr = false
    ∧ Table.find (ended 1).launches gr.launch = some l ∧ (∀ f ∈ (ended 1).mbx.flights, ∀ c, f.2 ≠ .contextEnd c) ∧ groupsOf l.block ≤ l.freed + 1
    ∧ l.tag = some tag :=
  ⟨_, _, _, rfl, rfl, by decide +kernel, rfl, nofun, by decide +kernel, rfl⟩

/-- The module with a deterministic launch, by where it and its wave stand. -/
def quanta (b : Option Nat) (q : Quantum) : State :=
  { world' (fun wv => { wv with quantum := q }) with
    launches := [(1, { ctx := 1, block := (0x0002000000000000 : Word) :: List.replicate 31 0, boundary := b })] }

/-- What the clauses of `DispatchEvents` about a boundary ask. -/
def BoundaryAsks (s : State) (P : Launch → Prop) : Prop := ∃ l, Table.find s.launches 1 = some l ∧ detOf l.block = true ∧ s.launchWaves 1 ≠ [] ∧ P l

theorem meets_DispatchEvents_boundary : BoundaryAsks (quanta none .ended) fun l => l.boundary = none
    ∧ ∀ x ∈ (quanta none .ended).launchWaves 1, ((quanta none .ended).wave? x.1 x.2).map (fun wv => (wv.inQuantum, (quanta none .ended).reading x.1 x.2 wv)) = some (false, false) :=
  ⟨_, rfl, by decide +kernel, by decide +kernel, rfl, by decide +kernel⟩

theorem meets_DispatchEvents_waves : BoundaryAsks (quanta (some 0) .done) fun l => l.boundary = some 0
    ∧ ∀ x ∈ (quanta (some 0) .done).launchWaves 1, ((quanta (some 0) .done).wave? x.1 x.2).map (fun wv => ((quanta (some 0) .done).performing x.1 x.2 wv, wv.quantum)) = some (false, .done) :=
  ⟨_, rfl, by decide +kernel, by decide +kernel, rfl, by decide +kernel⟩

theorem meets_DispatchEvents_quantum : BoundaryAsks (quanta (some 1) .done) fun l => l.boundary = some 1 ∧ (quanta (some 1) .done).commandsRun 1 = false
    ∧ (quanta (some 1) .done).triggeredOf 1 = [] ∧ (quanta (some 1) .done).resumable = [] ∧ l.back = [] ∧ groupsOf l.block ≤ l.next := ⟨_, rfl, by decide +kernel, by decide +kernel, rfl, by decide +kernel, by decide +kernel, by decide +kernel, rfl, by decide +kernel⟩

theorem meets_TurnerEvents_period : 2 ^ 20 ≤ ({ period := 2 ^ 20 } : Stack).period := by decide +kernel

/-- A period of the last stack has ended. -/
theorem meets_TurnerEvents_ended : ∃ c rest, ({ base with stackTable := [(15, { ended := [[], [(1024, { reqs := 7 })]] })] }.stack 15).ended = c :: rest := ⟨_, _, rfl⟩

/-- The first page of a stack's capacity tier is to move. -/
def promoting (m : Option Migration) : State := { base with stackTable := [(0, { moves := [(stackPages, true)], migration := m, promoted := 63 })] }

theorem meets_TurnerEvents_start : ∃ m rest f, ((promoting none).stack 0).migration = none ∧ ((promoting none).stack 0).moves = m :: rest
    ∧ (promoting none).startable 0 m = some f := ⟨(stackPages, true), [], BitVec.ofNat 32 stackPages, rfl, rfl, by decide +kernel⟩

/-- Every granule is copied, or all but one. -/
theorem meets_TurnerEvents_copied : ∃ m, ((promoting (some ⟨stackPages, false, 7, 1024⟩)).stack 0).migration = some m ∧ 2 ^ 16 ≤ m.copied * granSize 1 :=
  ⟨_, rfl, by decide⟩

theorem meets_TurnerEvents_copies : ∃ m, ((promoting (some ⟨stackPages, false, 7, 1023⟩)).stack 0).migration = some m ∧ m.copied * granSize 1 < 2 ^ 16
    ∧ (promoting (some ⟨stackPages, false, 7, 1023⟩)).flips = [] := ⟨_, rfl, by decide, rfl⟩

/-- A submission entry with a code, a tag, and words 1 to 3. -/
def entry (code : BitVec 8) (w1 w2 w3 : Word) : SubEntry := (0 : BitVec 256) ++ w3 ++ w2 ++ w1 ++ (0x5 : BitVec 48) ++ (0 : BitVec 8) ++ code

/-- The module with that launch block in host memory. -/
def hosted : State := { base with hostMem := block.zipIdx.foldl (fun m p => writeBytes m (0x1000 + 8 * p.2) (toBytes p.1.toNat 8)) [] }

/-- What every clause of `MailboxCommands` asks: the bytes that the entry does not assign are zero. -/
def EntryAsks (e : SubEntry) (l : List (Nat × Nat)) (P : Prop) : Prop := (∀ r ∈ l, zeroBytes e r.1 r.2 = true) ∧ P

/-- The highest context of a launch. -/
theorem meets_MailboxCommands_context : EntryAsks (entry 1 0x1000 4096 0) [(1, 1), (4, 7), (18, 23), (32, 63)]
    (hosted.machine = none ∧ 4096 ≤ ((entry 1 0x1000 4096 0).extractLsb' 128 16).toNat) :=
  ⟨by decide +kernel, rfl, by decide +kernel⟩

/-- The block of a launch is not 256-byte aligned. -/
theorem meets_MailboxCommands_bad : EntryAsks (entry 1 0x1080 1 0) [(1, 1), (4, 7), (18, 23), (32, 63)]
    (hosted.nameContext 1 0 = some hosted ∧ (subWord (entry 1 0x1080 1 0) 1).toNat % 256 ≠ 0) :=
  ⟨by decide +kernel, by decide +kernel, by decide +kernel⟩

theorem meets_MailboxCommands_launch : EntryAsks (entry 1 0x1000 1 0) [(1, 1), (4, 7), (18, 23), (32, 63)]
    (hosted.nameContext 1 0 = some hosted ∧ (subWord (entry 1 0x1000 1 0) 1).toNat = 0x1000 ∧ hosted.hostWords 0x1000 32 = block ∧ blockOk block = true
      ∧ hosted.launches.length < launchSlots ∧ blk block 3 = 0 ∧ blk block 10 = 0 ∧ blk block 12 = 0 ∧ wheelSize (blk block 0) = 1) :=
  ⟨by decide +kernel, by and_intros <;> decide +kernel⟩

/-- A collective of 16 values, of group 1 of a module and context. -/
def collective (w1 w6 : Word) : SubEntry := (1 : Word) ++ w6 ++ (0 : BitVec 192) ++ (16 : Word) ++ w1 ++ (0x5 : BitVec 48) ++ (2 : BitVec 16)

theorem meets_MailboxCommands_rules : EntryAsks (collective 0 1) [(1, 1), (4, 7)] ((Collective.mk (subWords (collective 0 1))).ok = false) :=
  ⟨by decide +kernel, by decide +kernel⟩

theorem meets_MailboxCommands_collective : ∃ w1 g6 g gr, EntryAsks (collective w1 g6) [(1, 1), (4, 7)] ((Collective.mk (subWords (collective w1 g6))).ok = true
    ∧ (Collective.mk (subWords (collective w1 g6))).modIdx = base.fabric.index
    ∧ base.participant ⟨subWords (collective w1 g6)⟩ = some (g, gr) ∧ base.group? g = some gr ∧ base.queueLen g qCollective < queueDepth qCollective) :=
  ⟨0x1000060, 0x10000, 1, group, by decide +kernel, by decide +kernel, by decide +kernel, by decide +kernel, rfl, by decide +kernel⟩

/-- A group that the module does not hold. -/
theorem meets_MailboxCommands_nobody : ∃ w1 g6, EntryAsks (collective w1 g6) [(1, 1), (4, 7)] ((Collective.mk (subWords (collective w1 g6))).ok = true
    ∧ (Collective.mk (subWords (collective w1 g6))).modIdx = base.fabric.index ∧ base.participant ⟨subWords (collective w1 g6)⟩ = none) :=
  ⟨0x1000060, 0x20000, by and_intros <;> decide +kernel⟩

/-- The module with one other, 5, on port 11, which carries traffic or does not. -/
def paired (up : Bool) : State := { base with fabric := { routes := [(5, [11])], ports := [(11, { trained := up })] } }

/-- The same collective of a group of module 5. -/
def abroad : SubEntry := collective 0x1000060 0x10500

theorem meets_MailboxCommands_abroad (up : Bool) : EntryAsks abroad [(1, 1), (4, 7)] ((Collective.mk (subWords abroad)).ok = true
    ∧ (Collective.mk (subWords abroad)).modIdx ≠ (paired up).fabric.index ∧ (paired up).inDomain (Collective.mk (subWords abroad)).modIdx.toNat = true
    ∧ (paired up).routeUp (Collective.mk (subWords abroad)).modIdx.toNat = up) := by
  cases up <;> exact ⟨by decide +kernel, by and_intros <;> decide +kernel⟩

/-- It names a module that is not of the domain. -/
theorem meets_MailboxCommands_elsewhere : (Collective.mk (subWords abroad)).modIdx ≠ base.fabric.index
    ∧ base.inDomain (Collective.mk (subWords abroad)).modIdx.toNat = false := by decide +kernel

theorem meets_MailboxCommands_power : EntryAsks (entry 3 5 0 0) [(1, 1), (4, 7), (9, 63)] (base.powering = false ∧ 5 ≤ ((entry 3 5 0 0).extractLsb' 64 3).toNat) :=
  ⟨by decide +kernel, by decide +kernel, by decide +kernel⟩

theorem meets_MailboxCommands_off : EntryAsks (entry 3 4 0 0) [(1, 1), (4, 7), (9, 63)] (((entry 3 4 0 0).extractLsb' 64 3).toNat = 4
    ∧ (entry 3 4 0 0).extractLsb' 67 5 = 0 ∧ (launched { ctx := 1, block := block }).powering = false
    ∧ ∀ g ∈ (launched { ctx := 1, block := block }).groups, g.2.state ≠ .running ∧ g.2.state ≠ .draining) :=
  ⟨by decide +kernel, by decide +kernel, by decide +kernel, by decide +kernel, nofun⟩

theorem meets_MailboxCommands_end : EntryAsks (entry 5 0 1 0) [(1, 1), (4, 7), (8, 15), (18, 63)] (((entry 5 0 1 0).extractLsb' 128 16).toNat = 1
    ∧ ∃ c, Table.find base.ctxs 1 = some c) := ⟨by decide +kernel, by decide +kernel, _, rfl⟩

theorem meets_MailboxCommands_unknown : EntryAsks (entry 5 0 4096 0) [(1, 1), (4, 7), (8, 15), (18, 63)] (4096 ≤ ((entry 5 0 4096 0).extractLsb' 128 16).toNat) :=
  ⟨by decide +kernel, by decide +kernel⟩

theorem meets_MailboxCommands_resync : EntryAsks (entry 4 0x1000 0x1000 0) [(1, 1), (4, 7), (20, 63)] ((subWord (entry 4 0x1000 0x1000 0) 1).toNat % 4096 = 0
    ∧ ((entry 4 0x1000 0x1000 0).extractLsb' 128 32).toNat = 4096) := ⟨by decide +kernel, by decide +kernel, by decide +kernel⟩

theorem meets_MailboxCommands_machine : ∃ (i : Instr) (s : State) (c : Cause), s.machine = some c ∧ i = .unknownMailboxCommand 6 :=
  ⟨_, { base with machine := some 0x151 }, _, rfl, rfl⟩

theorem meets_MailboxRegisters : base.resetting = false ∧ base.boot.security ≠ .failed ∧ base.mbx.ctl.getLsbD 0 = false :=
  ⟨rfl, by decide +kernel, by decide +kernel⟩

theorem meets_MailboxRegisters_drain : ∃ s : State, s.resetting = false ∧ s.mbx.ctl.getLsbD 0 = true :=
  ⟨{ base with mbx := { ctl := 1 } }, rfl, by decide +kernel⟩

theorem meets_MailboxRegisters_reset : ∃ (i : Instr) (s : State), s.resetting = true ∧ i = .mbxctlEnable := ⟨_, State.reset, rfl, rfl⟩

/-- The last bytes of a block. -/
theorem meets_HostEvents : base.resetting = false ∧ base.power < 3 ∧ 0 < 4 ∧ 60 % 32 + 4 ≤ 32 ∧ 60 + 4 ≤ 2 ^ 44 ∧ (base.page (dpaPage 60)).mapped = true
    ∧ base.flips = [] ∧ (∀ p ∈ base.reqs, p.2.gran ≠ base.granOf 60) ∧ base.onGranule (base.granOf 60) = [] ∧ (base.page (dpaPage 60)).v = false :=
  ⟨rfl, by decide +kernel, by decide +kernel, by decide +kernel, by decide +kernel, by decide +kernel, rfl, by decide +kernel, by decide +kernel, by decide +kernel⟩

theorem meets_HostEvents_off : ∃ s : State, s.resetting = false ∧ 3 ≤ s.power := ⟨{ base with power := 3 }, rfl, by decide +kernel⟩

/-- The last byte lies beyond the module, or its page is not mapped. -/
theorem meets_HostEvents_beyond : base.power < 3 ∧ 2 ^ 44 < (2 ^ 44 - 3) + 4 := ⟨by decide +kernel, by decide⟩

theorem meets_HostEvents_unmapped : ∃ k, k < 4 ∧ (base.page (dpaPage ((stackPages + capacityPages) * 65536 - 3 + k))).mapped = false :=
  ⟨3, by decide, by decide +kernel⟩

theorem meets_HostEvents_debug : base.resetting = false := rfl

theorem meets_Attestation : base.resetting = false ∧ base.boot.security = .secure ∧ base.boot.spdm.secured = false ∧ base.boot.spdm.session = none
    ∧ base.boot.spdm.algorithms = false := ⟨rfl, rfl, rfl, rfl, rfl⟩

/-- A handshake with the algorithms settled, on a link with and without IDE. -/
theorem meets_Attestation_handshake (m : LinkMode) : ∃ s : State, s.resetting = false ∧ s.boot.security = .secure ∧ s.boot.spdm.session = some [1]
    ∧ s.boot.spdm.secured = false ∧ s.boot.spdm.algorithms = true ∧ s.link = m :=
  ⟨{ base with boot := { spdm := { algorithms := true, session := some [1] } }, link := m }, rfl, rfl, rfl, rfl, rfl, rfl⟩

/-- The index of all measurements, of none and of one that the boot recorded. -/
theorem meets_Attestation_measurements : ∃ s : State, s.resetting = false ∧ s.boot.security = .secure ∧ (s.boot.measurements.filter fun m => m.1 = 3) ≠ []
    ∧ (s.boot.measurements.filter fun m => m.1 = 4) = [] := ⟨{ base with boot := { measurements := [(1, []), (2, []), (3, [])] } }, rfl, rfl, nofun, rfl⟩

theorem meets_Attestation_session : ∃ s : State, s.resetting = false ∧ s.boot.security ≠ .failed ∧ s.boot.spdm.secured = true ∧ s.boot.spdm.algorithms = true :=
  ⟨{ base with boot := { spdm := { algorithms := true, secured := true, session := some [] } } }, rfl, by decide +kernel, rfl, rfl⟩

theorem meets_Attestation_failed : ∃ s : State, s.resetting = false ∧ s.boot.security = .failed := ⟨{ base with boot := { security := .failed } }, rfl, rfl⟩

/-- A flit of module 5. -/
def flit (seq : BitVec 32) (b : Payload) : Flit := ⟨5, 0, seq, 0, b⟩

theorem meets_FabricEvents_flit : (paired true).resetting = false ∧ (0 : BitVec 8) = (paired true).fabric.index ∧ (5 : BitVec 8) ≠ (paired true).fabric.index
    ∧ (paired true).inDomain 5 = true ∧ 0 = Table.read (paired true).fabric.accepted 5 0 := ⟨rfl, rfl, by decide, by decide +kernel, by decide +kernel⟩

/-- What another module tells of a round, in sequence. -/
theorem meets_FabricEvents_round (b : Payload) : (flit 0 b).dst = (paired true).fabric.index ∧ (flit 0 b).src ≠ (paired true).fabric.index
    ∧ (flit 0 b).seq = BitVec.ofNat 32 (Table.read (paired true).fabric.accepted 5 0) :=
  ⟨rfl, (by decide : (5 : BitVec 8) ≠ 0), (by decide +kernel : (0 : BitVec 32) = BitVec.ofNat 32 (Table.read (paired true).fabric.accepted 5 0))⟩

/-- Accesses to a granule of a page that is shared. -/
theorem meets_FabricEvents_access : ∃ (s : State) (b : Nat) (l : List (BitVec 52 × Nat)), s.fabric = (paired true).fabric ∧ l ≠ []
    ∧ ∀ i ∈ l, s.ours i.1.toNat = true ∧ s.pageRefuses 1 i.1.toNat = none ∧ s.granOf (dpaLocal i.1.toNat) = b :=
  ⟨{ paired true with pages := [(0, { initialPage 0 with owner := 0x8000 })] }, 64, [(64, 8), (120, 8)], rfl, nofun, by decide +kernel⟩

theorem meets_FabricEvents_refused : ∃ c, (paired true).ours 0 = true ∧ (paired true).pageRefuses 1 0 = some c := ⟨Cause.rPermission, by decide +kernel, by decide +kernel⟩

theorem meets_FabricEvents_duplicate : ∃ (s : State) (d : Dup), s.fabric = { (paired true).fabric with accepted := [(5, 1)] } ∧ seqBefore 0 (BitVec.ofNat 32 1) = true
    ∧ s.dupOf 5 9 7 = some d := ⟨{ paired true with fabric := { (paired true).fabric with accepted := [(5, 1)] }, dups := [⟨5, 9, 7, 0, 1, 0⟩] }, _, rfl, by decide +kernel, rfl⟩

theorem meets_FabricEvents_later : (1 : BitVec 32) ≠ BitVec.ofNat 32 0 ∧ seqBefore 1 (BitVec.ofNat 32 0) = false := ⟨by decide, by decide +kernel⟩

theorem meets_FabricEvents_again : ∃ (s : State) (f : Flit) (rest : List Flit), s.resetting = false ∧ s.routeUp 5 = true
    ∧ Table.read s.fabric.unacked 5 [] = f :: rest :=
  ⟨{ paired true with fabric := { (paired true).fabric with unacked := [(5, [⟨0, 5, 0, 0, .refusal 1 0 0⟩])] } }, _, _, rfl, by decide +kernel, rfl⟩

theorem meets_FabricEvents_configuration : (([(5, [11]), (6, [0])] : List (BitVec 8 × List Nat)).map (·.1)).Nodup := by decide

theorem meets_Resets_machine : ∃ (i : Instr) (s : State), (i = .thermalTrip ∨ i = .machineFault) ∧ s.machine = none ∧ ∀ f ∈ s.mbx.flights, ∀ p o l, f.2 ≠ .power p o l :=
  ⟨_, base, .inl rfl, rfl, nofun⟩

/-- A POWER command is in progress. -/
theorem meets_Resets_powering : ∃ (s : State) (tag : BitVec 16) (p o : Nat) (l : List Nat), s.machine = none ∧ s.mbx.flights = [(tag, .power p o l)] :=
  ⟨{ base with mbx := { flights := [(5, .power 3 0 [])] } }, _, _, _, _, rfl, rfl⟩

theorem meets_Resets_again : ∃ (i : Instr) (s : State), (i = .thermalTrip ∨ i = .machineFault) ∧ s.machine ≠ none :=
  ⟨_, { base with machine := some 0 }, .inr rfl, nofun⟩

theorem meets_Resets_warm : base.resetting = false ∧ base.dirty = [] ∧ Table.rising base.cores = true := ⟨rfl, rfl, by decide +kernel⟩

/-- A module in reset whose one route has a port that is trained and one that has failed. -/
theorem meets_Resets_complete : ∃ s : State, s.resetting = true ∧ ∀ r ∈ s.fabric.routes, ∀ p ∈ r.2,
    (Table.read s.fabric.ports p {}).trained = true ∨ (Table.read s.fabric.ports p {}).failed = true :=
  ⟨{ State.reset with fabric := { routes := [(5, [10, 11])], ports := [(10, { failed := true }), (11, { trained := true })] } }, rfl, by decide +kernel⟩

theorem meets_Resets_untrained : ∃ s : State, s.resetting = true ∧ s.fabric.linked = false :=
  ⟨{ State.reset with fabric := { routes := [(5, [10, 11])], ports := [(10, { failed := true })] } }, rfl, by decide +kernel⟩

theorem meets_Resets_provisioning : ∃ s : State, s.boot.provisioned = false ∧ s.boot.security = .unprovisioned :=
  ⟨{ base with boot := { provisioned := false, security := .unprovisioned } }, rfl, rfl⟩

/-- The module with a debugger that reaches every context. -/
def watched (gr : Group) : State := { world gr with boot := { mode := 2 }, mbd := { attached := true } }

theorem meets_DebugEvents_attach : ∃ s : State, s.resetting = false ∧ s.mbd.work = none ∧ s.boot.mode ≠ 0 ∧ s.power < 4 ∧ s.terminals = [] ∧ s.mbd.halts = [] :=
  ⟨{ base with boot := { mode := 1 }, power := 3 }, rfl, rfl, by decide, by decide, by decide +kernel, rfl⟩

/-- In P4, in mode D2. -/
theorem meets_DebugEvents_attach_off : ∃ s : State, s.resetting = false ∧ s.mbd.work = none ∧ s.boot.mode = 2 ∧ 4 ≤ s.power ∧ s.terminals = [] ∧ s.mbd.halts = [] :=
  ⟨{ base with boot := { mode := 2 }, power := 4 }, rfl, rfl, rfl, by decide, by decide +kernel, rfl⟩

theorem meets_DebugEvents_locked : base.resetting = false ∧ base.mbd.work = none ∧ base.boot.mode = 0 ∧ base.reaches 1 = false := ⟨rfl, rfl, rfl, by decide +kernel⟩

/-- In P2 a write of memory, in P3 a read of it in mode D1. -/
theorem meets_DebugEvents_quiet : debugUse (.writeMem 1 0 0) = .act ∧ ¬ (debugUse (.readMem 1 0 8) = .media ∧ (1 : Nat) = 2)
    ∧ ∃ s : State, s.resetting = false ∧ s.mbd.work = none ∧ s.reaches 1 = true ∧ s.power = 2 :=
  ⟨rfl, by decide, { base with boot := { mode := 2 }, mbd := { attached := true }, power := 2 }, rfl, rfl, by decide +kernel, rfl⟩

theorem meets_DebugEvents_reach : (watched group).resetting = false ∧ (watched group).mbd.work = none ∧ (watched group).reaches 1 = true ∧ (watched group).power < 2 :=
  ⟨rfl, rfl, by decide +kernel, by decide +kernel⟩

/-- The entity parked at a terminal fault. -/
theorem meets_DebugEvents_entity : ∃ (gr : Group) (wv : Wave) (e : Entity) (f : FaultInfo), (watched (parked .fault (some ⟨Cause.undefOp, 0, 1, none, 0⟩))).group? 1 = some gr
    ∧ (watched (parked .fault (some ⟨Cause.undefOp, 0, 1, none, 0⟩))).wave? 1 0 = some wv
    ∧ (watched (parked .fault (some ⟨Cause.undefOp, 0, 1, none, 0⟩))).entity? ⟨1, 0, 0⟩ = some e
    ∧ (watched (parked .fault (some ⟨Cause.undefOp, 0, 1, none, 0⟩))).reaches gr.ctx = true ∧ e.park = some .fault ∧ e.fault = some f
    ∧ Cause.replayable f.cause = false := ⟨_, _, _, _, rfl, rfl, rfl, by decide +kernel, rfl, rfl, by decide +kernel⟩

theorem meets_DebugEvents_continue : ∃ s : State, s.resetting = false ∧ s.mbd.work = none ∧ s.mbd.attached = true ∧ s.power < 2 ∧ s.terminals = [] ∧ s.haltsReached = []
    ∧ (s.entity? ⟨1, 0, 0⟩).map (·.stopped) = some true :=
  ⟨watched { group with waves := [{ wave with ents := [(0, { ent with stopped := true })] }] }, rfl, rfl, rfl, by decide +kernel, by decide +kernel, by decide +kernel, rfl⟩

theorem meets_IntegerValues : ∃ i k m s v, exactForm i = some k ∧ k.ty.isInt = true ∧ (checks i = some m ∧ Acts m s v) :=
  ⟨.vfma g7 .s8 (.v 4) (.v 5) (.s 1) (.v 6), _, _, base, _, rfl, rfl, reaches_of (by decide +kernel)⟩

/-- The least value divided by -1. -/
theorem meets_IntegerValues_div : ∃ (g : Guard) (fl : Flag) (ty : Ty) (d a b : Reg) (m : Meta) (s : State) (v : View), ty.isInt = true
    ∧ (checks (.vdiv g fl ty d a b) = some m ∧ Acts m s v) ∧ Computes d (v.acting m) 0 ∧ intVal ty (v.src s.tick ty a 0) = -(2 ^ (ty.width - 1) : Int)
    ∧ intVal ty (v.src s.tick ty b 0) = -1 :=
  ⟨g7, f0, .s64, .s 3, .s 1, .s 2, _, regs [(1, 0x8000000000000000), (2, 0xFFFFFFFFFFFFFFFF)], _, rfl, reaches_of (by decide +kernel),
    by unfold Computes; decide +kernel, by decide +kernel, by decide +kernel⟩

/-- The highest address: a granule of 512 bytes that ends with the domain's last. -/
theorem meets_HomeSlices : ∃ d : Nat, d < 2 ^ 52 ∧ d % granSize 3 = 0 ∧ d + granSize 3 = 2 ^ 52 := ⟨2 ^ 52 - 512, by decide +kernel, by decide +kernel, by decide +kernel⟩

/-- What every clause of `Checks` asks. -/
def CheckAsks (i : Instr) (s : State) (P : Meta → View → Prop) : Prop := ∃ m v, checks i = some m ∧ s.view? = some v ∧ P m v

/-- The first register beyond the role's budget. -/
theorem meets_Checks_registers : CheckAsks (.vadd g7 false .n32 (.v 16) (.v 5) (.v 6)) (world' fun wv => { wv with blocks := 1 }) fun m v =>
    ∃ n ∈ m.vregs, 16 * v.wv.blocks ≤ n := ⟨_, _, rfl, rfl, 16, by decide +kernel, by decide +kernel⟩

theorem meets_Checks_place : CheckAsks (.trap g7 5) early fun m v => (∀ n ∈ m.vregs, n < 16 * v.wv.blocks) ∧ m.place.ok v.cl v.en.idx = false :=
  ⟨_, _, rfl, rfl, by decide +kernel, by decide +kernel⟩

theorem meets_Checks_drains : CheckAsks (.exit g7) (flying (op (.l1 true))) fun m v => m.place.ok v.cl v.en.idx = true ∧ m.drains = true
    ∧ v.wv.inFlight v.a.e = true := ⟨_, _, rfl, rfl, by decide +kernel, rfl, by decide +kernel⟩

theorem meets_Checks_guard : CheckAsks (.vadd ⟨1, false⟩ false .n32 (.v 4) (.v 5) (.v 6)) base fun m v => m.place.ok v.cl v.en.idx = true ∧ m.drains = false
    ∧ v.acting m = 0 := ⟨_, _, rfl, rfl, by decide +kernel, rfl, by decide +kernel⟩

theorem meets_Checks_guard_long : CheckAsks (.dqPop ⟨1, false⟩ f0 1) base fun m v => m.place.ok v.cl v.en.idx = true ∧ m.drains = false
    ∧ v.acting m = 0 ∧ m.long = some f0 ∧ v.wv.pending 0 < 15 := ⟨_, _, rfl, rfl, by decide +kernel, rfl, by decide +kernel, rfl, by decide +kernel⟩

theorem meets_Checks_guard_full : CheckAsks (.dqPop ⟨1, false⟩ f0 1) (world' fun wv => { wv with f := [(0, 15)] }) fun m v => m.place.ok v.cl v.en.idx = true
    ∧ m.drains = false ∧ v.acting m = 0 ∧ m.long = some f0 ∧ flagIndex f0 = some 0 ∧ 15 ≤ v.wv.pending 0 :=
  ⟨_, _, rfl, rfl, by decide +kernel, rfl, by decide +kernel, rfl, rfl, by decide +kernel⟩

theorem meets_Checks_actor : ∃ (i : Instr) (m : Meta) (s : State), checks i = some m ∧ s.view? = none := ⟨.qend g7, _, State.reset, rfl, rfl⟩

theorem meets_Checks_event : ∃ i : Instr, checks i = none := ⟨.roundClose, rfl⟩

theorem meets_Checks_region : CheckAsks (.dqPop g7 f0 1) inside fun m v => v.acting m ≠ 0 ∧ v.wv.region ≠ none ∧ m.inRegion = false :=
  ⟨_, _, rfl, rfl, by decide +kernel, nofun, rfl⟩

theorem meets_Checks_priv : CheckAsks (.sysHadv g7 1 2) user fun m v => v.acting m ≠ 0 ∧ v.wv.region = none ∧ m.sys = true ∧ user.sysPriv v.gr.ctx = false :=
  ⟨_, _, rfl, rfl, by decide +kernel, rfl, rfl, by decide +kernel⟩

theorem meets_Checks_ends : CheckAsks (.dqPop g7 f0 1) (quanta none .running) fun m v => v.acting m ≠ 0 ∧ v.wv.region = none ∧ m.sys = false ∧ m.ends = true
    ∧ (quanta none .running).det v.gr = true ∧ v.wv.quantum ≠ .granted v.a.e :=
  ⟨_, _, rfl, rfl, by decide +kernel, rfl, rfl, rfl, by decide +kernel, by decide +kernel⟩

/-- Fifteen instructions wait for the flag. -/
theorem meets_Checks_flag : CheckAsks (.dqPop g7 f0 1) (world' fun wv => { wv with f := [(0, 15)] }) fun m v => v.acting m ≠ 0 ∧ v.wv.region = none ∧ m.sys = false
    ∧ m.long = some f0 ∧ flagIndex f0 = some 0 ∧ 15 ≤ v.wv.pending 0 := ⟨_, _, rfl, rfl, by decide +kernel, rfl, rfl, rfl, rfl, by decide +kernel⟩

/-- The module whose entity stands in a clause of a class and two words: the last of a page and the first of the next. -/
def running (c : BitVec 4) (w x : Word) : State :=
  let t := tasked (task true .ready) [] (task true .ready)
  { t with
    agenda := [.issue ⟨1, 0, 0⟩]
    mem := writeBytes (writeBytes t.mem 0x5FFF8 (toBytes w.toNat 8)) 0x60000 (toBytes x.toNat 8)
    groups := [(1, { group with waves := [{ wave with ents := [(0, { ent with hdr := 0xFFF0, clause := some ⟨c, 2⟩ })] }] })] }

/-- The state in which the turn of the agenda's entity is taken. -/
def turned (s : State) : State := { s with agenda := [], tick := s.tick + 1, actor := ⟨1, 0, 0⟩ }

/-- What the entity's fetches give. -/
def fetches (s : State) (k : Nat) (f : Word → Bool) : Bool :=
  match (turned s).view? with
  | some v =>
    ((turned s).issuing ⟨1, 0, 0⟩).isSome &&
    (match (turned s).fetchWord v.gr v.addr with
     | .word w t => if k = 0 then f w else (match t.fetchWord v.gr (wordAddr v.en.hdr 1) with | .word x _ => f x | _ => false)
     | _ => false)
  | none => false

/-- A word decodes to that in a clause of a class. -/
def decodes (c : BitVec 4) (r : Except EncFault Instr) (w : Word) : Bool :=
  match decodeWord c w none, r with
  | .ok i, .ok j => decide (i = j)
  | .error e, .error f => decide (e = f)
  | _, _ => false

/-- Nothing is overdue, so the agenda's turn is taken. -/
theorem meets_StepRuns_agenda : ({ base with agenda := [.mailbox] } : State).overdue = none := by decide +kernel

/-- A history that lags has its upkeep first. -/
theorem meets_StepRuns_overdue : ((lagging [] false).overdue).isSome = true := by decide +kernel

theorem meets_StepRuns_idle : ({ base with agenda := [.issue ⟨9, 0, 0⟩] }.issuing ⟨9, 0, 0⟩) = none := by decide +kernel

/-- The context has no page tables. -/
theorem meets_StepRuns_fetch : ∃ v c s1, base.issuing ⟨1, 0, 0⟩ = some v ∧ base.fetchWord v.gr v.addr = .fault c s1 := ⟨view base, _, _, rfl, rfl⟩

theorem meets_StepRuns_word : fetches (running 0 0x01FFF01804E00064 0) 0 (decodes 0 (.ok (.vaddImm g7 .n64 (.s 3) (.s 0) 100))) = true := by
  decide +kernel

/-- A word of another class. -/
theorem meets_StepRuns_undefined : fetches (running 1 0x01FFF01804E00064 0) 0 (decodes 1 (.error .classMismatch)) = true := by
  decide +kernel

/-- An `xbeg` and its extension in the next slot. -/
theorem meets_StepRuns_xbeg : fetches (running 1 0x4AFFF00000000000 0xEF04000000000000) 0 (fun w => bits w 56 8 == 0x4A && ((decodeWord 1 w none).toOption).isSome) = true
    ∧ fetches (running 1 0x4AFFF00000000000 0xEF04000000000000) 1 (fun x => ((decodeWord 1 0x4AFFF00000000000 (some x)).toOption).isSome) = true := by
  constructor <;> decide +kernel

theorem meets_StepRuns_closed : base.mailboxOpen = false := by decide +kernel

/-- A queue of 16 entries, with one that is not consumed. -/
theorem meets_StepRuns_mailbox : ∃ s : State, s.mailboxOpen = true ∧ s.mbx.pending = true ∧ s.powering = false :=
  ⟨{ base with mbx := { ctl := 1, qsize := 16, sqtail := 1 } }, by decide +kernel, by decide +kernel, by decide +kernel⟩

theorem meets_StepRuns_event : base.mayHappen .roundClose = true := by decide +kernel

theorem meets_InvStep : ∃ s t : State, s.Inv ∧ step s = .next t := ⟨{ State.reset with agenda := [.mailbox] }, _, ⟨by decide +kernel, by decide +kernel⟩, rfl⟩

theorem meets_RoundTrip : (Instr.win g7 15 63 0xFFFFFFFF).wellFormed = true ∧ (encodeFirst (.win g7 15 63 0xFFFFFFFF)).isSome = true := by decide +kernel

theorem meets_RoundTrip_word : ∃ i, decodeWord 4 0xC2FFF00000000000 none = .ok i := ⟨_, rfl⟩

theorem meets_RoundTrip_entry : (Instr.launchCmd (entry 1 0 0 0)).wellFormed = true ∧ encodeEntry (.launchCmd (entry 1 0 0 0)) = some (entry 1 0 0 0) := by
  decide +kernel

-- Words written out from R37, R40 to R43 and R52 to R58 -----------------------------------------------------------------------------

/-- A word by its fields of R37: major, lookahead, flag, uniform, guard, negate, and the operand fields. -/
def word (maj : BitVec 8) (la fl : BitVec 4) (uni : BitVec 1) (p : BitVec 3) (neg : BitVec 1) (ops : BitVec 43) : Word :=
  maj ++ la ++ fl ++ uni ++ p ++ neg ++ ops

/-- V3: d, a, b, c, type, which of a, b, c are s, minor. -/
def v3 (d a b c : BitVec 8) (ty : BitVec 5) (as bs cs : BitVec 1) (minor : BitVec 3) : BitVec 43 := d ++ a ++ b ++ c ++ ty ++ as ++ bs ++ cs ++ minor

/-- ST: A, B, C, scope, `.prm`, minor. -/
def stf (a b c : BitVec 6) (sc : BitVec 3) (prm : BitVec 1) (minor : BitVec 4) : BitVec 43 := a ++ b ++ c ++ (0 : BitVec 5) ++ sc ++ prm ++ (0 : BitVec 12) ++ minor

/-- SY: A, B, number, minor. -/
def syf (a b : BitVec 8) (n : BitVec 12) (minor : BitVec 4) : BitVec 43 := a ++ b ++ n ++ (0 : BitVec 11) ++ minor

/-- What a word decodes to in a clause of a class. -/
def dec (c : BitVec 4) (w : Word) : Option Instr := (decodeWord c w none).toOption

theorem test_decode_vadd : dec 0 (word 0x00 0xF 0xF 0 2 1 (v3 4 5 6 0 6 0 1 0 1)) = some (.vadd ⟨2, true⟩ true .n32 (.v 4) (.v 5) (.s 6)) := by decide +kernel

theorem test_decode_vdiv : dec 0 (word 0x0B 2 3 1 7 0 (v3 4 5 6 0 15 1 1 0 0)) = some (.vdiv g7 ⟨2, 3⟩ .f64 (.s 4) (.s 5) (.s 6)) := by decide +kernel

theorem test_decode_vsf : dec 0 (word 0x0D 15 11 0 7 0 (v3 255 1 0 0 14 0 0 0 6)) = some (.vsfTanh g7 ⟨15, 11⟩ (.v 255) (.v 1)) := by decide +kernel

/-- From `.f32` toward zero into `.s16`. -/
theorem test_decode_vcvt : dec 0 (word 0x0E 0xF 0xF 0 7 0 (v3 4 5 0 0b01110001 1 0 0 0 1)) = some (.vcvt g7 true .rz .s16 .f32 (.v 4) (.v 5)) := by decide +kernel

theorem test_decode_vsel : dec 0 (word 0x1B 0xF 0xF 0 7 0 (v3 4 5 6 0b10100000 10 0 0 0 0)) = some (.vsel g7 .b32 (.v 4) (.v 5) (.v 6) 5) := by decide +kernel

theorem test_decode_vcmp : dec 0 (word 0x1C 0xF 0xF 0 7 0 ((3 : BitVec 3) ++ (1 : BitVec 8) ++ (0 : BitVec 1) ++ (1 : BitVec 5) ++ (2 : BitVec 4) ++ (1 : BitVec 1)
    ++ (0x1FFFFF : BitVec 21))) = some (.vcmp g7 false .lt .s16 3 (.v 1) (.imm 0x1FFFFF)) := by decide +kernel

theorem test_decode_vmov : dec 0 (word 0x1F 0xF 0xF 1 7 0 ((63 : BitVec 8) ++ (0 : BitVec 8) ++ (0 : BitVec 1) ++ (3 : BitVec 5) ++ (0x100000 : BitVec 21)))
    = some (.vmovImm g7 .s64 (.s 63) 0x100000) := by decide +kernel

/-- `shfl.rel.z.b32 v4, v0, -1`, with its permissive bit. -/
theorem test_decode_shfl : dec 0 (word 0x21 0xF 0xF 0 7 0 ((4 : BitVec 8) ++ (0 : BitVec 8) ++ (0xFF : BitVec 8) ++ (0 : BitVec 1) ++ (1 : BitVec 1) ++ (10 : BitVec 5)
    ++ (0b100 : BitVec 3) ++ (0 : BitVec 9))) = some (.shflRel g7 true false .b32 4 0 (.imm 0xFF)) := by decide +kernel

theorem test_decode_scan : dec 0 (word 0x22 0xF 0xF 0 2 0 ((3 : BitVec 8) ++ (2 : BitVec 8) ++ (0 : BitVec 8) ++ (0 : BitVec 2) ++ (2 : BitVec 5)
    ++ (0b001 : BitVec 3) ++ (0 : BitVec 5) ++ (0 : BitVec 4))) = some (.scan ⟨2, false⟩ .add true .s32 3 2) := by decide +kernel

/-- `st.sp` of s3 at the offset v1. -/
theorem test_decode_st : dec 1 (word 0x41 0xF 0xF 0 7 0 ((3 : BitVec 8) ++ (0 : BitVec 4) ++ (1 : BitVec 8) ++ (0 : BitVec 1) ++ (6 : BitVec 5) ++ (1 : BitVec 3)
    ++ (0 : BitVec 6) ++ (1 : BitVec 1) ++ (0 : BitVec 7))) = some (.st g7 .sp .n32 0 (some (.v 1)) (.s 3)) := by decide +kernel

/-- `atom.add.g` at window 9, scope `.pk`, `.prm`. -/
theorem test_decode_atom : dec 1 (word 0x43 1 0 0 7 0 ((4 : BitVec 8) ++ (5 : BitVec 8) ++ (6 : BitVec 8) ++ (9 : BitVec 4) ++ (0 : BitVec 1) ++ (1 : BitVec 1)
    ++ (2 : BitVec 5) ++ (4 : BitVec 3) ++ (1 : BitVec 1) ++ (0 : BitVec 4))) = some (.atomG g7 ⟨1, 0⟩ .add .pk true .s32 (.v 4) (.v 5) 9 (some (.s 6))) := by
  decide +kernel

theorem test_decode_fence : dec 1 (word 0x47 0xF 0xF 1 7 0 (stf 0 0 0 2 1 0)) = some (.fenceAcq g7 .wh true) := by decide +kernel

theorem test_decode_stmp : dec 1 (word 0x49 0xF 0xF 1 7 0 (stf 1 2 0 4 0 1)) = some (.stmpHold g7 1 2) := by decide +kernel

theorem test_decode_xbeg : (decodeWord 1 ((0x4A : BitVec 8) ++ (0xFFFF : BitVec 16) ++ (1 : BitVec 32) ++ (0 : BitVec 8))
    (some ((0xEF : BitVec 8) ++ (5 : BitVec 6) ++ (0 : BitVec 18) ++ (0xFFFFFFFF : BitVec 32)))).toOption = some (.xbeg 0xFFFF 1 5 0xFFFFFFFF) := by decide +kernel

theorem test_decode_mma : dec 2 (word 0x71 4 0 1 7 0 ((1 : BitVec 6) ++ (2 : BitVec 6) ++ (3 : BitVec 6) ++ (0 : BitVec 16) ++ (0 : BitVec 1) ++ (0 : BitVec 4) ++ (1 : BitVec 4)))
    = some (.mmaInit g7 ⟨4, 0⟩ 1 2 3) := by decide +kernel

/-- A re-blocking copy with a barrier word. -/
theorem test_decode_tcopy : dec 2 (word 0x72 4 0 1 7 0 ((63 : BitVec 6) ++ (2 : BitVec 6) ++ (0 : BitVec 6) ++ (0x101 : BitVec 16) ++ (1 : BitVec 1) ++ (0b0100 : BitVec 4)
    ++ (0 : BitVec 4))) = some (.tcopy g7 ⟨4, 0⟩ false true false 63 2 (some 0x101)) := by decide +kernel

theorem test_decode_brc : dec 3 (word 0x91 0xF 0xF 0 7 0 ((2 : BitVec 3) ++ (1 : BitVec 1) ++ (0x7FFFE : BitVec 19) ++ (4 : BitVec 19) ++ (0 : BitVec 1)))
    = some (.brc 2 true 0x7FFFE 4) := by decide +kernel

theorem test_decode_bar : dec 3 (word 0x96 0xF 0xF 1 7 0 ((7 : BitVec 16) ++ (3 : BitVec 3) ++ (1 : BitVec 1) ++ (9 : BitVec 6) ++ (0 : BitVec 17)))
    = some (.barArrive g7 7 (.reg 9)) := by decide +kernel

theorem test_decode_tlwait : dec 3 (word 0x97 0xF 0xF 1 7 0 ((7 : BitVec 3) ++ (2 : BitVec 3) ++ (1 : BitVec 1) ++ (0x800000001 : BitVec 36)))
    = some (.tlwait g7 7 .wh (.imm 0x800000001)) := by decide +kernel

theorem test_decode_msg : dec 3 (word 0x9A 0 1 1 7 0 (stf 1 2 3 0 0 0)) = some (.msgSend g7 ⟨0, 1⟩ 1 2 3) := by decide +kernel

theorem test_decode_hadv : dec 4 (word 0xC5 0xF 0xF 1 7 0 (syf 1 63 0 0)) = some (.sysHadv g7 1 63) := by decide +kernel

/-- A write of register 0x002 is that of CSTAMP. -/
theorem test_decode_cstamp : dec 4 (word 0xC0 0xF 0xF 1 7 0 (syf 5 0 2 1)) = some (.cstampWrite g7 5) := by decide +kernel

theorem test_decode_tlset : dec 4 0xC3FFF31000000000 = some (.tlset g7 3 (.imm 0)) := by decide +kernel

theorem test_decode_unlisted : decodeWord 0 (word 0x25 0xF 0xF 0 7 0 0) none = .error .undefOp := by rfl

/-- A flag that does not exist, a detached word without a flag, a negated p7, an odd register of a pair. -/
theorem test_decode_reserved : dec 0 (word 0x0B 2 12 0 7 0 (v3 4 5 6 0 6 0 0 0 0)) = none ∧ dec 0 (word 0x0B 15 15 0 7 0 (v3 4 5 6 0 6 0 0 0 0)) = none
    ∧ dec 0 (word 0x00 0xF 0xF 0 7 1 (v3 4 5 6 0 6 0 0 0 0)) = none ∧ dec 0 (word 0x00 0xF 0xF 0 7 0 (v3 5 6 6 0 7 0 0 0 0)) = none := by decide +kernel

theorem test_decode_entry : decodeEntry (entry 1 0x1000 1 0) = .launchCmd (entry 1 0x1000 1 0) := by decide +kernel

/-- The words of an `xbeg`, in order. -/
theorem test_encode_xbeg : encode (.xbeg 4 1 5 2) = [0x4A00040000000100, 0xEF14000000000002] := by decide +kernel

-- Ill-formed terms -------------------------------------------------------------------------------------------------------------------

theorem test_wf_guard : (Instr.vadd ⟨7, true⟩ false .n32 (.v 4) (.v 5) (.v 6)).wellFormed = false := by decide

theorem test_wf_flag : (Instr.dqPop g7 ⟨0, 12⟩ 1).wellFormed = false := by decide

theorem test_wf_detached : (Instr.dqPop g7 ⟨15, 15⟩ 1).wellFormed = false := by decide

theorem test_wf_pair : (Instr.vadd g7 false .n64 (.v 5) (.v 6) (.v 8)).wellFormed = false := by decide

theorem test_wf_uniform : (Instr.vadd g7 false .n32 (.s 4) (.s 5) (.v 6)).wellFormed = false := by decide

theorem test_wf_type : (Instr.vand g7 .n32 (.v 4) (.v 5) (.v 6)).wellFormed = false := by decide

theorem test_wf_sat : (Instr.vadd g7 true .f32 (.v 4) (.v 5) (.v 6)).wellFormed = false := by decide

theorem test_wf_wide : (Instr.vmul g7 .wide .n32 (.v 5) (.v 6) (.v 8)).wellFormed = false := by decide

theorem test_wf_rounding : (Instr.vcvt g7 false .rz .s16 .s32 (.v 4) (.v 5)).wellFormed = false := by decide

theorem test_wf_compare : (Instr.vcmp g7 false .uo .n32 1 (.v 4) (.reg (.v 5))).wellFormed = false := by decide

theorem test_wf_shuffle : (Instr.shflIdx g7 false true .b32 4 5 (.imm 8)).wellFormed = false := by decide

theorem test_wf_scan : (Instr.scan g7 .xor false .f32 4 5).wellFormed = false := by decide

theorem test_wf_ballot : (Instr.voteBallot g7 5 1 0).wellFormed = false := by decide

theorem test_wf_window : (Instr.ld g7 f0 .sp .n32 (.v 4) 1 (some (.v 5))).wellFormed = false := by decide

theorem test_wf_offset : (Instr.ld g7 f0 .g .n32 (.s 4) 1 (some (.v 5))).wellFormed = false := by decide

theorem test_wf_atomic : (Instr.atomG g7 f0 .add .pk false .n32 (.v 4) (.s 5) 0 none).wellFormed = false := by decide

theorem test_wf_cas : (Instr.atomnG g7 f0 .cas .pk .n32 (.v 4) 0 (some (.v 5))).wellFormed = false := by decide

theorem test_wf_record : (Instr.hset g7 4 0x21).wellFormed = false := by decide

theorem test_wf_layout : (Instr.tcopy g7 f0 true true false 1 2 none).wellFormed = false := by decide

theorem test_wf_phase : (Instr.barWait g7 0 (.imm 2)).wellFormed = false := by decide

theorem test_wf_xend : (Instr.xend g7 13).wellFormed = false := by decide

/-- A register with an instruction of its own. -/
theorem test_wf_register : (Instr.sysWr g7 0x002 1).wellFormed = false ∧ (Instr.sysRd g7 1 0x050).wellFormed = false := by decide

theorem test_wf_entry : (Instr.launchCmd 2).wellFormed = false ∧ (Instr.unknownMailboxCommand 1).wellFormed = false := by decide +kernel

-- Single steps ----------------------------------------------------------------------------------------------------------------------

/-- The state after an instruction. -/
def after (i : Instr) (s : State) : State :=
  match exec i s with
  | .next t => t
  | _ => s

/-- The wave after an instruction. -/
def waveAfter (i : Instr) (s : State) : Wave := ((after i s).wave? 1 0).getD wave

/-- The fragment of R114: all threads active, v0 the thread's number, v1 the number modulo 4, p2 true in every fourth thread. -/
def lanes : State :=
  world' fun wv => { wv with
    ents := [(0, { ent with mask := BitVec.allOnes 64 })]
    v := [(0, (List.range 64).map (BitVec.ofNat 32)), (1, (List.range 64).map fun t => BitVec.ofNat 32 (t % 4)), (2, List.replicate 64 1)]
    p := [(2, 0x1111111111111111)] }

/-- R114: the sum of t mod 4 over the wave is 96. -/
theorem test_lred : (waveAfter (.lred g7 .add .s32 6 1) lanes).vLane 6 63 = 96 := by decide +kernel

/-- R114: thread 4k receives k, and the other threads keep what they held. -/
theorem test_scan : (waveAfter (.scan ⟨2, false⟩ .add true .s32 3 2) lanes).vLane 3 60 = 15
    ∧ (waveAfter (.scan ⟨2, false⟩ .add true .s32 3 2) lanes).vLane 3 61 = 0 := by decide +kernel

/-- R114: thread t reads thread t - 1, and thread 0 reads 0. -/
theorem test_shfl_rel : (waveAfter (.shflRel g7 true false .b32 4 0 (.imm 0xFF)) lanes).vLane 4 63 = 62
    ∧ (waveAfter (.shflRel g7 true false .b32 4 0 (.imm 0xFF)) lanes).vLane 4 0 = 0 := by decide +kernel

/-- R114: without the permissive bit thread 0 names no thread: `XL_RANGE`, and LANEMASK names it alone. -/
theorem test_shfl_range : (waveAfter (.shflRel g7 false false .b32 4 0 (.imm 0xFF)) lanes).lanemask = 1
    ∧ (waveAfter (.shflRel g7 false false .b32 4 0 (.imm 0xFF)) lanes).vLane 4 63 = 0 := by decide +kernel

/-- R114: width-relative with k = 1, thread 5 reads thread 37. -/
theorem test_shfl_idx : (waveAfter (.shflIdx g7 false true .b32 5 0 (.imm 1)) lanes).vLane 5 5 = 37 := by decide +kernel

/-- R66: 0x7F + 1 clamps, and wraps to the least value, filled from its sign. -/
theorem test_vadd_sat : (waveAfter (.vadd g7 true .s8 (.s 3) (.s 1) (.s 2)) (regs [(1, 0x7F), (2, 1)])).sReg 3 = 0x7F := by decide +kernel

theorem test_vadd_wraps : (waveAfter (.vadd g7 false .s8 (.s 1) (.s 1) (.s 2)) (regs [(1, 0x7F), (2, 1)])).sReg 1 = 0xFFFFFFFFFFFFFF80 := by decide +kernel

/-- 1.0 + 2.0 = 3.0. -/
theorem test_vadd_float : (waveAfter (.vadd g7 false .f32 (.s 3) (.s 1) (.s 2)) (regs [(1, 0x3F800000), (2, 0x40000000)])).sReg 3 = 0x40400000 := by
  decide +kernel

/-- -2.5 toward zero is -2, and inexact. -/
theorem test_vcvt : (waveAfter (.vcvt g7 false .rz .s32 .f32 (.s 3) (.s 1)) (regs [(1, 0xC0200000)])).sReg 3 = 0xFFFFFFFFFFFFFFFE := by decide +kernel

/-- R102: the immediate 0x1_0000 with `.b8` counts 65,536. -/
theorem test_vshl : (waveAfter (.vshlImm g7 .b8 (.s 3) (.s 1) 0x10000) (regs [(1, 1)])).sReg 3 = 0 := by decide +kernel

/-- R99: a quotient by zero is all ones. -/
theorem test_vdiv : (Table.find (waveAfter (.vdiv g7 f0 .n32 (.s 3) (.s 1) (.s 2)) (regs [(1, 7)])).ops 10).map (·.body)
    = some (.alu (.s 3) .n32 [0xFFFFFFFF] 0) := by decide +kernel

/-- R106: `.lt` of `.n` types compares unsigned. -/
theorem test_vcmp : (waveAfter (.vcmp g7 true .lt .n32 1 (.s 1) (.reg (.s 2))) (regs [(1, 0xFFFFFFFF), (2, 1)])).pReg 1 = 0 := by decide +kernel

/-- R233: a store of four threads holds its bytes least significant first. -/
theorem test_st : (waveAfter (.st g7 .sp .n32 0 (some (.v 5)) (.s 2)) (regs [(2, 0x01020304)])).sq.map (fun e => e.items.map (·.data))
    = [List.replicate 4 [4, 3, 2, 1]] := by decide +kernel

/-- R152: a store commits at its slice. -/
theorem test_commit : (after (.sliceCommit 1) (storing false)).mem = [(60, 1), (61, 2), (62, 3), (63, 4)] := by decide +kernel

/-- R237: an atomic sum of 0 and 1. -/
theorem test_atomic : (after (.sliceAtomic 1) (asked (.atom .add .n32) (.op 1 0 5) ⟨3, 0, 60, 4, [], 1, 0, 0⟩)).mem = [(60, 1)] := by decide +kernel

/-- R340: a trap's handler is entered, and its position is the header after its clause. -/
theorem test_trap : (Table.find (waveAfter (.trap g7 4) (handled 0)).ents 0).map (fun e => (e.hdr, e.idx)) = some (0x20100, 0)
    ∧ (waveAfter (.trap g7 4) (handled 0)).trappos = 0x8000000000010010 := by decide +kernel

theorem test_tret : (Table.find (waveAfter (.tret g7) (handled 0x8000000000010010)).ents 0).map (·.hdr) = some 0x10010
    ∧ (waveAfter (.tret g7) (handled 0x8000000000010010)).trappos = 0x10010 := by decide +kernel

/-- R52: an offset counts words from the branch's own word. -/
theorem test_br : (Table.find (waveAfter (.br g7 0xFFFFFF) base).ents 0).map (·.hdr) = some 0x10000 := by decide +kernel

/-- R305: the last of two arrivals completes the phase. -/
theorem test_arrive : (((after (.barArrive g7 511 (.imm 2)) (barWorld (barWord false false false 2 1))).group? 1).map fun gr => gr.sp.word 4088)
    = some (barWord true false false 2 0) := by decide +kernel

/-- R336: WWIDTH. -/
theorem test_sysrd : (waveAfter (.sysRd g7 3 0x000) base).sReg 3 = 64 := by decide +kernel

/-- R28: v0 holds the lane numbers when a group starts. -/
theorem test_placement : ((after (.groupPlacement 15) batched).wave? 10 0).map (fun wv => (wv.vLane 0 63, wv.vLane 1 63)) = some (63, 0) := by
  decide +kernel

/-- R257: a host read is answered with the bytes as they are. -/
theorem test_host_read : (after (.hostRead 60 4) { storing false with mem := [(61, 7)], reqs := [] }).hostSeen = [.data 60 [0, 7, 0, 0]] := by decide +kernel

/-- R251: the cause of an aborted region is its word. -/
theorem test_abort : (waveAfter (.abortDelivery 1 0) (world' fun wv => { wv with region := some ⟨255, [], [], [], [], 0, 0, 0xF, 0, 0x20000, [], 1, some 9, []⟩ })).sReg 1 = 9 := by
  decide +kernel

/-- A step fetches the word and runs it: fragment 1's `vadd.n64 s3, s0, 100`. -/
theorem test_step : (match step (running 0 0x01FFF01804E00064 0) with
    | .next t => ((t.wave? 1 0).map fun wv => wv.sReg 3)
    | _ => none) = some 100 := by decide +kernel

theorem test_table_word : decodeTableWord 64 0x01FFF01804E00064 = some (.vaddImm g7 .n64 (.s 3) (.s 0) 100) := by decide +kernel

theorem test_fetch_word : (match step (State.reset.withFetchWord 64 0x01FFF01804E00064) with
    | .next t => ((t.wave? 1 0).map fun wv => wv.sReg 3)
    | _ => none) = some 100 := by decide +kernel
end Sys2Proof.Tests
end

section
/-! Delivery of an abort (R251): what the shadow gives back to the registers, what the wave is after it, and what is left of the
requests and engine commands that the wave has outstanding. -/

namespace Sys2Proof

/-- What a key reads as after the keys of a list that pass a test have been written, each with a value of its own: the order of the
writes, and a key that comes twice, make no difference. -/
theorem Table.read_foldl_write {α : Type} [DecidableEq α] (c : Nat → Bool) (f : Nat → α) (d : α) (l : List Nat) (t : Table α) (m : Nat) :
    Table.read (l.foldl (fun t n => if c n then Table.write t n (f n) d else t) t) m d
      = if m ∈ l ∧ c m = true then f m else Table.read t m d := by
  induction l generalizing t with
  | nil => simp
  | cons n l ih =>
    rw [List.foldl_cons, ih]
    by_cases hm : m = n
    · subst hm
      cases hc : c m <;> simp [Table.read_write]
    · have hr : Table.read (if c n then Table.write t n (f n) d else t) m d = Table.read t m d := by
        split
        · rw [Table.read_write, if_neg hm]
        · rfl
      simp only [hr, List.mem_cons, hm, false_or]

theorem Table.mem_drop {α : Type} (t : Table α) (p : Nat → α → Bool) (e : Nat × α) : e ∈ Table.drop t p ↔ e ∈ t ∧ p e.1 e.2 = false := by
  simp [Table.drop]

end Sys2Proof

namespace Sys2Proof.Machine

open Sys2Proof

-- The registers ---------------------------------------------------------------------------------------------------------------

theorem read_restoreV (mask : BitVec 32) (shadow cur : Table (List Lane)) (n : Nat) (hn : n < 256) :
    Table.read (restoreV mask shadow cur) n zeroLanes
      = if mask.getLsbD (n / 8) then Table.read shadow n zeroLanes else Table.read cur n zeroLanes := by
  have h := Table.read_foldl_write (fun n => mask.getLsbD (n / 8)) (fun n => Table.read shadow n zeroLanes) zeroLanes (List.range 256) cur n
  simp only [List.mem_range, hn, true_and] at h
  exact h

theorem read_restoreS (mask : BitVec 16) (shadow cur : Table Word) (n : Nat) (hn : n < 64) :
    Table.read (restoreS mask shadow cur) n 0
      = if mask.getLsbD (n / 4) then Table.read shadow n 0 else Table.read cur n 0 := by
  have h := Table.read_foldl_write (fun n => mask.getLsbD (n / 4)) (fun n => Table.read shadow n 0) 0 (List.range 64) cur n
  simp only [List.mem_range, hn, true_and] at h
  exact h

/-- The live-in v-registers are those of the shadow (R30). -/
theorem Wave.vLane_deliver (wv : Wave) (r : Region) (word : Word) (n k : Nat) (hn : n < 256) :
    (wv.deliver r word).vLane n k
      = if r.vmask.getLsbD (n / 8) then (Table.read r.v n zeroLanes).getD k 0 else wv.vLane n k := by
  simp only [Wave.vLane, Wave.deliver, read_restoreV _ _ _ _ hn]
  split <;> rfl

/-- `sc` holds the record of the abort, live-in or not; the other live-in s-registers are those of the shadow (R30). -/
theorem Wave.sReg_deliver (wv : Wave) (r : Region) (word : Word) (n : Nat) (hn : n < 64) :
    (wv.deliver r word).sReg n
      = if n = r.sc.toNat then word else if r.smask.getLsbD (n / 4) then Table.read r.s n 0 else wv.sReg n := by
  simp only [Wave.sReg, Wave.deliver, Table.read_write, read_restoreS _ _ _ _ hn]

/-- The one entity after delivery: at the fallback, with the threads and records of `xbeg`, in no clause and parked at nothing. -/
theorem Wave.ents_deliver (wv : Wave) (r : Region) (word : Word) :
    ∃ e : Entity, (wv.deliver r word).ents = [(r.ent, e)] ∧ e.mask = r.mask ∧ (e.hdr, e.idx) = (r.fallback, 0) ∧ e.recs = r.recs
      ∧ e.clause = none ∧ e.park = none :=
  ⟨_, rfl, rfl, rfl, rfl, rfl, rfl⟩

-- What is outstanding -----------------------------------------------------------------------------------------------------------

/-- An agent is a long-latency instruction of this wave: the requests of such agents are discarded with it (R251). -/
def Agent.isOp (g w : Nat) : Agent → Bool
  | .op g' w' _ => g' == g && w' == w
  | _ => false

theorem Agent.isOp_eq_false (g w : Nat) (a : Agent) : a.isOp g w = false ↔ ∀ k, a ≠ .op g w k := by
  cases a with
  | op g' w' id => simp [Agent.isOp]
  | wave | cmd | task | host | peer => simp [Agent.isOp]

/-- A command that has forgotten a wave sets a flag only of other waves: of one of that number only in another group. -/
theorem Cmd.g_ne_of_forget_op (c : Cmd) (g w k : Nat) (h : (c.forget g w).op = some (w, k)) : (c.forget g w).g ≠ g := by
  cases ho : c.op with
  | none => simp [Cmd.forget, ho] at h
  | some o =>
    by_cases hc : c.g = g ∧ o.1 = w
    · simp [Cmd.forget, ho, hc] at h
    · have hf : c.forget g w = c := by simp [Cmd.forget, ho, hc]
      rw [hf, ho] at h
      cases h
      rw [hf]
      exact fun hg => hc ⟨hg, rfl⟩

/-- The state after an abort has been delivered to a wave with region `r` and record `word`. -/
def State.delivered (s : State) (g w : Nat) (r : Region) (word : Word) : State :=
  State.modGroup
    (State.modWave
      { s with
        reqs := Table.drop s.reqs fun _ q => q.agent.isOp g w
        cmds := Table.mapValues s.cmds fun _ c => c.forget g w }
      g w fun wv => wv.deliver r word)
    g fun gr => { gr with triggered := gr.triggered.filter fun x => x.1 ≠ w }

theorem exec_abortDelivery {g w : Nat} {s : State} {wv : Wave} {r : Region} {word : Word} (hw : s.wave? g w = some wv)
    (hr : wv.region = some r) (ha : r.aborted = some word) : exec (.abortDelivery g w) s = .next (s.delivered g w r word) := by
  have h : exec (.abortDelivery g w) s = execAbortDelivery g w s := rfl
  simp only [h, execAbortDelivery, hw, Option.bind_some, hr, ha]
  rfl

theorem State.wave?_delivered {s : State} {g w : Nat} {wv : Wave} (r : Region) (word : Word) (hw : s.wave? g w = some wv) :
    (s.delivered g w r word).wave? g w = some (wv.deliver r word) := by
  rw [State.delivered, State.wave?_modGroup]
  show State.wave? (State.modWave _ g w _) g w = _
  rw [State.wave?_modWave]
  exact congrArg (Option.map _) hw

theorem State.mem_reqs_delivered (s : State) (g w : Nat) (r : Region) (word : Word) (q : Nat × Req) :
    q ∈ (s.delivered g w r word).reqs ↔ q ∈ s.reqs ∧ ∀ k, q.2.agent ≠ .op g w k := by
  rw [← Agent.isOp_eq_false]
  exact Table.mem_drop s.reqs (fun _ q => q.agent.isOp g w) q

theorem State.find_cmds_delivered (s : State) (g w : Nat) (r : Region) (word : Word) (n : Nat) :
    Table.find (s.delivered g w r word).cmds n = (Table.find s.cmds n).map (·.forget g w) :=
  Table.find_mapValues s.cmds (fun _ c => c.forget g w) n

/-- Settles O35: delivery changes the wave, the requests and the commands, and each clause is what one of them is after it. -/
theorem abortDelivered : Obligations.AbortDelivered := by
  unfold Obligations.AbortDelivered
  intro g w s wv r word hw hr ha
  obtain ⟨e, hents, hmask, hpos, hrecs, hclause, hpark⟩ := Wave.ents_deliver wv r word
  have hcmds : ∀ n x, Table.find (s.delivered g w r word).cmds n = some x → ∀ k, x.op = some (w, k) → x.g ≠ g := by
    intro n x hx k hk
    rw [State.find_cmds_delivered] at hx
    obtain ⟨c, -, rfl⟩ := Option.map_eq_some_iff.mp hx
    exact Cmd.g_ne_of_forget_op c g w k hk
  exact ⟨s.delivered g w r word, wv.deliver r word, e, exec_abortDelivery hw hr ha, State.wave?_delivered r word hw,
    rfl, rfl, rfl, fun _ => rfl, rfl, rfl,
    fun n k hn _ => Wave.vLane_deliver wv r word n k hn, Wave.sReg_deliver wv r word,
    hents, hmask, hpos, hrecs, hclause, hpark, rfl,
    fun q hq => ((State.mem_reqs_delivered s g w r word q).mp hq).2,
    fun q hq hk => (State.mem_reqs_delivered s g w r word q).mpr ⟨hq, hk⟩,
    hcmds, rfl⟩

end Sys2Proof.Machine
end

section
/-! The home slice of a device-physical address (R87): its two bits of the offset as exclusive ors, and what it does not read. -/

namespace Sys2Proof.Machine

open Sys2Proof

theorem sliceFold_lt (off n : Nat) : sliceFold off n < 4 := by
  induction n with
  | zero => exact Nat.zero_lt_succ 3
  | succ n ih => exact Nat.xor_lt_two_pow (n := 2) (Nat.mod_lt _ (by decide)) ih

/-- Bit `j` of the fold is the exclusive or of every second bit of the offset, from bit 9 + `j` up. -/
theorem testBit_sliceFold (off n j : Nat) (hj : j < 2) :
    (sliceFold off n).testBit j = (List.range n).foldl (fun b k => b ^^ off.testBit (9 + 2 * k + j)) false := by
  induction n with
  | zero => exact Nat.zero_testBit j
  | succ n ih =>
    have hgroup : (off / 2 ^ (9 + 2 * n) % 2 ^ 2).testBit j = off.testBit (9 + 2 * n + j) := by
      rw [Nat.testBit_mod_two_pow, decide_eq_true hj, Bool.true_and, Nat.testBit_div_two_pow, Nat.add_comm]
    calc (sliceFold off (n + 1)).testBit j
        = ((off / 2 ^ (9 + 2 * n) % 2 ^ 2).testBit j ^^ (sliceFold off n).testBit j) := Nat.testBit_xor ..
      _ = _ := by rw [hgroup, ih, List.range_succ, List.foldl_append, List.foldl_cons, List.foldl_nil, Bool.xor_comm]

/-- The bits below bit 9 take no part in the fold. -/
theorem sliceFold_congr {a b : Nat} (h : a / 2 ^ 9 = b / 2 ^ 9) (n : Nat) : sliceFold a n = sliceFold b n := by
  induction n with
  | zero => rfl
  | succ n ih =>
    have hgroup : a / 2 ^ (9 + 2 * n) = b / 2 ^ (9 + 2 * n) := by
      rw [Nat.pow_add, ← Nat.div_div_eq_div_mul, ← Nat.div_div_eq_div_mul, h]
    rw [sliceFold, sliceFold, hgroup, ih]

theorem dpaStack_lt (d : Nat) : dpaStack d < 16 := Nat.mod_lt _ (by decide)

theorem testBit_dpaOffset (d k : Nat) (hk : k < 40) : (dpaOffset d).testBit k = d.testBit k := by
  rw [dpaOffset, Nat.testBit_mod_two_pow, decide_eq_true hk, Bool.true_and]

theorem testBit_dpaOffset_of_le (d k : Nat) (hk : 40 ≤ k) : (dpaOffset d).testBit k = false := by
  rw [dpaOffset, Nat.testBit_mod_two_pow, decide_eq_false (Nat.not_lt.mpr hk), Bool.false_and]

/-- The two lowest bits of the home slice are the fold of the offset, above them stands the stack. -/
theorem testBit_homeSlice (d j : Nat) (hj : j < 2) : (homeSlice d).testBit j = (sliceFold (dpaOffset d) 16).testBit j := by
  rw [homeSlice, Nat.mul_comm, show 4 = 2 ^ 2 from rfl, Nat.testBit_two_pow_mul_add _ (sliceFold_lt _ _), if_pos hj]

/-- Bit 0 takes the odd offset bits from 9 to 39. -/
theorem testBit_homeSlice_zero (d : Nat) :
    (homeSlice d).testBit 0 = (List.range 16).foldl (fun b k => b ^^ d.testBit (9 + 2 * k)) false := by
  rw [testBit_homeSlice d 0 (by decide), testBit_sliceFold _ _ _ (by decide)]
  refine List.foldl_rel (r := Eq) rfl fun k hk b c hbc => ?_
  rw [hbc, testBit_dpaOffset d _ (by have := List.mem_range.mp hk; omega), Nat.add_zero]

/-- Bit 1 takes the even offset bits from 10 to 38: bit 39 is in a group of its own, for the offset has no bit 40. -/
theorem testBit_homeSlice_one (d : Nat) :
    (homeSlice d).testBit 1 = (List.range 15).foldl (fun b k => b ^^ d.testBit (10 + 2 * k)) false := by
  rw [testBit_homeSlice d 1 (by decide), testBit_sliceFold _ _ _ (by decide), List.range_succ, List.foldl_append,
    List.foldl_cons, List.foldl_nil, testBit_dpaOffset_of_le d _ (by decide), Bool.xor_false]
  refine List.foldl_rel (r := Eq) rfl fun k hk b c hbc => ?_
  rw [hbc, testBit_dpaOffset d _ (by have := List.mem_range.mp hk; omega), show 9 + 2 * k + 1 = 10 + 2 * k by omega]

/-- Addresses that agree from bit 9 up have one home slice. -/
theorem homeSlice_congr {d e : Nat} (h : e / 2 ^ 9 = d / 2 ^ 9) : homeSlice e = homeSlice d := by
  have hstack : dpaStack e = dpaStack d := by unfold dpaStack; omega
  have hfold : dpaOffset e / 2 ^ 9 = dpaOffset d / 2 ^ 9 := by unfold dpaOffset; omega
  rw [homeSlice, homeSlice, hstack, sliceFold_congr hfold]

/-- A granule lies within one block of 512 bytes. -/
theorem div_512_granule (g : BitVec 2) (d k : Nat) (hd : d % granSize g = 0) (hk : k < granSize g) : (d + k) / 2 ^ 9 = d / 2 ^ 9 := by
  have hsize : granSize g = 32 ∨ granSize g = 64 ∨ granSize g = 128 ∨ granSize g = 512 := by
    unfold granSize
    split <;> simp
  rcases hsize with h | h | h | h <;> rw [h] at hd hk <;> omega

/-- Settles O54: the fields by arithmetic, the two bits by the fold's, and what lies below bit 9 by congruence. -/
theorem homeSlices : Obligations.HomeSlices := by
  unfold Obligations.HomeSlices
  intro d hd
  have hfields : d = dpaModule d * 2 ^ 44 + dpaStack d * 2 ^ 40 + dpaOffset d := by
    unfold dpaModule dpaStack dpaOffset
    omega
  have hstack := dpaStack_lt d
  have hfold := sliceFold_lt (dpaOffset d) 16
  exact ⟨hfields, Nat.mod_lt _ (by decide), hstack, Nat.mod_lt _ (by decide), by unfold homeSlice; omega, by unfold homeSlice; omega,
    testBit_homeSlice_zero d, testBit_homeSlice_one d, fun _ he => homeSlice_congr he,
    fun g k hg hk => homeSlice_congr (div_512_granule g d k hg hk)⟩

end Sys2Proof.Machine
end

section
/-! The value of a form of integer arithmetic (R65, R66): the integer that a filled word holds, the exact result reduced to its
type, and the quotient. -/

namespace Sys2Proof

theorem Ty.width_le (ty : Ty) : ty.width ≤ 64 := by
  cases ty <;> decide

theorem Ty.width_pos_of_isS {ty : Ty} (h : ty.isS = true) : 0 < ty.width := by
  revert h
  cases ty <;> decide

theorem Ty.isFloat_of_isInt {ty : Ty} (h : ty.isInt = true) : ty.isFloat = false := by
  revert h
  cases ty <;> decide

end Sys2Proof

namespace Sys2Proof.Machine

open Sys2Proof

-- Words of a type -------------------------------------------------------------------------------------------------------------

/-- Filling a word keeps the low bits of the type. -/
theorem setWidth_fillWord (ty : Ty) (x : Word) : (fillWord ty x).setWidth ty.width = x.setWidth ty.width := by
  unfold fillWord
  split
  · rfl
  · split
    · ext i hi
      have hi64 : i < 64 := Nat.lt_of_lt_of_le hi (Ty.width_le ty)
      simp [BitVec.getElem_signExtend, hi, hi64]
    · rw [BitVec.setWidth_setWidth_of_le _ (Ty.width_le ty), BitVec.setWidth_eq]

/-- A filled word depends on the low bits of the type alone. -/
theorem fillWord_congr {ty : Ty} {x y : Word} (h : x.setWidth ty.width = y.setWidth ty.width) : fillWord ty x = fillWord ty y := by
  unfold fillWord
  split
  case isTrue h64 =>
    rw [eq_of_beq h64] at h
    simpa using h
  case isFalse => rw [h]

@[simp] theorem fillWord_ofInt (ty : Ty) (v : Int) : fillWord ty (ofInt ty v) = ofInt ty v :=
  fillWord_congr (setWidth_fillWord ty _)

theorem two_pow_cast_pos (n : Nat) : (0 : Int) < (2 ^ n : Nat) := Int.natCast_pos.mpr (Nat.two_pow_pos n)

theorem emod_two_pow_nonneg (v : Int) (n : Nat) : 0 ≤ v % (2 ^ n : Nat) := Int.emod_nonneg v (Int.ne_of_gt (two_pow_cast_pos n))

theorem setWidth_bitVec_ofInt {w n : Nat} (h : w ≤ n) (v : Int) : (BitVec.ofInt n v).setWidth w = BitVec.ofInt w v := by
  apply BitVec.eq_of_toNat_eq
  have hdvd : ((2 ^ w : Nat) : Int) ∣ (2 ^ n : Nat) := Int.natCast_dvd_natCast.mpr (Nat.pow_dvd_pow 2 h)
  rw [BitVec.toNat_setWidth, BitVec.toNat_ofInt, BitVec.toNat_ofInt, ← Int.emod_emod_of_dvd v hdvd,
    Int.toNat_emod (emod_two_pow_nonneg v n) (Int.le_of_lt (two_pow_cast_pos w)), Int.toNat_natCast]

/-- The low bits of an integer put into a word of the type. -/
theorem setWidth_ofInt (ty : Ty) (v : Int) : (ofInt ty v).setWidth ty.width = BitVec.ofInt ty.width v := by
  rw [ofInt, setWidth_fillWord, setWidth_bitVec_ofInt (Ty.width_le ty)]

theorem intVal_of_isS {ty : Ty} (h : ty.isS = true) (x : Word) : intVal ty x = (x.setWidth ty.width).toInt := by
  rw [intVal, if_pos h]

theorem intVal_of_not_isS {ty : Ty} (h : ty.isS = false) (x : Word) : intVal ty x = ((x.setWidth ty.width).toNat : Int) := by
  rw [intVal, h, if_neg Bool.false_ne_true]

theorem minInt_of_isS {ty : Ty} (h : ty.isS = true) : minInt ty = -2 ^ (ty.width - 1) := by
  rw [minInt, if_pos h]
  push_cast
  rfl

theorem maxInt_of_isS {ty : Ty} (h : ty.isS = true) : maxInt ty = 2 ^ (ty.width - 1) - 1 := by
  rw [maxInt, if_pos h]
  push_cast
  rfl

theorem minInt_of_not_isS {ty : Ty} (h : ty.isS = false) : minInt ty = 0 := by
  rw [minInt, h, if_neg Bool.false_ne_true]

theorem maxInt_of_not_isS {ty : Ty} (h : ty.isS = false) : maxInt ty = 2 ^ ty.width - 1 := by
  rw [maxInt, h, if_neg Bool.false_ne_true]
  push_cast
  rfl

/-- What a word of the type reads as lies in the type's range. -/
theorem intVal_mem_range (ty : Ty) (x : Word) : minInt ty ≤ intVal ty x ∧ intVal ty x ≤ maxInt ty := by
  cases h : ty.isS with
  | true =>
    rw [intVal_of_isS h, minInt_of_isS h, maxInt_of_isS h]
    exact ⟨BitVec.le_toInt _, Int.le_sub_one_of_lt BitVec.toInt_lt⟩
  | false =>
    rw [intVal_of_not_isS h, minInt_of_not_isS h, maxInt_of_not_isS h]
    exact ⟨Int.natCast_nonneg _, Int.le_sub_one_of_lt (by exact_mod_cast BitVec.isLt _)⟩

theorem minInt_le_maxInt (ty : Ty) : minInt ty ≤ maxInt ty :=
  Int.le_trans (intVal_mem_range ty 0).1 (intVal_mem_range ty 0).2

theorem intVal_ofInt_of_isS {ty : Ty} (h : ty.isS = true) (v : Int) : intVal ty (ofInt ty v) = v.bmod (2 ^ ty.width) := by
  rw [intVal_of_isS h, setWidth_ofInt, BitVec.toInt_ofInt]

theorem intVal_ofInt_of_not_isS {ty : Ty} (h : ty.isS = false) (v : Int) : intVal ty (ofInt ty v) = v % (2 ^ ty.width : Nat) := by
  rw [intVal_of_not_isS h, setWidth_ofInt, BitVec.toNat_ofInt, Int.toNat_of_nonneg (emod_two_pow_nonneg v _)]

/-- An integer in the type's range is what its word reads as. -/
theorem intVal_ofInt {ty : Ty} {v : Int} (hlo : minInt ty ≤ v) (hhi : v ≤ maxInt ty) : intVal ty (ofInt ty v) = v := by
  cases h : ty.isS with
  | true =>
    rw [minInt_of_isS h] at hlo
    rw [maxInt_of_isS h] at hhi
    rw [intVal_of_isS h, setWidth_ofInt]
    exact BitVec.toInt_ofInt_eq_self (Ty.width_pos_of_isS h) hlo (Int.lt_of_le_sub_one hhi)
  | false =>
    rw [minInt_of_not_isS h] at hlo
    rw [maxInt_of_not_isS h] at hhi
    rw [intVal_ofInt_of_not_isS h]
    exact Int.emod_eq_of_lt hlo (by push_cast; exact Int.lt_of_le_sub_one hhi)

-- The exact result reduced ------------------------------------------------------------------------------------------------------

/-- Keeping the low bits of an integer subtracts a multiple of 2^n. -/
theorem eq_intVal_ofInt_add (ty : Ty) (v : Int) : ∃ q : Int, v = intVal ty (ofInt ty v) + q * (2 ^ ty.width : Nat) := by
  cases h : ty.isS with
  | true => exact ⟨_, by rw [intVal_ofInt_of_isS h, Int.bmod_add_bdiv']⟩
  | false => exact ⟨v / (2 ^ ty.width : Nat), by rw [intVal_ofInt_of_not_isS h, Int.emod_add_ediv_mul]⟩

theorem clampInt_eq (ty : Ty) (v : Int) : clampInt ty v = max (minInt ty) (min (maxInt ty) v) := by
  have := minInt_le_maxInt ty
  unfold clampInt
  split
  · omega
  · split <;> omega

/-- An exact result is reduced to its type: wrapped by a plain form, clamped by a `.sat` form. -/
theorem reduced_intResult (ty : Ty) (sat : Bool) (v : Int) : Reduced ty sat v (intResult ty sat v).1 := by
  cases sat with
  | false => exact ⟨fillWord_ofInt ty v, eq_intVal_ofInt_add ty v⟩
  | true =>
    refine ⟨fillWord_ofInt ty _, ?_⟩
    have := minInt_le_maxInt ty
    rw [if_pos rfl, ← clampInt_eq]
    exact intVal_ofInt (by rw [clampInt_eq]; omega) (by rw [clampInt_eq]; omega)

theorem addVal_of_isInt {ty : Ty} (h : ty.isInt = true) (sat : Bool) :
    addVal ty sat = fun x y => intResult ty sat (intVal ty x + intVal ty y) := by
  funext x y
  rw [addVal, Ty.isFloat_of_isInt h, if_neg Bool.false_ne_true]

theorem subVal_of_isInt {ty : Ty} (h : ty.isInt = true) (sat : Bool) :
    subVal ty sat = fun x y => intResult ty sat (intVal ty x - intVal ty y) := by
  funext x y
  rw [subVal, Ty.isFloat_of_isInt h, if_neg Bool.false_ne_true]

theorem mulVal_low_of_isInt {ty : Ty} (h : ty.isInt = true) :
    mulVal .low ty = fun x y => intResult ty false (intVal ty x * intVal ty y) := by
  funext x y
  rw [mulVal, Ty.isFloat_of_isInt h, if_neg Bool.false_ne_true]

theorem mulVal_sat_of_isInt {ty : Ty} (h : ty.isInt = true) :
    mulVal .sat ty = fun x y => intResult ty true (intVal ty x * intVal ty y) := by
  funext x y
  rw [mulVal, Ty.isFloat_of_isInt h, if_neg Bool.false_ne_true]

theorem fmaVal_of_isInt {ty : Ty} (h : ty.isInt = true) :
    fmaVal ty = fun x y z => intResult ty false (intVal ty x * intVal ty y + intVal ty z) := by
  funext x y z
  rw [fmaVal, Ty.isFloat_of_isInt h, if_neg Bool.false_ne_true]
  rfl

/-- The shared form of two register operands, where the operation is an integer one. -/
theorem aluTwo_exact {ty : Ty} {sat : Bool} {f : Word → Word → Word × Flags} {op : Int → Int → Int} (g : Guard) (d a b : Reg) (s : State)
    (hf : f = fun x y => intResult ty sat (op (intVal ty x) (intVal ty y))) :
    aluTwo g ty d a b s f = aluFixed g d ty.wide (vHighs [(ty.wide, d), (ty.wide, a), (ty.wide, b)]) s
      fun v t => intResult ty sat ((exactTwo ty d a b sat op).val v s.tick t) := by
  rw [hf]
  rfl

/-- The same with an immediate: no such form clamps. -/
theorem aluImm_exact {ty : Ty} {f : Word → Word → Word × Flags} {op : Int → Int → Int} (g : Guard) (d a : Reg) (imm : BitVec 21) (s : State)
    (hf : f = fun x y => intResult ty false (op (intVal ty x) (intVal ty y))) :
    aluImm g ty d a imm s f = aluFixed g d ty.wide (vHighs [(ty.wide, d), (ty.wide, a)]) s
      fun v t => intResult ty false ((exactImm ty d a imm op).val v s.tick t) := by
  rw [hf]
  rfl

/-- A form of integer arithmetic is the shared form of class 0 with its exact integer reduced to its type. -/
theorem exec_exactForm {i : Instr} {k : ExactForm} (h : exactForm i = some k) (hint : k.ty.isInt = true) :
    ∃ g vregs, checks i = some (plainMeta g (!k.d.isS) vregs)
      ∧ ∀ s, exec i s = aluFixed g k.d k.ty.wide vregs s fun v t => intResult k.ty k.sat (k.val v s.tick t) := by
  unfold exactForm at h
  split at h <;> cases h
  next g sat ty d a b => exact ⟨g, _, rfl, fun s => aluTwo_exact g d a b s (addVal_of_isInt hint sat)⟩
  next g sat ty d a b => exact ⟨g, _, rfl, fun s => aluTwo_exact g d a b s (subVal_of_isInt hint sat)⟩
  next g ty d a b => exact ⟨g, _, rfl, fun s => aluTwo_exact g d a b s (mulVal_low_of_isInt hint)⟩
  next g ty d a b => exact ⟨g, _, rfl, fun s => aluTwo_exact g d a b s (mulVal_sat_of_isInt hint)⟩
  next g ty d a imm => exact ⟨g, _, rfl, fun s => aluImm_exact g d a imm s (addVal_of_isInt hint false)⟩
  next g ty d a imm => exact ⟨g, _, rfl, fun s => aluImm_exact g d a imm s (subVal_of_isInt hint false)⟩
  next g ty d a imm => exact ⟨g, _, rfl, fun s => aluImm_exact g d a imm s (mulVal_low_of_isInt hint)⟩
  next g ty d a b c =>
    refine ⟨g, _, rfl, fun s => ?_⟩
    show execVfma g ty d a b c s = _
    rw [execVfma, fmaVal_of_isInt hint]

-- The quotient ------------------------------------------------------------------------------------------------------------------

theorem divVal_of_isInt {ty : Ty} (h : ty.isInt = true) (x y : Word) :
    divVal ty x y = (ofInt ty (divInt ty (intVal ty x) (intVal ty y)), 0) := by
  rw [divVal, Ty.isFloat_of_isInt h, if_neg Bool.false_ne_true]

/-- A zero divisor gives all ones. -/
theorem intVal_divInt_zero (ty : Ty) (x : Int) :
    intVal ty (ofInt ty (divInt ty x 0)) = if ty.isS then -1 else (2 ^ ty.width : Int) - 1 := by
  rw [divInt, if_pos rfl]
  cases h : ty.isS with
  | true =>
    have hpos : (0 : Int) < 2 ^ (ty.width - 1) := Int.pow_pos (by decide)
    rw [if_pos rfl]
    exact intVal_ofInt (by rw [minInt_of_isS h]; omega) (by rw [maxInt_of_isS h]; omega)
  | false =>
    rw [if_neg Bool.false_ne_true, if_neg Bool.false_ne_true, intVal_ofInt (minInt_le_maxInt ty) (Int.le_refl _), maxInt_of_not_isS h]

/-- The least value divided by -1 wraps to the least value: the exact quotient lies 2^n above it. -/
theorem intVal_divInt_least {ty : Ty} (h : ty.isS = true) :
    intVal ty (ofInt ty (divInt ty (-2 ^ (ty.width - 1)) (-1))) = -2 ^ (ty.width - 1) := by
  have hquot : (-2 ^ (ty.width - 1) : Int).tdiv (-1) = -2 ^ (ty.width - 1) + (2 ^ ty.width : Nat) := by
    rw [Int.tdiv_neg, Int.tdiv_one, ← Nat.two_pow_pred_mul_two (Ty.width_pos_of_isS h)]
    push_cast
    omega
  rw [divInt, if_neg (by decide), hquot, intVal_ofInt_of_isS h, Int.add_bmod_right, ← intVal_ofInt_of_isS h, ← minInt_of_isS h]
  exact intVal_ofInt (Int.le_refl _) (minInt_le_maxInt ty)

/-- A signed quotient that does not overflow lies in the type's range. -/
theorem intVal_ofInt_tdiv_of_isS {ty : Ty} (hs : ty.isS = true) (x y : Word)
    (h : ¬ (intVal ty x = -2 ^ (ty.width - 1) ∧ intVal ty y = -1)) :
    intVal ty (ofInt ty ((intVal ty x).tdiv (intVal ty y))) = (intVal ty x).tdiv (intVal ty y) := by
  have hw := Ty.width_pos_of_isS hs
  simp only [intVal_of_isS hs x, intVal_of_isS hs y] at h ⊢
  rw [intVal_ofInt_of_isS hs, ← BitVec.toInt_sdiv]
  refine BitVec.toInt_sdiv_of_ne_or_ne _ _ (Classical.not_and_iff_not_or_not.mp fun ⟨hx, hy⟩ => h ⟨?_, ?_⟩)
  · rw [hx, BitVec.toInt_intMin_of_pos hw]
  · rw [hy, BitVec.neg_one_eq_allOnes, BitVec.toInt_allOnes, if_pos hw]

/-- An unsigned quotient lies in the type's range. -/
theorem intVal_ofInt_tdiv_of_not_isS {ty : Ty} (hs : ty.isS = false) (x y : Word) :
    intVal ty (ofInt ty ((intVal ty x).tdiv (intVal ty y))) = (intVal ty x).tdiv (intVal ty y) := by
  obtain ⟨hx0, hx⟩ := intVal_mem_range ty x
  have hy0 := (intVal_mem_range ty y).1
  rw [minInt_of_not_isS hs] at hx0 hy0
  have hlo : minInt ty ≤ (intVal ty x).tdiv (intVal ty y) := Int.le_trans (Int.le_of_eq (minInt_of_not_isS hs)) (Int.tdiv_nonneg hx0 hy0)
  exact intVal_ofInt hlo (Int.le_trans (Int.tdiv_le_self _ hx0) hx)

/-- Every quotient but those two is the exact one, truncated toward zero. -/
theorem intVal_divInt {ty : Ty} (x y : Word) (hy : intVal ty y ≠ 0)
    (h : ¬ (intVal ty x = -2 ^ (ty.width - 1) ∧ intVal ty y = -1)) :
    intVal ty (ofInt ty (divInt ty (intVal ty x) (intVal ty y))) = (intVal ty x).tdiv (intVal ty y) := by
  rw [divInt, if_neg hy]
  cases hs : ty.isS with
  | true => exact intVal_ofInt_tdiv_of_isS hs x y h
  | false => exact intVal_ofInt_tdiv_of_not_isS hs x y

/-- An unsigned type reads no word as negative. -/
theorem isS_of_intVal_neg {ty : Ty} {x : Word} (h : intVal ty x < 0) : ty.isS = true := by
  cases hs : ty.isS with
  | true => rfl
  | false =>
    rw [intVal_of_not_isS hs] at h
    exact absurd h (Int.not_lt.mpr (Int.natCast_nonneg _))

/-- Settles O53: each fixed-latency form is the shared form of class 0 with its exact integer reduced, and a division issues with
its quotient reduced. -/
theorem integerValues : Obligations.IntegerValues := by
  unfold Obligations.IntegerValues
  refine ⟨fun i k m s v hk hint hm hA => ?_, fun g fl ty d a b m s v hint hm hA => ?_⟩
  · obtain ⟨g, vregs, hc, hexec⟩ := exec_exactForm hk hint
    obtain rfl : plainMeta g (!k.d.isS) vregs = m := Option.some.inj (hc.symm.trans hm)
    obtain ⟨wv, hnext, hwrote, -⟩ := aluFixed_spec g k.d k.ty.wide vregs s v (fun v t => intResult k.ty k.sat (k.val v s.tick t)) hA
    exact ⟨wv, _, (hexec s).trans hnext, hwrote, fun t _ => reduced_intResult k.ty k.sat _⟩
  · obtain rfl := Option.some.inj hm
    obtain ⟨wv, vals, flags, hnext, hissued, hvals, hflags⟩ := aluLong_spec g fl ty d _ s v
      (fun v t => divVal ty (v.src s.tick ty a t) (v.src s.tick ty b t)) hA
    simp only [divVal_of_isInt hint] at hvals hflags
    obtain rfl : flags = 0 := BitVec.eq_of_getLsbD_eq fun b _ => Bool.eq_iff_iff.mpr ((hflags b).trans (by simp))
    refine ⟨wv, vals, hnext, hissued, fun t x y r ht hx hy hr => ?_⟩
    obtain rfl := hr.trans (hvals t ht)
    subst hx hy
    refine ⟨fillWord_ofInt ty _, fun hzero => ?_, fun hleast hneg => ?_, intVal_divInt _ _⟩
    · rw [hzero, intVal_divInt_zero]
    · have hs := isS_of_intVal_neg (Int.lt_of_le_of_lt (Int.le_of_eq hneg) (by decide))
      rw [hleast, hneg, intVal_divInt_least hs]

end Sys2Proof.Machine
end
